-- ==== Sys2Proof/Word.lean ====
section
/-! DEFINITION. The word types of the DSP control block (R14): a byte, a 32-bit word, a 128-bit descriptor. -/

namespace Sys2Proof

/-- A `u8` (R14). -/
abbrev Byte := BitVec 8

/-- A `u32` (R14); an `i32` is the same 32 bits read as two's complement. -/
abbrev Word := BitVec 32

/-- One command descriptor as it stands on the command port: `W3 ++ W2 ++ W1 ++ W0` (R90). -/
abbrev Desc := BitVec 128

end Sys2Proof
end

