-- ==== Sys2Proof/Machine/Bytes.lean ====
section
/-! DEFINITION. Byte order and bit-field helpers: little-endian in every space (R62), one order for the whole model. -/

namespace Sys2Proof.Machine

/-- Byte `i` of a word, bits `8i+7 : 8i` (R16, R62). -/
def wordByte (w : Word) (i : Nat) : Byte := w.extractLsb' (8 * i) 8

/-- The word whose byte at the lowest address is `b0` (R62). -/
def wordOf (b0 b1 b2 b3 : Byte) : Word := b3 ++ b2 ++ b1 ++ b0

/-- `w` with byte `i` replaced (an environment's byte write, R253; `i < 4`). -/
def wordSetByte (w : Word) (i : Nat) (b : Byte) : Word :=
  wordOf (if i = 0 then b else wordByte w 0) (if i = 1 then b else wordByte w 1)
    (if i = 2 then b else wordByte w 2) (if i = 3 then b else wordByte w 3)

/-- The merge of `Update32`: `(old & ~mask) | (val & mask)` (R16). -/
def merged (old mask val : Word) : Word := (old &&& ~~~mask) ||| (val &&& mask)

/-- A flag of a register: some bit of its mask is set (R18 (e)). -/
def flagOf (w mask : Word) : Bool := w &&& mask != 0

/-- R18 (d): `as_i32(w) < 0`, true exactly when bit 31 is 1. -/
def isNegative (w : Word) : Bool := w.getLsbD 31

end Sys2Proof.Machine
end

