-- ==== Sys2Proof/Syntax.lean ====
section
/-! DEFINITION. The operations of the block as syntax: the regions, the executing agents, and one constructor for each of
the eighteen rows of spec/opcode_table.json (R93), with the operands of R94. -/

namespace Sys2Proof

/-- The two mapped regions: `RGN_DSP = 0` and `RGN_COMP = 1` (R10). -/
inductive Region where
  | dsp
  | comp
deriving DecidableEq, Repr

/-- The three agents that execute operations (R250): host, interrupt, worker. -/
inductive Agent where
  | host
  | irq
  | worker
deriving DecidableEq, Repr

/-- The operations (R93), with the operands that R94 gives each; operands are whole unsigned words (R95). -/
inductive Instr where
  /-- `READ32 rgn, off` (R111). -/
  | read32 (rgn : Region) (off : Word)
  /-- `WRITE32 rgn, off, val` (R112). -/
  | write32 (rgn : Region) (off val : Word)
  /-- `READ64 rgn, off` (R113). -/
  | read64 (rgn : Region) (off : Word)
  /-- `WRITE64 rgn, off, val64`, the value as its low and high halves (R114). -/
  | write64 (rgn : Region) (off lo hi : Word)
  /-- `BLKRD rgn, off, haddr, len` (R115). -/
  | blkrd (rgn : Region) (off haddr len : Word)
  /-- `BLKWR rgn, off, haddr, len` (R116). -/
  | blkwr (rgn : Region) (off haddr len : Word)
  /-- `ENTER_D0` (R131). -/
  | enterD0
  /-- `RESET` (R132). -/
  | reset
  /-- `RUN` (R133). -/
  | run
  /-- `MBOXWR boxoff, haddr, size` (R161). -/
  | mboxwr (boxoff haddr size : Word)
  /-- `MBOXRD boxoff, haddr, size` (R162). -/
  | mboxrd (boxoff haddr size : Word)
  /-- `SENDMSG haddr, size` (R163). -/
  | sendmsg (haddr size : Word)
  /-- `GETREPLY haddr, expect` (R164). -/
  | getreply (haddr expect : Word)
  /-- `IRQIMM`, the immediate stage (R183). -/
  | irqimm
  /-- `IRQDEFER`, the deferred stage (R189). -/
  | irqdefer
  /-- `CMDDONE`, command-done (R195). -/
  | cmddone
  /-- `FWREADY`, the firmware-ready handshake (R212). -/
  | fwready
  /-- `PANICCAP off, cmdo, cmdi`, the panic capture (R220). -/
  | paniccap (off cmdo cmdi : Word)
deriving DecidableEq, Repr

end Sys2Proof
end

