-- ==== Sys2Proof/Decode.lean ====
section
/-! DEFINITION. The decoder of command descriptors (R90 to R97, R104), total on any bytes, and the encoder. -/

namespace Sys2Proof

open Sys2Proof.Machine (wordOf wordByte)

/-- Why a descriptor is illegal (R96), or no descriptor. -/
inductive DecodeError where
  /-- Fewer than sixteen bytes (R104). -/
  | truncated
  /-- R96 (1): a bit of `W0[31:9]` is set. -/
  | reservedBits
  /-- R96 (2): `W0[7:0]` is not in the opcode map. -/
  | unassigned
  /-- R96 (3): `W0[8]` is set and the operation is not one of the six access operations. -/
  | regionBit
deriving DecidableEq, Repr

/-- Word `k` of a descriptor, `W0` in bits 31:0 (R90). -/
def descWord (d : Desc) (k : Nat) : Word := d.extractLsb' (32 * k) 32

/-- The descriptor with these four words (R90). -/
def descOf (w0 w1 w2 w3 : Word) : Desc := w3 ++ w2 ++ w1 ++ w0

/-- The four bytes of a word, lowest address first (R62). -/
def wordBytes (w : Word) : List Byte := [wordByte w 0, wordByte w 1, wordByte w 2, wordByte w 3]

/-- The sixteen bytes of a descriptor as it is stored (R104). -/
def descBytes (d : Desc) : List Byte :=
  wordBytes (descWord d 0) ++ wordBytes (descWord d 1) ++ wordBytes (descWord d 2) ++ wordBytes (descWord d 3)

/-- `W0[8]` (R91). -/
def regionOf (w0 : Word) : Region := if w0.getLsbD 8 then .comp else .dsp

/-- R96 (3): an operation without a region operand whose `W0[8]` is clear. -/
def plainOp (w0 : Word) (i : Instr) : Except DecodeError Instr :=
  if w0.getLsbD 8 then .error .regionBit else .ok i

/-- R96 (2) to (4): the operation that `W0[7:0]` names, with the operands of R94 (`W1 = OFF`, `W2 = A`, `W3 = B`, R92). -/
def decodeOpcode (w0 off a b : Word) : Except DecodeError Instr :=
  match (w0.extractLsb' 0 8).toNat with
  | 0x01 => .ok (.read32 (regionOf w0) off)
  | 0x02 => .ok (.write32 (regionOf w0) off a)
  | 0x03 => .ok (.read64 (regionOf w0) off)
  | 0x04 => .ok (.write64 (regionOf w0) off a b)
  | 0x05 => .ok (.blkrd (regionOf w0) off a b)
  | 0x06 => .ok (.blkwr (regionOf w0) off a b)
  | 0x10 => plainOp w0 .enterD0
  | 0x11 => plainOp w0 .reset
  | 0x12 => plainOp w0 .run
  | 0x20 => plainOp w0 (.mboxwr off a b)
  | 0x21 => plainOp w0 (.mboxrd off a b)
  | 0x22 => plainOp w0 (.sendmsg a b)
  | 0x23 => plainOp w0 (.getreply a b)
  | 0x30 => plainOp w0 .irqimm
  | 0x31 => plainOp w0 .irqdefer
  | 0x32 => plainOp w0 .cmddone
  | 0x40 => plainOp w0 .fwready
  | 0x41 => plainOp w0 (.paniccap off a b)
  | _ => .error .unassigned

/-- R96: every 128-bit value is one operation or illegal. -/
def decodeDesc (d : Desc) : Except DecodeError Instr :=
  if (descWord d 0).extractLsb' 9 23 != 0 then .error .reservedBits
  else decodeOpcode (descWord d 0) (descWord d 1) (descWord d 2) (descWord d 3)

/-- The decoder on bytes (R104): one operation and the bytes after it. -/
def decode : List Byte → Except DecodeError (Instr × List Byte)
  | b0 :: b1 :: b2 :: b3 :: b4 :: b5 :: b6 :: b7 :: b8 :: b9 :: b10 :: b11 :: b12 :: b13 :: b14 :: b15 :: rest =>
    match decodeDesc (descOf (wordOf b0 b1 b2 b3) (wordOf b4 b5 b6 b7) (wordOf b8 b9 b10 b11)
        (wordOf b12 b13 b14 b15)) with
    | .ok i => .ok (i, rest)
    | .error e => .error e
  | _ => .error .truncated

/-- The operation the decoder reads from a table row's bits: the bits above `nbits` are 0, and the descriptor's sixteen
bytes are laid out as R104 says. -/
def decodeTableWord (nbits w : Nat) : Option Instr :=
  match decode (descBytes (BitVec.ofNat 128 (w % 2 ^ nbits))) with
  | .ok (i, _) => some i
  | .error _ => none

/-- The operation codes (R93). -/
def Instr.opcode : Instr → Word
  | .read32 _ _ => 0x01
  | .write32 _ _ _ => 0x02
  | .read64 _ _ => 0x03
  | .write64 _ _ _ _ => 0x04
  | .blkrd _ _ _ _ => 0x05
  | .blkwr _ _ _ _ => 0x06
  | .enterD0 => 0x10
  | .reset => 0x11
  | .run => 0x12
  | .mboxwr _ _ _ => 0x20
  | .mboxrd _ _ _ => 0x21
  | .sendmsg _ _ => 0x22
  | .getreply _ _ => 0x23
  | .irqimm => 0x30
  | .irqdefer => 0x31
  | .cmddone => 0x32
  | .fwready => 0x40
  | .paniccap _ _ _ => 0x41

/-- The `RGN` bit in its place, bit 8 (R91). -/
def regionBit : Region → Word
  | .dsp => 0
  | .comp => 0x100

/-- The descriptor of an operation, the words it does not use 0 (R92, R94). -/
def encode (i : Instr) : Desc :=
  match i with
  | .read32 r off => descOf (i.opcode ||| regionBit r) off 0 0
  | .write32 r off v => descOf (i.opcode ||| regionBit r) off v 0
  | .read64 r off => descOf (i.opcode ||| regionBit r) off 0 0
  | .write64 r off lo hi => descOf (i.opcode ||| regionBit r) off lo hi
  | .blkrd r off haddr len => descOf (i.opcode ||| regionBit r) off haddr len
  | .blkwr r off haddr len => descOf (i.opcode ||| regionBit r) off haddr len
  | .mboxwr b h n => descOf i.opcode b h n
  | .mboxrd b h n => descOf i.opcode b h n
  | .sendmsg h n => descOf i.opcode 0 h n
  | .getreply h n => descOf i.opcode 0 h n
  | .paniccap off o n => descOf i.opcode off o n
  | .enterD0 | .reset | .run | .irqimm | .irqdefer | .cmddone | .fwready => descOf i.opcode 0 0 0

/-- The bytes of an operation's descriptor (R104). -/
def encodeBytes (i : Instr) : List Byte := descBytes (encode i)

end Sys2Proof
end

