-- ==== Sys2Proof/Config.lean ====
section
/-! DEFINITION. The configuration record `CFG` (R8 to R12) as plain data, the configuration `CFG_TEST` that the
spec offers as an example (GK12), and the free values the machine draws (R17). Its well-formedness (R13) is in
Machine/CfgCheck.lean. -/

namespace Sys2Proof

/-- R8: the reset hold, in milliseconds. -/
def tHold : Nat := 10
/-- R8: the poll interval, in milliseconds. -/
def tPoll : Nat := 20
/-- R8: the poll count. -/
def nPoll : Nat := 10
/-- R10: the size of host memory, `2^HADDR_BITS` bytes with `HADDR_BITS = 32`. -/
def hostSize : Nat := 2 ^ 32

/-- A box descriptor: a window inside `RGN[0]` (R23). The offset is from the start of the region. -/
structure Box where
  off : Nat
  size : Nat
deriving DecidableEq, Repr

/-- A step descriptor `(rgn, off, mask, val)` (R11). -/
structure StepDesc where
  rgn : Region
  off : Nat
  mask : Word
  val : Word
deriving DecidableEq, Repr

/-- The status-field descriptor `PM_STS = (rgn, off, mask)` (R11, R44). -/
structure FieldDesc where
  rgn : Region
  off : Nat
  mask : Word
deriving DecidableEq, Repr

/-- The names of the diagnostic regions: the seven of `DIAG_TABLE` (R71) and the four a window registers (R213). -/
inductive DiagName where
  | dmac0 | dmac1 | ssp0 | ssp1 | iram | dram | shim
  | trace | debug | regs | exception
deriving DecidableEq, Repr

/-- One `(name, rgn, off, size)` tuple of the inspection surface (R24, R71). -/
structure DiagEntry where
  name : DiagName
  rgn : Region
  off : Nat
  size : Nat
deriving DecidableEq, Repr

/-- `PANIC_OFFSET_OF : u32 x u32 -> u32` (R12, R191) as plain data: an expression over the two command words. With `ite`
every total function of two words is the value of some expression. (log 4) -/
inductive PanicExpr where
  | lit (w : Word)
  | cmdi
  | cmdo
  | and (a b : PanicExpr)
  | or (a b : PanicExpr)
  | xor (a b : PanicExpr)
  | add (a b : PanicExpr)
  | shl (a : PanicExpr) (n : Nat)
  | shr (a : PanicExpr) (n : Nat)
  /-- `ite a b t e`: the value of `t` where `a` and `b` are equal, else the value of `e`. -/
  | ite (a b t e : PanicExpr)
deriving DecidableEq, Repr

/-- `WIN_TABLE_OF` (R211) as plain data: the owner's answer `(win_off, win_count)` for the offsets listed, and for any
other offset `x` the answer `(x + delta, count)`. (log 4) -/
structure WinTable where
  rows : List (Nat × Nat × Nat)
  delta : Nat
  count : Nat
deriving DecidableEq, Repr

/-- `FWR_LAYOUT` (R211), without `WIN_TABLE_OF`. -/
structure FwrLayout where
  size : Nat
  verAt : Nat
  verLen : Nat
  hbOffAt : Nat
  hbSizeAt : Nat
  dbOffAt : Nat
  dbSizeAt : Nat
  elemSize : Nat
  typeAt : Nat
  offAt : Nat
  sizeAt : Nat
deriving DecidableEq, Repr

/-- The configuration record `CFG`: every parameter of R10 to R12. -/
structure Cfg where
  /-- `DSP_SIZE`. -/
  dspSize : Nat
  /-- `COMP_SIZE`. -/
  compSize : Nat
  csrOff : Nat
  isrOff : Nat
  imrhOff : Nat
  imrdOff : Nat
  cmdoOff : Nat
  cmdiOff : Nat
  dmamodeOff : Nat
  scr0Off : Nat
  scr1Off : Nat
  csrRst : Word
  csrStall : Word
  isrDone : Word
  isrBusy : Word
  imrhDone : Word
  imrhBusy : Word
  imrdDone : Word
  imrdBusy : Word
  cmdoBusy : Word
  cmdoDone : Word
  cmdiBusy : Word
  cmdiDone : Word
  dmamodeOpp : Word
  panicMask : Word
  panicMagic : Word
  stGateOff : StepDesc
  stPdOff : StepDesc
  stD0Req : StepDesc
  stClkSel : StepDesc
  stCgPolicy : StepDesc
  stPgDefault : StepDesc
  stQuirkOff : StepDesc
  pmSts : FieldDesc
  mboxBase : Nat
  /-- How many bytes from `MBOX_BASE` on are the mailbox area. R72 gives its start and no end; the length is the model's
  parameter (DESIGN CHOICE, log 10). -/
  mboxSize : Nat
  bootOut : Box
  bootIn : Box
  rhSize : Nat
  rhSizeOff : Nat
  rhErrOff : Nat
  fwrOff : Nat
  fwr : FwrLayout
  winTableOf : WinTable
  wtInbox : Word
  wtOutbox : Word
  wtTrace : Word
  wtDebug : Word
  wtStream : Word
  wtRegs : Word
  wtException : Word
  xoopsSize : Nat
  stackWords : Nat
  panicOffsetOf : PanicExpr
  diagTable : List DiagEntry
deriving DecidableEq, Repr

/-- The byte size of a region (R10). -/
def Cfg.regionSize (c : Cfg) : Region → Nat
  | .dsp => c.dspSize
  | .comp => c.compSize

/-- `CFG_TEST` of GK12 (93_implementation_defined.md): the one concrete configuration the spec offers, with the length of the
mailbox area from GK4. PRESUMED, log 3. GK12 leaves the number of window elements, `n_win`, to each test vector; it is 0 here,
so that the table of `WIN_TABLE_OF(x) = (x, n_win)` is empty: DESIGN CHOICE, log 4. -/
def Cfg.test : Cfg where
  dspSize := 0x100000
  compSize := 0x100
  csrOff := 0xFB000
  isrOff := 0xFB018
  imrhOff := 0xFB028
  imrdOff := 0xFB030
  cmdoOff := 0xFB038
  cmdiOff := 0xFB040
  dmamodeOff := 0xFB0E8
  scr0Off := 0xFB0E0
  scr1Off := 0xFB0E4
  csrRst := 0x2
  csrStall := 0x400
  isrDone := 0x1
  isrBusy := 0x2
  imrhDone := 0x1
  imrhBusy := 0x2
  imrdDone := 0x1
  imrdBusy := 0x2
  cmdoBusy := 0x80000000
  cmdoDone := 0x40000000
  cmdiBusy := 0x80000000
  cmdiDone := 0x40000000
  dmamodeOpp := 0xF0F
  panicMask := 0x0FFFF000
  panicMagic := 0x0DEAD000
  stGateOff := ⟨.comp, 0xA8, 0x2, 0⟩
  stPdOff := ⟨.comp, 0xA0, 0x1, 0x1⟩
  stD0Req := ⟨.comp, 0x84, 0x3, 0⟩
  stClkSel := ⟨.dsp, 0xFB000, 0x70, 0x40⟩
  stCgPolicy := ⟨.comp, 0xA8, 0x400, 0x400⟩
  stPgDefault := ⟨.comp, 0xA0, 0x1, 0⟩
  stQuirkOff := ⟨.dsp, 0xFB080, 0x4, 0x4⟩
  pmSts := ⟨.comp, 0x84, 0x3⟩
  mboxBase := 0x9E000
  mboxSize := 0x1000
  bootOut := ⟨0x9E000, 0x400⟩
  bootIn := ⟨0x9E400, 0x400⟩
  rhSize := 8
  rhSizeOff := 0
  rhErrOff := 4
  fwrOff := 0
  fwr := { size := 32, verAt := 0, verLen := 16, hbOffAt := 16, hbSizeAt := 20, dbOffAt := 24, dbSizeAt := 28,
           elemSize := 12, typeAt := 0, offAt := 4, sizeAt := 8 }
  winTableOf := { rows := [], delta := 0, count := 0 }
  wtInbox := 0
  wtOutbox := 1
  wtTrace := 2
  wtDebug := 3
  wtStream := 4
  wtRegs := 5
  wtException := 6
  xoopsSize := 64
  stackWords := 32
  panicOffsetOf := .add (.lit 0x9E000) (.and .cmdo (.lit 0xFFFF))
  diagTable :=
    [⟨.dmac0, .dsp, 0xFE000, 0x420⟩, ⟨.dmac1, .dsp, 0xFF000, 0x420⟩, ⟨.ssp0, .dsp, 0xFC000, 0x100⟩,
     ⟨.ssp1, .dsp, 0xFD000, 0x100⟩, ⟨.iram, .dsp, 0xA0000, 0x50000⟩, ⟨.dram, .dsp, 0, 0xA0000⟩,
     ⟨.shim, .dsp, 0xFB000, 0x100⟩]

/-- `Draw(32)` (R17): the `n`-th free value of a run. It has no body, so no statement can rest on a value of it (log 12). -/
opaque Config.draw : Nat → Word

end Sys2Proof
end

