-- ==== Sys2Proof/Machine/CfgCheck.lean ====
section
/-! DEFINITION. When a configuration is well formed (R13); the machine refuses one that is not. -/

namespace Sys2Proof

/-- The nine register offsets of R11. -/
def Cfg.offsets (c : Cfg) : List Nat :=
  [c.csrOff, c.isrOff, c.imrhOff, c.imrdOff, c.cmdoOff, c.cmdiOff, c.dmamodeOff, c.scr0Off, c.scr1Off]

/-- The seven step descriptors of R11. -/
def Cfg.stepDescs (c : Cfg) : List StepDesc :=
  [c.stGateOff, c.stPdOff, c.stD0Req, c.stClkSel, c.stCgPolicy, c.stPgDefault, c.stQuirkOff]

/-- R13 (a): a 4-aligned offset of a whole word inside a region of `size` bytes. -/
def wordFits (size off : Nat) : Bool := off % 4 == 0 && off + 4 ≤ size

/-- Exactly one bit of the word is set (R13 (c)). -/
def oneBit (w : Word) : Bool := w != 0 && w &&& (w - 1) == 0

/-- The elements of the list are pairwise distinct. -/
def allDistinct {α : Type} [DecidableEq α] : List α → Bool
  | [] => true
  | x :: xs => !xs.contains x && allDistinct xs

/-- R10: a region's size is a non-zero multiple of 4 and at most `2^32`. -/
def sizeOk (n : Nat) : Bool := n != 0 && n % 4 == 0 && n ≤ 2 ^ 32

/-- R13 (c): each of two masks of one register has exactly one bit, and they differ. -/
def twoBits (a b : Word) : Bool := oneBit a && oneBit b && a != b

/-- R13 (f) and (a) of one step descriptor. -/
def Cfg.stepOk (c : Cfg) (d : StepDesc) : Bool :=
  d.val &&& ~~~d.mask == 0 && wordFits (c.regionSize d.rgn) d.off

/-- R13 (i) of one bootstrap box. -/
def Cfg.boxOk (c : Cfg) (b : Box) : Bool := b.off % 4 == 0 && b.off + b.size ≤ c.dspSize

/-- R13 (k): the offset does not lie inside the box. -/
def outside (b : Box) (off : Nat) : Bool := off < b.off || b.off + b.size ≤ off

/-- R211: the order constraint on the fixed-format part, and what the listing indexes in the element. -/
def FwrLayout.ok (l : FwrLayout) : Bool :=
  [l.hbOffAt, l.hbSizeAt, l.dbOffAt, l.dbSizeAt].all (fun a => l.verAt + l.verLen ≤ a && a + 4 ≤ l.size) &&
  [l.typeAt, l.offAt, l.sizeAt].all (fun a => a + 4 ≤ l.elemSize)

/-- The seven names of R71. -/
def diagNames : List DiagName := [.dmac0, .dmac1, .ssp0, .ssp1, .iram, .dram, .shim]

/-- R71: seven ranges, one under each of the seven names, each inside its region. -/
def Cfg.diagOk (c : Cfg) : Bool :=
  c.diagTable.length == 7 && diagNames.all (fun n => c.diagTable.any (fun d => d.name == n)) &&
    c.diagTable.all (fun d => d.off + d.size ≤ c.regionSize d.rgn)

/-- R13: the configuration is well formed; clauses (a) to (k) in order, with R10's sizes before them and R71's and
R211's constraints after them (log 21). -/
def Cfg.wf (c : Cfg) : Bool :=
  sizeOk c.dspSize && sizeOk c.compSize &&
  c.offsets.all (wordFits c.dspSize) && wordFits (c.regionSize c.pmSts.rgn) c.pmSts.off &&
  allDistinct c.offsets &&
  twoBits c.csrRst c.csrStall && twoBits c.isrDone c.isrBusy && twoBits c.imrhDone c.imrhBusy &&
  twoBits c.imrdDone c.imrdBusy && twoBits c.cmdoBusy c.cmdoDone && twoBits c.cmdiBusy c.cmdiDone &&
  c.dmamodeOpp != 0 &&
  (c.panicMagic &&& ~~~c.panicMask == 0) && c.panicMask != 0 &&
  c.stepDescs.all c.stepOk &&
  c.stGateOff.rgn == .comp &&
  c.pmSts.mask != 0 &&
  c.boxOk c.bootOut && c.boxOk c.bootIn &&
  allDistinct [c.wtInbox, c.wtOutbox, c.wtTrace, c.wtDebug, c.wtStream, c.wtRegs, c.wtException] &&
  c.offsets.all (fun o => outside c.bootOut o && outside c.bootIn o) &&
  c.rhSizeOff + 4 ≤ c.rhSize && c.rhErrOff + 4 ≤ c.rhSize &&
  c.fwr.ok && c.diagOk

end Sys2Proof
end

