-- ==== Sys2Proof/WellFormed.lean ====
section
/-! DEFINITION. The part of the caller's contract that can be read off an operation alone: the alignment of a region
offset (R64) and the range of a host-memory buffer (R66). What depends on the state (region size, box) is in
Machine/Operands.lean. -/

namespace Sys2Proof

/-- The ways an operation can break the caller's contract (R64, R66, R160), for which it is refused (R67). -/
inductive Breach where
  /-- A region offset that is not a multiple of 4 where R64 asks for one. -/
  | misaligned
  /-- An access that leaves its region (R66). -/
  | outOfRegion
  /-- A box-relative access that leaves its box (R66, R160 (b)). -/
  | outOfBox
  /-- A buffer that leaves host memory (R66). -/
  | outOfHost
deriving DecidableEq, Repr

/-- R66: a host buffer of `n` bytes at `a` lies inside the `2^32` bytes of host memory; sums never wrap (R14). -/
def hostFits (a n : Word) : Bool := a.toNat + n.toNat ≤ 2 ^ 32

/-- R64: the offset is a multiple of 4. -/
def aligned (off : Word) : Bool := off.toNat % 4 == 0

/-- The breach that the operation's own words show, if any. -/
def Instr.breach : Instr → Option Breach
  | .read32 _ off | .write32 _ off _ | .read64 _ off | .write64 _ off _ _ =>
    if aligned off then none else some .misaligned
  | .blkwr _ off haddr len =>
    if !aligned off then some .misaligned else if hostFits haddr len then none else some .outOfHost
  | .blkrd _ _ haddr len | .mboxwr _ haddr len | .mboxrd _ haddr len | .sendmsg haddr len =>
    if hostFits haddr len then none else some .outOfHost
  | .enterD0 | .reset | .run | .getreply _ _ | .irqimm | .irqdefer | .cmddone | .fwready | .paniccap _ _ _ => none

/-- An operation is well formed when its own words break no part of the caller's contract. -/
def Instr.wellFormed (i : Instr) : Bool := i.breach == none

end Sys2Proof
end

