-- ==== Sys2Proof/Machine/State.lean ====
section
/-! DEFINITION. The state of the DSP control block as plain data: every piece of state that 10_state.md gives the machine,
the model's own fields (the schedule, the free-value counter, the traces), the reasons a step can stop, and the state
right after attach. INVENTORY.md lists each field with its rule. -/

namespace Sys2Proof.Machine

/-- Memory: (address, byte) pairs, addresses strictly rising, no listed byte equal to what an unlisted address reads as
(log 5). -/
abbrev Memory := List Host.Cell

/-- A run of `len` consecutive numbers from `base` (units of a copy, gated bytes). -/
structure Span where
  base : Nat
  len : Nat
deriving DecidableEq, Repr

/-- The device registers with storage of their own (R31, R33 to R38). `ISR` has none: it mirrors `CMDO` and `CMDI` (R32). -/
inductive DevReg where
  | csr | imrh | imrd | cmdo | cmdi | dmamode | scr0 | scr1
deriving DecidableEq, Repr

/-- The contents of the device registers. -/
structure Regs where
  csr : Word
  imrh : Word
  imrd : Word
  cmdo : Word
  cmdi : Word
  dmamode : Word
  scr0 : Word
  scr1 : Word
deriving DecidableEq, Repr

/-- `PWR.state` (R27). -/
inductive PwrState where
  | offD3
  | d0Transitioning
  | stalledReady
  | running
deriving DecidableEq, Repr

/-- The kinds of R231; `Kind.code` in Machine/Ops.lean gives the `STATUS` codes. -/
inductive Kind where
  | ok | timeout | fwError | sizeMismatch | configZeroBox | configBadWindow | illegalOp
deriving DecidableEq, Repr

/-- The events the block hands to its external consumers (R46). -/
inductive Event where
  /-- `EV_REPLY(hdr, cmdo)`, to the reply consumer. -/
  | reply (hdr : List Byte) (cmdo : Word)
  /-- `EV_MSG(cmdi)`, to the new-message consumer. -/
  | msg (cmdi : Word)
  /-- `EV_DIAG(snapshot, stack, cmdo, cmdi, used_off, coded_off)`, to the diagnostics consumer. -/
  | diag (snapshot : List Byte) (stack : List Word) (cmdo cmdi : Word) (usedOff : Nat) (codedOff : Word)
  /-- `EV_REGION(type, rgn, off, size)`. -/
  | region (name : DiagName) (rgn : Region) (off size : Nat)
  /-- `EV_VERSION(bytes)`. -/
  | version (bytes : List Byte)
  /-- `EV_EXTDATA(off)`. -/
  | extdata (off : Nat)
  /-- `EV_LOG(kind, value)`. -/
  | log (kind : Kind) (value : Word)
deriving DecidableEq, Repr

/-- What the block does on its two region ports and its time base (R3), in order. The model's own record (log 13). -/
inductive BusRec where
  /-- One `Read32` and the value it returned. -/
  | rd32 (who : Agent) (rgn : Region) (off : Nat) (v : Word)
  /-- One `Write32`. -/
  | wr32 (who : Agent) (rgn : Region) (off : Nat) (v : Word)
  /-- One byte unit of a bulk read (R76). -/
  | rd8 (who : Agent) (rgn : Region) (off : Nat) (b : Byte)
  /-- One `Delay(ms)` (R17). -/
  | delay (who : Agent) (ms : Nat)
deriving DecidableEq, Repr

/-- Where a bulk read puts its bytes: host memory, or the operation's own buffer (R115, R164 P2). -/
inductive Dest where
  | host (base : Nat)
  | buf (base : Nat)
deriving DecidableEq, Repr

/-- The local word a `Read32` of a listing is read into. -/
inductive Slot where
  /-- The read half of an `Update32` (R16). -/
  | old
  /-- `lo` of `READ64`, and the value of `READ32`. -/
  | lo
  /-- `hi` of `READ64`. -/
  | hi
  /-- `isr` of `IRQIMM` step I2. -/
  | isr
  /-- `cmdo` of `IRQDEFER` step W2. -/
  | cmdo
  /-- `cmdi` of `IRQDEFER` step W4. -/
  | cmdi
deriving DecidableEq, Repr

/-- The tests that a listing makes on its local variables. -/
inductive Cond where
  /-- I4: `(isr & ISR_DONE) != 0`. -/
  | isrDone
  /-- I5: `(isr & ISR_BUSY) != 0`. -/
  | isrBusy
  /-- W3: `(cmdo & CMDO_DONE) != 0`. -/
  | replyReady
  /-- W5 and W5a: BUSY is set and the word is a panic notification. -/
  | panic
  /-- W5 and W5b: BUSY is set and the word is no panic notification. -/
  | message
deriving DecidableEq, Repr

/-- The assignments to `PWR.state` (R134). -/
inductive PwrMove where
  /-- E3: the request has been written. -/
  | requested
  /-- E16. -/
  | ready
  /-- S4 of `RESET`. -/
  | afterReset
  /-- G3 of `RUN`. -/
  | afterRun
  /-- E6 of `ENTER_D0`. -/
  | timedOut
deriving DecidableEq, Repr

/-- One assignment to a context register by the handshake (R212 F1 and F3, R213). -/
inductive CtxMove where
  | fwrDone
  | outbox (b : Box)
  | inbox (b : Box)
  | streambox (b : Box)
  | excOff (off : Nat)
  | excValid
  | diag (d : DiagEntry)
deriving DecidableEq, Repr

/-- The two consumers that are called (R252). -/
inductive Consumer where
  | reply
  | message
deriving DecidableEq, Repr

/-- One entry of an operation's listing (R25). Machine/Micro.lean gives each its meaning. -/
inductive Micro where
  /-- `slot <- Read32(rgn, off)`. -/
  | read (rgn : Region) (off : Nat) (slot : Slot)
  /-- `Write32(rgn, off, v)`. -/
  | write (rgn : Region) (off : Nat) (v : Word)
  /-- The write half of `Update32(rgn, off, mask, val)` (R16). -/
  | merge (rgn : Region) (off : Nat) (mask val : Word)
  /-- The two reads of `READ64`, in either order (R113). -/
  | read64 (rgn : Region) (off : Nat)
  /-- The two writes of `WRITE64`, in either order (R114). -/
  | write64 (rgn : Region) (off : Nat) (lo hi : Word)
  /-- The full 4-byte groups of a bulk write that are still to be made (R116). -/
  | copyIn (rgn : Region) (off haddr : Nat) (pend : List Span)
  /-- The padded tail word of a bulk write, `n` bytes of it from host memory (R116). -/
  | tail (rgn : Region) (off haddr n : Nat)
  /-- The bytes of a bulk read that are still to be copied (R115). -/
  | copyOut (rgn : Region) (off : Nat) (dest : Dest) (pend : List Span)
  /-- `Delay(ms)`. -/
  | delay (ms : Nat)
  /-- `Acquire(LOCK)`. -/
  | acquire
  /-- `Release(LOCK)`. -/
  | release
  /-- `Emit(e)`. -/
  | emit (e : Event)
  /-- `raise K(info)`. -/
  | raise (k : Kind) (info : Word)
  /-- One assignment to a context register. -/
  | ctx (m : CtxMove)
  /-- One assignment to `PWR.state`. -/
  | pwr (m : PwrMove)
  /-- `STATUS <- OK` with `ERRVAL <- 0` (R26, R110 (c)). -/
  | ok
  /-- `RESULT0 <- lo`. -/
  | result0
  /-- `RESULT0 <- lo; RESULT1 <- hi`. -/
  | result01
  /-- E5 with `tries` reads left; with none left, E6 (R131). -/
  | poll (tries : Nat)
  /-- The delay of E5 after a read that found the field not 0, `tries` reads left (R131). -/
  | pollWait (tries : Nat)
  /-- M1 and M2, and all of `MBOXWR`: the outbound box's base is read and the bulk write begins (R161, R163). -/
  | boxWrite (boxoff haddr size : Word)
  /-- `MBOXRD`: the inbound box's base is read and the bulk read begins (R162). -/
  | boxRead (boxoff haddr size : Word)
  /-- P1 and P2: the header of the outbound box is read into the buffer (R164). -/
  | header
  /-- W3a: the header is read into the buffer (R189). -/
  | hdrRead
  /-- P3 and P4 (R164). -/
  | judge (expect : Word)
  /-- P5 (R164). -/
  | readBack (haddr : Word)
  /-- P6 (R164). -/
  | replyResult
  /-- `work <- 1` (R183). -/
  | setWork
  /-- I7 (R183). -/
  | wakeOrNone
  /-- W1 (R189). -/
  | clearPending
  /-- W3b: `Emit(EV_REPLY(hdr, cmdo))` (R189). -/
  | emitReply
  /-- W5b: `Emit(EV_MSG(cmdi))` (R189). -/
  | emitMsg
  /-- The call of a consumer (R190, R193). -/
  | call (c : Consumer)
  /-- A consumer presents a descriptor during its call (R252). -/
  | present (c : Consumer) (d : Desc)
  /-- The end of an operation that a consumer presented: the deferred stage goes on with its own `cmdo` and `cmdi`. -/
  | ret (cmdo cmdi : Word)
  /-- W6 (R189). -/
  | handled
  /-- F1 and the base of F2 (R212). -/
  | fwrBegin
  /-- The read of F2 (R212). -/
  | fwrRead
  /-- F3, the outbound box (R212). -/
  | fwrOutbox
  /-- F3, the inbound box (R212). -/
  | fwrInbox
  /-- F4 (R212). -/
  | fwrVersion
  /-- F5 (R212). -/
  | fwrExtdata
  /-- F6 from element `k` on, `n` elements left (R212). -/
  | windows (k n : Nat)
  /-- The read of window element `k` (R212 F6). -/
  | winRead (k : Nat)
  /-- The dispatch of the element read (R213). -/
  | winDispatch
  /-- The end of an arm of that dispatch; `skip` micro-steps of other arms follow it in the listing (R25). -/
  | armEnd (skip : Nat)
  /-- F7 (R212). -/
  | zeroBox
  /-- X1 for the operands of `PANICCAP` (R220), or, with `none`, for those of `IRQDEFER` step W5a (R189). -/
  | capBegin (args : Option (Word × Word × Word))
  /-- X2 (R220). -/
  | capSnap
  /-- X3 (R220). -/
  | capStack
  /-- X4 (R220). -/
  | capEmit
  /-- A conditional: the entries it guards (`guarded` in Machine/Listing.lean) are performed only if the test holds. -/
  | given (c : Cond)
  /-- The end of the operation: `SEQ.op <- idle` (R25). -/
  | idle
deriving DecidableEq, Repr

/-- The local variables of the listings. They live only while an operation is in progress (R167, R216). -/
structure Locals where
  old : Word := 0
  lo : Word := 0
  hi : Word := 0
  isr : Word := 0
  cmdo : Word := 0
  cmdi : Word := 0
  work : Bool := false
  /-- The block-side buffer (`hdr`, `d`, `e`, `snap` and `stack`), byte `i` at address `i`. -/
  buf : Memory := []
  /-- The box captured at the first micro-step (R160 (e)). -/
  box : Box := ⟨0, 0⟩
  /-- `size`, `kind` and `ev` of R164 P4. -/
  size : Nat := 0
  kind : Kind := .ok
  ev : Word := 0
  /-- `fbase` and `(win_off, win_count)` of R212. -/
  fbase : Nat := 0
  winOff : Nat := 0
  /-- `used` and the operands of R220. -/
  used : Nat := 0
  capOff : Word := 0
  capCmdo : Word := 0
  capCmdi : Word := 0
deriving DecidableEq, Repr

/-- One executing agent (R25, R26, R250): its sequencer (`SEQ.op`, `SEQ.step`, the rest of the listing, the listing's
locals) and its result registers. -/
structure Exec where
  op : Option Instr
  step : Nat
  todo : List Micro
  loc : Locals
  status : BitVec 8
  errval : Word
  result0 : Word
  result1 : Word
deriving DecidableEq, Repr

/-- The context registers `CTX` (R21). -/
structure Ctx where
  bar0 : Nat
  bar1 : Nat
  irqLine : Nat
  outbox : Box
  inbox : Box
  streambox : Box
  excOff : Nat
  excValid : Bool
  fwrDone : Bool
  diag : List DiagEntry
deriving DecidableEq, Repr

/-- The environment's moves (R253), and the power gating of parts of the device (R48 (f)). -/
inductive EnvMove where
  /-- `PWR_READY`. -/
  | pwrReady
  /-- `PWR_BUSY(v)`. -/
  | pwrBusy (v : Word)
  /-- `FW_TAKE`. -/
  | fwTake
  /-- `FW_REPLY(bytes, w)`. -/
  | fwReply (bytes : List Byte) (w : Word)
  /-- `FW_POST(bytes, w)`, the bytes from offset `at'` of the DSP box. -/
  | fwPost (at' : Nat) (bytes : List Byte) (w : Word)
  /-- `FW_READY(desc, table)`. -/
  | fwReady (desc table : List Byte) (w : Word)
  /-- `FW_PANIC(rec, w)`, the record at the firmware's exception offset `at'`. -/
  | fwPanic (at' : Nat) (rec' : List Byte) (w : Word)
  /-- `FW_ACK`. -/
  | fwAck
  /-- `FW_MEM(a, b)`. -/
  | fwMem (a : Nat) (b : Byte)
  /-- `FW_IMRD(v)`. -/
  | fwImrd (v : Word)
  /-- A `Write32` of a free firmware (R253). -/
  | fwFree (rgn : Region) (off : Nat) (v : Word)
  /-- From now on the bytes of `RGN[0]` in these spans are gated (R48 (f), U6). -/
  | gate (spans : List Span)
  /-- The firmware begins move `m`; its accesses are made one at a time by `next` (R253; log 16). -/
  | start (m : EnvMove)
  /-- The firmware makes the next access of the move it has begun. -/
  | next
deriving DecidableEq, Repr

/-- One access of a firmware move: a byte write or a `Write32` (R253). -/
inductive FwAct where
  /-- Byte `b` written at `off` of `RGN[0]`. -/
  | poke (off : Nat) (b : Byte)
  /-- `Write32(CMDO, w)`. -/
  | cmdo (w : Word)
  /-- `Write32(CMDI, w)`. -/
  | cmdi (w : Word)
  /-- The write of `FW_ACK`. -/
  | ack
  /-- `Write32(IMRD, v)`. -/
  | imrd (v : Word)
deriving DecidableEq, Repr

/-- What the outside world can do next (R50, R259; log 2). -/
inductive Input where
  /-- Agent `a` presents `d`; the operation is taken to its end, or to an `Acquire` that has to wait. -/
  | op (a : Agent) (d : Desc)
  /-- Agent `a` presents `d`; its micro-steps are taken by later inputs. -/
  | begin (a : Agent) (d : Desc)
  /-- Agent `a` takes one micro-step; `pick` chooses among units whose order no rule fixes (R75, R76). -/
  | micro (a : Agent) (pick : Nat)
  /-- The environment moves. -/
  | env (m : EnvMove)
  /-- The Device Context is destroyed (R275). -/
  | detach
deriving DecidableEq, Repr

/-- The state. No field holds a function. -/
structure State where
  cfg : Cfg
  attached : Bool
  ctx : Ctx
  host : Exec
  irq : Exec
  worker : Exec
  halt : Bool
  irqRet : BitVec 2
  pwr : PwrState
  deferPending : Bool
  lock : Option Agent
  regs : Regs
  pmhw : Word
  dspMem : Memory
  compMem : Memory
  hm : Memory
  gated : List Span
  d0Confirmed : Bool
  d0Requested : Bool
  readySent : Bool
  fw : List FwAct
  replyBox : Box
  elapsed : Nat
  events : List Event
  bus : List BusRec
  draws : Nat
  port : List Input
  presenter : Agent
  replyCalls : List (List Desc)
  msgCalls : List (List Desc)
  atDelay : List (List EnvMove)
  lastTaken : Agent
deriving DecidableEq, Repr

/-- The reasons a run stops with a fault: there are none. The spec gives the block no bus error, no alignment fault and no
watchdog (60_exceptions.md, R119); its errors are next states (R230), and what has no meaning is refused (R67). -/
inductive Fault where
deriving DecidableEq, Repr

/-- The reasons the machine refuses: the situations to which the spec gives the treatment "refuse" (U1, U10, U11, U15,
R13). Every one is safe: nothing can be proved of what the hardware does there. -/
inductive Refusal where
  /-- An instruction with no meaning yet, raised by exec's refused arms only. Safe. -/
  | notModelled (mnemonic : String)
  /-- A contract violation (R67, U1), raised before the access it would make. Safe. -/
  | contract (b : Breach)
  /-- A descriptor from an agent that may not present it (R98, U15; R252 during a call). Safe. -/
  | notPermitted
  /-- A descriptor on the halted host port (R99, U15). Safe. -/
  | halted
  /-- A descriptor from an agent whose previous operation has not ended (U15). Safe. -/
  | busy
  /-- A second `FWREADY` in one attach (R212, U11). Safe. -/
  | secondHandshake
  /-- A configuration that is not well formed (R13), raised by every step. Safe. -/
  | badConfig
  /-- A detach while deferred work is pending or an operation is in progress (U10). Safe. -/
  | detachBusy
  /-- A presentation after detach (R275). Safe. -/
  | detached
deriving DecidableEq, Repr

/-- An idle agent with its result registers 0 (R51). -/
def Exec.atAttach : Exec where
  op := none
  step := 0
  todo := []
  loc := {}
  status := 0
  errval := 0
  result0 := 0
  result1 := 0

/-- The context registers after attach (R51, R270); the handles and the line are DESIGN CHOICE (log 7), `EXC_OFF` too (log 8). -/
def Ctx.atAttach (c : Cfg) : Ctx where
  bar0 := 0
  bar1 := 1
  irqLine := 0
  outbox := c.bootOut
  inbox := c.bootIn
  streambox := ⟨0, 0⟩
  excOff := 0
  excValid := false
  fwrDone := false
  diag := c.diagTable

/-- The device registers at attach. The spec leaves them unconstrained (R272); the values are the family's, PRESUMED (log 6). -/
def Regs.atAttach : Regs where
  csr := 0x8480040E
  imrh := 0x7FFF0003
  imrd := 0x7FFF0003
  cmdo := 0
  cmdi := 0
  dmamode := 0
  scr0 := 0
  scr1 := 0

/-- The state right after attach under the configuration `c` (R51, R270, R272). The device's own contents are named
values (log 5, 6, 9); all of `RGN[0]` is gated (log 10), and inaccessible until `ENTER_D0` has confirmed D0 (U6). -/
def State.attach (c : Cfg) : State where
  cfg := c
  attached := true
  ctx := Ctx.atAttach c
  host := Exec.atAttach
  irq := Exec.atAttach
  worker := Exec.atAttach
  halt := false
  irqRet := 0
  pwr := .offD3
  deferPending := false
  lock := none
  regs := Regs.atAttach
  pmhw := 3
  dspMem := []
  compMem := []
  hm := []
  gated := [⟨0, c.dspSize⟩]
  d0Confirmed := false
  d0Requested := false
  readySent := false
  fw := []
  replyBox := c.bootOut
  elapsed := 0
  events := []
  bus := []
  draws := 0
  port := []
  presenter := .host
  replyCalls := []
  msgCalls := []
  atDelay := []
  lastTaken := .worker

/-- The machine right after reset: attach under `CFG_TEST` (GK12; PRESUMED, log 3). -/
def State.reset : State := State.attach Cfg.test

end Sys2Proof.Machine
end

