-- ==== Sys2Proof/Machine/Memory.lean ====
section
/-! DEFINITION. The operations over memory: one byte, then words and byte strings built from it, in the byte order of R62. -/

namespace Sys2Proof.Machine

/-- What an unlisted address reads as. The spec leaves attach contents unconstrained (R272); DESIGN CHOICE, log 5. -/
def unwritten : Byte := 0

/-- One byte. -/
def Memory.read : Memory → Nat → Byte
  | [], _ => unwritten
  | c :: m, a => if c.1 = a then c.2 else Memory.read m a

/-- The memory with nothing listed at `a`. -/
def Memory.erase (m : Memory) (a : Nat) : Memory := m.filter (fun c => c.1 ≠ a)

/-- The memory with `(a, b)` put before the first higher address. -/
def Memory.insert : Memory → Nat → Byte → Memory
  | [], a, b => [(a, b)]
  | c :: m, a, b => if a < c.1 then (a, b) :: c :: m else c :: Memory.insert m a b

/-- Write one byte, keeping the canonical form. -/
def Memory.write (m : Memory) (a : Nat) (b : Byte) : Memory :=
  if b = unwritten then Memory.erase m a else Memory.insert (Memory.erase m a) a b

/-- The canonical form: addresses strictly rising, nothing listed that an unlisted address reads as. -/
abbrev Memory.wf (m : Memory) : Prop :=
  m.Pairwise (fun c d => c.1 < d.1) ∧ ∀ c ∈ m, c.2 ≠ unwritten

/-- The little-endian word at `a` (R16, R62). -/
def Memory.readWord (m : Memory) (a : Nat) : Word :=
  wordOf (Memory.read m a) (Memory.read m (a + 1)) (Memory.read m (a + 2)) (Memory.read m (a + 3))

/-- Store a word at `a`, byte `i` at `a + i` (R16, R62). -/
def Memory.writeWord (m : Memory) (a : Nat) (w : Word) : Memory :=
  Memory.write (Memory.write (Memory.write (Memory.write m a (wordByte w 0)) (a + 1) (wordByte w 1)) (a + 2) (wordByte w 2))
    (a + 3) (wordByte w 3)

/-- `n` bytes, lowest address first (R15). -/
def Memory.readBytes (m : Memory) (a n : Nat) : List Byte := (List.range n).map (fun i => Memory.read m (a + i))

/-- `n` little-endian words from `a` (R220 X3). -/
def Memory.readWords (m : Memory) (a n : Nat) : List Word := (List.range n).map (fun i => Memory.readWord m (a + 4 * i))

end Sys2Proof.Machine
end

