-- ==== Sys2Proof/Machine/Flags.lean ====
section
/-! DEFINITION. The flags of the block (R47) and what is computed from them: the mirror bits of `ISR`, the interrupt line,
the outstanding-message facts, the panic test, whether the core runs. -/

namespace Sys2Proof.Machine

/-- `CMDO.DONE` (R35). -/
def State.cmdoDone (s : State) : Bool := flagOf s.regs.cmdo s.cfg.cmdoDone
/-- `CMDO.BUSY` (R35). -/
def State.cmdoBusy (s : State) : Bool := flagOf s.regs.cmdo s.cfg.cmdoBusy
/-- `CMDI.DONE` (R36). -/
def State.cmdiDone (s : State) : Bool := flagOf s.regs.cmdi s.cfg.cmdiDone
/-- `CMDI.BUSY` (R36). -/
def State.cmdiBusy (s : State) : Bool := flagOf s.regs.cmdi s.cfg.cmdiBusy
/-- `IMRH.DONE`: 1 masks (R33). -/
def State.imrhDone (s : State) : Bool := flagOf s.regs.imrh s.cfg.imrhDone
/-- `IMRH.BUSY`: 1 masks (R33). -/
def State.imrhBusy (s : State) : Bool := flagOf s.regs.imrh s.cfg.imrhBusy
/-- `CSR.RST` (R31). -/
def State.csrRst (s : State) : Bool := flagOf s.regs.csr s.cfg.csrRst
/-- `CSR.STALL` (R31). -/
def State.csrStall (s : State) : Bool := flagOf s.regs.csr s.cfg.csrStall

/-- A value read from `ISR` (R32): the two mirror bits, and the free value `d` in every other bit. -/
def State.isrWord (s : State) (d : Word) : Word :=
  (d &&& ~~~(s.cfg.isrDone ||| s.cfg.isrBusy)) ||| (if s.cmdoDone then s.cfg.isrDone else 0) |||
    (if s.cmdiBusy then s.cfg.isrBusy else 0)

/-- `IRQ_LINE = (ISR.DONE and not IMRH.DONE) or (ISR.BUSY and not IMRH.BUSY)` (R181), with the mirrors of R32. -/
def State.irqLine (s : State) : Bool := (s.cmdoDone && !s.imrhDone) || (s.cmdiBusy && !s.imrhBusy)

/-- `OUT_PENDING` (R48 (b)). -/
def State.outPending (s : State) : Bool := s.cmdoBusy || s.cmdoDone
/-- `IN_PENDING` (R48 (b)). -/
def State.inPending (s : State) : Bool := s.cmdiBusy

/-- The word is a panic notification: `(w & PANIC_MASK) = PANIC_MAGIC` (R36, R191). -/
def isPanic (c : Cfg) (w : Word) : Bool := w &&& c.panicMask == c.panicMagic

/-- The power hardware reports D0: the status field is 0 (R44). -/
def State.inD0 (s : State) : Bool := s.pmhw &&& s.cfg.pmSts.mask == 0

/-- "Core running" (R253): the core is neither in reset nor stalled, and the power hardware reports D0. -/
def State.coreRunning (s : State) : Bool := !s.csrRst && !s.csrStall && s.inD0

/-- The tests of the listings (R183 I4 and I5, R189 W3, W5, W5a). -/
def Cond.holds (c : Cfg) (l : Locals) : Cond → Bool
  | .isrDone => flagOf l.isr c.isrDone
  | .isrBusy => flagOf l.isr c.isrBusy
  | .replyReady => flagOf l.cmdo c.cmdoDone
  | .panic => flagOf l.cmdi c.cmdiBusy && isPanic c l.cmdi
  | .message => flagOf l.cmdi c.cmdiBusy && !isPanic c l.cmdi

end Sys2Proof.Machine
end

