-- ==== Sys2Proof/Machine/Ops.lean ====
section
/-! DEFINITION. The named operations over the state: the agents' records, the device registers and the words of the two
regions, the bus primitives of R16, free values, `raise` (the block's exception, R17, R230), the return of the interrupt
stages (R243). -/

namespace Sys2Proof.Machine

/-! ## Agents -/

/-- The record of an executing agent (R250). -/
def State.ex (s : State) : Agent → Exec
  | .host => s.host
  | .irq => s.irq
  | .worker => s.worker

/-- The state with the record of an executing agent replaced. -/
def State.setEx (s : State) (a : Agent) (e : Exec) : State :=
  match a with
  | .host => { s with host := e }
  | .irq => { s with irq := e }
  | .worker => { s with worker := e }

/-- The state with the local variables of an agent's listing replaced. -/
def State.setLoc (s : State) (a : Agent) (l : Locals) : State := s.setEx a { s.ex a with loc := l }

/-- The local variables of an agent's listing. -/
def State.loc (s : State) (a : Agent) : Locals := (s.ex a).loc

/-! ## Device registers and region words -/

/-- The contents of a device register. -/
def Regs.get (g : Regs) : DevReg → Word
  | .csr => g.csr
  | .imrh => g.imrh
  | .imrd => g.imrd
  | .cmdo => g.cmdo
  | .cmdi => g.cmdi
  | .dmamode => g.dmamode
  | .scr0 => g.scr0
  | .scr1 => g.scr1

/-- The registers with one replaced. -/
def Regs.set (g : Regs) (r : DevReg) (v : Word) : Regs :=
  match r with
  | .csr => { g with csr := v }
  | .imrh => { g with imrh := v }
  | .imrd => { g with imrd := v }
  | .cmdo => { g with cmdo := v }
  | .cmdi => { g with cmdi := v }
  | .dmamode => { g with dmamode := v }
  | .scr0 => { g with scr0 := v }
  | .scr1 => { g with scr1 := v }

/-- The offset of a device register in `RGN[0]` (R11). -/
def regOff (c : Cfg) : DevReg → Nat
  | .csr => c.csrOff
  | .imrh => c.imrhOff
  | .imrd => c.imrdOff
  | .cmdo => c.cmdoOff
  | .cmdi => c.cmdiOff
  | .dmamode => c.dmamodeOff
  | .scr0 => c.scr0Off
  | .scr1 => c.scr1Off

/-- The device registers that have storage. -/
def allRegs : List DevReg := [.csr, .imrh, .imrd, .cmdo, .cmdi, .dmamode, .scr0, .scr1]

/-- The device register at an offset of a region, if there is one (R30: all are in `RGN_DSP`). -/
def regAt (c : Cfg) (r : Region) (off : Nat) : Option DevReg :=
  match r with
  | .dsp => allRegs.find? (fun g => regOff c g == off)
  | .comp => none

/-- The plain bytes of a region (R45). -/
def State.mem (s : State) : Region → Memory
  | .dsp => s.dspMem
  | .comp => s.compMem

/-- The state with the plain bytes of a region replaced. -/
def State.setMem (s : State) (r : Region) (m : Memory) : State :=
  match r with
  | .dsp => { s with dspMem := m }
  | .comp => { s with compMem := m }

/-- The word stored at a 4-aligned offset: a device register's, or four plain bytes. -/
def State.stored (s : State) (r : Region) (off : Nat) : Word :=
  match regAt s.cfg r off with
  | some g => s.regs.get g
  | none => Memory.readWord (s.mem r) off

/-- The state with a device register replaced. A write to `CSR` that leaves the core in reset or stalled ends the start
in which `FW_READY` may be made once, and one that leaves it in reset ends the move the firmware was making (R253; log 16). A
write to `CMDO` that raises BUSY posts a message, and the firmware will answer it in the box that is the host box at that
moment, wherever a handshake moves the boxes meanwhile (R291; log 16). -/
def State.setReg (s : State) (g : DevReg) (v : Word) : State :=
  match g with
  | .csr =>
    { s with regs := s.regs.set g v
             readySent := s.readySent && !flagOf v s.cfg.csrRst && !flagOf v s.cfg.csrStall
             fw := if flagOf v s.cfg.csrRst then [] else s.fw }
  | .cmdo =>
    { s with regs := s.regs.set g v
             replyBox := if flagOf v s.cfg.cmdoBusy && !s.cmdoBusy then s.ctx.outbox else s.replyBox }
  | _ => { s with regs := s.regs.set g v }

/-- The state with the word stored at a 4-aligned offset replaced. -/
def State.setStored (s : State) (r : Region) (off : Nat) (v : Word) : State :=
  match regAt s.cfg r off with
  | some g => s.setReg g v
  | none => s.setMem r (Memory.writeWord (s.mem r) off v)

/-- The offset is `ISR`'s (R32). -/
def State.isIsr (s : State) (r : Region) (off : Nat) : Bool := r == .dsp && off == s.cfg.isrOff

/-- The offset is the one of the power-state status field (R44). -/
def State.isPm (s : State) (r : Region) (off : Nat) : Bool := r == s.cfg.pmSts.rgn && off == s.cfg.pmSts.off

/-- R44: at `PM_STS` the masked bits read as `PMHW.sts`. -/
def State.overlay (s : State) (r : Region) (off : Nat) (w : Word) : Word :=
  if s.isPm r off then merged w s.cfg.pmSts.mask s.pmhw else w

/-- What an accessible word other than `ISR` reads as (R30, R44). -/
def State.word (s : State) (r : Region) (off : Nat) : Word := s.overlay r off (s.stored r off)

/-- The effect of a `Write32` that takes effect: ignored at `ISR` (R32); the masked bits of `PM_STS` are not written (R44). -/
def State.store (s : State) (r : Region) (off : Nat) (v : Word) : State :=
  if s.isIsr r off then s
  else s.setStored r off (if s.isPm r off then v &&& ~~~s.cfg.pmSts.mask else v)

/-! ## Accessibility (R48 (f), U6, R282; logs 10, 11) -/

/-- A byte of a box. -/
def inBox (b : Box) (a : Nat) : Bool := b.off ≤ a && a < b.off + b.size

/-- A byte of the mailbox area (R72): of the area that starts at `MBOX_BASE`, whose length is the model's parameter, of a
live box, or of the recorded exception record, wherever the firmware has put those (log 10). -/
def State.inMailbox (s : State) (a : Nat) : Bool :=
  inBox ⟨s.cfg.mboxBase, s.cfg.mboxSize⟩ a || inBox s.ctx.outbox a || inBox s.ctx.inbox a ||
    (s.ctx.excValid && inBox ⟨s.ctx.excOff, s.cfg.xoopsSize + 4 * s.cfg.stackWords⟩ a)

/-- The byte is of those that gating leaves accessible: the registers of R31 to R38 and the mailbox area (R282, U6). -/
def State.exempt (s : State) (a : Nat) : Bool := s.cfg.offsets.contains (a - a % 4) || s.inMailbox a

/-- The byte is in a part of `RGN[0]` that is gated at this moment, and not exempt (R48 (f), R282). -/
def State.isGated (s : State) (a : Nat) : Bool :=
  s.gated.any (fun g => g.base ≤ a && a < g.base + g.len) && !s.exempt a

/-- U6, R110 (f): any byte of `RGN[0]` before `ENTER_D0` has confirmed D0, and a gated byte after it. -/
def State.inaccessible (s : State) (r : Region) (a : Nat) : Bool := r == .dsp && (!s.d0Confirmed || s.isGated a)

/-! ## Bus primitives (R16) -/

/-- `Draw(32)` (R17). -/
def State.draw (s : State) : Word × State := (Config.draw s.draws, { s with draws := s.draws + 1 })

/-- One more record of the bus (log 13). -/
def State.record (s : State) (b : BusRec) : State := { s with bus := s.bus ++ [b] }

/-- The word that the bus returns for the word at `base` when byte `a` of it is asked for: a free value where the byte is
inaccessible (U6), the mirrors and free bits at `ISR` (R32), else what is there. A `Read32` asks for the lowest byte, so a
word that is only partly inaccessible (partly in a gated span, or partly in the mailbox area) is judged as a whole by its
lowest byte: the spec gives no rule for such a word (R74, R110 (f), R282, U6); DESIGN CHOICE, log 10. -/
def State.busRead (s : State) (r : Region) (base a : Nat) : Word × State :=
  if s.inaccessible r a then s.draw
  else if s.isIsr r base then (s.overlay r base (s.isrWord s.draw.1), s.draw.2)
  else (s.word r base, s)

/-- The same word with 0 in the free bits of `ISR`: what the immediate stage may look at, since "only the two named bits of
`isr` are examined; the others are ignored" (R183). -/
def State.seen (s : State) (r : Region) (off : Nat) : Word :=
  if s.inaccessible r off then s.draw.1
  else if s.isIsr r off then s.overlay r off (s.isrWord 0)
  else s.word r off

/-- `Read32(r, off)` by agent `who` (R16). -/
def State.read32 (s : State) (who : Agent) (r : Region) (off : Nat) : Word × State :=
  ((s.busRead r off off).1, (s.busRead r off off).2.record (.rd32 who r off (s.busRead r off off).1))

/-- One byte of a bulk read (R76): the byte of the word it lies in. -/
def State.read8 (s : State) (who : Agent) (r : Region) (a : Nat) : Byte × State :=
  (wordByte (s.busRead r (a - a % 4) a).1 (a % 4),
   (s.busRead r (a - a % 4) a).2.record (.rd8 who r a (wordByte (s.busRead r (a - a % 4) a).1 (a % 4))))

/-- A `Write32` that takes effect if `b`, and else leaves the storage of the device as it is. -/
def State.storeIf (s : State) (b : Bool) (r : Region) (off : Nat) (v : Word) : State :=
  { s with regs := if b then (s.store r off v).regs else s.regs
           readySent := if b then (s.store r off v).readySent else s.readySent
           fw := if b then (s.store r off v).fw else s.fw
           replyBox := if b then (s.store r off v).replyBox else s.replyBox
           dspMem := if b then (s.store r off v).dspMem else s.dspMem
           compMem := if b then (s.store r off v).compMem else s.compMem }

/-- What a write of a word does: where the word is inaccessible, a free value says whether it takes effect (U6). As for a
read, a word that is only partly inaccessible is judged as a whole by its lowest byte, which no rule says (R74, R110 (f),
R282, U6); DESIGN CHOICE, log 10. -/
def State.busWrite (s : State) (r : Region) (off : Nat) (v : Word) : State :=
  if s.inaccessible r off then s.draw.2.storeIf (s.draw.1.getLsbD 0) r off v else s.store r off v

/-- `Write32(r, off, v)` by agent `who` (R16). -/
def State.write32 (s : State) (who : Agent) (r : Region) (off : Nat) (v : Word) : State :=
  (s.busWrite r off v).record (.wr32 who r off v)

/-- One byte written by the environment, into plain storage or a byte of a device register (R253). -/
def State.pokeByte (s : State) (r : Region) (a : Nat) (b : Byte) : State :=
  s.store r (a - a % 4) (wordSetByte (s.stored r (a - a % 4)) (a % 4) b)

/-- Bytes written by the environment in ascending order. -/
def State.pokeBytes (s : State) (r : Region) (a : Nat) : List Byte → State
  | [] => s
  | b :: bs => State.pokeBytes (s.pokeByte r a b) r (a + 1) bs

/-! ## Results, errors, events -/

/-- The `STATUS` codes of R231. -/
def Kind.code : Kind → BitVec 8
  | .ok => 0
  | .timeout => 1
  | .fwError => 2
  | .sizeMismatch => 3
  | .configZeroBox => 4
  | .configBadWindow => 5
  | .illegalOp => 6

/-- The kinds that R231 marks fatal. -/
def Kind.fatal : Kind → Bool
  | .timeout | .configZeroBox | .configBadWindow | .illegalOp => true
  | .ok | .fwError | .sizeMismatch => false

/-- `STATUS` and `ERRVAL` of an agent (R26). -/
def State.result (s : State) (a : Agent) (k : Kind) (info : Word) : State :=
  s.setEx a { s.ex a with status := k.code, errval := info }

/-- `raise K(info)` by agent `a` (R17, R230, R239): the result registers are written and a fatal kind halts the host port.
That the operation ends there is the runner's work (Machine/Micro.lean). -/
def State.raise (s : State) (a : Agent) (k : Kind) (info : Word) : State :=
  { s.result a k info with halt := s.halt || k.fatal }

/-- The codes of `IRQRET` (R26): `NONE`, `WAKE`, `HANDLED`. -/
def irqNone : BitVec 2 := 0
def irqWake : BitVec 2 := 1
def irqHandled : BitVec 2 := 2

/-- The return of an interrupt stage (R243): `IRQRET` is written and nothing is restored. -/
def State.irqReturn (s : State) (v : BitVec 2) : State := { s with irqRet := v }

/-- `Emit(e)` (R46). -/
def State.emit (s : State) (e : Event) : State := { s with events := s.events ++ [e] }

/-- `SEQ.step <- k` (R15): the sequencer of agent `a` goes to micro-step `k`. -/
def State.goto (s : State) (a : Agent) (k : Nat) : State := s.setEx a { s.ex a with step := k }

/-- What is left of the agent's listing, replaced. -/
def State.setTodo (s : State) (a : Agent) (todo : List Micro) : State := s.setEx a { s.ex a with todo := todo }

/-- An operation that a consumer presents begins inside the agent's deferred stage (R252), with local variables of its own.
-/
def State.nest (s : State) (a : Agent) (i : Instr) : State := s.setEx a { s.ex a with op := some i, loc := {} }

/-- It ends, and nothing of it is kept (R167, R216): the deferred stage goes on with its own `cmdo` and `cmdi`. -/
def State.unnest (s : State) (a : Agent) (cmdo cmdi : Word) : State :=
  s.setEx a { s.ex a with op := some .irqdefer, loc := { cmdo := cmdo, cmdi := cmdi } }

/-- The agent's operation begins (R25). -/
def State.start (s : State) (a : Agent) (i : Instr) (todo : List Micro) : State :=
  s.setEx a { s.ex a with op := some i, step := 1, todo := todo, loc := {} }

/-- The agent's operation ends: `SEQ.op <- idle` (R25); nothing of it is kept (R167, R216). -/
def State.finish (s : State) (a : Agent) : State :=
  s.setEx a { s.ex a with op := none, step := 0, todo := [], loc := {} }

end Sys2Proof.Machine
end

