-- ==== Sys2Proof/Machine/Operands.lean ====
section
/-! DEFINITION. Operand forms: effective addresses and the range and box checks of the caller's contract (R64 to R66,
R160), the permission table (R98, R252), and the two functions that the configuration supplies. -/

namespace Sys2Proof.Machine

/-- R66: `n` bytes at `off` lie inside region `r`, computed without wrap-around. -/
def regionFits (c : Cfg) (r : Region) (off n : Nat) : Bool := off + n ≤ c.regionSize r

/-- A length rounded up to a multiple of `GRAN = 4` (R66, R116). -/
def roundUp (n : Nat) : Nat := 4 * ((n + 3) / 4)

/-- The part of the contract of the six access operations that depends on the region's size (R66). -/
def rangeBreach (c : Cfg) : Instr → Option Breach
  | .read32 r off | .write32 r off _ => if regionFits c r off.toNat 4 then none else some .outOfRegion
  | .read64 r off | .write64 r off _ _ => if regionFits c r off.toNat 8 then none else some .outOfRegion
  | .blkrd r off _ len => if regionFits c r off.toNat len.toNat then none else some .outOfRegion
  | .blkwr r off _ len => if regionFits c r off.toNat (roundUp len.toNat) then none else some .outOfRegion
  | _ => none

/-- The whole of the contract that is checked before the first micro-step (R110 (b)). -/
def contractBreach (c : Cfg) (i : Instr) : Option Breach :=
  match i.breach with
  | some b => some b
  | none => rangeBreach c i

/-- R160 (b) for a read of `n` bytes at box offset `b`: the access lies in the box and in the region. A box that itself leaves
the region is no breach where the access does not; R66 quotes the invariant that it is a sub-range, and no rule says what
else is refused through one that is not (DEDUCED from R160 (b) and U22, log 41). -/
def boxReadBreach (c : Cfg) (x : Box) (b n : Nat) : Option Breach :=
  if x.size < b + n then some .outOfBox
  else if regionFits c .dsp (x.off + b) n then none else some .outOfRegion

/-- R160 (b) for a write of `n` bytes at box offset `b`: the length is rounded up and the place must be 4-aligned. -/
def boxWriteBreach (c : Cfg) (x : Box) (b n : Nat) : Option Breach :=
  if (x.off + b) % 4 ≠ 0 then some .misaligned else boxReadBreach c x b (roundUp n)

/-- The agents that may present an operation (R98). Whether the worker is inside a consumer's call (log 22) and whether
`DEFER.pending` is set (log 42) is not asked. -/
def presenters : Instr → List Agent
  | .irqimm => [.irq]
  | .irqdefer => [.worker]
  | .getreply _ _ | .mboxrd _ _ _ | .blkrd _ _ _ _ | .cmddone | .fwready | .paniccap _ _ _ => [.host, .worker]
  | .read32 _ _ | .write32 _ _ _ | .read64 _ _ | .write64 _ _ _ _ | .blkwr _ _ _ _ | .enterD0 | .reset | .run
  | .mboxwr _ _ _ | .sendmsg _ _ => [.host]

/-- The operations that a consumer may present during its call (R190, R193, R252). -/
def callPermits : Consumer → Instr → Bool
  | .reply, .getreply _ _ | .reply, .blkrd _ _ _ _ => true
  | .message, .mboxrd _ _ _ | .message, .blkrd _ _ _ _ | .message, .fwready | .message, .cmddone => true
  | _, _ => false

/-- The value of `PANIC_OFFSET_OF(cmdi, cmdo)` (R191). -/
def panicOffset (cmdi cmdo : Word) : PanicExpr → Word
  | .lit w => w
  | .cmdi => cmdi
  | .cmdo => cmdo
  | .and a b => panicOffset cmdi cmdo a &&& panicOffset cmdi cmdo b
  | .or a b => panicOffset cmdi cmdo a ||| panicOffset cmdi cmdo b
  | .xor a b => panicOffset cmdi cmdo a ^^^ panicOffset cmdi cmdo b
  | .add a b => panicOffset cmdi cmdo a + panicOffset cmdi cmdo b
  | .shl a n => panicOffset cmdi cmdo a <<< n
  | .shr a n => panicOffset cmdi cmdo a >>> n
  | .ite a b t e =>
    if panicOffset cmdi cmdo a = panicOffset cmdi cmdo b then panicOffset cmdi cmdo t else panicOffset cmdi cmdo e

/-- `WIN_TABLE_OF(x) = (win_off, win_count)` (R211). -/
def winTable (w : WinTable) (x : Nat) : Nat × Nat :=
  match w.rows.find? (fun r => r.1 == x) with
  | some r => r.2
  | none => (x + w.delta, w.count)

/-- The first breach of a list of checks becomes a refusal (R67). -/
def refusalOf : Option Breach → Option Refusal
  | some b => some (.contract b)
  | none => none

/-- Why a descriptor for `i` on agent `a`'s port is refused, if it is (R98, R99, R275, U15). `IRQDEFER` is taken also while
`DEFER.pending` is 0, of which no rule speaks (DESIGN CHOICE, log 42). -/
def portRefusal (s : State) (a : Agent) (i : Instr) : Option Refusal :=
  if !s.attached then some .detached
  else if (s.ex a).op.isSome then some .busy
  else if a == .host && s.halt then some .halted
  else if !(presenters i).contains a then some .notPermitted
  else refusalOf (contractBreach s.cfg i)

end Sys2Proof.Machine
end

