-- ==== Sys2Proof/Machine/Environment.lean ====
section
/-! DEFINITION. The moves of the firmware and of the power hardware (R253), the accesses each is made of, power gating
(R48 (f)), and `Delay`, during which the environment may move (R17, R80, R297). A move that is not enabled changes nothing
(log 16). -/

namespace Sys2Proof.Machine

/-- The bytes fit the box from offset `at'`, and the box is a sub-range of the region (R23). -/
def bytesFit (s : State) (x : Box) (at' : Nat) (bytes : List Byte) : Bool :=
  at' + bytes.length ≤ x.size && x.off + x.size ≤ s.cfg.dspSize

/-- The firmware may begin a move: the core runs and no earlier move is still being made (R253). -/
def State.fwMayMove (s : State) : Bool := s.coreRunning && s.fw.isEmpty

/-- Where the descriptor of `FW_READY` is written (R253). -/
def fwDescAt (c : Cfg) : Nat := c.bootIn.off + c.fwrOff

/-- Where its window table is written (R253, R211). -/
def fwTableAt (c : Cfg) : Nat := (winTable c.winTableOf (fwDescAt c + c.fwr.size)).1

/-- The moves of the firmware that R253 lists. -/
def EnvMove.ofFirmware : EnvMove → Bool
  | .fwTake | .fwReply _ _ | .fwPost _ _ _ | .fwReady _ _ _ | .fwPanic _ _ _ | .fwAck | .fwMem _ _ | .fwImrd _ => true
  | .pwrReady | .pwrBusy _ | .fwFree _ _ _ | .gate _ | .start _ | .next => false

/-- When a move is enabled (R253). -/
def EnvMove.enabled (s : State) : EnvMove → Bool
  | .pwrReady => s.d0Requested
  | .pwrBusy v => v &&& s.cfg.pmSts.mask != 0
  | .fwTake => s.fwMayMove && s.cmdoBusy
  | .fwReply bytes _ => s.fwMayMove && s.cmdoBusy && bytesFit s s.replyBox 0 bytes
  | .fwPost at' bytes w => s.fwMayMove && !s.cmdiBusy && !isPanic s.cfg w && bytesFit s s.ctx.inbox at' bytes
  | .fwReady desc table w =>
    s.fwMayMove && !s.cmdiBusy && !s.readySent && !isPanic s.cfg w &&
      fwDescAt s.cfg + desc.length ≤ s.cfg.dspSize && fwTableAt s.cfg + table.length ≤ s.cfg.dspSize
  | .fwPanic at' rec' w => s.fwMayMove && isPanic s.cfg w && at' + rec'.length ≤ s.cfg.dspSize
  | .fwAck => s.fwMayMove && s.cmdiDone
  | .fwMem a _ =>
    s.fwMayMove && a < s.cfg.dspSize && !inBox s.ctx.outbox a && !inBox s.ctx.inbox a &&
      !s.cfg.offsets.contains (a - a % 4)
  | .fwImrd _ => s.fwMayMove
  | .fwFree r off _ => wordFits (s.cfg.regionSize r) off
  | .gate _ => true
  | .start m => m.ofFirmware && m.enabled s
  | .next => true

/-- The word the firmware stores in a command register: `w` with BUSY and DONE as given (R253). -/
def flagged (w busy done : Word) (b d : Bool) : Word :=
  merged (merged w busy (if b then busy else 0)) done (if d then done else 0)

/-- The bytes written one after another from `off` of `RGN[0]`. -/
def pokes (off : Nat) : List Byte → List FwAct
  | [] => []
  | b :: bs => .poke off b :: pokes (off + 1) bs

/-- The accesses that a firmware move is a sequence of, in order (R253). `FW_REPLY` writes the host box in which the message was
posted, the old one where `FWREADY` has moved the boxes since (R291; log 16); `FW_POST` writes the DSP box of `CTX`. -/
def EnvMove.acts (s : State) : EnvMove → List FwAct
  | .fwReply bytes w => pokes s.replyBox.off bytes ++ [.cmdo (flagged w s.cfg.cmdoBusy s.cfg.cmdoDone false true)]
  | .fwPost at' bytes w =>
    pokes (s.ctx.inbox.off + at') bytes ++ [.cmdi (flagged w s.cfg.cmdiBusy s.cfg.cmdiDone true false)]
  | .fwReady desc table w =>
    pokes (fwDescAt s.cfg) desc ++ pokes (fwTableAt s.cfg) table ++
      [.cmdi (flagged w s.cfg.cmdiBusy s.cfg.cmdiDone true false)]
  | .fwPanic at' rec' w => pokes at' rec' ++ [.cmdi (w ||| s.cfg.cmdiBusy)]
  | .fwAck => [.ack]
  | .fwMem a b => [.poke a b]
  | .fwImrd v => [.imrd v]
  | .pwrReady | .pwrBusy _ | .fwTake | .fwFree _ _ _ | .gate _ | .start _ | .next => []

/-- One access of the firmware (R253). `FW_ACK` is one `Write32(CMDI)` that clears DONE, and R253 does not say what the other
bits of the word written are: they are those that `CMDI` holds, so BUSY and the accompanying word stay as they stand (DESIGN
CHOICE, log 16). -/
def State.act (s : State) : FwAct → State
  | .poke off b => s.pokeByte .dsp off b
  | .cmdo w => s.setReg .cmdo w
  | .cmdi w => s.setReg .cmdi w
  | .ack => s.setReg .cmdi (merged s.regs.cmdi s.cfg.cmdiDone 0)
  | .imrd v => s.setReg .imrd v

/-- The firmware begins a move: its accesses are to be made. `FW_READY` counts as made from then on (R253: once after each
start). -/
def State.fwBegin (s : State) (m : EnvMove) : State :=
  { s with fw := m.acts s
           readySent := s.readySent || (match m with | .fwReady _ _ _ => true | _ => false) }

/-- The firmware makes the next access of its move. A core that does not run makes none. -/
def State.fwNext (s : State) : State :=
  match s.fw with
  | [] => s
  | x :: xs => if s.coreRunning then { s with fw := xs }.act x else s

/-- The firmware makes `n` accesses, no other agent moving in between. -/
def State.fwRun : Nat → State → State
  | 0, s => s
  | n + 1, s => State.fwRun n s.fwNext

/-- The effect of an enabled move (R253). A firmware move taken whole is begun and all its accesses are made; with `start`
and `next` any other agent may move between them (R77). -/
def EnvMove.effect (s : State) : EnvMove → State
  | .pwrReady => { s with pmhw := 0 }
  | .pwrBusy v => { s with pmhw := v &&& s.cfg.pmSts.mask, readySent := false, fw := [] }
  | .fwFree r off v => s.store r off v
  | .gate spans => { s with gated := spans }
  | .start m => s.fwBegin m
  | .next => s.fwNext
  | m => State.fwRun (m.acts s).length (s.fwBegin m)

/-- One move of the environment. -/
def State.move (s : State) (m : EnvMove) : State := if m.enabled s then m.effect s else s

/-- Moves in order. -/
def State.moves (s : State) (ms : List EnvMove) : State := ms.foldl State.move s

/-- The environment's moves during one delay, taken from the schedule (R103, R297; log 2). -/
def State.delayMoves (s : State) : State :=
  match s.atDelay with
  | [] => s
  | ms :: rest => State.moves { s with atDelay := rest } ms

/-- `Delay(ms)` by agent `who` (R17, R80): at least `ms` milliseconds pass and the environment may move. -/
def State.delay (s : State) (who : Agent) (ms : Nat) : State :=
  ({ s with elapsed := s.elapsed + ms }.record (.delay who ms)).delayMoves

end Sys2Proof.Machine
end

