-- ==== Sys2Proof/Machine/Flow.lean ====
section
/-! DEFINITION. What one micro-step, and a run of micro-steps, can come to. -/

namespace Sys2Proof.Machine

/-- What one micro-step of a listing comes to. -/
inductive Next where
  /-- It is done; `rest` is what remains to be done before the next entry of the listing. -/
  | to (rest : List Micro) (s : State)
  /-- An error was raised: the operation goes on at its closing entry (R17). -/
  | raised (s : State)
  /-- It cannot be taken now: the lock has an owner (R17 `Acquire`). -/
  | wait
  /-- The model refuses the operation. -/
  | refuse (r : Refusal)
deriving DecidableEq, Repr

/-- What a run of micro-steps comes to. -/
inductive Flow where
  /-- All are done. -/
  | go (s : State)
  /-- An error was raised and no closing entry has been met yet. -/
  | raised (s : State)
  /-- The first entry of `rest` has to wait for the lock. -/
  | blocked (rest : List Micro) (s : State)
  /-- The model refuses the operation. -/
  | refuse (r : Refusal)
deriving DecidableEq, Repr

/-- The closing entries: the end of an operation, and of one that a consumer presented. -/
def Micro.closes : Micro → Bool
  | .idle | .ret _ _ => true
  | _ => false

/-- Entries in order. `skip` says that an error was raised: the entries before the next closing one are not performed
(R17: "ends the current operation with no further access"). -/
def runFrom (f : Micro → State → Flow) : Bool → List Micro → State → Flow
  | skip, [], s => if skip then .raised s else .go s
  | skip, m :: ms, s =>
    if skip && !m.closes then runFrom f true ms s
    else
      match f m s with
      | .go s' => runFrom f false ms s'
      | .raised s' => runFrom f true ms s'
      | .blocked rest s' => .blocked (rest ++ ms) s'
      | .refuse r => .refuse r

/-- Entries in order, from the first. -/
def runList (f : Micro → State → Flow) (ms : List Micro) (s : State) : Flow := runFrom f false ms s

/-- Units `b`, `b+1`, … of a copy, `n` of them, in ascending order (R76). -/
def unitsLoop (f : Nat → State → State) : Nat → Nat → State → State
  | _, 0, s => s
  | b, n + 1, s => unitsLoop f (b + 1) n (f b s)

/-- All the units of the spans, in ascending order within each. -/
def spansLoop (f : Nat → State → State) (pend : List Span) (s : State) : State :=
  pend.foldl (fun s p => unitsLoop f p.base p.len s) s

/-- How many units are still to be made. -/
def units (pend : List Span) : Nat := pend.foldr (fun p n => p.len + n) 0

/-- The `pick`-th of the units still to be made, and the others; none if there are no more than `pick` (R76: a model keeps
every order). -/
def takeUnit : Nat → List Span → Option (Nat × List Span)
  | _, [] => none
  | pick, p :: ps =>
    if pick < p.len then
      some (p.base + pick,
        (if pick = 0 then [] else [⟨p.base, pick⟩]) ++
        (if p.len - pick = 1 then [] else [⟨p.base + pick + 1, p.len - pick - 1⟩]) ++ ps)
    else
      match takeUnit (pick - p.len) ps with
      | some (k, rest) => some (k, p :: rest)
      | none => none

end Sys2Proof.Machine
end

