-- ==== Sys2Proof/Machine/AccessSteps.lean ====
section
/-! DEFINITION. The micro-steps of the access layer (R16, R75, R76, R111 to R116). -/

namespace Sys2Proof.Machine

/-- The local word of a slot, written. -/
def Locals.setSlot (l : Locals) (v : Word) : Slot → Locals
  | .old => { l with old := v }
  | .lo => { l with lo := v }
  | .hi => { l with hi := v }
  | .isr => { l with isr := v }
  | .cmdo => { l with cmdo := v }
  | .cmdi => { l with cmdi := v }

/-- What a listing keeps of a word it has read: all of it, or for `isr` the bits that the stage may look at (R183). -/
def kept (s : State) (a : Agent) (r : Region) (off : Nat) : Slot → Word
  | .isr => s.seen r off
  | .old | .lo | .hi | .cmdo | .cmdi => (s.read32 a r off).1

/-- `slot <- Read32(rgn, off)`. -/
def readStep (a : Agent) (r : Region) (off : Nat) (slot : Slot) (s : State) : State :=
  (s.read32 a r off).2.setLoc a (((s.read32 a r off).2.loc a).setSlot (kept s a r off slot) slot)

/-- The write half of `Update32`: `Write32(rgn, off, (old & ~mask) | (val & mask))`, always issued (R16). -/
def mergeStep (a : Agent) (r : Region) (off : Nat) (mask val : Word) (s : State) : State :=
  s.write32 a r off (merged (s.loc a).old mask val)

/-- One of the two reads of `READ64` and what is left (R75); an even `pick` takes the low word first. -/
def read64Step (a : Agent) (pick : Nat) (r : Region) (off : Nat) (s : State) : Next :=
  if pick % 2 = 0 then .to [.read r (off + 4) .hi] (readStep a r off .lo s)
  else .to [.read r off .lo] (readStep a r (off + 4) .hi s)

/-- One of the two writes of `WRITE64` and what is left (R75). -/
def write64Step (a : Agent) (pick : Nat) (r : Region) (off : Nat) (lo hi : Word) (s : State) : Next :=
  if pick % 2 = 0 then .to [.write r (off + 4) hi] (s.write32 a r off lo)
  else .to [.write r off lo] (s.write32 a r (off + 4) hi)

/-- Full group `k` of a bulk write (R116): one `Write32` of four bytes of host memory. -/
def groupUnit (a : Agent) (r : Region) (off haddr : Nat) (k : Nat) (s : State) : State :=
  s.write32 a r (off + 4 * k) (Memory.readWord s.hm (haddr + 4 * k))

/-- Byte `i` of a bulk read (R115), into host memory or into the operation's buffer. -/
def byteUnit (a : Agent) (r : Region) (off : Nat) (dest : Dest) (i : Nat) (s : State) : State :=
  match dest with
  | .host base =>
    { (s.read8 a r (off + i)).2 with hm := Memory.write (s.read8 a r (off + i)).2.hm (base + i) (s.read8 a r (off + i)).1 }
  | .buf base =>
    (s.read8 a r (off + i)).2.setLoc a
      { (s.read8 a r (off + i)).2.loc a with
        buf := Memory.write ((s.read8 a r (off + i)).2.loc a).buf (base + i) (s.read8 a r (off + i)).1 }

/-- The low `n` bytes of a word built from host memory (R116: `t` before the pad, `n < 4`). -/
def tailBytes (m : Memory) (haddr n : Nat) : Word :=
  wordOf (if 0 < n then Memory.read m haddr else 0) (if 1 < n then Memory.read m (haddr + 1) else 0)
    (if 2 < n then Memory.read m (haddr + 2) else 0) 0

/-- The padded tail word (R116): `n` payload bytes below `4 - n` bytes of a free value. -/
def tailWord (m : Memory) (haddr n : Nat) (pad : Word) : Word := tailBytes m haddr n ||| (pad <<< (8 * n))

/-- The final unit of a bulk write (R116); none when the length is a multiple of 4. -/
def tailStep (a : Agent) (r : Region) (off haddr n : Nat) (s : State) : State :=
  if n = 0 then s else s.draw.2.write32 a r off (tailWord s.hm haddr n s.draw.1)

/-- One unit of a copy, chosen by the schedule among those that are left, and the entry that is left. Every `pick` chooses
one: the units are numbered in a circle. -/
def unitStep (pick : Nat) (pend : List Span) (f : Nat → State → State) (left : List Span → Micro) (s : State) : Next :=
  match takeUnit (pick % units pend) pend with
  | none => .to [] s
  | some (k, []) => .to [] (f k s)
  | some (k, rest) => .to [left rest] (f k s)

/-- `RESULT0 <- lo`. -/
def result0Step (a : Agent) (s : State) : State := s.setEx a { s.ex a with result0 := (s.loc a).lo }

/-- `RESULT0 <- lo; RESULT1 <- hi`. -/
def result01Step (a : Agent) (s : State) : State :=
  s.setEx a { s.ex a with result0 := (s.loc a).lo, result1 := (s.loc a).hi }

end Sys2Proof.Machine
end

