-- ==== Sys2Proof/Machine/Listing.lean ====
section
/-! DEFINITION. The listing of each operation (R25): the micro-steps of its rule, in order. A meaning runs its listing;
so does an operation taken micro-step by micro-step, and one that a consumer presents. -/

namespace Sys2Proof.Machine

/-- `Update32(rgn, off, mask, val)`: a read and then a write, not indivisible (R16). -/
def update (r : Region) (off : Nat) (mask val : Word) : List Micro := [.read r off .old, .merge r off mask val]

/-- `Update32(S)` for a step descriptor (R131). -/
def updateStep (d : StepDesc) : List Micro := update d.rgn d.off d.mask d.val

/-- The units of a bulk write: the full groups, then the padded tail word (R76, R116). -/
def bulkWrite (r : Region) (off haddr len : Nat) : List Micro :=
  (if len / 4 = 0 then [] else [.copyIn r off haddr [⟨0, len / 4⟩]]) ++
  (if len % 4 = 0 then [] else [.tail r (off + 4 * (len / 4)) (haddr + 4 * (len / 4)) (len % 4)])

/-- The units of a bulk read (R76, R115). -/
def bulkRead (r : Region) (off : Nat) (dest : Dest) (len : Nat) : List Micro :=
  if len = 0 then [] else [.copyOut r off dest [⟨0, len⟩]]

/-- R111. -/
def read32Listing (r : Region) (off : Word) : List Micro := [.read r off.toNat .lo, .result0, .ok]

/-- R112. -/
def write32Listing (r : Region) (off val : Word) : List Micro := [.write r off.toNat val, .ok]

/-- R113. -/
def read64Listing (r : Region) (off : Word) : List Micro := [.read64 r off.toNat, .result01, .ok]

/-- R114. -/
def write64Listing (r : Region) (off lo hi : Word) : List Micro := [.write64 r off.toNat lo hi, .ok]

/-- R115. -/
def blkrdListing (r : Region) (off haddr len : Word) : List Micro :=
  bulkRead r off.toNat (.host haddr.toNat) len.toNat ++ [.ok]

/-- R116. -/
def blkwrListing (r : Region) (off haddr len : Word) : List Micro :=
  bulkWrite r off.toNat haddr.toNat len.toNat ++ [.ok]

/-- The assertion of reset and stall, the hold and the release of reset: S1 to S3, and E8 to E10 (R131, R132). -/
def pulseListing (c : Cfg) : List Micro :=
  update .dsp c.csrOff (c.csrRst ||| c.csrStall) (c.csrRst ||| c.csrStall) ++ [.delay tHold] ++
  update .dsp c.csrOff (c.csrRst ||| c.csrStall) c.csrStall

/-- R131, steps E1 to E16 (E6 is the end of `poll`). -/
def enterD0Listing (c : Cfg) : List Micro :=
  updateStep c.stGateOff ++ updateStep c.stPdOff ++ updateStep c.stD0Req ++ [.pwr .requested] ++
  [.poll nPoll] ++
  updateStep c.stClkSel ++ pulseListing c ++
  updateStep c.stCgPolicy ++ updateStep c.stPgDefault ++ updateStep c.stQuirkOff ++
  [.acquire] ++ update .dsp c.imrhOff (c.imrhDone ||| c.imrhBusy) 0 ++
  update .dsp c.imrdOff (c.imrdDone ||| c.imrdBusy) 0 ++ [.release] ++
  [.write .dsp c.cmdoOff 0, .write .dsp c.cmdiOff 0, .write .dsp c.scr0Off 0, .write .dsp c.scr1Off 0] ++
  [.pwr .ready, .ok]

/-- R132. -/
def resetListing (c : Cfg) : List Micro := pulseListing c ++ [.pwr .afterReset, .ok]

/-- R133. -/
def runListing (c : Cfg) : List Micro :=
  update .dsp c.dmamodeOff c.dmamodeOpp 0 ++ update .dsp c.csrOff c.csrStall 0 ++ [.pwr .afterRun, .ok]

/-- R161. -/
def mboxwrListing (boxoff haddr size : Word) : List Micro := [.boxWrite boxoff haddr size, .ok]

/-- R162. -/
def mboxrdListing (boxoff haddr size : Word) : List Micro := [.boxRead boxoff haddr size, .ok]

/-- R163, steps M1 to M4. -/
def sendmsgListing (c : Cfg) (haddr size : Word) : List Micro :=
  [.boxWrite 0 haddr size] ++ update .dsp c.cmdoOff c.cmdoBusy c.cmdoBusy ++ [.ok]

/-- R164, steps P1 to P6. -/
def getreplyListing (haddr expect : Word) : List Micro := [.header, .judge expect, .readBack haddr, .replyResult]

/-- R183, steps I1 to I7. Like every operation that raises nothing it ends with `OK` (R26, R231; log 23). -/
def irqimmListing (c : Cfg) : List Micro :=
  [.acquire, .read .dsp c.isrOff .isr, .given .isrDone, .given .isrBusy, .release, .wakeOrNone, .ok]

/-- X1 to X5 of R220, with the operands of `PANICCAP` or, for `none`, of `IRQDEFER` step W5a. -/
def captureListing (args : Option (Word × Word × Word)) : List Micro :=
  [.capBegin args, .capSnap, .capStack, .capEmit, .ok]

/-- R189, steps W1 to W6, ending with `OK` (R26, R231; log 23). -/
def irqdeferListing (c : Cfg) : List Micro :=
  [.clearPending, .read .dsp c.cmdoOff .cmdo, .given .replyReady, .read .dsp c.cmdiOff .cmdi, .given .panic,
   .given .message, .handled, .ok]

/-- What a conditional of the listings guards: I4 and I5 (R183), W3a to W3d, W5a and W5b (R189). -/
def guarded (c : Cfg) : Cond → List Micro
  | .isrDone => update .dsp c.imrhOff c.imrhDone c.imrhDone ++ [.setWork]
  | .isrBusy => update .dsp c.imrhOff c.imrhBusy c.imrhBusy ++ [.setWork]
  | .replyReady =>
    [.hdrRead, .emitReply, .call .reply] ++ update .dsp c.cmdoOff c.cmdoDone 0 ++
    [.acquire] ++ update .dsp c.imrhOff c.imrhDone 0 ++ [.release]
  | .panic => captureListing none
  | .message => [.emitMsg, .call .message]

/-- R195, steps C1 to C3. -/
def cmddoneListing (c : Cfg) : List Micro :=
  update .dsp c.cmdiOff (c.cmdiBusy ||| c.cmdiDone) c.cmdiDone ++
  [.acquire] ++ update .dsp c.imrhOff c.imrhBusy 0 ++ [.release, .ok]

/-- R212, steps F1 to F8 (F6 is what `fwrExtdata` goes on to). -/
def fwreadyListing : List Micro :=
  [.fwrBegin, .fwrRead, .fwrOutbox, .fwrInbox, .fwrVersion, .fwrExtdata, .zeroBox, .ok]

/-- R220. -/
def paniccapListing (off cmdo cmdi : Word) : List Micro := captureListing (some (off, cmdo, cmdi))

/-- The listing of an operation, without the closing entry. -/
def listing (c : Cfg) : Instr → List Micro
  | .read32 r off => read32Listing r off
  | .write32 r off v => write32Listing r off v
  | .read64 r off => read64Listing r off
  | .write64 r off lo hi => write64Listing r off lo hi
  | .blkrd r off h n => blkrdListing r off h n
  | .blkwr r off h n => blkwrListing r off h n
  | .enterD0 => enterD0Listing c
  | .reset => resetListing c
  | .run => runListing c
  | .mboxwr b h n => mboxwrListing b h n
  | .mboxrd b h n => mboxrdListing b h n
  | .sendmsg h n => sendmsgListing c h n
  | .getreply h n => getreplyListing h n
  | .irqimm => irqimmListing c
  | .irqdefer => irqdeferListing c
  | .cmddone => cmddoneListing c
  | .fwready => fwreadyListing
  | .paniccap off o n => paniccapListing off o n

end Sys2Proof.Machine
end

