-- ==== Sys2Proof/Machine/MailboxSteps.lean ====
section
/-! DEFINITION. The micro-steps of the mailbox transport (R160 to R164). -/

namespace Sys2Proof.Machine

/-- A check that refuses, or a micro-step with what is left of it (R67). -/
def orRefuse (b : Option Breach) (n : Next) : Next :=
  match b with
  | some b => .refuse (.contract b)
  | none => n

/-- M1 and M2 (R163), and `MBOXWR` (R161): the outbound box is read once, checked (R160 (b)), and the bulk write begins. -/
def boxWriteStep (boxoff haddr size : Word) (s : State) : Next :=
  orRefuse (boxWriteBreach s.cfg s.ctx.outbox boxoff.toNat size.toNat)
    (.to (bulkWrite .dsp (s.ctx.outbox.off + boxoff.toNat) haddr.toNat size.toNat) s)

/-- `MBOXRD` (R162): the inbound box is read once, checked, and the bulk read begins. -/
def boxReadStep (boxoff haddr size : Word) (s : State) : Next :=
  orRefuse (boxReadBreach s.cfg s.ctx.inbox boxoff.toNat size.toNat)
    (.to (bulkRead .dsp (s.ctx.inbox.off + boxoff.toNat) (.host haddr.toNat) size.toNat) s)

/-- P1 and P2 (R164): the outbound box is read once, checked, and the header is read into the buffer. -/
def headerStep (a : Agent) (s : State) : Next :=
  orRefuse (boxReadBreach s.cfg s.ctx.outbox 0 s.cfg.rhSize)
    (.to (bulkRead .dsp s.ctx.outbox.off (.buf 0) s.cfg.rhSize) (s.setLoc a { s.loc a with box := s.ctx.outbox }))

/-- P3 and P4 (R164): `size`, `kind` and `ev` from the header's `declared` and `err`. -/
def judgement (c : Cfg) (hdr : Memory) (expect : Word) : Nat × Kind × Word :=
  if isNegative (Memory.readWord hdr c.rhErrOff) then (c.rhSize, .fwError, Memory.readWord hdr c.rhErrOff)
  else if Memory.readWord hdr c.rhSizeOff ≠ expect then (expect.toNat, .sizeMismatch, 0)
  else ((Memory.readWord hdr c.rhSizeOff).toNat, .ok, 0)

/-- P3 and P4 (R164). -/
def judgeStep (a : Agent) (expect : Word) (s : State) : State :=
  s.setLoc a { s.loc a with
    size := (judgement s.cfg (s.loc a).buf expect).1
    kind := (judgement s.cfg (s.loc a).buf expect).2.1
    ev := (judgement s.cfg (s.loc a).buf expect).2.2 }

/-- The check of P5 (R164, R66): the read-back lies in the box captured at P1, in the region and in host memory. -/
def readBackBreach (c : Cfg) (x : Box) (haddr size : Nat) : Option Breach :=
  match boxReadBreach c x 0 size with
  | some b => some b
  | none => if haddr + size ≤ hostSize then none else some .outOfHost

/-- P5 (R164): the read-back from the box base begins, or is refused. -/
def readBackStep (a : Agent) (haddr : Word) (s : State) : Next :=
  orRefuse (readBackBreach s.cfg (s.loc a).box haddr.toNat (s.loc a).size)
    (.to (bulkRead .dsp (s.loc a).box.off (.host haddr.toNat) (s.loc a).size) s)

/-- P6 (R164): `RESULT0 <- size; STATUS <- kind; ERRVAL <- ev`, and neither kind is fatal (R231). -/
def replyResultStep (a : Agent) (s : State) : State :=
  s.setEx a { s.ex a with
    result0 := BitVec.ofNat 32 (s.loc a).size
    status := (s.loc a).kind.code
    errval := (s.loc a).ev }

end Sys2Proof.Machine
end

