-- ==== Sys2Proof/Machine/DoorbellSteps.lean ====
section
/-! DEFINITION. The micro-steps of the doorbell dispatcher (R183, R189) and of the consumers' calls (R190, R193, R252). -/

namespace Sys2Proof.Machine

/-- I7 (R183). -/
def wakeStep (a : Agent) (s : State) : State :=
  if (s.loc a).work then { s with deferPending := true }.irqReturn irqWake else s.irqReturn irqNone

/-- W3b (R189): `Emit(EV_REPLY(hdr, cmdo))`. -/
def emitReplyStep (a : Agent) (s : State) : State :=
  s.emit (.reply (Memory.readBytes (s.loc a).buf 0 s.cfg.rhSize) (s.loc a).cmdo)

/-- The descriptor is a `GETREPLY`. -/
def isGetreply (d : Desc) : Bool :=
  match decodeDesc d with
  | .ok (.getreply _ _) => true
  | _ => false

/-- The reply consumer presents `GETREPLY` at most once in a call (R190). -/
def callAllowed (c : Consumer) (ds : List Desc) : Bool :=
  match c with
  | .reply => (ds.filter isGetreply).length ≤ 1
  | .message => true

/-- The call of a consumer (R190, R193, R252): what it presents is the next entry of its policy; a call with none left
returns at once (log 22). -/
def callStep (c : Consumer) (s : State) : Next :=
  match c, s.replyCalls, s.msgCalls with
  | .reply, ds :: rest, _ =>
    if callAllowed .reply ds then .to (ds.map (Micro.present .reply)) { s with replyCalls := rest }
    else .refuse .notPermitted
  | .message, _, ds :: rest => .to (ds.map (Micro.present .message)) { s with msgCalls := rest }
  | .reply, [], _ => .to [] s
  | .message, _, [] => .to [] s

/-- A consumer presents a descriptor through the worker agent (R252). An illegal one raises `ILLEGAL_OP` (R97) as on a port:
it is no operation and has no listing, so `SEQ.op` and the listing in progress stay, and the deferred stage goes on (log 22).
A legal one is checked against the consumer's
set and the caller's contract, and its listing goes before what is left of the deferred stage. It is then the operation in
progress, with local variables of its own (log 14). -/
def presentStep (a : Agent) (c : Consumer) (d : Desc) (s : State) : Next :=
  match decodeDesc d with
  | .error _ => .to [] (s.raise a .illegalOp (descWord d 0))
  | .ok i =>
    if callPermits c i then
      orRefuse (contractBreach s.cfg i)
        (.to (listing s.cfg i ++ [.ret (s.loc a).cmdo (s.loc a).cmdi]) (s.nest a i))
    else .refuse .notPermitted

end Sys2Proof.Machine
end

