-- ==== Sys2Proof/Machine/HandshakeSteps.lean ====
section
/-! DEFINITION. The micro-steps of the firmware-ready handshake (R212, R213) and of the panic capture (R220). -/

namespace Sys2Proof.Machine

/-- An assignment to a context register (R21). -/
def Ctx.apply (x : Ctx) : CtxMove → Ctx
  | .fwrDone => { x with fwrDone := true }
  | .outbox b => { x with outbox := b }
  | .inbox b => { x with inbox := b }
  | .streambox b => { x with streambox := b }
  | .excOff off => { x with excOff := off }
  | .excValid => { x with excValid := true }
  | .diag d => { x with diag := x.diag ++ [d] }

/-- One assignment to a context register. -/
def ctxStep (s : State) (m : CtxMove) : State := { s with ctx := s.ctx.apply m }

/-- F1 and the base of F2 (R212); a second handshake is refused (U11). -/
def fwrBeginStep (a : Agent) (s : State) : Next :=
  if s.ctx.fwrDone then .refuse .secondHandshake
  else .to [] ((ctxStep s .fwrDone).setLoc a { s.loc a with fbase := s.ctx.inbox.off + s.cfg.fwrOff })

/-- A range check of a bulk read of `RGN[0]` into the buffer (R66), or the read (R212, R220). Only the region bounds it: R61
lists `FWREADY` and `PANICCAP` as inside or relative to a box, but whether the box clause of R66 then applies no rule says
(DEDUCED, log 40). -/
def fetchStep (c : Cfg) (off at' n : Nat) (s : State) : Next :=
  orRefuse (if regionFits c .dsp off n then none else some .outOfRegion) (.to (bulkRead .dsp off (.buf at') n) s)

/-- `u32at(b, k)` as a natural (R212). -/
def u32at (b : Memory) (k : Nat) : Nat := (Memory.readWord b k).toNat

/-- A box that the firmware declares: the offset is from `MBOX_BASE` (R212, D44). -/
def declaredBox (c : Cfg) (b : Memory) (offAt sizeAt : Nat) : Box := ⟨c.mboxBase + u32at b offAt, u32at b sizeAt⟩

/-- F5 (R212): the owner of the extended data answers with the window table. -/
def fwrExtdataStep (a : Agent) (s : State) : Next :=
  .to [.windows 0 (winTable s.cfg.winTableOf ((s.loc a).fbase + s.cfg.fwr.size)).2]
    ((s.emit (.extdata ((s.loc a).fbase + s.cfg.fwr.size))).setLoc a
      { s.loc a with winOff := (winTable s.cfg.winTableOf ((s.loc a).fbase + s.cfg.fwr.size)).1 })

/-- W3a (R189): `MemRead(RGN[0], CTX.OUTBOX.off, RH_SIZE)`, no access to a box (R61): only the region bounds it (R66;
log 25). -/
def hdrReadStep (s : State) : Next := fetchStep s.cfg s.ctx.outbox.off 0 s.cfg.rhSize s

/-- A window that registers a read-only diagnostic region (R213). -/
def registerRegion (name : DiagName) (b : Box) : List Micro :=
  [.emit (.region name .dsp b.off b.size), .ctx (.diag ⟨name, .dsp, b.off, b.size⟩)]

/-- R213: what an element of type `t` with the place `b = (MBOX_BASE + off, size)` does. Each arm that goes on ends with the
jump back to the loop, past the micro-steps of the arms after it (Machine/Sequencer.lean). -/
def windowEffect (c : Cfg) (t : Word) (b : Box) : List Micro :=
  if t = c.wtInbox then [.ctx (.inbox b), .armEnd 20]
  else if t = c.wtOutbox then [.ctx (.outbox b), .armEnd 18]
  else if t = c.wtTrace then registerRegion .trace b ++ [.armEnd 15]
  else if t = c.wtDebug then registerRegion .debug b ++ [.armEnd 12]
  else if t = c.wtRegs then registerRegion .regs b ++ [.armEnd 9]
  else if t = c.wtException then registerRegion .exception b ++ [.ctx (.excOff b.off), .ctx .excValid, .armEnd 4]
  else if t = c.wtStream then [.ctx (.streambox b), .armEnd 2]
  else [.emit (.log .configBadWindow t), .raise .configBadWindow t]

/-- F7 (R212): a box whose size is 0 is an error, logged and then raised (R234). -/
def zeroBoxStep (s : State) : Next :=
  if s.ctx.inbox.size = 0 ∨ s.ctx.outbox.size = 0 then
    .to [.emit (.log .configZeroBox 0), .raise .configZeroBox 0] s
  else .to [] s

/-- X1 (R220): the recorded offset if there is one, else the panic-encoded one; for `none` the operands are those of
`IRQDEFER` step W5a, `PANIC_OFFSET_OF(cmdi, cmdo), cmdo, cmdi` (R189). -/
def capBeginStep (a : Agent) (args : Option (Word × Word × Word)) (s : State) : State :=
  match args.getD (panicOffset (s.loc a).cmdi (s.loc a).cmdo s.cfg.panicOffsetOf, (s.loc a).cmdo, (s.loc a).cmdi) with
  | (off, cmdo, cmdi) =>
    s.setLoc a { s.loc a with
      used := if s.ctx.excValid then s.ctx.excOff else off.toNat
      capOff := off
      capCmdo := cmdo
      capCmdi := cmdi }

/-- X4 (R220). -/
def capEmitStep (a : Agent) (s : State) : State :=
  s.emit (.diag (Memory.readBytes (s.loc a).buf 0 s.cfg.xoopsSize)
    (Memory.readWords (s.loc a).buf s.cfg.xoopsSize s.cfg.stackWords)
    (s.loc a).capCmdo (s.loc a).capCmdi (s.loc a).used (s.loc a).capOff)

end Sys2Proof.Machine
end

