-- ==== Sys2Proof/Machine/PowerSteps.lean ====
section
/-! DEFINITION. The micro-steps of the power controller (R131 to R134) and of the lock (R17, R29). -/

namespace Sys2Proof.Machine

/-- The assignments to `PWR.state` (R134), with the model's record of the request and of its confirmation (log 11). -/
def pwrStep (s : State) : PwrMove → State
  | .requested => { s with pwr := .d0Transitioning, d0Requested := true }
  | .ready => { s with pwr := .stalledReady }
  | .afterReset => if s.pwr = .offD3 then s else { s with pwr := .stalledReady }
  | .afterRun => if s.pwr = .stalledReady then { s with pwr := .running } else s
  | .timedOut => { s with pwr := .offD3, d0Confirmed := false }

/-- One read of the status field: the field's value (R44) and the state after the read. -/
def pollRead (a : Agent) (s : State) : Word × State :=
  ((s.read32 a s.cfg.pmSts.rgn s.cfg.pmSts.off).1 &&& s.cfg.pmSts.mask,
   (s.read32 a s.cfg.pmSts.rgn s.cfg.pmSts.off).2)

/-- The head of the loop of E5 with `tries` reads left: the loop, or E6 (R131). -/
def pollLoop (tries : Nat) : List Micro := if tries = 0 then [.pwr .timedOut, .raise .timeout 0] else [.poll tries]

/-- A read of E5 with `tries` reads left (R131, R137). -/
def pollStep (a : Agent) (tries : Nat) (s : State) : Next :=
  match tries with
  | 0 => .to (pollLoop 0) s
  | n + 1 =>
    if (pollRead a s).1 = 0 then .to [] { (pollRead a s).2 with d0Confirmed := true }
    else .to [.pollWait n] (pollRead a s).2

/-- The whole poll loop with `tries` reads left (R131 E5 and E6). -/
def pollAll (a : Agent) : Nat → State → Flow
  | 0, s => .raised ((pwrStep s .timedOut).raise a .timeout 0)
  | n + 1, s =>
    if (pollRead a s).1 = 0 then .go { (pollRead a s).2 with d0Confirmed := true }
    else pollAll a n ((pollRead a s).2.delay a tPoll)

/-- `Acquire(LOCK)` (R17): it waits while the lock has an owner. -/
def acquireStep (a : Agent) (s : State) : Next :=
  match s.lock with
  | none => .to [] { s with lock := some a }
  | some _ => .wait

end Sys2Proof.Machine
end

