-- ==== Sys2Proof/Machine/Sequencer.lean ====
section
/-! DEFINITION. `SEQ.step` (R15, R25): the number, in its operation's listing, of the micro-step that a sequencer stands at,
and how the sequencer moves on. -/

namespace Sys2Proof.Machine

/-- The micro-steps of the arms of the dispatch on a window type (R213), each arm that goes on ending with the jump back to
the loop: `WT_INBOX` 2, `WT_OUTBOX` 2, `WT_TRACE` 3, `WT_DEBUG` 3, `WT_REGS` 3, `WT_EXCEPTION` 5, `WT_STREAM` 2, any other 2.
-/
def armSpan : Nat := 22

/-- The micro-steps of the loop over the window elements: its test, the read of an element, the dispatch, the arms (R212). -/
def windowsSpan (c : Cfg) : Nat := 1 + (1 + c.fwr.elemSize) + 1 + armSpan

/-- How many micro-steps of its listing an entry stands for (R25): an access, a unit of a copy (R76), a delay, an update, a
test are one each, and so is the capture of a box or of a range that begins a copy. What a consumer presents and what
closes an operation have no place in the listing they stand in. -/
def Micro.baseSpan (c : Cfg) (l : Locals) : Micro → Nat
  | .read64 _ _ | .write64 _ _ _ _ => 2
  | .copyIn _ _ _ pend | .copyOut _ _ _ pend => units pend
  | .poll tries => if tries = 0 then 2 else 4
  | .pollWait _ => 3
  | .boxWrite _ _ n => 1 + (n.toNat + 3) / 4
  | .boxRead _ _ n => 1 + n.toNat
  | .header | .hdrRead => 1 + c.rhSize
  | .readBack _ => 1 + l.size
  | .fwrRead => 1 + c.fwr.size
  | .fwrExtdata => 1 + windowsSpan c
  | .windows _ _ => 0
  | .winRead _ => 1 + c.fwr.elemSize
  | .winDispatch => 1 + armSpan
  | .armEnd skip => 1 + skip
  | .zeroBox => 3
  | .capSnap => 1 + c.xoopsSize
  | .capStack => 1 + 4 * c.stackWords
  | .present _ _ | .ret _ _ | .idle => 0
  | _ => 1

/-- The same, a conditional standing for its test and for what it guards. -/
def Micro.span (c : Cfg) (l : Locals) : Micro → Nat
  | .given k => 1 + ((guarded c k).map (Micro.baseSpan c l)).sum
  | m => m.baseSpan c l

/-- The micro-steps of the entries before the first closing one. -/
def spanTo (c : Cfg) (l : Locals) (ms : List Micro) : Nat :=
  ((ms.takeWhile (fun m => !m.closes)).map (Micro.span c l)).sum

/-- The micro-steps from the one that comes next to the last of the listing. A loop over the window elements that comes next
is still to be gone through; one that stands after entries of its own body has been counted with them. -/
def spanLeft (c : Cfg) (l : Locals) (todo : List Micro) : Nat :=
  match todo with
  | .windows _ _ :: ms => windowsSpan c + spanTo c l ms
  | ms => spanTo c l ms

/-- The number, from 1, of the micro-step that comes next when `todo` is left of operation `i` (R25). -/
def place (c : Cfg) (l : Locals) (i : Instr) (todo : List Micro) : Nat :=
  1 + spanTo c l (listing c i) - spanLeft c l todo

/-- The sequencer of agent `a` moves on to `todo`, and `SEQ.step` to the micro-step that comes next: the one after, or the
one that a conditional, a loop or the end of an arm goes to (R25). -/
def State.advance (s : State) (a : Agent) (todo : List Micro) : State :=
  match (s.ex a).op with
  | some i => (s.setTodo a todo).goto a (place s.cfg (s.loc a) i todo)
  | none => s

end Sys2Proof.Machine
end

