-- ==== Sys2Proof/Machine/Micro.lean ====
section
/-! DEFINITION. The meaning of each entry of a listing: one micro-step of it (`unit`), and all of it with no other agent
moving in between (`entire`); an operation run to its end or to a lock wait (`perform`). -/

namespace Sys2Proof.Machine

/-- One micro-step of an entry by agent `a` (R25); `pick` chooses among units whose order no rule fixes (R75, R76). -/
def unit (a : Agent) (pick : Nat) : Micro → State → Next
  | .read r off slot, s => .to [] (readStep a r off slot s)
  | .write r off v, s => .to [] (s.write32 a r off v)
  | .merge r off mask val, s => .to [] (mergeStep a r off mask val s)
  | .read64 r off, s => read64Step a pick r off s
  | .write64 r off lo hi, s => write64Step a pick r off lo hi s
  | .copyIn r off h pend, s => unitStep pick pend (groupUnit a r off h) (Micro.copyIn r off h) s
  | .tail r off h n, s => .to [] (tailStep a r off h n s)
  | .copyOut r off dest pend, s => unitStep pick pend (byteUnit a r off dest) (Micro.copyOut r off dest) s
  | .delay ms, s => .to [] (s.delay a ms)
  | .acquire, s => acquireStep a s
  | .release, s => .to [] { s with lock := none }
  | .emit e, s => .to [] (s.emit e)
  | .raise k info, s => .raised (s.raise a k info)
  | .ctx m, s => .to [] (ctxStep s m)
  | .pwr m, s => .to [] (pwrStep s m)
  | .ok, s => .to [] (s.result a .ok 0)
  | .result0, s => .to [] (result0Step a s)
  | .result01, s => .to [] (result01Step a s)
  | .poll tries, s => pollStep a tries s
  | .pollWait tries, s => .to (pollLoop tries) (s.delay a tPoll)
  | .boxWrite b h n, s => boxWriteStep b h n s
  | .boxRead b h n, s => boxReadStep b h n s
  | .header, s => headerStep a s
  | .hdrRead, s => hdrReadStep s
  | .judge expect, s => .to [] (judgeStep a expect s)
  | .readBack h, s => readBackStep a h s
  | .replyResult, s => .to [] (replyResultStep a s)
  | .setWork, s => .to [] (s.setLoc a { s.loc a with work := true })
  | .wakeOrNone, s => .to [] (wakeStep a s)
  | .clearPending, s => .to [] { s with deferPending := false }
  | .emitReply, s => .to [] (emitReplyStep a s)
  | .emitMsg, s => .to [] (s.emit (.msg (s.loc a).cmdi))
  | .call c, s => callStep c s
  | .present c d, s => presentStep a c d s
  | .ret o n, s => .to [] (s.unnest a o n)
  | .handled, s => .to [] (s.irqReturn irqHandled)
  | .fwrBegin, s => fwrBeginStep a s
  | .fwrRead, s => fetchStep s.cfg (s.loc a).fbase 0 s.cfg.fwr.size s
  | .fwrOutbox, s =>
    .to [] (ctxStep s (.outbox (declaredBox s.cfg (s.loc a).buf s.cfg.fwr.hbOffAt s.cfg.fwr.hbSizeAt)))
  | .fwrInbox, s =>
    .to [] (ctxStep s (.inbox (declaredBox s.cfg (s.loc a).buf s.cfg.fwr.dbOffAt s.cfg.fwr.dbSizeAt)))
  | .fwrVersion, s => .to [] (s.emit (.version (Memory.readBytes (s.loc a).buf s.cfg.fwr.verAt s.cfg.fwr.verLen)))
  | .fwrExtdata, s => fwrExtdataStep a s
  | .windows k n, s =>
    match n with
    | 0 => .to [] s
    | n + 1 => .to [.winRead k, .winDispatch, .windows (k + 1) n] s
  | .winRead k, s => fetchStep s.cfg ((s.loc a).winOff + k * s.cfg.fwr.elemSize) 0 s.cfg.fwr.elemSize s
  | .winDispatch, s =>
    .to (windowEffect s.cfg (Memory.readWord (s.loc a).buf s.cfg.fwr.typeAt)
      (declaredBox s.cfg (s.loc a).buf s.cfg.fwr.offAt s.cfg.fwr.sizeAt)) s
  | .armEnd _, s => .to [] s
  | .zeroBox, s => zeroBoxStep s
  | .capBegin args, s => .to [] (capBeginStep a args s)
  | .capSnap, s => fetchStep s.cfg (s.loc a).used 0 s.cfg.xoopsSize s
  | .capStack, s => fetchStep s.cfg ((s.loc a).used + s.cfg.xoopsSize) s.cfg.xoopsSize (4 * s.cfg.stackWords) s
  | .capEmit, s => .to [] (capEmitStep a s)
  | .given c, s => .to (if c.holds s.cfg (s.loc a) then guarded s.cfg c else []) s
  | .idle, s => .to [] (s.finish a)

/-- Window elements `k`, `k+1`, …, `n` of them, each read and dispatched by `f` (R212 F6). -/
def windowsAll (f : Micro → State → Flow) : Nat → Nat → State → Flow
  | _, 0, s => .go s
  | k, n + 1, s =>
    match runList f [.winRead k, .winDispatch] s with
    | .go s' => windowsAll f (k + 1) n s'
    | .raised s' => .raised s'
    | .blocked rest s' => .blocked (rest ++ [.windows (k + 1) n]) s'
    | .refuse r => .refuse r

/-- All of an entry, no other agent moving in between, the units of a copy in ascending order. `depth` bounds how far
entries stand for further entries: a conditional, a call, a descriptor presented in it, the entries of that operation, its
windows, their effects. -/
def entire : Nat → Agent → Micro → State → Flow
  | 0, a, m, s =>
    match unit a 0 m s with
    | .to [] s' => .go s'
    | .to rest s' => .blocked rest s'
    | .raised s' => .raised s'
    | .wait => .blocked [m] s
    | .refuse r => .refuse r
  | depth + 1, a, m, s =>
    match m with
    | .copyIn r off h pend => .go (spansLoop (groupUnit a r off h) pend s)
    | .copyOut r off dest pend => .go (spansLoop (byteUnit a r off dest) pend s)
    | .poll tries => pollAll a tries s
    | .pollWait tries => pollAll a tries (s.delay a tPoll)
    | .windows k n => windowsAll (entire depth a) k n s
    | m =>
      match unit a 0 m s with
      | .to rest s' => runList (entire depth a) rest s'
      | .raised s' => .raised s'
      | .wait => .blocked [m] s
      | .refuse r => .refuse r

/-- The entries that an agent has still to do, run until the operation ends or an `Acquire` has to wait; in that case the
agent keeps what is left, with `SEQ.step` at the micro-step that waits (R25). -/
def runAgent (a : Agent) (todo : List Micro) (s : State) : Host.Outcome State Fault Refusal :=
  match runList (entire 8 a) todo s with
  | .go s' => .next s'
  | .raised s' => .next s'
  | .blocked rest s' => .next (s'.advance a rest)
  | .refuse r => .refused r

/-- The presenting agent executes operation `i` with listing `ms`: the port's checks (R98, R99, R110 (b)), the start, the
listing and the end (R25). -/
def perform (i : Instr) (ms : List Micro) (s : State) : Host.Outcome State Fault Refusal :=
  match portRefusal s s.presenter i with
  | some r => .refused r
  | none => runAgent s.presenter (ms ++ [.idle]) (s.start s.presenter i [])

end Sys2Proof.Machine
end

