-- ==== Sys2Proof/Machine/Access.lean ====
section
/-! DEFINITION. The meanings of the register and memory access operations (40_access.md). -/

namespace Sys2Proof.Machine

/-- `READ32` (R111). -/
def execRead32 (r : Region) (off : Word) (s : State) : Host.Outcome State Fault Refusal :=
  perform (.read32 r off) (read32Listing r off) s

/-- `WRITE32` (R112). -/
def execWrite32 (r : Region) (off val : Word) (s : State) : Host.Outcome State Fault Refusal :=
  perform (.write32 r off val) (write32Listing r off val) s

/-- `READ64` (R113). -/
def execRead64 (r : Region) (off : Word) (s : State) : Host.Outcome State Fault Refusal :=
  perform (.read64 r off) (read64Listing r off) s

/-- `WRITE64` (R114). -/
def execWrite64 (r : Region) (off lo hi : Word) (s : State) : Host.Outcome State Fault Refusal :=
  perform (.write64 r off lo hi) (write64Listing r off lo hi) s

/-- `BLKRD` (R115). -/
def execBlkrd (r : Region) (off haddr len : Word) (s : State) : Host.Outcome State Fault Refusal :=
  perform (.blkrd r off haddr len) (blkrdListing r off haddr len) s

/-- `BLKWR` (R116). -/
def execBlkwr (r : Region) (off haddr len : Word) (s : State) : Host.Outcome State Fault Refusal :=
  perform (.blkwr r off haddr len) (blkwrListing r off haddr len) s

end Sys2Proof.Machine
end

