-- ==== Sys2Proof/Machine/Doorbell.lean ====
section
/-! DEFINITION. The meanings of the doorbell dispatcher's operations (43_doorbell.md). -/

namespace Sys2Proof.Machine

/-- `IRQIMM` (R183). -/
def execIrqimm (s : State) : Host.Outcome State Fault Refusal := perform .irqimm (irqimmListing s.cfg) s

/-- `IRQDEFER` (R189). -/
def execIrqdefer (s : State) : Host.Outcome State Fault Refusal := perform .irqdefer (irqdeferListing s.cfg) s

/-- `CMDDONE` (R195). -/
def execCmddone (s : State) : Host.Outcome State Fault Refusal := perform .cmddone (cmddoneListing s.cfg) s

end Sys2Proof.Machine
end

