-- ==== Sys2Proof/Machine/Handshake.lean ====
section
/-! DEFINITION. The meanings of the firmware-ready handshake and of the panic capture (44_handshake_panic.md). -/

namespace Sys2Proof.Machine

/-- `FWREADY` (R212). -/
def execFwready (s : State) : Host.Outcome State Fault Refusal := perform .fwready fwreadyListing s

/-- `PANICCAP` (R220). -/
def execPaniccap (off cmdo cmdi : Word) (s : State) : Host.Outcome State Fault Refusal :=
  perform (.paniccap off cmdo cmdi) (paniccapListing off cmdo cmdi) s

end Sys2Proof.Machine
end

