-- ==== Sys2Proof/Machine/Mailbox.lean ====
section
/-! DEFINITION. The meanings of the mailbox operations (42_mailbox.md). -/

namespace Sys2Proof.Machine

/-- `MBOXWR` (R161). -/
def execMboxwr (boxoff haddr size : Word) (s : State) : Host.Outcome State Fault Refusal :=
  perform (.mboxwr boxoff haddr size) (mboxwrListing boxoff haddr size) s

/-- `MBOXRD` (R162). -/
def execMboxrd (boxoff haddr size : Word) (s : State) : Host.Outcome State Fault Refusal :=
  perform (.mboxrd boxoff haddr size) (mboxrdListing boxoff haddr size) s

/-- `SENDMSG` (R163). -/
def execSendmsg (haddr size : Word) (s : State) : Host.Outcome State Fault Refusal :=
  perform (.sendmsg haddr size) (sendmsgListing s.cfg haddr size) s

/-- `GETREPLY` (R164). -/
def execGetreply (haddr expect : Word) (s : State) : Host.Outcome State Fault Refusal :=
  perform (.getreply haddr expect) (getreplyListing haddr expect) s

end Sys2Proof.Machine
end

