-- ==== Sys2Proof/Machine/Power.lean ====
section
/-! DEFINITION. The meanings of the power and reset operations (41_power.md). -/

namespace Sys2Proof.Machine

/-- `ENTER_D0` (R131). -/
def execEnterD0 (s : State) : Host.Outcome State Fault Refusal := perform .enterD0 (enterD0Listing s.cfg) s

/-- `RESET` (R132). -/
def execReset (s : State) : Host.Outcome State Fault Refusal := perform .reset (resetListing s.cfg) s

/-- `RUN` (R133). -/
def execRun (s : State) : Host.Outcome State Fault Refusal := perform .run (runListing s.cfg) s

end Sys2Proof.Machine
end

