-- ==== Sys2Proof/Machine/Dispatch.lean ====
section
/-! DEFINITION. The dispatch of an operation to its meaning, one arm per constructor. -/

namespace Sys2Proof.Machine

def exec (i : Instr) (s : State) : Host.Outcome State Fault Refusal :=
  match i with
  | .read32 r off => Sys2Proof.Machine.execRead32 r off s
  | .write32 r off val => Sys2Proof.Machine.execWrite32 r off val s
  | .read64 r off => Sys2Proof.Machine.execRead64 r off s
  | .write64 r off lo hi => Sys2Proof.Machine.execWrite64 r off lo hi s
  | .blkrd r off haddr len => Sys2Proof.Machine.execBlkrd r off haddr len s
  | .blkwr r off haddr len => Sys2Proof.Machine.execBlkwr r off haddr len s
  | .enterD0 => Sys2Proof.Machine.execEnterD0 s
  | .reset => Sys2Proof.Machine.execReset s
  | .run => Sys2Proof.Machine.execRun s
  | .mboxwr boxoff haddr size => Sys2Proof.Machine.execMboxwr boxoff haddr size s
  | .mboxrd boxoff haddr size => Sys2Proof.Machine.execMboxrd boxoff haddr size s
  | .sendmsg haddr size => Sys2Proof.Machine.execSendmsg haddr size s
  | .getreply haddr expect => Sys2Proof.Machine.execGetreply haddr expect s
  | .irqimm => Sys2Proof.Machine.execIrqimm s
  | .irqdefer => Sys2Proof.Machine.execIrqdefer s
  | .cmddone => Sys2Proof.Machine.execCmddone s
  | .fwready => Sys2Proof.Machine.execFwready s
  | .paniccap off cmdo cmdi => Sys2Proof.Machine.execPaniccap off cmdo cmdi s

end Sys2Proof.Machine
end

