-- ==== Sys2Proof/Machine/Port.lean ====
section
/-! DEFINITION. What each input of the port does (R50, R98, R99, R250, R259): a descriptor presented and taken to its end,
a descriptor only presented, one micro-step, an environment move, detach; and what the block does when no input is left
(R182, R187, R254). -/

namespace Sys2Proof.Machine

/-- Why agent `a`'s command port takes no descriptor at all (R99, R275, U15): it raises nothing then (R238). -/
def portClosed (s : State) (a : Agent) : Option Refusal :=
  if !s.attached then some .detached
  else if (s.ex a).op.isSome then some .busy
  else if a == .host && s.halt then some .halted
  else none

/-- Agent `a` presents `d` and the operation is executed; an illegal descriptor raises `ILLEGAL_OP` (R97). -/
def presentRun (a : Agent) (d : Desc) (s : State) : Host.Outcome State Fault Refusal :=
  match portClosed s a with
  | some r => .refused r
  | none =>
    match decodeDesc d with
    | .error _ => .next (s.raise a .illegalOp (descWord d 0))
    | .ok i => exec i { s with presenter := a }

/-- Agent `a` presents `d` and takes no micro-step yet (R25, R250). -/
def presentOnly (a : Agent) (d : Desc) (s : State) : Host.Outcome State Fault Refusal :=
  match portClosed s a with
  | some r => .refused r
  | none =>
    match decodeDesc d with
    | .error _ => .next (s.raise a .illegalOp (descWord d 0))
    | .ok i =>
      match portRefusal s a i with
      | some r => .refused r
      | none => .next (s.start a i (listing s.cfg i ++ [.idle]))

/-- Agent `a` takes one micro-step (R250). An idle agent, and one that waits for the lock, takes none. -/
def microStep (a : Agent) (pick : Nat) (s : State) : Host.Outcome State Fault Refusal :=
  match (s.ex a).todo with
  | [] => .next s
  | m :: ms =>
    match unit a pick m s with
    | .to rest s' => .next (s'.advance a (rest ++ ms))
    | .raised s' => .next (s'.advance a (ms.dropWhile (fun m => !m.closes)))
    | .wait => .next s
    | .refuse r => .refused r

/-- Detach (R275): refused while deferred work is pending or an agent is inside an operation (U10). -/
def detachStep (s : State) : Host.Outcome State Fault Refusal :=
  if !s.attached then .refused .detached
  else if s.deferPending || s.host.op.isSome || s.irq.op.isSome || s.worker.op.isSome then .refused .detachBusy
  else .next { s with attached := false }

/-- The agent has an operation in progress whose next micro-step can be taken. -/
def canMove (s : State) (a : Agent) : Bool :=
  match (s.ex a).todo with
  | [] => false
  | .acquire :: _ => s.lock == none
  | _ :: _ => true

/-- `IRQIMM` is due: the line is high and the interrupt agent idle (R182, R254). -/
def lineDue (s : State) : Bool := s.attached && s.irqLine && s.irq.op.isNone

/-- `IRQDEFER` is due: work is pending and the worker idle (R187, R254). -/
def workDue (s : State) : Bool := s.attached && s.deferPending && s.worker.op.isNone

/-- With no input left the block does what its fairness promises (R182, R187, R254), in this order: an operation in
progress goes on; a high line is taken by `IRQIMM`, or pending work by `IRQDEFER`, and where both are due the one that was
not taken last; else nothing happens (log 19). -/
def settle (s : State) : Host.Outcome State Fault Refusal :=
  if canMove s .irq then runAgent .irq s.irq.todo s
  else if canMove s .worker then runAgent .worker s.worker.todo s
  else if canMove s .host then runAgent .host s.host.todo s
  else if lineDue s && !(workDue s && s.lastTaken == .irq) then exec .irqimm { s with presenter := .irq, lastTaken := .irq }
  else if workDue s then exec .irqdefer { s with presenter := .worker, lastTaken := .worker }
  else .next s

/-- What one input does. -/
def take (i : Input) (s : State) : Host.Outcome State Fault Refusal :=
  match i with
  | .op a d => presentRun a d s
  | .begin a d => presentOnly a d s
  | .micro a pick => microStep a pick s
  | .env m => .next (s.move m)
  | .detach => detachStep s

/-- The outcome under a well-formed configuration; any other is refused (R13). -/
def ifConfigured (s : State) (o : Host.Outcome State Fault Refusal) : Host.Outcome State Fault Refusal :=
  if s.cfg.wf then o else .refused .badConfig

/-- One step of the whole system: the next input, or what the block does when none is left. -/
def stepPort (s : State) : Host.Outcome State Fault Refusal :=
  match s.port with
  | [] => ifConfigured s (settle s)
  | i :: rest => ifConfigured s (take i { s with port := rest })

/-- The agent that presents a descriptor when it is placed as the next one: the first that may (R98). -/
def firstPresenter (d : Desc) : Agent :=
  match decodeDesc d with
  | .ok i => (presenters i).headD .host
  | .error _ => .host

/-- The descriptor `d` placed as the only input, on the port of the first agent that may present it, that agent idle, the
block attached and its host port not halted (log 2). -/
def placeDesc (s : State) (d : Desc) : State :=
  { s.finish (firstPresenter d) with port := [.op (firstPresenter d) d], attached := true, halt := false }

end Sys2Proof.Machine
end

