-- ==== Sys2Proof/Machine/Step.lean ====
section
/-! DEFINITION. One step of the machine, and how an instruction is placed where the next step takes it. -/

namespace Sys2Proof.Machine

/-- One step (R250, R259). -/
def step (s : State) : Host.Outcome State Fault Refusal := stepPort s

/-- `s` with the descriptor of bits `w` as the next and only input. The block fetches no instructions (R25): a program is
what is presented on the command port, so this stands for the presentation (log 2). -/
def State.withFetchWord (s : State) (nbits w : Nat) : State := placeDesc s (BitVec.ofNat 128 (w % 2 ^ nbits))

end Sys2Proof.Machine
end

