-- ==== Sys2Proof/Safety.lean ====
section
/-! DEFINITION. The terms in which statements are made: when an operation may be presented, what a byte or a register reads
as, what an operation leaves unchanged, how it ends, what a well-kept state is. -/

namespace Sys2Proof.Machine

/-! ## Presenting an operation -/

/-- The presenting agent may present `i` now (R98, R99, R250, R275). The caller's contract of R64 and R66 is not part of it. -/
def Presentable (s : State) (i : Instr) : Prop :=
  s.attached = true ∧ (s.ex s.presenter).op = none ∧ (s.presenter = .host → s.halt = false) ∧ s.presenter ∈ presenters i

/-- `n` bytes of host memory at `a` lie inside it (R66). -/
def HostRange (a n : Nat) : Prop := a + n ≤ 2 ^ 32

/-- `n` bytes at `off` lie inside region `r` (R66). -/
def RegionRange (s : State) (r : Region) (off n : Nat) : Prop := off + n ≤ s.cfg.regionSize r

/-! ## What is read -/

/-- What a byte of a region reads as where it is accessible and no byte of `ISR` (R30, R44, R63). -/
def State.byteAt (s : State) (r : Region) (x : Nat) : Byte := wordByte (s.word r (x - x % 4)) (x % 4)

/-- The byte is one of `ISR`, whose free bits are drawn at each read (R32). -/
def State.isIsrByte (s : State) (r : Region) (x : Nat) : Bool := s.isIsr r (x - x % 4)

/-- The four bytes of the word at `off` are accessible and plain: no device register's, not `ISR`'s, not the power status
field's (R30, R32, R44, R48 (f)). -/
def State.plainWord (s : State) (r : Region) (off : Nat) : Prop :=
  s.inaccessible r off = false ∧ (r = .dsp → off ∉ s.cfg.offsets) ∧ s.isPm r off = false

/-- The `n` bytes from `x` are accessible, and none is a device register's, `ISR`'s or the power status field's. -/
def State.plainBytes (s : State) (r : Region) (x n : Nat) : Prop :=
  ∀ i < n, s.inaccessible r (x + i) = false ∧ s.plainWord r (x + i - (x + i) % 4)

/-- The power status field is not laid over a device register (R44). -/
def State.pmApart (s : State) : Prop := s.cfg.pmSts.rgn = .comp ∨ s.cfg.pmSts.off ∉ s.cfg.offsets

/-- The device registers are accessible and the power status field is not laid over one of them (R44, R282). -/
def State.registersPlain (s : State) : Prop := (∀ o ∈ s.cfg.offsets, s.inaccessible .dsp o = false) ∧ s.pmApart

/-! ## What is left unchanged -/

/-- The block-side registers: `CTX`, `PWR.state`, `DEFER.pending`, `LOCK.owner`, `SEQ.halt`, `IRQRET` (R21, R25 to R29). -/
def SameBlock (s t : State) : Prop :=
  t.ctx = s.ctx ∧ t.pwr = s.pwr ∧ t.deferPending = s.deferPending ∧ t.lock = s.lock ∧ t.halt = s.halt ∧ t.irqRet = s.irqRet

/-- The device registers and the power status value (R31 to R38, R44). -/
def SameDevice (s t : State) : Prop := t.regs = s.regs ∧ t.pmhw = s.pmhw

/-- Every plain byte of both regions (R45). -/
def SameRegions (s t : State) : Prop := ∀ r x, Memory.read (t.mem r) x = Memory.read (s.mem r) x

/-- Every byte of host memory (R49). -/
def SameHost (s t : State) : Prop := ∀ x, Memory.read t.hm x = Memory.read s.hm x

/-- The records of the agents other than `a` (R250). -/
def SameOthers (a : Agent) (s t : State) : Prop := ∀ b, b ≠ a → t.ex b = s.ex b

/-- The result registers `RESULT0` and `RESULT1` of agent `a` (R26). -/
def SameResults (a : Agent) (s t : State) : Prop :=
  (t.ex a).result0 = (s.ex a).result0 ∧ (t.ex a).result1 = (s.ex a).result1

/-- What no operation changes: the configuration, the attachment, what is gated, the inputs still to come, the schedule of
the environment and of the consumers. -/
def SameSetting (s t : State) : Prop :=
  t.cfg = s.cfg ∧ t.attached = s.attached ∧ t.gated = s.gated ∧ t.port = s.port ∧ t.presenter = s.presenter ∧
    t.replyCalls = s.replyCalls ∧ t.msgCalls = s.msgCalls ∧ t.atDelay = s.atDelay ∧ t.lastTaken = s.lastTaken

/-- No event was emitted and no time was waited (R46, R48 (d)). -/
def Silent (s t : State) : Prop := t.events = s.events ∧ t.elapsed = s.elapsed

/-- Everything but the record of agent `a`, the drawn-value counter and the trace (R110 (d), (e)). -/
def SameAll (a : Agent) (s t : State) : Prop :=
  SameBlock s t ∧ SameDevice s t ∧ SameRegions s t ∧ SameHost s t ∧ SameOthers a s t ∧ SameSetting s t ∧ Silent s t

/-- As `SameAll`, but for host memory, of which the `n` bytes from `base` may change. -/
def SameButHost (a : Agent) (base n : Nat) (s t : State) : Prop :=
  SameBlock s t ∧ SameDevice s t ∧ SameRegions s t ∧
    (∀ x, ¬(base ≤ x ∧ x < base + n) → Memory.read t.hm x = Memory.read s.hm x) ∧
    SameOthers a s t ∧ SameSetting s t ∧ Silent s t

/-- As `SameAll`, but for the plain bytes and the device registers among the `n` bytes from `off` of region `r`. -/
def SameButRange (a : Agent) (r : Region) (off n : Nat) (s t : State) : Prop :=
  SameBlock s t ∧ t.pmhw = s.pmhw ∧
    (∀ g, ¬(r = .dsp ∧ off ≤ regOff s.cfg g ∧ regOff s.cfg g < off + n) → t.regs.get g = s.regs.get g) ∧
    (∀ r' x, ¬(r' = r ∧ off ≤ x ∧ x < off + n) → Memory.read (t.mem r') x = Memory.read (s.mem r') x) ∧
    (∀ r' x, ¬(r' = r ∧ off ≤ x ∧ x < off + n) → t.byteAt r' x = s.byteAt r' x) ∧
    SameHost s t ∧ SameOthers a s t ∧ SameSetting s t ∧ Silent s t

/-- The `n` bytes from `x` are accessible and none is a byte of `ISR`: a read finds in them what `byteAt` says. -/
def State.readable (s : State) (r : Region) (x n : Nat) : Prop :=
  ∀ i < n, s.inaccessible r (x + i) = false ∧ s.isIsrByte r (x + i) = false

/-- The bytes that a read of `n` bytes from `x` finds, lowest address first. -/
def State.bytesAt (s : State) (r : Region) (x n : Nat) : List Byte := (List.range n).map (fun i => s.byteAt r (x + i))

/-- The little-endian word whose four bytes a read from `x` finds, with any alignment (R62). -/
def State.leWord (s : State) (r : Region) (x : Nat) : Word :=
  wordOf (s.byteAt r x) (s.byteAt r (x + 1)) (s.byteAt r (x + 2)) (s.byteAt r (x + 3))

/-- The `n` little-endian words from `x`. -/
def State.wordsAt (s : State) (r : Region) (x n : Nat) : List Word := (List.range n).map (fun i => s.leWord r (x + 4 * i))

/-- No byte of box `b`, nor any of the words laid over it, is a device register's or the power status field's (R13 (k), R44). -/
def State.boxClear (s : State) (b : Box) : Prop :=
  (∀ o ∈ s.cfg.offsets, o + 4 ≤ b.off ∨ b.off + b.size ≤ o) ∧
    (s.cfg.pmSts.rgn = .dsp → s.cfg.pmSts.off + 4 ≤ b.off ∨ b.off + b.size ≤ s.cfg.pmSts.off)

/-- As `SameAll`, but for the block-side registers, time and the events, and but for the device registers `gs`. -/
def SameButRegs (a : Agent) (gs : List DevReg) (s t : State) : Prop :=
  t.pmhw = s.pmhw ∧ (∀ g, g ∉ gs → t.regs.get g = s.regs.get g) ∧ SameRegions s t ∧ SameHost s t ∧ SameOthers a s t ∧
    SameSetting s t

/-! ## How an operation ends -/

/-- Agent `a` is idle again (R25). -/
def Idle (a : Agent) (t : State) : Prop := (t.ex a).op = none ∧ (t.ex a).step = 0 ∧ (t.ex a).todo = []

/-- Agent `a` is idle again and its `STATUS` and `ERRVAL` are the kind `k` and `info` (R25, R26). -/
def Ended (a : Agent) (k : Kind) (info : Word) (t : State) : Prop :=
  (t.ex a).op = none ∧ (t.ex a).step = 0 ∧ (t.ex a).todo = [] ∧ (t.ex a).status = k.code ∧ (t.ex a).errval = info

/-! ## Accesses -/

/-- `Update32(r, off, mask, val)` by agent `a`, nothing moving between its two accesses (R16). -/
def State.update32 (s : State) (a : Agent) (r : Region) (off : Nat) (mask val : Word) : State :=
  mergeStep a r off mask val (readStep a r off .old s)

/-- All the accesses of a bulk write, in ascending order, nothing moving between them (R116). -/
def State.bulkIn (s : State) (a : Agent) (r : Region) (off haddr len : Nat) : State :=
  tailStep a r (off + 4 * (len / 4)) (haddr + 4 * (len / 4)) (len % 4)
    (unitsLoop (groupUnit a r off haddr) 0 (len / 4) s)

/-- All the accesses of a bulk read, in ascending order, nothing moving between them (R115). -/
def State.bulkOut (s : State) (a : Agent) (r : Region) (off : Nat) (dest : Dest) (len : Nat) : State :=
  unitsLoop (byteUnit a r off dest) 0 len s

/-- The form of a bus record, without the value that was moved. -/
inductive Access where
  | read (r : Region) (off : Nat)
  | write (r : Region) (off : Nat)
  | readByte (r : Region) (off : Nat)
  | wait (ms : Nat)
deriving DecidableEq, Repr

/-- The form of a bus record. -/
def BusRec.access : BusRec → Access
  | .rd32 _ r off _ => .read r off
  | .wr32 _ r off _ => .write r off
  | .rd8 _ r off _ => .readByte r off
  | .delay _ ms => .wait ms

/-- The two accesses of an `Update32` (R16). -/
def updateAccess (r : Region) (off : Nat) : List Access := [.read r off, .write r off]

/-- The bus records that `t` has beyond those of `s`, as forms. -/
def newAccesses (s t : State) : List Access := (t.bus.drop s.bus.length).map BusRec.access

/-- The reads of `n` bytes from `off`, one after another (R76). -/
def byteReads (r : Region) (off n : Nat) : List Access := (List.range n).map (fun i => .readByte r (off + i))

/-- The writes of `n` words from `off`, one after another (R116). -/
def wordWrites (r : Region) (off n : Nat) : List Access := (List.range n).map (fun k => .write r (off + 4 * k))

/-- An access that R64, R65 and R66 allow: a word at a 4-aligned offset inside its region, or a byte inside it. -/
def Access.allowed (c : Cfg) : Access → Prop
  | .read r off => off % 4 = 0 ∧ off + 4 ≤ c.regionSize r
  | .write r off => off % 4 = 0 ∧ off + 4 ≤ c.regionSize r
  | .readByte r off => off + 1 ≤ c.regionSize r
  | .wait _ => True

/-! ## Power -/

/-- No step descriptor that `ENTER_D0` performs after releasing reset writes `CSR.RST` or `CSR.STALL` (E11 to E13, R131). -/
def StepsClear (c : Cfg) : Prop :=
  ∀ d ∈ [c.stCgPolicy, c.stPgDefault, c.stQuirkOff], d.rgn = .dsp → d.off = c.csrOff → d.mask &&& (c.csrRst ||| c.csrStall) = 0

/-- The two accesses of an `Update32` of a step descriptor. -/
def stepAccess (d : StepDesc) : List Access := updateAccess d.rgn d.off

/-- The accesses of E1 to E3 (R131). -/
def enterD0Request (c : Cfg) : List Access := stepAccess c.stGateOff ++ stepAccess c.stPdOff ++ stepAccess c.stD0Req

/-- One poll that finds the field not 0: the read and the wait of 20 ms (R131 E5). -/
def failedPolls (c : Cfg) (n : Nat) : List Access :=
  (List.replicate n [Access.read c.pmSts.rgn c.pmSts.off, Access.wait 20]).flatten

/-- The accesses of S1 to S3 (R132). -/
def resetAccesses (c : Cfg) : List Access := updateAccess .dsp c.csrOff ++ [.wait 10] ++ updateAccess .dsp c.csrOff

/-- The accesses of E7 to E15 (R131). -/
def enterD0Setup (c : Cfg) : List Access :=
  stepAccess c.stClkSel ++ resetAccesses c ++ stepAccess c.stCgPolicy ++ stepAccess c.stPgDefault ++ stepAccess c.stQuirkOff ++
    updateAccess .dsp c.imrhOff ++ updateAccess .dsp c.imrdOff ++
    [.write .dsp c.cmdoOff, .write .dsp c.cmdiOff, .write .dsp c.scr0Off, .write .dsp c.scr1Off]

/-- The bits of a device register that `ENTER_D0` writes by itself, whatever the step descriptors target (E8, E10, E14, E15). -/
def enterD0Mask (c : Cfg) : DevReg → Word
  | .csr => c.csrRst ||| c.csrStall
  | .imrh => c.imrhDone ||| c.imrhBusy
  | .imrd => c.imrdDone ||| c.imrdBusy
  | .cmdo | .cmdi | .scr0 | .scr1 => BitVec.allOnes 32
  | .dmamode => 0

/-- What is accessed before D0 is confirmed can be: the targets of E1 to E3 and the power status field lie in the companion
region or are accessible (R131, U6). -/
def State.requestReadable (s : State) : Prop :=
  (∀ d ∈ [s.cfg.stGateOff, s.cfg.stPdOff, s.cfg.stD0Req], s.inaccessible d.rgn d.off = false) ∧
    s.inaccessible s.cfg.pmSts.rgn s.cfg.pmSts.off = false

/-- The power hardware's value after one move (R253): `PWR_READY` makes it 0, an enabled `PWR_BUSY` another. -/
def powerMove (c : Cfg) (v : Word) : EnvMove → Word
  | .pwrReady => 0
  | .pwrBusy w => if w &&& c.pmSts.mask = 0 then v else w &&& c.pmSts.mask
  | _ => v

/-- The power status field after the environment's moves in the next `j` delays: what poll `j`, counted from 0, finds (R44,
R131 E5, R137). -/
def State.statusAt (s : State) (j : Nat) : Word :=
  (s.atDelay.take j).flatten.foldl (powerMove s.cfg) s.pmhw &&& s.cfg.pmSts.mask

/-- The byte is none of the four of a step descriptor's target. -/
def OffTarget (d : StepDesc) (r : Region) (x : Nat) : Prop := ¬(d.rgn = r ∧ d.off ≤ x ∧ x < d.off + 4)

/-! ## Mailbox -/

/-- How many bytes `GETREPLY` copies back (R164 P4): the header where its error field is negative, else what was expected. -/
def State.replySize (s : State) (expect : Word) : Nat :=
  if (s.leWord .dsp (s.ctx.outbox.off + s.cfg.rhErrOff)).toInt < 0 then s.cfg.rhSize else expect.toNat

/-! ## The handshake -/

/-- The seven window types (R213). -/
def windowTypes (c : Cfg) : List Word :=
  [c.wtInbox, c.wtOutbox, c.wtTrace, c.wtDebug, c.wtStream, c.wtRegs, c.wtException]

/-- Element `k` of a window table at `x`: its type and its place, counted from `MBOX_BASE` (R212 F6). -/
def State.window (s : State) (x k : Nat) : Word × Box :=
  (s.leWord .dsp (x + k * s.cfg.fwr.elemSize + s.cfg.fwr.typeAt),
   ⟨s.cfg.mboxBase + (s.leWord .dsp (x + k * s.cfg.fwr.elemSize + s.cfg.fwr.offAt)).toNat,
    (s.leWord .dsp (x + k * s.cfg.fwr.elemSize + s.cfg.fwr.sizeAt)).toNat⟩)

/-- The elements of a window table of `n` elements at `x`. -/
def State.windowTable (s : State) (x n : Nat) : List (Word × Box) := (List.range n).map (s.window x)

/-- The name under which a window type registers a diagnostic region, if it does (R213). -/
def regionName (c : Cfg) (t : Word) : Option DiagName :=
  if t = c.wtTrace then some .trace
  else if t = c.wtDebug then some .debug
  else if t = c.wtRegs then some .regs
  else if t = c.wtException then some .exception
  else none

/-- The place of the last element of type `t`, or `b` where there is none (R212: the later one wins). -/
def lastOf (t : Word) (els : List (Word × Box)) (b : Box) : Box :=
  match els.reverse.find? (fun e => e.1 == t) with
  | some e => e.2
  | none => b

/-- The entries that the elements append to `CTX.DIAG` (R213). -/
def windowDiag (c : Cfg) (els : List (Word × Box)) : List DiagEntry :=
  els.filterMap (fun e => (regionName c e.1).map (fun n => ⟨n, .dsp, e.2.off, e.2.size⟩))

/-- The context registers after the elements `els` (R213), those of F1 and F3 set before them. -/
def discovered (c : Cfg) (x : Ctx) (els : List (Word × Box)) : Ctx :=
  { x with
    inbox := lastOf c.wtInbox els x.inbox
    outbox := lastOf c.wtOutbox els x.outbox
    streambox := lastOf c.wtStream els x.streambox
    excOff := (lastOf c.wtException els ⟨x.excOff, 0⟩).off
    excValid := x.excValid || els.any (fun e => e.1 == c.wtException)
    diag := x.diag ++ windowDiag c els }

/-- Where the descriptor lies (R212 F2). -/
def State.fwrBase (s : State) : Nat := s.ctx.inbox.off + s.cfg.fwrOff

/-- The window table's place and length (R211). -/
def State.fwrTable (s : State) : Nat × Nat := winTable s.cfg.winTableOf (s.fwrBase + s.cfg.fwr.size)

/-- The context registers after F3 (R212). -/
def State.declared (s : State) : Ctx :=
  { s.ctx with
    fwrDone := true
    outbox := ⟨s.cfg.mboxBase + (s.leWord .dsp (s.fwrBase + s.cfg.fwr.hbOffAt)).toNat,
      (s.leWord .dsp (s.fwrBase + s.cfg.fwr.hbSizeAt)).toNat⟩
    inbox := ⟨s.cfg.mboxBase + (s.leWord .dsp (s.fwrBase + s.cfg.fwr.dbOffAt)).toNat,
      (s.leWord .dsp (s.fwrBase + s.cfg.fwr.dbSizeAt)).toNat⟩ }

/-- The descriptor and the first `n` elements of the table can be read, the elements wherever the handshake has put the boxes
meanwhile: their bytes are in the region, accessible, and none is a byte of `ISR` (R66, R212, R282). -/
def State.handshakeReadable (s : State) (n : Nat) : Prop :=
  RegionRange s .dsp s.fwrBase s.cfg.fwr.size ∧ s.readable .dsp s.fwrBase s.cfg.fwr.size ∧
    (∀ k < n, RegionRange s .dsp (s.fwrTable.1 + k * s.cfg.fwr.elemSize) s.cfg.fwr.elemSize ∧
      ∀ x : Ctx, ({ s with ctx := x }).readable .dsp (s.fwrTable.1 + k * s.cfg.fwr.elemSize) s.cfg.fwr.elemSize)

/-- The events of F4, F5 and of the first elements `els` (R212, R213). -/
def State.handshakeEvents (s : State) (els : List (Word × Box)) : List Event :=
  [.version (s.bytesAt .dsp (s.fwrBase + s.cfg.fwr.verAt) s.cfg.fwr.verLen), .extdata (s.fwrBase + s.cfg.fwr.size)] ++
    (windowDiag s.cfg els).map (fun d => .region d.name d.rgn d.off d.size)

/-! ## Runs -/

/-- `n` steps of the machine, as long as each answers a next state. -/
def stepN : Nat → State → Host.Outcome State Fault Refusal
  | 0, s => .next s
  | n + 1, s =>
    match step s with
    | .next t => stepN n t
    | o => o

/-- `n` micro-steps of agent `a`, as long as each answers a next state, units taken in ascending order. -/
def microN (a : Agent) : Nat → State → Host.Outcome State Fault Refusal
  | 0, s => .next s
  | n + 1, s =>
    match microStep a 0 s with
    | .next t => microN a n t
    | o => o

/-! ## A well-kept state -/

/-- Every memory of the state is in its canonical form: the two regions, host memory and the agents' buffers. -/
def Canonical (s : State) : Prop :=
  Memory.wf s.dspMem ∧ Memory.wf s.compMem ∧ Memory.wf s.hm ∧ ∀ a, Memory.wf (s.loc a).buf

/-- What only grows or stays along a step, whatever the input: the configuration is fixed; `SEQ.halt`, `CTX.FWR_DONE` and
`CTX.EXC_VALID` are never cleared (R99, R21); `CTX.DIAG`, the events and the accesses are only appended to (R24, R46); time
does not run back (R48 (d)); a detached block stays detached (R275). -/
def Grows (s t : State) : Prop :=
  t.cfg = s.cfg ∧ (s.halt = true → t.halt = true) ∧ (s.ctx.fwrDone = true → t.ctx.fwrDone = true) ∧
    (s.ctx.excValid = true → t.ctx.excValid = true) ∧ s.ctx.diag <+: t.ctx.diag ∧ s.events <+: t.events ∧
    s.bus <+: t.bus ∧ s.elapsed ≤ t.elapsed ∧ (s.attached = false → t.attached = false)

/-! ## The lock -/

/-- What stands between an `Acquire` and its `Release`: reads and writes, the two conditionals of `IRQIMM`, and its local
note of work (R82). -/
def Micro.quiet : Micro → Bool
  | .read _ _ _ | .merge _ _ _ _ | .setWork | .given .isrDone | .given .isrBusy => true
  | _ => false

/-- The entries use the lock as R82 says, from a moment at which their agent owns it (`true`) or does not: every `Acquire` is
followed by its `Release`, with nothing but quiet entries between, and nothing else is released. -/
def lockOk : Bool → List Micro → Bool
  | owner, [] => !owner
  | false, .acquire :: ms => lockOk true ms
  | false, .release :: _ => false
  | false, _ :: ms => lockOk false ms
  | true, .release :: ms => lockOk false ms
  | true, m :: ms => m.quiet && lockOk true ms

/-- The end of the operation stands last, and nowhere else. -/
def idleLast : List Micro → Bool
  | [] => true
  | [m] => m == .idle
  | m :: ms => m != .idle && idleLast ms

/-- `LOCK.owner` is sound (R29, R82): the owner, if there is one, is an agent whose operation is in progress and still has
the release to do; the others release nothing that they have not acquired before. -/
def LockSound (s : State) : Prop :=
  ∀ a, lockOk (s.lock == some a) (s.ex a).todo = true ∧ idleLast (s.ex a).todo = true ∧
    ((s.ex a).op = none → (s.ex a).todo = [])

end Sys2Proof.Machine
end

