-- ==== Sys2Proof/Certificates/Slice0/Obligations.lean ====
section
/-! DEFINITION. The statements for the provers. -/

open Sys2Proof Sys2Proof.Machine

/-! ## Descriptors -/

/-- Descriptors written out from R91 to R94 decode to the operations they stand for. -/
def Obligations.DecodeKnownWords : Prop :=
  decode [0x01, 0x01, 0, 0, 0x04, 0x02, 0, 0, 0, 0, 0, 0, 0, 0, 0, 0] = .ok (.read32 .comp 0x204, []) ∧
  decode [0x04, 0, 0, 0, 0x20, 0, 0, 0, 0x88, 0x77, 0x66, 0x55, 0x44, 0x33, 0x22, 0x11] =
    .ok (.write64 .dsp 0x20 0x55667788 0x11223344, []) ∧
  decode [0x12, 0, 0, 0, 0, 0, 0, 0, 0, 0, 0, 0, 0, 0, 0, 0] = .ok (.run, []) ∧
  decode [0x22, 0, 0, 0, 0, 0, 0, 0, 0, 0x70, 0, 0, 0x0B, 0, 0, 0] = .ok (.sendmsg 0x7000 11, []) ∧
  decode [0x32, 0, 0, 0, 0, 0, 0, 0, 0, 0, 0, 0, 0, 0, 0, 0] = .ok (.cmddone, []) ∧
  decode [0x41, 0, 0, 0, 0, 0xEC, 0x09, 0, 0, 0x0C, 0, 0, 0, 0xD0, 0xEA, 0x8D] =
    .ok (.paniccap 0x9EC00 0xC00 0x8DEAD000, [])

/-- Decode and encode agree: the sixteen bytes of any operation, whatever follows them, decode to that operation (R90 to
R96, R104). -/
def Obligations.DecodeEncode : Prop :=
  ∀ (i : Instr) (rest : List Byte), decode (encodeBytes i ++ rest) = .ok (i, rest)

/-- R96: a descriptor is legal exactly when `W0[31:9]` is 0, `W0[7:0]` is one of the eighteen codes and `W0[8]` is 0 or the
operation is one of the six access operations; and decoding reads `W0` alone to tell which operation it is. -/
def Obligations.LegalDescriptors : Prop :=
  ∀ d : Desc,
    ((∃ i, decodeDesc d = .ok i) ↔
      (descWord d 0).extractLsb' 9 23 = 0 ∧
      (descWord d 0).extractLsb' 0 8 ∈
        ([0x01, 0x02, 0x03, 0x04, 0x05, 0x06, 0x10, 0x11, 0x12, 0x20, 0x21, 0x22, 0x23, 0x30, 0x31, 0x32, 0x40, 0x41] :
          List (BitVec 8)) ∧
      ((descWord d 0).getLsbD 8 = true →
        (descWord d 0).extractLsb' 0 8 ∈ ([0x01, 0x02, 0x03, 0x04, 0x05, 0x06] : List (BitVec 8)))) ∧
    (∀ i, decodeDesc d = .ok i → i.opcode = (descWord d 0) &&& 0xFF ∧ descWord (encode i) 0 = descWord d 0) ∧
    ∀ d' : Desc, descWord d' 0 = descWord d 0 → ((∃ i, decodeDesc d = .ok i) ↔ ∃ i, decodeDesc d' = .ok i)

/-! ## The command port -/

/-- A step runs the decoded operation: when the next input is a descriptor on the port of an agent that is attached, idle
and not halted, and its sixteen bytes decode to `i`, the step is `exec i` with that agent presenting and the input
consumed. That one step takes the whole operation from a list of inputs is the model's form (logs 1 and 2); the input `begin`
and the inputs `micro` take it one micro-step at a time, as R250 has it (`MicroStepsAgree`). -/
def Obligations.StepRunsDecoded : Prop :=
  ∀ (s : State) (a : Agent) (d : Desc) (i : Instr) (rest : List Input),
    s.cfg.wf = true → s.port = .op a d :: rest → s.attached = true → (s.ex a).op = none → (a = .host → s.halt = false) →
    decode (descBytes d) = .ok (i, []) → step s = exec i { s with port := rest, presenter := a }

/-- R97: an illegal descriptor raises `ILLEGAL_OP`: no access, no context register, `STATUS`, `ERRVAL` and `SEQ.halt` alone.
-/
def Obligations.IllegalDescriptor : Prop :=
  ∀ (s : State) (a : Agent) (d : Desc) (e : DecodeError) (rest : List Input),
    s.cfg.wf = true → (s.port = .op a d :: rest ∨ s.port = .begin a d :: rest) → s.attached = true →
    (s.ex a).op = none → (a = .host → s.halt = false) → decodeDesc d = .error e →
    ∃ t, step s = .next t ∧ (t.ex a).status = 6 ∧ (t.ex a).errval = descWord d 0 ∧ t.halt = true ∧
      t = { s.setEx a { s.ex a with status := 6, errval := descWord d 0 } with port := rest, halt := true }

/-- R98: the interrupt agent presents `IRQIMM` alone; the worker `IRQDEFER`, `GETREPLY`, `MBOXRD`, `BLKRD`, `CMDDONE`,
`FWREADY`, `PANICCAP`; the host all but the two stages; any other presentation is refused, and none of these for that
reason. That an idle worker, outside any consumer's call, may present the operations of the consumers, which R98 lists on
their behalf, is the model's choice (log 22). -/
def Obligations.WrongAgentRefused : Prop :=
  ∀ (s : State) (i : Instr) (may : Prop), s.attached = true → (s.ex s.presenter).op = none →
    (s.presenter = .host → s.halt = false) →
    (may ↔ match s.presenter with
      | .irq => i = .irqimm
      | .worker => i = .irqdefer ∨ (∃ h e, i = .getreply h e) ∨ (∃ b h n, i = .mboxrd b h n) ∨
          (∃ r o h n, i = .blkrd r o h n) ∨ i = .cmddone ∨ i = .fwready ∨ ∃ o c m, i = .paniccap o c m
      | .host => i ≠ .irqimm ∧ i ≠ .irqdefer) →
    (¬may → exec i s = .refused .notPermitted) ∧
    (may → portRefusal s s.presenter i = none ∨ ∃ b, portRefusal s s.presenter i = some (.contract b))

/-- R99: while `SEQ.halt = 1` the host's port accepts no descriptor, legal or not, and the other agents' ports are not
closed by it. -/
def Obligations.HaltClosesHostPort : Prop :=
  ∀ (s : State) (a : Agent) (d : Desc) (rest : List Input),
    s.cfg.wf = true → s.port = .op a d :: rest → s.attached = true → (s.ex a).op = none → s.halt = true →
    (a = .host → step s = .refused .halted) ∧
    (a ≠ .host → ∀ i, decodeDesc d = .ok i → step s = exec i { s with port := rest, presenter := a })

/-! ## Register and memory access -/

/-- R111: `READ32` returns the word; nothing else changes. -/
def Obligations.Read32Result : Prop :=
  ∀ (s : State) (r : Region) (off : Word), s.cfg.wf = true → Presentable s (.read32 r off) → off.toNat % 4 = 0 →
    RegionRange s r off.toNat 4 →
    ∃ t, exec (.read32 r off) s = .next t ∧ Ended s.presenter .ok 0 t ∧
      (t.ex s.presenter).result1 = (s.ex s.presenter).result1 ∧
      (s.inaccessible r off.toNat = false → s.isIsr r off.toNat = false →
        (t.ex s.presenter).result0 = s.word r off.toNat) ∧
      (s.plainWord r off.toNat →
        ∀ i < 4, wordByte (t.ex s.presenter).result0 i = Memory.read (s.mem r) (off.toNat + i)) ∧
      (∀ g, r = .dsp → off.toNat = regOff s.cfg g → s.inaccessible r off.toNat = false → s.isPm r off.toNat = false →
        (t.ex s.presenter).result0 = s.regs.get g) ∧
      SameAll s.presenter s t

/-- R112: `WRITE32` stores the word, in plain bytes or in the device register at that offset; nothing else changes. -/
def Obligations.Write32Result : Prop :=
  ∀ (s : State) (r : Region) (off v : Word), s.cfg.wf = true → Presentable s (.write32 r off v) → off.toNat % 4 = 0 →
    RegionRange s r off.toNat 4 →
    ∃ t, exec (.write32 r off v) s = .next t ∧ Ended s.presenter .ok 0 t ∧ SameResults s.presenter s t ∧
      (s.plainWord r off.toNat → ∀ i < 4, Memory.read (t.mem r) (off.toNat + i) = wordByte v i) ∧
      (∀ g, r = .dsp → off.toNat = regOff s.cfg g → s.inaccessible r off.toNat = false → s.isPm r off.toNat = false →
        t.regs.get g = v) ∧
      (r = .dsp → off.toNat ∈ s.cfg.offsets → SameRegions s t) ∧
      SameButRange s.presenter r off.toNat 4 s t

/-- R113: `READ64` returns the two words at `off` and `off + 4`. -/
def Obligations.Read64Result : Prop :=
  ∀ (s : State) (r : Region) (off : Word), s.cfg.wf = true → Presentable s (.read64 r off) → off.toNat % 4 = 0 →
    RegionRange s r off.toNat 8 →
    ∃ t, exec (.read64 r off) s = .next t ∧ Ended s.presenter .ok 0 t ∧
      (s.inaccessible r off.toNat = false → s.isIsr r off.toNat = false →
        (t.ex s.presenter).result0 = s.word r off.toNat) ∧
      (s.inaccessible r (off.toNat + 4) = false → s.isIsr r (off.toNat + 4) = false →
        (t.ex s.presenter).result1 = s.word r (off.toNat + 4)) ∧
      SameAll s.presenter s t

/-- R114: `WRITE64` stores its low half at `off` and its high half at `off + 4`. -/
def Obligations.Write64Result : Prop :=
  ∀ (s : State) (r : Region) (off lo hi : Word), s.cfg.wf = true → Presentable s (.write64 r off lo hi) →
    off.toNat % 4 = 0 → RegionRange s r off.toNat 8 →
    ∃ t, exec (.write64 r off lo hi) s = .next t ∧ Ended s.presenter .ok 0 t ∧ SameResults s.presenter s t ∧
      (s.plainWord r off.toNat → ∀ i < 4, Memory.read (t.mem r) (off.toNat + i) = wordByte lo i) ∧
      (s.plainWord r (off.toNat + 4) → ∀ i < 4, Memory.read (t.mem r) (off.toNat + 4 + i) = wordByte hi i) ∧
      (∀ g, r = .dsp → off.toNat = regOff s.cfg g → s.inaccessible r off.toNat = false → s.isPm r off.toNat = false →
        t.regs.get g = lo) ∧
      (∀ g, r = .dsp → off.toNat + 4 = regOff s.cfg g → s.inaccessible r (off.toNat + 4) = false →
        s.isPm r (off.toNat + 4) = false → t.regs.get g = hi) ∧
      SameButRange s.presenter r off.toNat 8 s t

/-- R115: `BLKRD` copies `len` bytes into host memory and no byte beyond them. -/
def Obligations.BlkrdResult : Prop :=
  ∀ (s : State) (r : Region) (off haddr len : Word), Presentable s (.blkrd r off haddr len) →
    RegionRange s r off.toNat len.toNat → HostRange haddr.toNat len.toNat →
    ∃ t, exec (.blkrd r off haddr len) s = .next t ∧ Ended s.presenter .ok 0 t ∧ SameResults s.presenter s t ∧
      (∀ i < len.toNat, s.inaccessible r (off.toNat + i) = false → s.isIsrByte r (off.toNat + i) = false →
        Memory.read t.hm (haddr.toNat + i) = s.byteAt r (off.toNat + i)) ∧
      SameButHost s.presenter haddr.toNat len.toNat s t

/-- R116, R118: `BLKWR` copies `len` bytes into the region as whole words: its accesses are the word writes, the padded tail
last; the bytes between the data and the next multiple of 4 hold the pad, the last free value drawn; what lies outside the
rounded length is kept. The ascending order of the full groups is the model's choice (R76; log 15), and that the pad is the
value of the draw counter's last number is its form of a free value (log 12). -/
def Obligations.BlkwrResult : Prop :=
  ∀ (s : State) (r : Region) (off haddr len : Word), Presentable s (.blkwr r off haddr len) → off.toNat % 4 = 0 →
    RegionRange s r off.toNat (roundUp len.toNat) → HostRange haddr.toNat len.toNat →
    ∃ t, exec (.blkwr r off haddr len) s = .next t ∧ Ended s.presenter .ok 0 t ∧ SameResults s.presenter s t ∧
      (∀ i < len.toNat, s.inaccessible r (off.toNat + i - i % 4) = false → s.isIsr r (off.toNat + i - i % 4) = false →
        s.isPm r (off.toNat + i - i % 4) = false →
        t.byteAt r (off.toNat + i) = Memory.read s.hm (haddr.toNat + i)) ∧
      newAccesses s t = wordWrites r off.toNat (roundUp len.toNat / 4) ∧
      (∀ w, w = off.toNat + 4 * (len.toNat / 4) → len.toNat % 4 ≠ 0 → s.draws < t.draws ∧
        (s.inaccessible r w = false → s.isIsr r w = false → s.isPm r w = false →
          ∀ j, j + len.toNat % 4 < 4 →
            t.byteAt r (off.toNat + len.toNat + j) = wordByte (Config.draw (t.draws - 1)) j)) ∧
      SameButRange s.presenter r off.toNat (roundUp len.toNat) s t

/-- R117: `BLKWR` and then `BLKRD` of the same length reproduces the source's bytes, for every length and every pad. -/
def Obligations.BlockRoundTrip : Prop :=
  ∀ (s : State) (r : Region) (off a b len : Word), Presentable s (.blkwr r off a len) → off.toNat % 4 = 0 →
    RegionRange s r off.toNat (roundUp len.toNat) → HostRange a.toNat len.toNat → HostRange b.toNat len.toNat →
    (∀ x, off.toNat ≤ x → x < off.toNat + roundUp len.toNat →
      s.inaccessible r x = false ∧ s.isIsr r (x - x % 4) = false ∧ s.isPm r (x - x % 4) = false) →
    ∃ t u, exec (.blkwr r off a len) s = .next t ∧ exec (.blkrd r off b len) t = .next u ∧
      ∀ i < len.toNat, Memory.read u.hm (b.toNat + i) = Memory.read s.hm (a.toNat + i)

/-- R64, R66, R67: an access operation that is misaligned or out of range is refused, with no state and no status. -/
def Obligations.AccessRefused : Prop :=
  ∀ (s : State) (r : Region) (off v w haddr len : Word),
    (Presentable s (.read32 r off) → ¬(off.toNat % 4 = 0 ∧ RegionRange s r off.toNat 4) →
      ∃ b, exec (.read32 r off) s = .refused (.contract b)) ∧
    (Presentable s (.write32 r off v) → ¬(off.toNat % 4 = 0 ∧ RegionRange s r off.toNat 4) →
      ∃ b, exec (.write32 r off v) s = .refused (.contract b)) ∧
    (Presentable s (.read64 r off) → ¬(off.toNat % 4 = 0 ∧ RegionRange s r off.toNat 8) →
      ∃ b, exec (.read64 r off) s = .refused (.contract b)) ∧
    (Presentable s (.write64 r off v w) → ¬(off.toNat % 4 = 0 ∧ RegionRange s r off.toNat 8) →
      ∃ b, exec (.write64 r off v w) s = .refused (.contract b)) ∧
    (Presentable s (.blkrd r off haddr len) →
      ¬(RegionRange s r off.toNat len.toNat ∧ HostRange haddr.toNat len.toNat) →
      ∃ b, exec (.blkrd r off haddr len) s = .refused (.contract b)) ∧
    (Presentable s (.blkwr r off haddr len) →
      ¬(off.toNat % 4 = 0 ∧ RegionRange s r off.toNat (roundUp len.toNat) ∧ HostRange haddr.toNat len.toNat) →
      ∃ b, exec (.blkwr r off haddr len) s = .refused (.contract b))

/-- R32: `ISR` mirrors `CMDO.DONE` and `CMDI.BUSY`, its other bits are drawn, and a write to it changes nothing. -/
def Obligations.IsrMirror : Prop :=
  ∀ (s : State) (off v : Word), s.cfg.wf = true → off.toNat = s.cfg.isrOff → s.inaccessible .dsp off.toNat = false →
    s.isPm .dsp off.toNat = false →
    (Presentable s (.read32 .dsp off) → ∃ t, exec (.read32 .dsp off) s = .next t ∧
      flagOf (t.ex s.presenter).result0 s.cfg.isrDone = s.cmdoDone ∧
      flagOf (t.ex s.presenter).result0 s.cfg.isrBusy = s.cmdiBusy ∧
      (t.ex s.presenter).result0 &&& ~~~(s.cfg.isrDone ||| s.cfg.isrBusy) =
        Config.draw s.draws &&& ~~~(s.cfg.isrDone ||| s.cfg.isrBusy)) ∧
    (Presentable s (.write32 .dsp off v) → ∃ t, exec (.write32 .dsp off v) s = .next t ∧ SameAll s.presenter s t)

/-- R44: the masked bits at `PM_STS`, in whichever region it lies, read as the power hardware's value, which a write does not
change; the other bits are plain storage. The word is accessible and no device register's. -/
def Obligations.PowerStatusField : Prop :=
  ∀ (s : State) (r : Region) (off v : Word), s.cfg.wf = true → off.toNat = s.cfg.pmSts.off → r = s.cfg.pmSts.rgn →
    s.inaccessible r off.toNat = false → (r = .dsp → off.toNat ∉ s.cfg.offsets) →
    (Presentable s (.read32 r off) → ∃ t, exec (.read32 r off) s = .next t ∧
      (t.ex s.presenter).result0 &&& s.cfg.pmSts.mask = s.pmhw &&& s.cfg.pmSts.mask ∧
      (t.ex s.presenter).result0 &&& ~~~s.cfg.pmSts.mask =
        Memory.readWord (s.mem r) off.toNat &&& ~~~s.cfg.pmSts.mask) ∧
    (Presentable s (.write32 r off v) → ∃ t, exec (.write32 r off v) s = .next t ∧ t.pmhw = s.pmhw ∧
      t.word r off.toNat &&& s.cfg.pmSts.mask = s.pmhw &&& s.cfg.pmSts.mask ∧
      t.word r off.toNat &&& ~~~s.cfg.pmSts.mask = v &&& ~~~s.cfg.pmSts.mask)

/-! ## Power and reset -/

/-- R136, R131: what a successful `ENTER_D0` leaves when nothing else moves meanwhile: the status field is 0 at the first
read and the environment makes no move in the delay. The power status field is not laid over a register, nothing is gated,
what E1 to E5 access can be accessed, and no step descriptor after E10 targets `CSR.RST` or `CSR.STALL`. -/
def Obligations.EnterD0Success : Prop :=
  ∀ s : State, s.cfg.wf = true → Presentable s .enterD0 → s.lock = none → s.gated = [] → s.atDelay = [] →
    s.inD0 = true → s.pmApart → s.requestReadable → StepsClear s.cfg →
    ∃ t, exec .enterD0 s = .next t ∧ Ended .host .ok 0 t ∧ SameResults .host s t ∧
      t.csrRst = false ∧ t.csrStall = true ∧ t.imrhDone = false ∧ t.imrhBusy = false ∧
      flagOf t.regs.imrd s.cfg.imrdDone = false ∧ flagOf t.regs.imrd s.cfg.imrdBusy = false ∧
      t.regs.cmdo = 0 ∧ t.regs.cmdi = 0 ∧ t.regs.scr0 = 0 ∧ t.regs.scr1 = 0 ∧ t.irqLine = false ∧
      t.pwr = .stalledReady ∧ t.lock = none ∧ t.elapsed = s.elapsed + 10 ∧
      (∀ r off i, off % 4 = 0 → i < 32 →
        (∀ g, r = .dsp → off = regOff s.cfg g → (enterD0Mask s.cfg g).getLsbD i = false) →
        (∀ d ∈ s.cfg.stepDescs, d.rgn = r → d.off = off → d.mask.getLsbD i = false) →
        (t.word r off).getLsbD i = (s.word r off).getLsbD i) ∧
      (∀ r x, (∀ d ∈ s.cfg.stepDescs, OffTarget d r x) → Memory.read (t.mem r) x = Memory.read (s.mem r) x) ∧
      t.pmhw = s.pmhw ∧ t.ctx = s.ctx ∧ t.deferPending = s.deferPending ∧ t.halt = s.halt ∧ t.irqRet = s.irqRet ∧
      t.events = s.events ∧ SameHost s t ∧ SameOthers .host s t ∧ SameSetting s t

/-- R131, R136, U6: whatever part of `RGN[0]` is inaccessible beforehand, as all of it is at attach, `ENTER_D0` on a device
that reports D0 leaves the device registers accessible, the core out of reset and stalled, both sources unmasked on both
sides, the command and scratch registers 0 and the line low. Every bit that neither it nor a step descriptor writes is
kept, but in a word of `RGN[0]` that a step descriptor targets while it is inaccessible. -/
def Obligations.EnterD0FromGated : Prop :=
  ∀ s : State, s.cfg.wf = true → Presentable s .enterD0 → s.lock = none → s.atDelay = [] → s.pmApart →
    s.inaccessible s.cfg.pmSts.rgn s.cfg.pmSts.off = false → s.inD0 = true → StepsClear s.cfg →
    ∃ t, exec .enterD0 s = .next t ∧ Ended .host .ok 0 t ∧ SameResults .host s t ∧
      (∀ o ∈ s.cfg.offsets, t.inaccessible .dsp o = false) ∧
      t.csrRst = false ∧ t.csrStall = true ∧ t.imrhDone = false ∧ t.imrhBusy = false ∧
      flagOf t.regs.imrd s.cfg.imrdDone = false ∧ flagOf t.regs.imrd s.cfg.imrdBusy = false ∧
      t.regs.cmdo = 0 ∧ t.regs.cmdi = 0 ∧ t.regs.scr0 = 0 ∧ t.regs.scr1 = 0 ∧ t.irqLine = false ∧
      t.pwr = .stalledReady ∧ t.lock = none ∧ t.elapsed = s.elapsed + 10 ∧
      (∀ r off i, off % 4 = 0 → i < 32 →
        (∀ g, r = .dsp → off = regOff s.cfg g → (enterD0Mask s.cfg g).getLsbD i = false) →
        (∀ d ∈ s.cfg.stepDescs, d.rgn = r → d.off = off → d.mask.getLsbD i = false) →
        (∀ d ∈ [s.cfg.stGateOff, s.cfg.stPdOff, s.cfg.stD0Req], d.rgn = r → d.off = off → s.inaccessible r off = false) →
        (∀ d ∈ [s.cfg.stClkSel, s.cfg.stCgPolicy, s.cfg.stPgDefault, s.cfg.stQuirkOff], d.rgn = r → d.off = off →
          t.inaccessible r off = false) →
        (t.word r off).getLsbD i = (s.word r off).getLsbD i) ∧
      (∀ r x, (∀ d ∈ s.cfg.stepDescs, OffTarget d r x) → Memory.read (t.mem r) x = Memory.read (s.mem r) x) ∧
      t.pmhw = s.pmhw ∧ t.ctx = s.ctx ∧ t.deferPending = s.deferPending ∧ t.halt = s.halt ∧ t.irqRet = s.irqRet ∧
      t.events = s.events ∧ SameHost s t ∧ SameOthers .host s t ∧ SameSetting s t

/-- R136, the targets: after the same `ENTER_D0` the field of each step descriptor holds its value, unless a later step
descriptor on the same register overlaps it, E8, E10, E14 or E15 writes a bit of it, it is `ISR`, or the bit is one of the
power status field. -/
def Obligations.EnterD0Targets : Prop :=
  ∀ (s : State) (k : Nat) (d : StepDesc), s.cfg.wf = true → Presentable s .enterD0 → s.lock = none → s.gated = [] →
    s.atDelay = [] → s.inD0 = true → s.pmApart → s.requestReadable → s.cfg.stepDescs[k]? = some d →
    (∀ j e, k < j → s.cfg.stepDescs[j]? = some e → e.rgn = d.rgn → e.off = d.off → e.mask &&& d.mask = 0) →
    (∀ g, d.rgn = .dsp → d.off = regOff s.cfg g → d.mask &&& enterD0Mask s.cfg g = 0) →
    (d.rgn = .dsp → d.off ≠ s.cfg.isrOff) →
    ∃ t, exec .enterD0 s = .next t ∧ t.pwr = .stalledReady ∧
      ∀ i < 32, d.mask.getLsbD i = true →
        (t.isPm d.rgn d.off = true → s.cfg.pmSts.mask.getLsbD i = false) →
        (t.word d.rgn d.off).getLsbD i = d.val.getLsbD i

/-- R137: whatever the power hardware does between the polls, and whatever else the environment does in the delays. `k` is
the first poll, counted from 0, that finds the field 0, or 10 where each of the ten finds it not 0; the field can be read
(U6). Up to nine failed polls, `ENTER_D0` reads once more, goes through E7 to E15 in order and ends well; with ten it has
read ten times, waited 200 ms and failed with no further access. -/
def Obligations.PollLaw : Prop :=
  ∀ (s : State) (k : Nat), s.cfg.wf = true → Presentable s .enterD0 → s.lock = none →
    (s.cfg.pmSts.rgn = .comp ∨
      (s.inaccessible .dsp s.cfg.pmSts.off = false ∧ ∀ ms ∈ s.atDelay, ∀ m ∈ ms, ∀ g, m ≠ .gate g)) →
    k ≤ 10 → (∀ j < k, s.statusAt j ≠ 0) → (k < 10 → s.statusAt k = 0) →
    ∃ t, exec .enterD0 s = .next t ∧
      (k < 10 → Ended .host .ok 0 t ∧ t.pwr = .stalledReady ∧ t.halt = s.halt ∧ t.elapsed = s.elapsed + 20 * k + 10 ∧
        newAccesses s t = enterD0Request s.cfg ++ failedPolls s.cfg k ++ [.read s.cfg.pmSts.rgn s.cfg.pmSts.off] ++
          enterD0Setup s.cfg) ∧
      (k = 10 → Ended .host .timeout 0 t ∧ t.pwr = .offD3 ∧ t.halt = true ∧ t.elapsed = s.elapsed + 200 ∧
        newAccesses s t = enterD0Request s.cfg ++ failedPolls s.cfg 10)

/-- R131 E1 to E6, R232: `ENTER_D0` on a device that never reports ready ends in `TIMEOUT` with the targets of E1 to E3
written: where a target is accessible, its field holds its value, unless a later one of the three writes the bit, it is a bit
of the power status field, or the target is `ISR`, and the word's other bits are kept; every other register and plain byte is
kept. -/
def Obligations.EnterD0Timeout : Prop :=
  ∀ s : State, s.cfg.wf = true → Presentable s .enterD0 →
    s.inaccessible s.cfg.pmSts.rgn s.cfg.pmSts.off = false → s.inD0 = false →
    s.atDelay = [] →
    ∃ t, exec .enterD0 s = .next t ∧ Ended .host .timeout 0 t ∧ SameResults .host s t ∧ t.halt = true ∧ t.pwr = .offD3 ∧
      t.elapsed = s.elapsed + 200 ∧
      (∀ g, (∀ d ∈ [s.cfg.stGateOff, s.cfg.stPdOff, s.cfg.stD0Req], d.rgn = .dsp → d.off ≠ regOff s.cfg g) →
        t.regs.get g = s.regs.get g) ∧
      (∀ r x, (∀ d ∈ [s.cfg.stGateOff, s.cfg.stPdOff, s.cfg.stD0Req], OffTarget d r x) →
        Memory.read (t.mem r) x = Memory.read (s.mem r) x) ∧
      (∀ (k : Nat) (d : StepDesc) (i : Nat), [s.cfg.stGateOff, s.cfg.stPdOff, s.cfg.stD0Req][k]? = some d →
        i < 32 → d.mask.getLsbD i = true →
        s.inaccessible d.rgn d.off = false → s.isIsr d.rgn d.off = false →
        (s.isPm d.rgn d.off = true → s.cfg.pmSts.mask.getLsbD i = false) →
        (∀ (j : Nat) (e : StepDesc), k < j → [s.cfg.stGateOff, s.cfg.stPdOff, s.cfg.stD0Req][j]? = some e →
          e.rgn = d.rgn → e.off = d.off →
          e.mask.getLsbD i = false) →
        (t.word d.rgn d.off).getLsbD i = d.val.getLsbD i) ∧
      (∀ r off i, off % 4 = 0 → i < 32 →
        (∀ d ∈ [s.cfg.stGateOff, s.cfg.stPdOff, s.cfg.stD0Req], d.rgn = r → d.off = off →
          s.inaccessible r off = false ∧ d.mask.getLsbD i = false) →
        (t.word r off).getLsbD i = (s.word r off).getLsbD i) ∧
      t.pmhw = s.pmhw ∧ t.ctx = s.ctx ∧ t.deferPending = s.deferPending ∧ t.lock = s.lock ∧ t.irqRet = s.irqRet ∧
      t.events = s.events ∧ SameHost s t ∧ SameOthers .host s t ∧ SameSetting s t

/-- R138: whatever the prior `CSR` and `PWR.state`, and whatever the environment does in the delay, `RESET` reports success,
and with D0 confirmed, so that `CSR` is accessible (R282), it leaves the core released from reset and stalled. -/
def Obligations.ResetLaw : Prop :=
  ∀ s : State, s.cfg.wf = true → Presentable s .reset →
    ∃ t, exec .reset s = .next t ∧ Ended .host .ok 0 t ∧ t.halt = s.halt ∧
      t.pwr = (if s.pwr = .offD3 then .offD3 else .stalledReady) ∧
      (s.d0Confirmed = true → s.isPm .dsp s.cfg.csrOff = false → t.csrRst = false ∧ t.csrStall = true)

/-- R132, R134, R274: `RESET` with no move of the environment: `PWR.state`, time, its accesses, its success and what it keeps, also
before D0 is confirmed, when `PWR.state` stays `OFF_D3`; and `CSR`, where it is accessible. -/
def Obligations.ResetResult : Prop :=
  ∀ s : State, s.cfg.wf = true → Presentable s .reset → s.atDelay = [] →
    ∃ t, exec .reset s = .next t ∧ Ended .host .ok 0 t ∧ SameResults .host s t ∧
      (s.inaccessible .dsp s.cfg.csrOff = false → s.isPm .dsp s.cfg.csrOff = false →
        t.regs.csr = merged s.regs.csr (s.cfg.csrRst ||| s.cfg.csrStall) s.cfg.csrStall) ∧
      t.pwr = (if s.pwr = .offD3 then .offD3 else .stalledReady) ∧ t.elapsed = s.elapsed + 10 ∧
      newAccesses s t = resetAccesses s.cfg ∧ SameButRegs .host [.csr] s t ∧
      t.ctx = s.ctx ∧ t.deferPending = s.deferPending ∧ t.lock = s.lock ∧ t.halt = s.halt ∧ t.irqRet = s.irqRet ∧
      t.events = s.events

/-- R133, R134, R139: `RUN` makes its four accesses and reports success, also before D0 is confirmed, when `PWR.state` stays
`OFF_D3` (R274). Where its registers are accessible it clears the DMA mode field and then the stall bit, `CSR.RST` and every
other bit kept; with the core in reset the core then does not run, and success is reported all the same (R292). -/
def Obligations.RunResult : Prop :=
  ∀ s : State, s.cfg.wf = true → Presentable s .run →
    ∃ t, exec .run s = .next t ∧ Ended .host .ok 0 t ∧ SameResults .host s t ∧
      (s.registersPlain →
        t.regs.dmamode = s.regs.dmamode &&& ~~~s.cfg.dmamodeOpp ∧ t.regs.csr = s.regs.csr &&& ~~~s.cfg.csrStall ∧
        t.csrStall = false ∧ t.csrRst = s.csrRst ∧ (s.csrRst = true → t.coreRunning = false)) ∧
      t.pwr = (if s.pwr = .stalledReady then .running else s.pwr) ∧
      newAccesses s t = updateAccess .dsp s.cfg.dmamodeOff ++ updateAccess .dsp s.cfg.csrOff ∧
      SameButRegs .host [.dmamode, .csr] s t ∧ Silent s t ∧
      t.ctx = s.ctx ∧ t.deferPending = s.deferPending ∧ t.lock = s.lock ∧ t.halt = s.halt ∧ t.irqRet = s.irqRet

/-- R134, R21, R27, R28, R26: which operations write `PWR.state`, the context registers, `DEFER.pending` and `IRQRET`. A
consumer may present `FWREADY` during `IRQDEFER`, so that one may write the context registers too (R252). -/
def Obligations.OnlyWriters : Prop :=
  ∀ (i : Instr) (s t : State), exec i s = .next t →
    (i ≠ .enterD0 → i ≠ .reset → i ≠ .run → t.pwr = s.pwr) ∧
    (i ≠ .fwready → i ≠ .irqdefer → t.ctx = s.ctx) ∧
    (i ≠ .irqimm → i ≠ .irqdefer → t.deferPending = s.deferPending ∧ t.irqRet = s.irqRet) ∧
    t.ctx.bar0 = s.ctx.bar0 ∧ t.ctx.bar1 = s.ctx.bar1 ∧ t.ctx.irqLine = s.ctx.irqLine

/-! ## Mailbox transport -/

/-- R161: `MBOXWR` writes the payload into the outbound box; no flag is changed. -/
def Obligations.MboxwrResult : Prop :=
  ∀ (s : State) (boxoff haddr size : Word), Presentable s (.mboxwr boxoff haddr size) →
    (s.ctx.outbox.off + boxoff.toNat) % 4 = 0 → boxoff.toNat + roundUp size.toNat ≤ s.ctx.outbox.size →
    RegionRange s .dsp (s.ctx.outbox.off + boxoff.toNat) (roundUp size.toNat) → HostRange haddr.toNat size.toNat →
    ∃ t, exec (.mboxwr boxoff haddr size) s = .next t ∧ Ended .host .ok 0 t ∧ SameResults .host s t ∧
      (∀ i < size.toNat,
        s.inaccessible .dsp (s.ctx.outbox.off + boxoff.toNat + i - i % 4) = false →
        s.isIsr .dsp (s.ctx.outbox.off + boxoff.toNat + i - i % 4) = false →
        s.isPm .dsp (s.ctx.outbox.off + boxoff.toNat + i - i % 4) = false →
        t.byteAt .dsp (s.ctx.outbox.off + boxoff.toNat + i) = Memory.read s.hm (haddr.toNat + i)) ∧
      SameButRange .host .dsp (s.ctx.outbox.off + boxoff.toNat) (roundUp size.toNat) s t

/-- R162: `MBOXRD` copies out of the inbound box; no flag is changed. -/
def Obligations.MboxrdResult : Prop :=
  ∀ (s : State) (boxoff haddr size : Word), Presentable s (.mboxrd boxoff haddr size) →
    boxoff.toNat + size.toNat ≤ s.ctx.inbox.size → RegionRange s .dsp (s.ctx.inbox.off + boxoff.toNat) size.toNat →
    HostRange haddr.toNat size.toNat →
    ∃ t, exec (.mboxrd boxoff haddr size) s = .next t ∧ Ended s.presenter .ok 0 t ∧ SameResults s.presenter s t ∧
      (∀ i < size.toNat, s.inaccessible .dsp (s.ctx.inbox.off + boxoff.toNat + i) = false →
        s.isIsrByte .dsp (s.ctx.inbox.off + boxoff.toNat + i) = false →
        Memory.read t.hm (haddr.toNat + i) = s.byteAt .dsp (s.ctx.inbox.off + boxoff.toNat + i)) ∧
      SameButHost s.presenter haddr.toNat size.toNat s t

/-- R163: `SENDMSG` writes the payload into the outbound box and then sets `CMDO.BUSY`, every other bit of `CMDO` kept; no
byte of the box is a register's. The message it posts will be answered in that box (R291). That the full groups are written in ascending order is the model's choice (R76 leaves their
order open; log 15); that the tail is the last of them and `CMDO` comes after all is the rules'. -/
def Obligations.SendmsgResult : Prop :=
  ∀ (s : State) (haddr size : Word), s.cfg.wf = true → Presentable s (.sendmsg haddr size) → s.ctx.outbox.off % 4 = 0 →
    roundUp size.toNat ≤ s.ctx.outbox.size → RegionRange s .dsp s.ctx.outbox.off (roundUp size.toNat) →
    HostRange haddr.toNat size.toNat → s.registersPlain → s.boxClear s.ctx.outbox →
    ∃ t, exec (.sendmsg haddr size) s = .next t ∧ Ended .host .ok 0 t ∧ SameResults .host s t ∧
      (∀ i < size.toNat, s.inaccessible .dsp (s.ctx.outbox.off + i - i % 4) = false →
        Memory.read t.dspMem (s.ctx.outbox.off + i) = Memory.read s.hm (haddr.toNat + i)) ∧
      newAccesses s t = wordWrites .dsp s.ctx.outbox.off (roundUp size.toNat / 4) ++ updateAccess .dsp s.cfg.cmdoOff ∧
      t.regs.cmdo = s.regs.cmdo ||| s.cfg.cmdoBusy ∧ t.cmdoBusy = true ∧ t.cmdoDone = s.cmdoDone ∧
      (∀ g, g ≠ .cmdo → t.regs.get g = s.regs.get g) ∧ t.pmhw = s.pmhw ∧
      (∀ r x, ¬(r = .dsp ∧ s.ctx.outbox.off ≤ x ∧ x < s.ctx.outbox.off + roundUp size.toNat) →
        Memory.read (t.mem r) x = Memory.read (s.mem r) x) ∧
      t.replyBox = (if s.cmdoBusy then s.replyBox else s.ctx.outbox) ∧
      SameBlock s t ∧ SameHost s t ∧ SameOthers .host s t ∧ SameSetting s t ∧ Silent s t

/-- R164, R166, R168: `GETREPLY` in its three cases: a negative error field, a size that is not the expected one, and a
reply as expected. `n` bytes are copied from the box base; no flag, context register or region byte changes. -/
def Obligations.GetreplyResult : Prop :=
  ∀ (s : State) (haddr expect declared err : Word) (n : Nat) (k : Kind) (ev : Word), s.cfg.wf = true →
    Presentable s (.getreply haddr expect) →
    s.cfg.rhSize ≤ s.ctx.outbox.size → RegionRange s .dsp s.ctx.outbox.off s.cfg.rhSize →
    s.readable .dsp s.ctx.outbox.off s.cfg.rhSize →
    declared = s.leWord .dsp (s.ctx.outbox.off + s.cfg.rhSizeOff) → err = s.leWord .dsp (s.ctx.outbox.off + s.cfg.rhErrOff) →
    (err.toInt < 0 → n = s.cfg.rhSize ∧ k = .fwError ∧ ev = err) →
    (0 ≤ err.toInt → declared ≠ expect → n = expect.toNat ∧ k = .sizeMismatch ∧ ev = 0) →
    (0 ≤ err.toInt → declared = expect → n = declared.toNat ∧ k = .ok ∧ ev = 0) →
    n ≤ s.ctx.outbox.size → RegionRange s .dsp s.ctx.outbox.off n → HostRange haddr.toNat n →
    ∃ t, exec (.getreply haddr expect) s = .next t ∧ Ended s.presenter k ev t ∧
      (t.ex s.presenter).result0 = BitVec.ofNat 32 n ∧ (t.ex s.presenter).result1 = (s.ex s.presenter).result1 ∧
      (∀ i < n, s.inaccessible .dsp (s.ctx.outbox.off + i) = false → s.isIsrByte .dsp (s.ctx.outbox.off + i) = false →
        Memory.read t.hm (haddr.toNat + i) = s.byteAt .dsp (s.ctx.outbox.off + i)) ∧
      SameButHost s.presenter haddr.toNat n s t

/-- R160 (b), R164, R66, R67: a box-relative access that leaves its box, its region or host memory, or is misaligned, is
refused, the read-back of `GETREPLY` like its header read; so is every access of a byte or more to a box of size 0. -/
def Obligations.MailboxRefused : Prop :=
  ∀ (s : State) (boxoff haddr size : Word),
    (Presentable s (.mboxwr boxoff haddr size) →
      ¬((s.ctx.outbox.off + boxoff.toNat) % 4 = 0 ∧ boxoff.toNat + roundUp size.toNat ≤ s.ctx.outbox.size ∧
        RegionRange s .dsp (s.ctx.outbox.off + boxoff.toNat) (roundUp size.toNat) ∧ HostRange haddr.toNat size.toNat) →
      ∃ b, exec (.mboxwr boxoff haddr size) s = .refused (.contract b)) ∧
    (Presentable s (.mboxrd boxoff haddr size) →
      ¬(boxoff.toNat + size.toNat ≤ s.ctx.inbox.size ∧
        RegionRange s .dsp (s.ctx.inbox.off + boxoff.toNat) size.toNat ∧ HostRange haddr.toNat size.toNat) →
      ∃ b, exec (.mboxrd boxoff haddr size) s = .refused (.contract b)) ∧
    (Presentable s (.sendmsg haddr size) →
      ¬(s.ctx.outbox.off % 4 = 0 ∧ roundUp size.toNat ≤ s.ctx.outbox.size ∧
        RegionRange s .dsp s.ctx.outbox.off (roundUp size.toNat) ∧ HostRange haddr.toNat size.toNat) →
      ∃ b, exec (.sendmsg haddr size) s = .refused (.contract b)) ∧
    (Presentable s (.getreply haddr size) →
      ¬(s.cfg.rhSize ≤ s.ctx.outbox.size ∧ RegionRange s .dsp s.ctx.outbox.off s.cfg.rhSize) →
      ∃ b, exec (.getreply haddr size) s = .refused (.contract b)) ∧
    (s.cfg.wf = true → Presentable s (.getreply haddr size) → s.cfg.rhSize ≤ s.ctx.outbox.size →
      RegionRange s .dsp s.ctx.outbox.off s.cfg.rhSize → s.readable .dsp s.ctx.outbox.off s.cfg.rhSize →
      ¬(s.replySize size ≤ s.ctx.outbox.size ∧ RegionRange s .dsp s.ctx.outbox.off (s.replySize size) ∧
        HostRange haddr.toNat (s.replySize size)) →
      ∃ b, exec (.getreply haddr size) s = .refused (.contract b)) ∧
    (0 < size.toNat → s.ctx.inbox.size = 0 → Presentable s (.mboxrd boxoff haddr size) →
      ∃ b, exec (.mboxrd boxoff haddr size) s = .refused (.contract b))

/-! ## Doorbell dispatcher -/

/-- R183: `IRQIMM` masks each source that is asserted, records the deferred work and reports `WAKE`, or reports `NONE`; it
leaves the line low. That it ends with `STATUS` `OK`, which its listing does not show, is what R26 and R231 say of every
operation that raises nothing (log 23). -/
def Obligations.IrqimmResult : Prop :=
  ∀ s : State, s.cfg.wf = true → Presentable s .irqimm → s.lock = none → s.registersPlain →
    ∃ t, exec .irqimm s = .next t ∧ Ended .irq .ok 0 t ∧ SameResults .irq s t ∧
      t.regs.imrh = s.regs.imrh ||| (if s.cmdoDone then s.cfg.imrhDone else 0) |||
        (if s.cmdiBusy then s.cfg.imrhBusy else 0) ∧
      t.deferPending = (s.deferPending || s.cmdoDone || s.cmdiBusy) ∧
      t.irqRet = (if s.cmdoDone || s.cmdiBusy then 1 else 0) ∧ t.irqLine = false ∧ t.lock = none ∧
      SameButRegs .irq [.imrh] s t ∧ Silent s t ∧ t.ctx = s.ctx ∧ t.pwr = s.pwr ∧ t.halt = s.halt

/-- R185: when the value read from `ISR` has neither bit, the stage reports `NONE`, leaves `DEFER.pending` and makes no
other access; else it reports `WAKE`. The first access is that read in every case. -/
def Obligations.NotMineLaw : Prop :=
  ∀ s : State, s.cfg.wf = true → Presentable s .irqimm → s.lock = none →
    ∃ t v rest, exec .irqimm s = .next t ∧ t.bus = s.bus ++ .rd32 .irq .dsp s.cfg.isrOff v :: rest ∧
      (v &&& (s.cfg.isrDone ||| s.cfg.isrBusy) = 0 → t.irqRet = 0 ∧ t.deferPending = s.deferPending ∧ rest = []) ∧
      (v &&& (s.cfg.isrDone ||| s.cfg.isrBusy) ≠ 0 → t.irqRet = 1 ∧ t.deferPending = true ∧ rest ≠ [])

/-- R82, R17, R25: while another agent owns the lock an operation waits at its `Acquire`, with the accesses before it made and
none after it: `IRQIMM` at its first micro-step, `CMDDONE` before it unmasks, `IRQDEFER` at W3d, `ENTER_D0` at E14. The
operation stays in progress, `SEQ.step` names the `Acquire`, and a micro-step of the agent changes nothing. That `exec`
answers the state in which it waits is the model's form (log 1), the numbers that `SEQ.step` has there are those of the
model's numbering of a listing (log 14), and the ascending order of the header's bytes is its choice (log 15). -/
def Obligations.LockWait : Prop :=
  ∀ (s : State) (b : Agent), s.cfg.wf = true → s.lock = some b →
    (Presentable s .irqimm →
      ∃ t, exec .irqimm s = .next t ∧ t = s.start .irq .irqimm (irqimmListing s.cfg ++ [.idle]) ∧
        ∀ pick, microStep .irq pick t = .next t) ∧
    (Presentable s .cmddone → s.registersPlain →
      ∃ t, exec .cmddone s = .next t ∧ (t.ex s.presenter).op = some .cmddone ∧ (t.ex s.presenter).step = 3 ∧
        newAccesses s t = updateAccess .dsp s.cfg.cmdiOff ∧ t.cmdiBusy = false ∧ t.regs.imrh = s.regs.imrh ∧
        t.lock = some b ∧ ∀ pick, microStep s.presenter pick t = .next t) ∧
    (Presentable s .irqdefer → s.registersPlain → s.cmdoDone = true → s.replyCalls = [] →
      RegionRange s .dsp s.ctx.outbox.off s.cfg.rhSize →
      ∃ t, exec .irqdefer s = .next t ∧ (t.ex .worker).op = some .irqdefer ∧ (t.ex .worker).step = 9 + s.cfg.rhSize ∧
        newAccesses s t = [.read .dsp s.cfg.cmdoOff] ++ byteReads .dsp s.ctx.outbox.off s.cfg.rhSize ++
          updateAccess .dsp s.cfg.cmdoOff ∧
        t.cmdoDone = false ∧ t.regs.imrh = s.regs.imrh ∧ t.irqRet = s.irqRet ∧ t.lock = some b ∧
        ∀ pick, microStep .worker pick t = .next t) ∧
    (Presentable s .enterD0 → s.inD0 = true → s.inaccessible s.cfg.pmSts.rgn s.cfg.pmSts.off = false → s.atDelay = [] →
      ∃ t, exec .enterD0 s = .next t ∧ (t.ex .host).op = some .enterD0 ∧ (t.ex .host).step = 25 ∧
        newAccesses s t = enterD0Request s.cfg ++ [.read s.cfg.pmSts.rgn s.cfg.pmSts.off] ++ stepAccess s.cfg.stClkSel ++
          resetAccesses s.cfg ++ stepAccess s.cfg.stCgPolicy ++ stepAccess s.cfg.stPgDefault ++
          stepAccess s.cfg.stQuirkOff ∧
        t.pwr = .d0Transitioning ∧ t.lock = some b ∧ ∀ pick, microStep .host pick t = .next t)

/-- R189: `IRQDEFER` with no consumer attached. The reply part runs when `CMDO.DONE` is set, the message part when
`CMDI.BUSY` is, as a panic capture or as a dispatch; the events, the flags, and nothing else. That it ends with `STATUS` `OK`,
which its listing does not show, is what R26 and R231 say of every operation that raises nothing (log 23). -/
def Obligations.IrqdeferResult : Prop :=
  ∀ s : State, s.cfg.wf = true → Presentable s .irqdefer → s.lock = none → s.registersPlain →
    s.replyCalls = [] → s.msgCalls = [] →
    (s.cmdoDone = true → RegionRange s .dsp s.ctx.outbox.off s.cfg.rhSize ∧
      s.readable .dsp s.ctx.outbox.off s.cfg.rhSize) →
    ∀ used, used = (if s.ctx.excValid then s.ctx.excOff
      else (panicOffset s.regs.cmdi s.regs.cmdo s.cfg.panicOffsetOf).toNat) →
    (s.cmdiBusy = true → isPanic s.cfg s.regs.cmdi = true →
      RegionRange s .dsp used (s.cfg.xoopsSize + 4 * s.cfg.stackWords) ∧
      s.plainBytes .dsp used (s.cfg.xoopsSize + 4 * s.cfg.stackWords)) →
    ∃ t, exec .irqdefer s = .next t ∧ Ended .worker .ok 0 t ∧ SameResults .worker s t ∧
      t.deferPending = false ∧ t.irqRet = 2 ∧ t.lock = none ∧
      t.regs.cmdo = s.regs.cmdo &&& ~~~s.cfg.cmdoDone ∧
      t.regs.imrh = (if s.cmdoDone then s.regs.imrh &&& ~~~s.cfg.imrhDone else s.regs.imrh) ∧
      t.events = s.events ++
        (if s.cmdoDone then [.reply (s.bytesAt .dsp s.ctx.outbox.off s.cfg.rhSize) s.regs.cmdo] else []) ++
        (if s.cmdiBusy then
          (if isPanic s.cfg s.regs.cmdi then
            [.diag (s.bytesAt .dsp used s.cfg.xoopsSize) (s.wordsAt .dsp (used + s.cfg.xoopsSize) s.cfg.stackWords)
              s.regs.cmdo s.regs.cmdi used (panicOffset s.regs.cmdi s.regs.cmdo s.cfg.panicOffsetOf)]
          else [.msg s.regs.cmdi]) else []) ∧
      SameButRegs .worker [.cmdo, .imrh] s t ∧ t.elapsed = s.elapsed ∧ t.ctx = s.ctx ∧ t.pwr = s.pwr ∧ t.halt = s.halt

/-- R246 (b), R189: with neither flag set the deferred stage makes two reads, writes nothing and still reports `HANDLED`; its
`STATUS` is `OK` (log 23). -/
def Obligations.NothingToDo : Prop :=
  ∀ s : State, s.cfg.wf = true → Presentable s .irqdefer → s.registersPlain → s.cmdoDone = false → s.cmdiBusy = false →
    ∃ t, exec .irqdefer s = .next t ∧ newAccesses s t = [.read .dsp s.cfg.cmdoOff, .read .dsp s.cfg.cmdiOff] ∧
      t.irqRet = 2 ∧ t.deferPending = false ∧ t.lock = s.lock ∧ Ended .worker .ok 0 t ∧ SameResults .worker s t ∧
      SameButRegs .worker [] s t ∧ Silent s t ∧ t.ctx = s.ctx ∧ t.pwr = s.pwr ∧ t.halt = s.halt

/-- R192, R221: whatever the consumers present, an `IRQDEFER` that answers with a busy inbound register emits one `EV_DIAG`
and no `EV_MSG` when the word is a panic notification, and one `EV_MSG` with that word and no `EV_DIAG` when it is not. -/
def Obligations.PanicRouting : Prop :=
  ∀ s t : State, s.cfg.wf = true → Presentable s .irqdefer → s.lock = none → s.registersPlain → s.cmdiBusy = true →
    exec .irqdefer s = .next t →
    (s.regs.cmdi &&& s.cfg.panicMask = s.cfg.panicMagic →
      ∃ sn st used off, (t.events.drop s.events.length).filter
          (fun e => match e with | .diag .. | .msg _ => true | _ => false) =
        [.diag sn st s.regs.cmdo s.regs.cmdi used off]) ∧
    (s.regs.cmdi &&& s.cfg.panicMask ≠ s.cfg.panicMagic →
      (t.events.drop s.events.length).filter (fun e => match e with | .diag .. | .msg _ => true | _ => false) =
        [.msg s.regs.cmdi])

/-- R190, R252, R189: the reply consumer presents `GETREPLY` in its call: the reply is fetched before `CMDO.DONE` is cleared,
`RESULT0` of the worker is the number of bytes copied, and the stage goes on. The accesses are in that order; within a read
of several bytes the ascending order is the model's choice (R76 leaves it open; log 15). Its `STATUS` at the end is that of
the stage, `OK` (log 23). -/
def Obligations.ReplyFetched : Prop :=
  ∀ (s : State) (haddr expect : Word) (more : List (List Desc)) (n : Nat), s.cfg.wf = true → Presentable s .irqdefer →
    s.lock = none → s.registersPlain → s.replyCalls = [encode (.getreply haddr expect)] :: more →
    s.cmdoDone = true → s.cmdiBusy = false →
    s.cfg.rhSize ≤ s.ctx.outbox.size → RegionRange s .dsp s.ctx.outbox.off s.ctx.outbox.size →
    s.readable .dsp s.ctx.outbox.off s.ctx.outbox.size →
    n = s.replySize expect → n ≤ s.ctx.outbox.size → HostRange haddr.toNat n →
    ∃ t, exec .irqdefer s = .next t ∧ Ended .worker .ok 0 t ∧ t.irqRet = 2 ∧ t.deferPending = false ∧ t.lock = none ∧
      t.replyCalls = more ∧ t.cmdoDone = false ∧ t.imrhDone = false ∧
      t.events = s.events ++ [.reply (s.bytesAt .dsp s.ctx.outbox.off s.cfg.rhSize) s.regs.cmdo] ∧
      newAccesses s t = [.read .dsp s.cfg.cmdoOff] ++ byteReads .dsp s.ctx.outbox.off s.cfg.rhSize ++
        byteReads .dsp s.ctx.outbox.off s.cfg.rhSize ++ byteReads .dsp s.ctx.outbox.off n ++
        updateAccess .dsp s.cfg.cmdoOff ++ updateAccess .dsp s.cfg.imrhOff ++ [.read .dsp s.cfg.cmdiOff] ∧
      (t.ex .worker).result0 = BitVec.ofNat 32 n ∧ (t.ex .worker).result1 = (s.ex .worker).result1 ∧
      (∀ i < n, Memory.read t.hm (haddr.toNat + i) = s.byteAt .dsp (s.ctx.outbox.off + i)) ∧
      ∀ x, ¬(haddr.toNat ≤ x ∧ x < haddr.toNat + n) → Memory.read t.hm x = Memory.read s.hm x

/-- R190, R193, R252, R98: a consumer that presents an operation outside its set is refused. -/
def Obligations.ConsumerForbidden : Prop :=
  ∀ (s : State) (i : Instr) (ds : List Desc) (more : List (List Desc)), s.cfg.wf = true → Presentable s .irqdefer →
    s.registersPlain →
    (s.cmdoDone = true → RegionRange s .dsp s.ctx.outbox.off s.cfg.rhSize →
      s.replyCalls = (encode i :: ds) :: more →
      (∀ h n, i ≠ .getreply h n) → (∀ r o h n, i ≠ .blkrd r o h n) → exec .irqdefer s = .refused .notPermitted) ∧
    (s.cmdoDone = false → s.cmdiBusy = true → isPanic s.cfg s.regs.cmdi = false →
      s.msgCalls = (encode i :: ds) :: more →
      (∀ b h n, i ≠ .mboxrd b h n) → (∀ r o h n, i ≠ .blkrd r o h n) → i ≠ .fwready → i ≠ .cmddone →
      exec .irqdefer s = .refused .notPermitted)

/-- R195: `CMDDONE` clears `CMDI.BUSY` and sets `CMDI.DONE` in one write and unmasks BUSY, the other bits kept. -/
def Obligations.CmddoneResult : Prop :=
  ∀ s : State, s.cfg.wf = true → Presentable s .cmddone → s.lock = none → s.registersPlain →
    ∃ t, exec .cmddone s = .next t ∧ Ended s.presenter .ok 0 t ∧ SameResults s.presenter s t ∧
      t.regs.cmdi = (s.regs.cmdi &&& ~~~(s.cfg.cmdiBusy ||| s.cfg.cmdiDone)) ||| s.cfg.cmdiDone ∧
      t.regs.imrh = s.regs.imrh &&& ~~~s.cfg.imrhBusy ∧
      t.cmdiBusy = false ∧ t.cmdiDone = true ∧ t.imrhBusy = false ∧ t.lock = none ∧
      newAccesses s t = updateAccess .dsp s.cfg.cmdiOff ++ updateAccess .dsp s.cfg.imrhOff ∧
      SameButRegs s.presenter [.cmdi, .imrh] s t ∧ Silent s t ∧ t.ctx = s.ctx ∧ t.pwr = s.pwr ∧
      t.deferPending = s.deferPending ∧ t.halt = s.halt ∧ t.irqRet = s.irqRet

/-! ## Handshake and panic capture -/

/-- R212, R213: the whole handshake when every window type is recognised: the boxes and the other context registers, the
events, the status by F7, and nothing else; a message that is outstanding is still answered in the box it was posted in
(R291). -/
def Obligations.HandshakeResult : Prop :=
  ∀ (s : State) (n : Nat) (els : List (Word × Box)) (x : Ctx), s.cfg.wf = true → Presentable s .fwready →
    s.ctx.fwrDone = false → n = s.fwrTable.2 → s.handshakeReadable n → els = s.windowTable s.fwrTable.1 n →
    (∀ e ∈ els, e.1 ∈ windowTypes s.cfg) → x = discovered s.cfg s.declared els →
    ∃ t, exec .fwready s = .next t ∧ t.ctx = x ∧ SameResults s.presenter s t ∧
      (x.inbox.size ≠ 0 → x.outbox.size ≠ 0 → Ended s.presenter .ok 0 t ∧ t.halt = s.halt ∧
        t.events = s.events ++ s.handshakeEvents els) ∧
      (x.inbox.size = 0 ∨ x.outbox.size = 0 → Ended s.presenter .configZeroBox 0 t ∧ t.halt = true ∧
        t.events = s.events ++ s.handshakeEvents els ++ [.log .configZeroBox 0]) ∧
      t.replyBox = s.replyBox ∧ t.pwr = s.pwr ∧ t.deferPending = s.deferPending ∧ t.lock = s.lock ∧ t.irqRet = s.irqRet ∧ t.elapsed = s.elapsed ∧
      SameDevice s t ∧ SameRegions s t ∧ SameHost s t ∧ SameOthers s.presenter s t ∧ SameSetting s t

/-- R215: a table whose last inbound element has size 0 ends in `CONFIG_ZERO_BOX`; one whose last inbound and last outbound
elements both have a size ends well, each live box at the mailbox base plus the declared offset. -/
def Obligations.DiscoveryLaw : Prop :=
  ∀ (s : State) (n : Nat) (els : List (Word × Box)) (bi bo : Box), s.cfg.wf = true → Presentable s .fwready →
    s.ctx.fwrDone = false → n = s.fwrTable.2 → s.handshakeReadable n → els = s.windowTable s.fwrTable.1 n →
    (∀ e ∈ els, e.1 ∈ windowTypes s.cfg) →
    (∃ l r, els = l ++ (s.cfg.wtInbox, bi) :: r ∧ ∀ e ∈ r, e.1 ≠ s.cfg.wtInbox) →
    ∃ t, exec .fwready s = .next t ∧
      (bi.size = 0 → (t.ex s.presenter).status = 4 ∧ t.halt = true) ∧
      (bi.size ≠ 0 → bo.size ≠ 0 → (∃ l r, els = l ++ (s.cfg.wtOutbox, bo) :: r ∧ ∀ e ∈ r, e.1 ≠ s.cfg.wtOutbox) →
        (t.ex s.presenter).status = 0 ∧ t.ctx.inbox = bi ∧ t.ctx.outbox = bo)

/-- R214, R213: an unrecognised type at element `k` ends the handshake there: the effects of the elements before it and of
F1 to F5 stay, the elements after it are not read, F7 is not reached, and the type is reported. -/
def Obligations.BadWindow : Prop :=
  ∀ (s : State) (k : Nat) (els : List (Word × Box)) (w : Word), s.cfg.wf = true → Presentable s .fwready →
    s.ctx.fwrDone = false → k < s.fwrTable.2 → s.handshakeReadable (k + 1) →
    els = s.windowTable s.fwrTable.1 k → (∀ e ∈ els, e.1 ∈ windowTypes s.cfg) →
    w = (s.window s.fwrTable.1 k).1 → w ∉ windowTypes s.cfg →
    ∃ t, exec .fwready s = .next t ∧ Ended s.presenter .configBadWindow w t ∧ t.halt = true ∧
      t.ctx = discovered s.cfg s.declared els ∧
      t.events = s.events ++ s.handshakeEvents els ++ [.log .configBadWindow w] ∧
      (newAccesses s t).length = s.cfg.fwr.size + (k + 1) * s.cfg.fwr.elemSize ∧
      SameResults s.presenter s t ∧ t.replyBox = s.replyBox ∧ t.pwr = s.pwr ∧ t.deferPending = s.deferPending ∧ t.lock = s.lock ∧
      t.irqRet = s.irqRet ∧ t.elapsed = s.elapsed ∧
      SameDevice s t ∧ SameRegions s t ∧ SameHost s t ∧ SameOthers s.presenter s t ∧ SameSetting s t

/-- R212, R24: the handshake runs once: after an `FWREADY` that answered, whatever its outcome, a second one is refused. -/
def Obligations.HandshakeOnce : Prop :=
  ∀ s t : State, Presentable s .fwready → exec .fwready s = .next t → t.ctx.fwrDone = true ∧
    (t.presenter ≠ .host ∨ t.halt = false → exec .fwready t = .refused .secondHandshake)

/-- R220, R221: `PANICCAP` reads the record at the recorded offset, or at the encoded one when nothing was recorded, hands
it on with the two words and both offsets, and changes nothing. The ascending order of the record's bytes is the model's
choice (R76 leaves it open; log 15). -/
def Obligations.PaniccapResult : Prop :=
  ∀ (s : State) (off cmdo cmdi : Word) (used : Nat), Presentable s (.paniccap off cmdo cmdi) →
    (s.ctx.excValid = true → used = s.ctx.excOff) → (s.ctx.excValid = false → used = off.toNat) →
    RegionRange s .dsp used (s.cfg.xoopsSize + 4 * s.cfg.stackWords) →
    s.readable .dsp used (s.cfg.xoopsSize + 4 * s.cfg.stackWords) →
    ∃ t, exec (.paniccap off cmdo cmdi) s = .next t ∧ Ended s.presenter .ok 0 t ∧ SameResults s.presenter s t ∧
      t.events = s.events ++ [.diag (s.bytesAt .dsp used s.cfg.xoopsSize)
        (s.wordsAt .dsp (used + s.cfg.xoopsSize) s.cfg.stackWords) cmdo cmdi used off] ∧
      newAccesses s t = (List.range (s.cfg.xoopsSize + 4 * s.cfg.stackWords)).map (fun i => .readByte .dsp (used + i)) ∧
      SameBlock s t ∧ SameDevice s t ∧ SameRegions s t ∧ SameHost s t ∧ SameOthers s.presenter s t ∧ SameSetting s t ∧
      t.elapsed = s.elapsed

/-! ## Agents that interleave -/

/-- R83, R195: whatever the firmware writes to `CMDI` between the two accesses of command-done's first `Update32` is lost.
-/
def Obligations.LostUpdate : Prop :=
  ∀ (s : State) (v : Word), s.cfg.wf = true → s.attached = true → (s.ex .host).op = none → s.halt = false →
    s.registersPlain →
    s.port = [.begin .host (encode .cmddone), .micro .host 0, .env (.fwFree .dsp s.cfg.cmdiOff v), .micro .host 0] →
    ∃ t, stepN 4 s = .next t ∧
      t.regs.cmdi = (s.regs.cmdi &&& ~~~(s.cfg.cmdiBusy ||| s.cfg.cmdiDone)) ||| s.cfg.cmdiDone ∧
      (t.ex .host).op = some .cmddone ∧ (∀ g, g ≠ .cmdi → t.regs.get g = s.regs.get g) ∧ SameRegions s t

/-- R75, R287: the two reads of `READ64` are made in either order, and a write between them tears the value; for plain words
of either region. -/
def Obligations.TornRead64 : Prop :=
  ∀ (s : State) (r : Region) (off v : Word) (pick : Nat), s.cfg.wf = true → s.attached = true → (s.ex .host).op = none →
    s.halt = false → off.toNat % 4 = 0 → RegionRange s r off.toNat 8 →
    s.plainWord r off.toNat → s.plainWord r (off.toNat + 4) →
    s.port = [.begin .host (encode (.read64 r off)), .micro .host pick,
      .env (.fwFree r (if pick % 2 = 0 then off.toNat + 4 else off.toNat) v),
      .micro .host 0, .micro .host 0, .micro .host 0, .micro .host 0] →
    ∃ t, stepN 7 s = .next t ∧ Ended .host .ok 0 t ∧
      (t.ex .host).result0 = (if pick % 2 = 0 then s.word r off.toNat else v) ∧
      (t.ex .host).result1 = (if pick % 2 = 0 then v else s.word r (off.toNat + 4))

/-- R182, R187, R254: with no input left and nothing in progress, a high line is taken by `IRQIMM` and pending work by
`IRQDEFER`; where both are due, the one that was not taken last, so that neither waits for ever (the order is the model's
choice, log 19). -/
def Obligations.LineServed : Prop :=
  ∀ s : State, s.cfg.wf = true → s.attached = true → s.port = [] → (∀ a, (s.ex a).op = none ∧ (s.ex a).todo = []) →
    (s.irqLine = true → s.deferPending = false ∨ s.lastTaken ≠ .irq →
      step s = exec .irqimm { s with presenter := .irq, lastTaken := .irq }) ∧
    (s.deferPending = true → s.irqLine = false ∨ s.lastTaken = .irq →
      step s = exec .irqdefer { s with presenter := .worker, lastTaken := .worker }) ∧
    (s.irqLine = false → s.deferPending = false → step s = .next s)

/-- R253, R291: `FW_REPLY` writes the reply from the base of the host box in which the message was posted, wherever the boxes
in `CTX` are by now, and then one word to `CMDO` with DONE set, BUSY clear and the other bits as given, so the line is high if DONE is not masked (R181). The move taken whole, in one step, is the
model's choice (log 16); begun and made one access at a time, with nothing else between, it ends in the same state. -/
def Obligations.FirmwareReply : Prop :=
  ∀ (s : State) (bytes : List Byte) (w : Word) (rest : List Input), s.cfg.wf = true →
    s.port = .env (.fwReply bytes w) :: rest → s.coreRunning = true → s.fw = [] → s.cmdoBusy = true →
    bytes.length ≤ s.replyBox.size → s.replyBox.off + s.replyBox.size ≤ s.cfg.dspSize →
    s.boxClear s.replyBox →
    ∃ t, step s = .next t ∧ t.port = rest ∧ t.fw = [] ∧ t.cmdoBusy = false ∧ t.cmdoDone = true ∧
      t.regs.cmdo &&& ~~~(s.cfg.cmdoBusy ||| s.cfg.cmdoDone) = w &&& ~~~(s.cfg.cmdoBusy ||| s.cfg.cmdoDone) ∧
      (s.imrhDone = false → t.irqLine = true) ∧
      (∀ (i : Nat) (h : i < bytes.length), Memory.read t.dspMem (s.replyBox.off + i) = bytes[i]) ∧
      (∀ r x, ¬(r = .dsp ∧ s.replyBox.off ≤ x ∧ x < s.replyBox.off + bytes.length) →
        Memory.read (t.mem r) x = Memory.read (s.mem r) x) ∧
      (∀ g, g ≠ .cmdo → t.regs.get g = s.regs.get g) ∧ SameBlock s t ∧ SameHost s t ∧ (∀ a, t.ex a = s.ex a) ∧
      Silent s t ∧
      stepN (bytes.length + 2) { s with
        port := .env (.start (.fwReply bytes w)) :: List.replicate (bytes.length + 1) (.env .next) ++ rest } = .next t

/-- R196: the life of an outbound message. The host posts, the firmware replies; with no further input the block masks the
source, defers the work, dispatches the reply, acknowledges and unmasks: four steps, the events, and no message outstanding.
That the block goes on with no further input, and that the reply is one step, are the model's choices (logs 19 and 16). -/
def Obligations.OutboundLife : Prop :=
  ∀ (s : State) (haddr size w : Word) (bytes : List Byte), s.cfg.wf = true → s.attached = true → s.halt = false →
    (∀ a, (s.ex a).op = none ∧ (s.ex a).todo = []) → s.lock = none → s.d0Confirmed = true → s.coreRunning = true →
    s.fw = [] → (s.cmdoBusy = true → s.replyBox = s.ctx.outbox) →
    s.registersPlain → s.imrhDone = false → s.cmdiBusy = false → s.cmdoDone = false → s.deferPending = false →
    s.replyCalls = [] → s.ctx.outbox.off % 4 = 0 → roundUp size.toNat ≤ s.ctx.outbox.size →
    s.ctx.outbox.off + s.ctx.outbox.size ≤ s.cfg.dspSize → HostRange haddr.toNat size.toNat →
    s.boxClear s.ctx.outbox → s.cfg.rhSize ≤ bytes.length → bytes.length ≤ s.ctx.outbox.size →
    s.port = [.op .host (encode (.sendmsg haddr size)), .env (.fwReply bytes w)] →
    ∃ t, stepN 4 s = .next t ∧ t.outPending = false ∧ t.imrhDone = false ∧ t.irqLine = false ∧ t.deferPending = false ∧
      t.irqRet = 2 ∧ t.lock = none ∧ (∀ a, Idle a t) ∧
      t.events = s.events ++ [.reply (bytes.take s.cfg.rhSize)
        ((w &&& ~~~(s.cfg.cmdoBusy ||| s.cfg.cmdoDone)) ||| s.cfg.cmdoDone)]

/-- R197: the life of an inbound message. The firmware posts; with no further input the block masks the source, defers the
work and dispatches the message, whose consumer reads it and acknowledges: three steps. That the block goes on with no
further input, that the post is one step, and that what the consumer presents is fixed beforehand are the model's choices
(logs 19, 16 and 22). -/
def Obligations.InboundLife : Prop :=
  ∀ (s : State) (haddr size w v : Word) (bytes : List Byte), s.cfg.wf = true → s.attached = true →
    (∀ a, (s.ex a).op = none ∧ (s.ex a).todo = []) → s.lock = none → s.d0Confirmed = true → s.coreRunning = true →
    s.fw = [] →
    s.registersPlain → s.imrhBusy = false → s.cmdiBusy = false → s.cmdoDone = false → s.deferPending = false →
    s.ctx.inbox.off + s.ctx.inbox.size ≤ s.cfg.dspSize → s.boxClear s.ctx.inbox →
    size.toNat ≤ bytes.length → bytes.length ≤ s.ctx.inbox.size → HostRange haddr.toNat size.toNat →
    v = (w &&& ~~~(s.cfg.cmdiBusy ||| s.cfg.cmdiDone)) ||| s.cfg.cmdiBusy →
    w &&& s.cfg.panicMask ≠ s.cfg.panicMagic → v &&& s.cfg.panicMask ≠ s.cfg.panicMagic →
    s.port = [.env (.fwPost 0 bytes w)] → s.msgCalls = [[encode (.mboxrd 0 haddr size), encode .cmddone]] →
    ∃ t, stepN 3 s = .next t ∧ t.cmdiBusy = false ∧ t.cmdiDone = true ∧ t.imrhBusy = false ∧ t.irqLine = false ∧
      t.deferPending = false ∧ t.irqRet = 2 ∧ t.lock = none ∧ (t.ex .worker).op = none ∧ (t.ex .worker).status = 0 ∧
      t.events = s.events ++ [.msg v] ∧
      (∀ i < size.toNat, some (Memory.read t.hm (haddr.toNat + i)) = bytes[i]?) ∧
      ∀ x, ¬(haddr.toNat ≤ x ∧ x < haddr.toNat + size.toNat) → Memory.read t.hm x = Memory.read s.hm x

/-- R275, U10: detach is refused while deferred work is pending or an operation is in progress; after it the command ports
take nothing. -/
def Obligations.DetachRule : Prop :=
  ∀ (s : State) (rest : List Input), s.cfg.wf = true → s.port = .detach :: rest → s.attached = true →
    ((s.deferPending = true ∨ ∃ a, (s.ex a).op ≠ none) → step s = .refused .detachBusy) ∧
    (s.deferPending = false → (∀ a, (s.ex a).op = none) →
      step s = .next { s with port := rest, attached := false } ∧
      ∀ (a : Agent) (d : Desc), step { s with port := [.op a d], attached := false } = .refused .detached)

/-! ## The whole machine -/

/-- R51, R270, R272: what attach leaves in the block's own registers, the values the spec gives. -/
def Obligations.AttachValues : Prop :=
  ∀ c : Cfg, ∀ s, s = State.attach c →
    (∀ a, (s.ex a).op = none ∧ (s.ex a).step = 0 ∧ (s.ex a).status = 0 ∧ (s.ex a).errval = 0 ∧
      (s.ex a).result0 = 0 ∧ (s.ex a).result1 = 0) ∧
    s.halt = false ∧ s.irqRet = 0 ∧ s.pwr = .offD3 ∧ s.deferPending = false ∧ s.lock = none ∧
    s.ctx.outbox = c.bootOut ∧ s.ctx.inbox = c.bootIn ∧ s.ctx.streambox = ⟨0, 0⟩ ∧ s.ctx.excValid = false ∧
    s.ctx.fwrDone = false ∧ s.ctx.diag = c.diagTable ∧ s.events = []

/-- The memories of a well-kept state stay in the model's canonical form (log 5) at every step, whatever the input. -/
def Obligations.CanonicalKept : Prop := ∀ s t : State, Canonical s → step s = .next t → Canonical t

/-- The state at reset is well kept, its lock is sound, and its configuration, the model's choice of `CFG_TEST` (log 3), is
well formed (R13). -/
def Obligations.CanonicalReset : Prop := Canonical State.reset ∧ LockSound State.reset ∧ State.reset.cfg.wf = true

/-- Two memories in the model's canonical form (log 5) that read alike everywhere are equal: equal contents are equal data.
-/
def Obligations.CanonicalUnique : Prop :=
  ∀ m n : Memory, Memory.wf m → Memory.wf n → (∀ x, Memory.read m x = Memory.read n x) → m = n

/-- R29, R82: at every step, whatever the input, the owner of the lock stays an agent whose operation is in progress and
still has its release to do, with nothing but reads, writes and `IRQIMM`'s two tests and notes of work before it, and no
agent releases what it has not acquired. -/
def Obligations.LockKept : Prop := ∀ s t : State, LockSound s → step s = .next t → LockSound t

/-- R99, R21, R24, R46, R48 (d), R275: what no step undoes, whatever the input: the configuration, `SEQ.halt`,
`CTX.FWR_DONE`, `CTX.EXC_VALID`, the diagnostic list, the events, the model's record of the accesses (log 13), time, a
detach. -/
def Obligations.GrowsKept : Prop := ∀ s t : State, step s = .next t → Grows s t

/-- R64, R65, R66, R67: every access an operation makes, those of the operations a consumer presents in it included, is a
whole word at a 4-aligned offset, or a byte, inside its region; whatever the operation, the boxes and the window table. -/
def Obligations.AccessesInRange : Prop :=
  ∀ (i : Instr) (s t : State), s.cfg.wf = true → exec i s = .next t → ∀ x ∈ newAccesses s t, Access.allowed s.cfg x

/-- R250, R25, R78: an operation taken as a whole (the model's form of one that nothing interleaves with, log 1) does what
it does micro-step by micro-step when nothing moves in between: if it ends, some number of micro-steps ends it in the same
state. -/
def Obligations.MicroStepsAgree : Prop :=
  ∀ (i : Instr) (s t : State), exec i s = .next t → (t.ex s.presenter).op = none →
    ∃ (u : State) (n : Nat), presentOnly s.presenter (encode i) s = .next u ∧ microN s.presenter n u = .next t
end

