-- ==== Sys2Proof/Laws/Bytes.lean ====
section
/-! SUPPORT. Laws of the byte order (R62, R63), of the merge of `Update32` (R16) and of one-bit masks (R13 (c)). -/

namespace Sys2Proof.Machine

/-! ## Words and their bytes -/

/-- Bit `k` of a word of four bytes. -/
theorem getLsbD_wordOf (b0 b1 b2 b3 : Byte) (k : Nat) :
    (wordOf b0 b1 b2 b3).getLsbD k =
      if k < 8 then b0.getLsbD k else if k < 16 then b1.getLsbD (k - 8)
      else if k < 24 then b2.getLsbD (k - 16) else b3.getLsbD (k - 24) := by
  simp only [wordOf, BitVec.getLsbD_append]
  by_cases h0 : k < 8
  · simp [h0]
  · by_cases h1 : k < 16
    · simp [h0, h1, show k - 8 < 8 by omega]
    · by_cases h2 : k < 24
      · simp [h0, h1, h2, show ¬ k - 8 < 8 by omega, show k - 16 < 8 by omega, show k - 8 - 8 = k - 16 by omega]
      · simp [h0, h1, h2, show ¬ k - 8 < 8 by omega, show ¬ k - 8 - 8 < 8 by omega,
          show k - 8 - 8 - 8 = k - 24 by omega]

@[simp] theorem wordByte_wordOf_0 (b0 b1 b2 b3 : Byte) : wordByte (wordOf b0 b1 b2 b3) 0 = b0 := by
  ext i hi
  simp only [wordByte, ← BitVec.getLsbD_eq_getElem, BitVec.getLsbD_extractLsb', getLsbD_wordOf]
  simp [hi]

@[simp] theorem wordByte_wordOf_1 (b0 b1 b2 b3 : Byte) : wordByte (wordOf b0 b1 b2 b3) 1 = b1 := by
  ext i hi
  simp only [wordByte, ← BitVec.getLsbD_eq_getElem, BitVec.getLsbD_extractLsb', getLsbD_wordOf]
  simp [hi, show 8 + i < 16 by omega]

@[simp] theorem wordByte_wordOf_2 (b0 b1 b2 b3 : Byte) : wordByte (wordOf b0 b1 b2 b3) 2 = b2 := by
  ext i hi
  simp only [wordByte, ← BitVec.getLsbD_eq_getElem, BitVec.getLsbD_extractLsb', getLsbD_wordOf]
  simp [hi, show ¬ 16 + i < 8 by omega, show 16 + i < 24 by omega]

@[simp] theorem wordByte_wordOf_3 (b0 b1 b2 b3 : Byte) : wordByte (wordOf b0 b1 b2 b3) 3 = b3 := by
  ext i hi
  simp only [wordByte, ← BitVec.getLsbD_eq_getElem, BitVec.getLsbD_extractLsb', getLsbD_wordOf]
  simp [hi, show ¬ 24 + i < 8 by omega, show ¬ 24 + i < 16 by omega]

/-- A word is the word of its four bytes (R62). -/
@[simp] theorem wordOf_wordByte (w : Word) :
    wordOf (wordByte w 0) (wordByte w 1) (wordByte w 2) (wordByte w 3) = w := by
  ext i _
  simp only [← BitVec.getLsbD_eq_getElem, getLsbD_wordOf, wordByte, BitVec.getLsbD_extractLsb']
  by_cases h0 : i < 8
  · simp [h0]
  · by_cases h1 : i < 16
    · simp [h0, h1, show i - 8 < 8 by omega, show 8 + (i - 8) = i by omega]
    · by_cases h2 : i < 24
      · simp [h0, h1, h2, show i - 16 < 8 by omega, show 16 + (i - 16) = i by omega]
      · simp [h0, h1, h2, show i - 24 < 8 by omega, show 24 + (i - 24) = i by omega]

/-- Two words with the same four bytes are equal. -/
theorem word_eq_of_bytes {v w : Word} (h : ∀ i < 4, wordByte v i = wordByte w i) : v = w := by
  rw [← wordOf_wordByte v, ← wordOf_wordByte w, h 0 (by omega), h 1 (by omega), h 2 (by omega), h 3 (by omega)]

/-- Byte `i` of the word of four bytes. -/
theorem wordByte_wordOf (b0 b1 b2 b3 : Byte) (i : Nat) (h : i < 4) :
    wordByte (wordOf b0 b1 b2 b3) i = if i = 0 then b0 else if i = 1 then b1 else if i = 2 then b2 else b3 := by
  obtain rfl | rfl | rfl | rfl : i = 0 ∨ i = 1 ∨ i = 2 ∨ i = 3 := by omega
  all_goals simp

/-- Replacing byte `i` of a word. -/
theorem wordByte_wordSetByte (w : Word) (i j : Nat) (b : Byte) (hj : j < 4) :
    wordByte (wordSetByte w i b) j = if j = i then b else wordByte w j := by
  rw [wordSetByte, wordByte_wordOf _ _ _ _ j hj]
  obtain rfl | rfl | rfl | rfl : j = 0 ∨ j = 1 ∨ j = 2 ∨ j = 3 := by omega
  all_goals simp [eq_comm]

/-! ## The merge of `Update32` -/

/-- Bit `k` of a merge is `val`'s under the mask and `old`'s elsewhere (R16). -/
theorem getLsbD_merged (old mask val : Word) (k : Nat) :
    (merged old mask val).getLsbD k = if mask.getLsbD k then val.getLsbD k else old.getLsbD k := by
  by_cases hk : k < 32
  · simp only [merged, BitVec.getLsbD_or, BitVec.getLsbD_and, BitVec.getLsbD_not, hk, decide_true, Bool.true_and]
    cases mask.getLsbD k <;> simp
  · simp [merged, BitVec.getLsbD_of_ge _ _ (show 32 ≤ k by omega)]

/-- A merge under the empty mask changes nothing. -/
@[simp] theorem merged_zero_mask (old val : Word) : merged old 0 val = old := by
  ext k hk; simp [← BitVec.getLsbD_eq_getElem, getLsbD_merged]

/-- The bits outside the mask are kept (R16). -/
theorem merged_outside (old mask val : Word) : merged old mask val &&& ~~~mask = old &&& ~~~mask := by
  ext k hk
  simp only [← BitVec.getLsbD_eq_getElem, BitVec.getLsbD_and, BitVec.getLsbD_not, getLsbD_merged]
  cases mask.getLsbD k <;> simp

/-- The bits under the mask become `val`'s (R16). -/
theorem merged_inside (old mask val : Word) : merged old mask val &&& mask = val &&& mask := by
  ext k hk
  simp only [← BitVec.getLsbD_eq_getElem, BitVec.getLsbD_and, getLsbD_merged]
  cases mask.getLsbD k <;> simp

/-- Merging twice under one mask is merging once. -/
@[simp] theorem merged_merged (old mask v w : Word) : merged (merged old mask v) mask w = merged old mask w := by
  ext k hk
  simp only [← BitVec.getLsbD_eq_getElem, getLsbD_merged]
  cases mask.getLsbD k <;> simp

/-- A flag whose mask lies inside the update's mask is the one of the new value. -/
theorem flagOf_merged_inside {old mask val f : Word} (h : f &&& ~~~mask = 0) :
    flagOf (merged old mask val) f = flagOf val f := by
  have : merged old mask val &&& f = val &&& f := by
    ext k hk
    have hb := congrArg (BitVec.getLsbD · k) h
    simp only [← BitVec.getLsbD_eq_getElem, BitVec.getLsbD_and, getLsbD_merged]
    simp only [BitVec.getLsbD_and, BitVec.getLsbD_not, hk, decide_true, Bool.true_and] at hb
    cases hm : mask.getLsbD k <;> simp_all
  simp [flagOf, this]

/-- A flag whose mask lies outside the update's mask is kept. -/
theorem flagOf_merged_outside {old mask val f : Word} (h : f &&& mask = 0) :
    flagOf (merged old mask val) f = flagOf old f := by
  have : merged old mask val &&& f = old &&& f := by
    ext k _
    have hb := congrArg (BitVec.getLsbD · k) h
    simp only [← BitVec.getLsbD_eq_getElem, BitVec.getLsbD_and, getLsbD_merged]
    simp only [BitVec.getLsbD_and] at hb
    cases hm : mask.getLsbD k <;> simp_all
  simp [flagOf, this]

@[simp] theorem flagOf_zero (f : Word) : flagOf 0 f = false := by simp [flagOf]

/-! ## One-bit masks (R13 (c)) -/

theorem pow_of_and_pred (n : Nat) (hn : 0 < n) (h : n &&& (n - 1) = 0) : ∃ k, n = 2 ^ k := by
  induction n using Nat.strong_induction_on with
  | _ n ih =>
    rcases Nat.even_or_odd' n with ⟨m, rfl | rfl⟩
    · have : (2 * m &&& (2 * m - 1)) / 2 = m &&& (m - 1) := by
        rw [Nat.and_div_two]; congr 1 <;> omega
      obtain ⟨k, hk⟩ := ih m (by omega) (by omega) (by rw [← this, h])
      exact ⟨k + 1, by rw [Nat.pow_succ]; omega⟩
    · have : (2 * m + 1 &&& (2 * m + 1 - 1)) / 2 = m &&& m := by
        rw [Nat.and_div_two]; congr 1 <;> omega
      rw [h, Nat.and_self] at this
      exact ⟨0, by omega⟩

/-- A one-bit mask is a power of two. -/
theorem oneBit_eq {w : Word} (h : oneBit w = true) : ∃ i < 32, w = BitVec.twoPow 32 i := by
  simp only [oneBit, Bool.and_eq_true, bne_iff_ne, ne_eq, beq_iff_eq] at h
  obtain ⟨h0, h1⟩ := h
  have hpos : 0 < w.toNat := by
    rcases Nat.eq_zero_or_pos w.toNat with h | h
    · exact absurd (BitVec.eq_of_toNat_eq h) h0
    · exact h
  have hlt := w.isLt
  have h2 : w.toNat &&& (w.toNat - 1) = 0 := by
    have := congrArg BitVec.toNat h1
    rwa [BitVec.toNat_and, BitVec.toNat_sub_of_le (by rw [BitVec.le_def]; exact hpos)] at this
  obtain ⟨k, hk⟩ := pow_of_and_pred _ hpos h2
  have hk32 : k < 32 := by
    rw [hk] at hlt
    exact (Nat.pow_lt_pow_iff_right (by omega)).1 hlt
  exact ⟨k, hk32, BitVec.eq_of_toNat_eq (by
    rw [BitVec.toNat_twoPow, hk, Nat.mod_eq_of_lt (Nat.pow_lt_pow_right (by omega) hk32)])⟩

/-- A flag whose mask is bit `k` is that bit. -/
theorem flagOf_twoPow (x : Word) {k : Nat} (hk : k < 32) : flagOf x (BitVec.twoPow 32 k) = x.getLsbD k := by
  rw [Bool.eq_iff_iff]
  simp only [flagOf, bne_iff_ne, ne_eq]
  constructor
  · intro hne
    by_contra hb
    apply hne
    ext m _
    simp only [← BitVec.getLsbD_eq_getElem, BitVec.getLsbD_and, BitVec.getLsbD_twoPow]
    by_cases hm : k = m
    · subst hm; simp [hb]
    · simp [hm]
  · intro hb e
    have := congrArg (BitVec.getLsbD · k) e
    simp only [BitVec.getLsbD_and, BitVec.getLsbD_twoPow, hb, hk] at this
    simp at this

/-- Two different one-bit masks are disjoint (R13 (c)). -/
theorem twoBits_disjoint {a b : Word} (h : twoBits a b = true) : a &&& b = 0 := by
  simp only [twoBits, Bool.and_eq_true, bne_iff_ne, ne_eq] at h
  obtain ⟨i, _, rfl⟩ := oneBit_eq h.1.1
  obtain ⟨j, _, rfl⟩ := oneBit_eq h.1.2
  have hij : i ≠ j := fun e => h.2 (by rw [e])
  ext k _
  simp only [← BitVec.getLsbD_eq_getElem, BitVec.getLsbD_and, BitVec.getLsbD_twoPow]
  by_cases hk : i = k
  · simp [hk ▸ hij.symm]
  · simp [hk]

/-- A one-bit mask, read as a flag of itself, is set. -/
theorem flagOf_self {a : Word} (h : oneBit a = true) : flagOf a a = true := by
  simp only [oneBit, Bool.and_eq_true] at h
  simpa [flagOf] using h.1

theorem twoBits_fst {a b : Word} (h : twoBits a b = true) : oneBit a = true := by
  simp only [twoBits, Bool.and_eq_true] at h; exact h.1.1

theorem twoBits_snd {a b : Word} (h : twoBits a b = true) : oneBit b = true := by
  simp only [twoBits, Bool.and_eq_true] at h; exact h.1.2

end Sys2Proof.Machine
end

