-- ==== Sys2Proof/Laws/Config.lean ====
section
/-! SUPPORT. What a well-formed configuration gives (R13), clause by clause, and which register stands at which offset. -/

namespace Sys2Proof

theorem allDistinct_iff_nodup {α : Type} [DecidableEq α] (l : List α) : allDistinct l = true ↔ l.Nodup := by
  induction l with
  | nil => simp [allDistinct]
  | cons x xs ih => simp [allDistinct, ih]

section
variable {c : Cfg} (h : c.wf = true)
include h

/-- The clauses of R13, in the order of `Cfg.wf`. -/
theorem Cfg.wf_clauses :
    sizeOk c.dspSize = true ∧
    sizeOk c.compSize = true ∧
    c.offsets.all (wordFits c.dspSize) = true ∧
    wordFits (c.regionSize c.pmSts.rgn) c.pmSts.off = true ∧
    allDistinct c.offsets = true ∧
    twoBits c.csrRst c.csrStall = true ∧
    twoBits c.isrDone c.isrBusy = true ∧
    twoBits c.imrhDone c.imrhBusy = true ∧
    twoBits c.imrdDone c.imrdBusy = true ∧
    twoBits c.cmdoBusy c.cmdoDone = true ∧
    twoBits c.cmdiBusy c.cmdiDone = true ∧
    (c.dmamodeOpp != 0) = true ∧
    (c.panicMagic &&& ~~~c.panicMask == 0) = true ∧
    (c.panicMask != 0) = true ∧
    c.stepDescs.all c.stepOk = true ∧
    (c.stGateOff.rgn == .comp) = true ∧
    (c.pmSts.mask != 0) = true ∧
    c.boxOk c.bootOut = true ∧
    c.boxOk c.bootIn = true ∧
    allDistinct [c.wtInbox, c.wtOutbox, c.wtTrace, c.wtDebug, c.wtStream, c.wtRegs, c.wtException] = true ∧
    c.offsets.all (fun o => outside c.bootOut o && outside c.bootIn o) = true ∧
    decide (c.rhSizeOff + 4 ≤ c.rhSize) = true ∧
    decide (c.rhErrOff + 4 ≤ c.rhSize) = true ∧
    c.fwr.ok = true ∧
    c.diagOk = true := by
  simpa only [Cfg.wf, Bool.and_eq_true, and_assoc] using h

theorem Cfg.wf_offsets_fit : ∀ o ∈ c.offsets, wordFits c.dspSize o = true :=
  List.all_eq_true.1 (c.wf_clauses h).2.2.1
theorem Cfg.wf_pm_fits : wordFits (c.regionSize c.pmSts.rgn) c.pmSts.off = true :=
  (c.wf_clauses h).2.2.2.1
theorem Cfg.wf_offsets_distinct : c.offsets.Nodup :=
  (allDistinct_iff_nodup _).1 (c.wf_clauses h).2.2.2.2.1
theorem Cfg.wf_csr : twoBits c.csrRst c.csrStall = true :=
  (c.wf_clauses h).2.2.2.2.2.1
theorem Cfg.wf_isr : twoBits c.isrDone c.isrBusy = true :=
  (c.wf_clauses h).2.2.2.2.2.2.1
theorem Cfg.wf_imrh : twoBits c.imrhDone c.imrhBusy = true :=
  (c.wf_clauses h).2.2.2.2.2.2.2.1
theorem Cfg.wf_imrd : twoBits c.imrdDone c.imrdBusy = true :=
  (c.wf_clauses h).2.2.2.2.2.2.2.2.1
theorem Cfg.wf_cmdo : twoBits c.cmdoBusy c.cmdoDone = true :=
  (c.wf_clauses h).2.2.2.2.2.2.2.2.2.1
theorem Cfg.wf_cmdi : twoBits c.cmdiBusy c.cmdiDone = true :=
  (c.wf_clauses h).2.2.2.2.2.2.2.2.2.2.1
theorem Cfg.wf_stepDescs : ∀ d ∈ c.stepDescs, c.stepOk d = true :=
  List.all_eq_true.1 (c.wf_clauses h).2.2.2.2.2.2.2.2.2.2.2.2.2.2.1
theorem Cfg.wf_boot : c.boxOk c.bootOut = true ∧ c.boxOk c.bootIn = true :=
  ⟨(c.wf_clauses h).2.2.2.2.2.2.2.2.2.2.2.2.2.2.2.2.2.1, (c.wf_clauses h).2.2.2.2.2.2.2.2.2.2.2.2.2.2.2.2.2.2.1⟩
theorem Cfg.wf_windows : [c.wtInbox, c.wtOutbox, c.wtTrace, c.wtDebug, c.wtStream, c.wtRegs, c.wtException].Nodup :=
  (allDistinct_iff_nodup _).1 (c.wf_clauses h).2.2.2.2.2.2.2.2.2.2.2.2.2.2.2.2.2.2.2.1
theorem Cfg.wf_header : c.rhSizeOff + 4 ≤ c.rhSize ∧ c.rhErrOff + 4 ≤ c.rhSize :=
  ⟨of_decide_eq_true (c.wf_clauses h).2.2.2.2.2.2.2.2.2.2.2.2.2.2.2.2.2.2.2.2.2.1, of_decide_eq_true (c.wf_clauses h).2.2.2.2.2.2.2.2.2.2.2.2.2.2.2.2.2.2.2.2.2.2.1⟩
theorem Cfg.wf_fwr : c.fwr.ok = true :=
  (c.wf_clauses h).2.2.2.2.2.2.2.2.2.2.2.2.2.2.2.2.2.2.2.2.2.2.2.1

/-- R13 (a): every device register's offset is a multiple of 4. -/
theorem Cfg.wf_off_aligned {o : Nat} (ho : o ∈ c.offsets) : o % 4 = 0 := by
  have := c.wf_offsets_fit h o ho
  simp only [wordFits, Bool.and_eq_true, beq_iff_eq, decide_eq_true_eq] at this
  exact this.1

end

namespace Machine

theorem regOff_mem (c : Cfg) (g : DevReg) : regOff c g ∈ c.offsets := by
  cases g <;> simp [regOff, Cfg.offsets]

theorem isrOff_mem (c : Cfg) : c.isrOff ∈ c.offsets := by simp [Cfg.offsets]

theorem mem_allRegs (g : DevReg) : g ∈ allRegs := by cases g <;> simp [allRegs]

/-- The eight registers with storage stand at different offsets, none of them `ISR`'s (R13 (b)). -/
theorem regOffs_nodup {c : Cfg} (h : c.wf = true) : (c.isrOff :: allRegs.map (regOff c)).Nodup := by
  have := c.wf_offsets_distinct h
  rw [Cfg.offsets, (List.Perm.swap c.isrOff c.csrOff _).nodup_iff] at this
  exact this

theorem regOff_injective {c : Cfg} (h : c.wf = true) {g g' : DevReg} (e : regOff c g = regOff c g') : g = g' :=
  List.inj_on_of_nodup_map (List.nodup_cons.1 (regOffs_nodup h)).2 (mem_allRegs g) (mem_allRegs g') e

theorem regOff_ne_isr {c : Cfg} (h : c.wf = true) (g : DevReg) : regOff c g ≠ c.isrOff := fun e =>
  (List.nodup_cons.1 (regOffs_nodup h)).1 (e ▸ List.mem_map_of_mem (mem_allRegs g))

/-- The register found at an offset has that offset. -/
theorem regAt_some {c : Cfg} {r : Region} {off : Nat} {g : DevReg} (h : regAt c r off = some g) :
    r = .dsp ∧ regOff c g = off := by
  cases r with
  | comp => simp [regAt] at h
  | dsp => exact ⟨rfl, by simpa using List.find?_some h⟩

/-- A register is found at its offset (R13 (b)). -/
theorem regAt_regOff {c : Cfg} (h : c.wf = true) (g : DevReg) : regAt c .dsp (regOff c g) = some g := by
  cases e : regAt c .dsp (regOff c g) with
  | none =>
    have := List.find?_eq_none.1 e g (mem_allRegs g)
    simp at this
  | some g' => rw [regOff_injective h (regAt_some e).2]

@[simp] theorem regAt_comp (c : Cfg) (off : Nat) : regAt c .comp off = none := rfl

/-- No register is found at an offset that is none of theirs. -/
theorem regAt_none {c : Cfg} {r : Region} {off : Nat} (h : r = .dsp → off ∉ c.offsets) : regAt c r off = none := by
  cases e : regAt c r off with
  | none => rfl
  | some g => exact absurd (regOff_mem c g) ((regAt_some e).2 ▸ h (regAt_some e).1)

end Machine

end Sys2Proof
end

