-- ==== Sys2Proof/Laws/Memory.lean ====
section
/-! SUPPORT. The basic laws of memory: a read after a write, the canonical form and that every write keeps it, words and
byte strings. -/

namespace Sys2Proof.Machine

/-! ## One byte -/

@[simp] theorem Memory.read_nil (x : Nat) : Memory.read [] x = unwritten := rfl

theorem Memory.erase_cons (c : Host.Cell) (m : Memory) (a : Nat) :
    Memory.erase (c :: m) a = if c.1 = a then Memory.erase m a else c :: Memory.erase m a := by
  by_cases h : c.1 = a <;> simp [Memory.erase, h]

theorem Memory.read_erase (m : Memory) (a x : Nat) :
    Memory.read (Memory.erase m a) x = if x = a then unwritten else Memory.read m x := by
  induction m with
  | nil => simp [Memory.erase]
  | cons c m ih =>
    rw [Memory.erase_cons]
    by_cases h : c.1 = a
    · by_cases hx : x = a
      · subst hx; simp [h, ih]
      · simp [h, hx, ih, Memory.read, Ne.symm hx]
    · by_cases hx : x = a
      · subst hx; simp [h, ih, Memory.read]
      · simp [h, hx, ih, Memory.read]

theorem Memory.read_insert_same (m : Memory) (a : Nat) (b : Byte) (h : ∀ c ∈ m, c.1 ≠ a) :
    Memory.read (Memory.insert m a b) a = b := by
  induction m with
  | nil => simp [Memory.insert, Memory.read]
  | cons c m ih =>
    simp only [Memory.insert]
    split
    · simp [Memory.read]
    · have := h c (by simp)
      simp only [Memory.read, this, if_false]
      exact ih (fun d hd => h d (by simp [hd]))

theorem Memory.read_insert_ne (m : Memory) (a x : Nat) (b : Byte) (h : x ≠ a) :
    Memory.read (Memory.insert m a b) x = Memory.read m x := by
  induction m with
  | nil => simp [Memory.insert, Memory.read, Ne.symm h]
  | cons c m ih =>
    simp only [Memory.insert]
    split
    · simp [Memory.read, Ne.symm h]
    · simp [Memory.read, ih]

theorem Memory.not_mem_erase (m : Memory) (a : Nat) : ∀ c ∈ Memory.erase m a, c.1 ≠ a := by
  intro c hc
  simpa [Memory.erase] using (List.mem_filter.1 hc).2

/-- A read after a write: the byte written at its address, the old byte everywhere else. -/
theorem Memory.read_write (m : Memory) (a x : Nat) (b : Byte) :
    Memory.read (Memory.write m a b) x = if x = a then b else Memory.read m x := by
  unfold Memory.write
  by_cases hb : b = unwritten
  · simp only [hb, if_true, Memory.read_erase]
  · by_cases hx : x = a
    · subst hx; simp [hb, Memory.read_insert_same _ _ _ (Memory.not_mem_erase m x)]
    · simp [hb, hx, Memory.read_insert_ne _ _ _ _ hx, Memory.read_erase]

@[simp] theorem Memory.read_write_same (m : Memory) (a : Nat) (b : Byte) :
    Memory.read (Memory.write m a b) a = b := by simp [Memory.read_write]

/-! ## The canonical form -/

theorem Memory.wf_nil : Memory.wf [] := by simp [Memory.wf]

theorem Memory.wf_erase {m : Memory} (h : Memory.wf m) (a : Nat) : Memory.wf (Memory.erase m a) :=
  ⟨h.1.filter _, fun c hc => h.2 c (List.mem_filter.1 hc).1⟩

theorem Memory.mem_insert (m : Memory) (a : Nat) (b : Byte) (c : Host.Cell) (h : c ∈ Memory.insert m a b) :
    c = (a, b) ∨ c ∈ m := by
  induction m with
  | nil => simpa [Memory.insert] using h
  | cons d m ih =>
    simp only [Memory.insert] at h
    split at h
    · simpa using h
    · rcases List.mem_cons.1 h with rfl | h
      · simp
      · rcases ih h with h | h <;> simp [h]

theorem Memory.wf_insert {m : Memory} (h : Memory.wf m) (a : Nat) (b : Byte) (hb : b ≠ unwritten)
    (ha : ∀ c ∈ m, c.1 ≠ a) : Memory.wf (Memory.insert m a b) := by
  refine ⟨?_, fun c hc => ?_⟩
  · obtain ⟨h, -⟩ := h
    induction m with
    | nil => simp [Memory.insert]
    | cons c m ih =>
      simp only [Memory.insert]
      rw [List.pairwise_cons] at h
      split
      · rename_i hac
        refine List.pairwise_cons.2 ⟨fun d hd => ?_, List.pairwise_cons.2 h⟩
        rcases List.mem_cons.1 hd with rfl | hd
        · exact hac
        · exact Nat.lt_trans hac (h.1 d hd)
      · rename_i hac
        refine List.pairwise_cons.2 ⟨fun d hd => ?_, ih (fun d hd => ha d (by simp [hd])) h.2⟩
        rcases Memory.mem_insert m a b d hd with rfl | hd
        · have := ha c (by simp)
          simp only at hac ⊢; omega
        · exact h.1 d hd
  · rcases Memory.mem_insert m a b c hc with rfl | hc
    · exact hb
    · exact h.2 c hc

/-- A write keeps the canonical form. -/
theorem Memory.wf_write {m : Memory} (h : Memory.wf m) (a : Nat) (b : Byte) : Memory.wf (Memory.write m a b) := by
  unfold Memory.write
  split
  · exact Memory.wf_erase h a
  · exact Memory.wf_insert (Memory.wf_erase h a) a b (by assumption) (Memory.not_mem_erase m a)

/-! ## Words -/

/-- What a byte reads as after a word has been stored (R16, R63). -/
theorem Memory.read_writeWord (m : Memory) (a x : Nat) (w : Word) :
    Memory.read (Memory.writeWord m a w) x =
      if a ≤ x ∧ x < a + 4 then wordByte w (x - a) else Memory.read m x := by
  simp only [Memory.writeWord, Memory.read_write]
  by_cases h : a ≤ x ∧ x < a + 4
  · obtain rfl | rfl | rfl | rfl : x = a ∨ x = a + 1 ∨ x = a + 2 ∨ x = a + 3 := by omega
    all_goals simp
  · rw [if_neg h, if_neg (by omega), if_neg (by omega), if_neg (by omega), if_neg (by omega)]

/-- A word read back is the word stored. -/
@[simp] theorem Memory.readWord_writeWord_same (m : Memory) (a : Nat) (w : Word) :
    Memory.readWord (Memory.writeWord m a w) a = w := by
  simp [Memory.readWord, Memory.read_writeWord]

/-- A word apart from the one stored reads as before. -/
theorem Memory.readWord_writeWord_apart (m : Memory) (a x : Nat) (w : Word) (h : x + 4 ≤ a ∨ a + 4 ≤ x) :
    Memory.readWord (Memory.writeWord m a w) x = Memory.readWord m x := by
  simp only [Memory.readWord, Memory.read_writeWord]
  rw [if_neg (by omega), if_neg (by omega), if_neg (by omega), if_neg (by omega)]

/-- Byte `i` of the word at `a` is the byte at `a + i` (R16). -/
theorem Memory.wordByte_readWord (m : Memory) (a i : Nat) (h : i < 4) :
    wordByte (Memory.readWord m a) i = Memory.read m (a + i) := by
  obtain rfl | rfl | rfl | rfl : i = 0 ∨ i = 1 ∨ i = 2 ∨ i = 3 := by omega
  all_goals simp [Memory.readWord]

/-- A word store keeps the canonical form. -/
theorem Memory.wf_writeWord {m : Memory} (h : Memory.wf m) (a : Nat) (w : Word) :
    Memory.wf (Memory.writeWord m a w) :=
  Memory.wf_write (Memory.wf_write (Memory.wf_write (Memory.wf_write h _ _) _ _) _ _) _ _

/-! ## Byte strings -/

@[simp] theorem Memory.length_readBytes (m : Memory) (a n : Nat) : (Memory.readBytes m a n).length = n := by
  simp [Memory.readBytes]

/-- Byte strings are equal when the bytes are. -/
theorem Memory.readBytes_congr {m m' : Memory} {a a' n : Nat}
    (h : ∀ i < n, Memory.read m (a + i) = Memory.read m' (a' + i)) :
    Memory.readBytes m a n = Memory.readBytes m' a' n := by
  simp only [Memory.readBytes]
  exact List.map_congr_left (fun i hi => h i (List.mem_range.1 hi))

/-- Words are equal when their bytes are. -/
theorem Memory.readWord_congr {m m' : Memory} {a a' : Nat}
    (h : ∀ i < 4, Memory.read m (a + i) = Memory.read m' (a' + i)) : Memory.readWord m a = Memory.readWord m' a' := by
  simp only [Memory.readWord]
  rw [h 1 (by omega), h 2 (by omega), h 3 (by omega)]
  have := h 0 (by omega)
  simp only [Nat.add_zero] at this
  rw [this]

/-- Word strings are equal when the bytes are. -/
theorem Memory.readWords_congr {m m' : Memory} {a a' n : Nat}
    (h : ∀ i < 4 * n, Memory.read m (a + i) = Memory.read m' (a' + i)) :
    Memory.readWords m a n = Memory.readWords m' a' n := by
  simp only [Memory.readWords]
  refine List.map_congr_left (fun i hi => Memory.readWord_congr fun j hj => ?_)
  have := List.mem_range.1 hi
  have := h (4 * i + j) (by omega)
  simpa [Nat.add_assoc] using this

end Sys2Proof.Machine
end

