-- ==== Sys2Proof/Laws/State.lean ====
section
/-! SUPPORT. One small lemma per field per update of the state, so that no later proof unfolds a record update. -/

namespace Sys2Proof.Machine


/-! ## Agents -/

@[simp] theorem State.ex_setEx (s : State) (a b : Agent) (e : Exec) :
    (s.setEx a e).ex b = if b = a then e else s.ex b := by cases a <;> cases b <;> rfl
@[simp] theorem State.setEx_setEx (s : State) (a : Agent) (e e' : Exec) : (s.setEx a e).setEx a e' = s.setEx a e' := by
  cases a <;> rfl
@[simp] theorem State.loc_setLoc (s : State) (a : Agent) (l : Locals) : (s.setLoc a l).loc a = l := by
  simp [State.setLoc, State.loc]
theorem State.ex_setLoc (s : State) (a b : Agent) (l : Locals) :
    (s.setLoc a l).ex b = if b = a then { s.ex a with loc := l } else s.ex b := by simp [State.setLoc]
theorem State.host_eq_ex (s : State) : s.ex .host = s.host := rfl
theorem State.irq_eq_ex (s : State) : s.ex .irq = s.irq := rfl
theorem State.worker_eq_ex (s : State) : s.ex .worker = s.worker := rfl
@[simp] theorem State.setEx_cfg (s : State) (a : Agent) (e : Exec) : (s.setEx a e).cfg = s.cfg := by cases a <;> rfl
@[simp] theorem State.setEx_attached (s : State) (a : Agent) (e : Exec) : (s.setEx a e).attached = s.attached := by cases a <;> rfl
@[simp] theorem State.setEx_ctx (s : State) (a : Agent) (e : Exec) : (s.setEx a e).ctx = s.ctx := by cases a <;> rfl
@[simp] theorem State.setEx_halt (s : State) (a : Agent) (e : Exec) : (s.setEx a e).halt = s.halt := by cases a <;> rfl
@[simp] theorem State.setEx_irqRet (s : State) (a : Agent) (e : Exec) : (s.setEx a e).irqRet = s.irqRet := by cases a <;> rfl
@[simp] theorem State.setEx_pwr (s : State) (a : Agent) (e : Exec) : (s.setEx a e).pwr = s.pwr := by cases a <;> rfl
@[simp] theorem State.setEx_deferPending (s : State) (a : Agent) (e : Exec) : (s.setEx a e).deferPending = s.deferPending := by cases a <;> rfl
@[simp] theorem State.setEx_lock (s : State) (a : Agent) (e : Exec) : (s.setEx a e).lock = s.lock := by cases a <;> rfl
@[simp] theorem State.setEx_regs (s : State) (a : Agent) (e : Exec) : (s.setEx a e).regs = s.regs := by cases a <;> rfl
@[simp] theorem State.setEx_pmhw (s : State) (a : Agent) (e : Exec) : (s.setEx a e).pmhw = s.pmhw := by cases a <;> rfl
@[simp] theorem State.setEx_dspMem (s : State) (a : Agent) (e : Exec) : (s.setEx a e).dspMem = s.dspMem := by cases a <;> rfl
@[simp] theorem State.setEx_compMem (s : State) (a : Agent) (e : Exec) : (s.setEx a e).compMem = s.compMem := by cases a <;> rfl
@[simp] theorem State.setEx_hm (s : State) (a : Agent) (e : Exec) : (s.setEx a e).hm = s.hm := by cases a <;> rfl
@[simp] theorem State.setEx_gated (s : State) (a : Agent) (e : Exec) : (s.setEx a e).gated = s.gated := by cases a <;> rfl
@[simp] theorem State.setEx_d0Confirmed (s : State) (a : Agent) (e : Exec) : (s.setEx a e).d0Confirmed = s.d0Confirmed := by cases a <;> rfl
@[simp] theorem State.setEx_d0Requested (s : State) (a : Agent) (e : Exec) : (s.setEx a e).d0Requested = s.d0Requested := by cases a <;> rfl
@[simp] theorem State.setEx_readySent (s : State) (a : Agent) (e : Exec) : (s.setEx a e).readySent = s.readySent := by cases a <;> rfl
@[simp] theorem State.setEx_fw (s : State) (a : Agent) (e : Exec) : (s.setEx a e).fw = s.fw := by cases a <;> rfl
@[simp] theorem State.setEx_replyBox (s : State) (a : Agent) (e : Exec) : (s.setEx a e).replyBox = s.replyBox := by cases a <;> rfl
@[simp] theorem State.setEx_elapsed (s : State) (a : Agent) (e : Exec) : (s.setEx a e).elapsed = s.elapsed := by cases a <;> rfl
@[simp] theorem State.setEx_events (s : State) (a : Agent) (e : Exec) : (s.setEx a e).events = s.events := by cases a <;> rfl
@[simp] theorem State.setEx_bus (s : State) (a : Agent) (e : Exec) : (s.setEx a e).bus = s.bus := by cases a <;> rfl
@[simp] theorem State.setEx_draws (s : State) (a : Agent) (e : Exec) : (s.setEx a e).draws = s.draws := by cases a <;> rfl
@[simp] theorem State.setEx_port (s : State) (a : Agent) (e : Exec) : (s.setEx a e).port = s.port := by cases a <;> rfl
@[simp] theorem State.setEx_presenter (s : State) (a : Agent) (e : Exec) : (s.setEx a e).presenter = s.presenter := by cases a <;> rfl
@[simp] theorem State.setEx_replyCalls (s : State) (a : Agent) (e : Exec) : (s.setEx a e).replyCalls = s.replyCalls := by cases a <;> rfl
@[simp] theorem State.setEx_msgCalls (s : State) (a : Agent) (e : Exec) : (s.setEx a e).msgCalls = s.msgCalls := by cases a <;> rfl
@[simp] theorem State.setEx_atDelay (s : State) (a : Agent) (e : Exec) : (s.setEx a e).atDelay = s.atDelay := by cases a <;> rfl
@[simp] theorem State.setEx_lastTaken (s : State) (a : Agent) (e : Exec) : (s.setEx a e).lastTaken = s.lastTaken := by cases a <;> rfl
@[simp] theorem State.setLoc_cfg (s : State) (a : Agent) (l : Locals) : (s.setLoc a l).cfg = s.cfg := by cases a <;> rfl
@[simp] theorem State.setLoc_attached (s : State) (a : Agent) (l : Locals) : (s.setLoc a l).attached = s.attached := by cases a <;> rfl
@[simp] theorem State.setLoc_ctx (s : State) (a : Agent) (l : Locals) : (s.setLoc a l).ctx = s.ctx := by cases a <;> rfl
@[simp] theorem State.setLoc_halt (s : State) (a : Agent) (l : Locals) : (s.setLoc a l).halt = s.halt := by cases a <;> rfl
@[simp] theorem State.setLoc_irqRet (s : State) (a : Agent) (l : Locals) : (s.setLoc a l).irqRet = s.irqRet := by cases a <;> rfl
@[simp] theorem State.setLoc_pwr (s : State) (a : Agent) (l : Locals) : (s.setLoc a l).pwr = s.pwr := by cases a <;> rfl
@[simp] theorem State.setLoc_deferPending (s : State) (a : Agent) (l : Locals) : (s.setLoc a l).deferPending = s.deferPending := by cases a <;> rfl
@[simp] theorem State.setLoc_lock (s : State) (a : Agent) (l : Locals) : (s.setLoc a l).lock = s.lock := by cases a <;> rfl
@[simp] theorem State.setLoc_regs (s : State) (a : Agent) (l : Locals) : (s.setLoc a l).regs = s.regs := by cases a <;> rfl
@[simp] theorem State.setLoc_pmhw (s : State) (a : Agent) (l : Locals) : (s.setLoc a l).pmhw = s.pmhw := by cases a <;> rfl
@[simp] theorem State.setLoc_dspMem (s : State) (a : Agent) (l : Locals) : (s.setLoc a l).dspMem = s.dspMem := by cases a <;> rfl
@[simp] theorem State.setLoc_compMem (s : State) (a : Agent) (l : Locals) : (s.setLoc a l).compMem = s.compMem := by cases a <;> rfl
@[simp] theorem State.setLoc_hm (s : State) (a : Agent) (l : Locals) : (s.setLoc a l).hm = s.hm := by cases a <;> rfl
@[simp] theorem State.setLoc_gated (s : State) (a : Agent) (l : Locals) : (s.setLoc a l).gated = s.gated := by cases a <;> rfl
@[simp] theorem State.setLoc_d0Confirmed (s : State) (a : Agent) (l : Locals) : (s.setLoc a l).d0Confirmed = s.d0Confirmed := by cases a <;> rfl
@[simp] theorem State.setLoc_d0Requested (s : State) (a : Agent) (l : Locals) : (s.setLoc a l).d0Requested = s.d0Requested := by cases a <;> rfl
@[simp] theorem State.setLoc_readySent (s : State) (a : Agent) (l : Locals) : (s.setLoc a l).readySent = s.readySent := by cases a <;> rfl
@[simp] theorem State.setLoc_fw (s : State) (a : Agent) (l : Locals) : (s.setLoc a l).fw = s.fw := by cases a <;> rfl
@[simp] theorem State.setLoc_replyBox (s : State) (a : Agent) (l : Locals) : (s.setLoc a l).replyBox = s.replyBox := by cases a <;> rfl
@[simp] theorem State.setLoc_elapsed (s : State) (a : Agent) (l : Locals) : (s.setLoc a l).elapsed = s.elapsed := by cases a <;> rfl
@[simp] theorem State.setLoc_events (s : State) (a : Agent) (l : Locals) : (s.setLoc a l).events = s.events := by cases a <;> rfl
@[simp] theorem State.setLoc_bus (s : State) (a : Agent) (l : Locals) : (s.setLoc a l).bus = s.bus := by cases a <;> rfl
@[simp] theorem State.setLoc_draws (s : State) (a : Agent) (l : Locals) : (s.setLoc a l).draws = s.draws := by cases a <;> rfl
@[simp] theorem State.setLoc_port (s : State) (a : Agent) (l : Locals) : (s.setLoc a l).port = s.port := by cases a <;> rfl
@[simp] theorem State.setLoc_presenter (s : State) (a : Agent) (l : Locals) : (s.setLoc a l).presenter = s.presenter := by cases a <;> rfl
@[simp] theorem State.setLoc_replyCalls (s : State) (a : Agent) (l : Locals) : (s.setLoc a l).replyCalls = s.replyCalls := by cases a <;> rfl
@[simp] theorem State.setLoc_msgCalls (s : State) (a : Agent) (l : Locals) : (s.setLoc a l).msgCalls = s.msgCalls := by cases a <;> rfl
@[simp] theorem State.setLoc_atDelay (s : State) (a : Agent) (l : Locals) : (s.setLoc a l).atDelay = s.atDelay := by cases a <;> rfl
@[simp] theorem State.setLoc_lastTaken (s : State) (a : Agent) (l : Locals) : (s.setLoc a l).lastTaken = s.lastTaken := by cases a <;> rfl

/-! ## The trace, events, free values, the return of the interrupt stages -/

@[simp] theorem State.setEx_mem (s : State) (a : Agent) (e : Exec) (r : Region) : (s.setEx a e).mem r = s.mem r := by
  cases a <;> rfl
@[simp] theorem State.setLoc_mem (s : State) (a : Agent) (l : Locals) (r : Region) : (s.setLoc a l).mem r = s.mem r := by
  cases a <;> rfl
@[simp] theorem State.record_cfg (s : State) (b : BusRec) : (s.record b).cfg = s.cfg := rfl
@[simp] theorem State.record_attached (s : State) (b : BusRec) : (s.record b).attached = s.attached := rfl
@[simp] theorem State.record_ctx (s : State) (b : BusRec) : (s.record b).ctx = s.ctx := rfl
@[simp] theorem State.record_host (s : State) (b : BusRec) : (s.record b).host = s.host := rfl
@[simp] theorem State.record_irq (s : State) (b : BusRec) : (s.record b).irq = s.irq := rfl
@[simp] theorem State.record_worker (s : State) (b : BusRec) : (s.record b).worker = s.worker := rfl
@[simp] theorem State.record_halt (s : State) (b : BusRec) : (s.record b).halt = s.halt := rfl
@[simp] theorem State.record_irqRet (s : State) (b : BusRec) : (s.record b).irqRet = s.irqRet := rfl
@[simp] theorem State.record_pwr (s : State) (b : BusRec) : (s.record b).pwr = s.pwr := rfl
@[simp] theorem State.record_deferPending (s : State) (b : BusRec) : (s.record b).deferPending = s.deferPending := rfl
@[simp] theorem State.record_lock (s : State) (b : BusRec) : (s.record b).lock = s.lock := rfl
@[simp] theorem State.record_regs (s : State) (b : BusRec) : (s.record b).regs = s.regs := rfl
@[simp] theorem State.record_pmhw (s : State) (b : BusRec) : (s.record b).pmhw = s.pmhw := rfl
@[simp] theorem State.record_dspMem (s : State) (b : BusRec) : (s.record b).dspMem = s.dspMem := rfl
@[simp] theorem State.record_compMem (s : State) (b : BusRec) : (s.record b).compMem = s.compMem := rfl
@[simp] theorem State.record_hm (s : State) (b : BusRec) : (s.record b).hm = s.hm := rfl
@[simp] theorem State.record_gated (s : State) (b : BusRec) : (s.record b).gated = s.gated := rfl
@[simp] theorem State.record_d0Confirmed (s : State) (b : BusRec) : (s.record b).d0Confirmed = s.d0Confirmed := rfl
@[simp] theorem State.record_d0Requested (s : State) (b : BusRec) : (s.record b).d0Requested = s.d0Requested := rfl
@[simp] theorem State.record_readySent (s : State) (b : BusRec) : (s.record b).readySent = s.readySent := rfl
@[simp] theorem State.record_fw (s : State) (b : BusRec) : (s.record b).fw = s.fw := rfl
@[simp] theorem State.record_replyBox (s : State) (b : BusRec) : (s.record b).replyBox = s.replyBox := rfl
@[simp] theorem State.record_elapsed (s : State) (b : BusRec) : (s.record b).elapsed = s.elapsed := rfl
@[simp] theorem State.record_events (s : State) (b : BusRec) : (s.record b).events = s.events := rfl
@[simp] theorem State.record_draws (s : State) (b : BusRec) : (s.record b).draws = s.draws := rfl
@[simp] theorem State.record_port (s : State) (b : BusRec) : (s.record b).port = s.port := rfl
@[simp] theorem State.record_presenter (s : State) (b : BusRec) : (s.record b).presenter = s.presenter := rfl
@[simp] theorem State.record_replyCalls (s : State) (b : BusRec) : (s.record b).replyCalls = s.replyCalls := rfl
@[simp] theorem State.record_msgCalls (s : State) (b : BusRec) : (s.record b).msgCalls = s.msgCalls := rfl
@[simp] theorem State.record_atDelay (s : State) (b : BusRec) : (s.record b).atDelay = s.atDelay := rfl
@[simp] theorem State.record_lastTaken (s : State) (b : BusRec) : (s.record b).lastTaken = s.lastTaken := rfl
@[simp] theorem State.record_bus (s : State) (b : BusRec) : (s.record b).bus = s.bus ++ [b] := rfl
@[simp] theorem State.record_ex (s : State) (x : BusRec) (b : Agent) : (s.record x).ex b = s.ex b := rfl
@[simp] theorem State.record_loc (s : State) (x : BusRec) (b : Agent) : (s.record x).loc b = s.loc b := rfl
@[simp] theorem State.record_mem (s : State) (x : BusRec) (r : Region) : (s.record x).mem r = s.mem r := rfl
@[simp] theorem State.emit_cfg (s : State) (e : Event) : (s.emit e).cfg = s.cfg := rfl
@[simp] theorem State.emit_attached (s : State) (e : Event) : (s.emit e).attached = s.attached := rfl
@[simp] theorem State.emit_ctx (s : State) (e : Event) : (s.emit e).ctx = s.ctx := rfl
@[simp] theorem State.emit_host (s : State) (e : Event) : (s.emit e).host = s.host := rfl
@[simp] theorem State.emit_irq (s : State) (e : Event) : (s.emit e).irq = s.irq := rfl
@[simp] theorem State.emit_worker (s : State) (e : Event) : (s.emit e).worker = s.worker := rfl
@[simp] theorem State.emit_halt (s : State) (e : Event) : (s.emit e).halt = s.halt := rfl
@[simp] theorem State.emit_irqRet (s : State) (e : Event) : (s.emit e).irqRet = s.irqRet := rfl
@[simp] theorem State.emit_pwr (s : State) (e : Event) : (s.emit e).pwr = s.pwr := rfl
@[simp] theorem State.emit_deferPending (s : State) (e : Event) : (s.emit e).deferPending = s.deferPending := rfl
@[simp] theorem State.emit_lock (s : State) (e : Event) : (s.emit e).lock = s.lock := rfl
@[simp] theorem State.emit_regs (s : State) (e : Event) : (s.emit e).regs = s.regs := rfl
@[simp] theorem State.emit_pmhw (s : State) (e : Event) : (s.emit e).pmhw = s.pmhw := rfl
@[simp] theorem State.emit_dspMem (s : State) (e : Event) : (s.emit e).dspMem = s.dspMem := rfl
@[simp] theorem State.emit_compMem (s : State) (e : Event) : (s.emit e).compMem = s.compMem := rfl
@[simp] theorem State.emit_hm (s : State) (e : Event) : (s.emit e).hm = s.hm := rfl
@[simp] theorem State.emit_gated (s : State) (e : Event) : (s.emit e).gated = s.gated := rfl
@[simp] theorem State.emit_d0Confirmed (s : State) (e : Event) : (s.emit e).d0Confirmed = s.d0Confirmed := rfl
@[simp] theorem State.emit_d0Requested (s : State) (e : Event) : (s.emit e).d0Requested = s.d0Requested := rfl
@[simp] theorem State.emit_readySent (s : State) (e : Event) : (s.emit e).readySent = s.readySent := rfl
@[simp] theorem State.emit_fw (s : State) (e : Event) : (s.emit e).fw = s.fw := rfl
@[simp] theorem State.emit_replyBox (s : State) (e : Event) : (s.emit e).replyBox = s.replyBox := rfl
@[simp] theorem State.emit_elapsed (s : State) (e : Event) : (s.emit e).elapsed = s.elapsed := rfl
@[simp] theorem State.emit_bus (s : State) (e : Event) : (s.emit e).bus = s.bus := rfl
@[simp] theorem State.emit_draws (s : State) (e : Event) : (s.emit e).draws = s.draws := rfl
@[simp] theorem State.emit_port (s : State) (e : Event) : (s.emit e).port = s.port := rfl
@[simp] theorem State.emit_presenter (s : State) (e : Event) : (s.emit e).presenter = s.presenter := rfl
@[simp] theorem State.emit_replyCalls (s : State) (e : Event) : (s.emit e).replyCalls = s.replyCalls := rfl
@[simp] theorem State.emit_msgCalls (s : State) (e : Event) : (s.emit e).msgCalls = s.msgCalls := rfl
@[simp] theorem State.emit_atDelay (s : State) (e : Event) : (s.emit e).atDelay = s.atDelay := rfl
@[simp] theorem State.emit_lastTaken (s : State) (e : Event) : (s.emit e).lastTaken = s.lastTaken := rfl
@[simp] theorem State.emit_events (s : State) (e : Event) : (s.emit e).events = s.events ++ [e] := rfl
@[simp] theorem State.emit_ex (s : State) (e : Event) (b : Agent) : (s.emit e).ex b = s.ex b := rfl
@[simp] theorem State.emit_loc (s : State) (e : Event) (b : Agent) : (s.emit e).loc b = s.loc b := rfl
@[simp] theorem State.emit_mem (s : State) (e : Event) (r : Region) : (s.emit e).mem r = s.mem r := rfl
@[simp] theorem State.draw_cfg (s : State) : (s.draw.2).cfg = s.cfg := rfl
@[simp] theorem State.draw_attached (s : State) : (s.draw.2).attached = s.attached := rfl
@[simp] theorem State.draw_ctx (s : State) : (s.draw.2).ctx = s.ctx := rfl
@[simp] theorem State.draw_host (s : State) : (s.draw.2).host = s.host := rfl
@[simp] theorem State.draw_irq (s : State) : (s.draw.2).irq = s.irq := rfl
@[simp] theorem State.draw_worker (s : State) : (s.draw.2).worker = s.worker := rfl
@[simp] theorem State.draw_halt (s : State) : (s.draw.2).halt = s.halt := rfl
@[simp] theorem State.draw_irqRet (s : State) : (s.draw.2).irqRet = s.irqRet := rfl
@[simp] theorem State.draw_pwr (s : State) : (s.draw.2).pwr = s.pwr := rfl
@[simp] theorem State.draw_deferPending (s : State) : (s.draw.2).deferPending = s.deferPending := rfl
@[simp] theorem State.draw_lock (s : State) : (s.draw.2).lock = s.lock := rfl
@[simp] theorem State.draw_regs (s : State) : (s.draw.2).regs = s.regs := rfl
@[simp] theorem State.draw_pmhw (s : State) : (s.draw.2).pmhw = s.pmhw := rfl
@[simp] theorem State.draw_dspMem (s : State) : (s.draw.2).dspMem = s.dspMem := rfl
@[simp] theorem State.draw_compMem (s : State) : (s.draw.2).compMem = s.compMem := rfl
@[simp] theorem State.draw_hm (s : State) : (s.draw.2).hm = s.hm := rfl
@[simp] theorem State.draw_gated (s : State) : (s.draw.2).gated = s.gated := rfl
@[simp] theorem State.draw_d0Confirmed (s : State) : (s.draw.2).d0Confirmed = s.d0Confirmed := rfl
@[simp] theorem State.draw_d0Requested (s : State) : (s.draw.2).d0Requested = s.d0Requested := rfl
@[simp] theorem State.draw_readySent (s : State) : (s.draw.2).readySent = s.readySent := rfl
@[simp] theorem State.draw_fw (s : State) : (s.draw.2).fw = s.fw := rfl
@[simp] theorem State.draw_replyBox (s : State) : (s.draw.2).replyBox = s.replyBox := rfl
@[simp] theorem State.draw_elapsed (s : State) : (s.draw.2).elapsed = s.elapsed := rfl
@[simp] theorem State.draw_events (s : State) : (s.draw.2).events = s.events := rfl
@[simp] theorem State.draw_bus (s : State) : (s.draw.2).bus = s.bus := rfl
@[simp] theorem State.draw_port (s : State) : (s.draw.2).port = s.port := rfl
@[simp] theorem State.draw_presenter (s : State) : (s.draw.2).presenter = s.presenter := rfl
@[simp] theorem State.draw_replyCalls (s : State) : (s.draw.2).replyCalls = s.replyCalls := rfl
@[simp] theorem State.draw_msgCalls (s : State) : (s.draw.2).msgCalls = s.msgCalls := rfl
@[simp] theorem State.draw_atDelay (s : State) : (s.draw.2).atDelay = s.atDelay := rfl
@[simp] theorem State.draw_lastTaken (s : State) : (s.draw.2).lastTaken = s.lastTaken := rfl
@[simp] theorem State.draw_draws (s : State) : s.draw.2.draws = s.draws + 1 := rfl
@[simp] theorem State.draw_fst (s : State) : s.draw.1 = Config.draw s.draws := rfl
@[simp] theorem State.draw_ex (s : State) (b : Agent) : (s.draw.2).ex b = s.ex b := rfl
@[simp] theorem State.draw_loc (s : State) (b : Agent) : (s.draw.2).loc b = s.loc b := rfl
@[simp] theorem State.draw_mem (s : State) (r : Region) : (s.draw.2).mem r = s.mem r := rfl
@[simp] theorem State.irqReturn_cfg (s : State) (v : BitVec 2) : (s.irqReturn v).cfg = s.cfg := rfl
@[simp] theorem State.irqReturn_attached (s : State) (v : BitVec 2) : (s.irqReturn v).attached = s.attached := rfl
@[simp] theorem State.irqReturn_ctx (s : State) (v : BitVec 2) : (s.irqReturn v).ctx = s.ctx := rfl
@[simp] theorem State.irqReturn_host (s : State) (v : BitVec 2) : (s.irqReturn v).host = s.host := rfl
@[simp] theorem State.irqReturn_irq (s : State) (v : BitVec 2) : (s.irqReturn v).irq = s.irq := rfl
@[simp] theorem State.irqReturn_worker (s : State) (v : BitVec 2) : (s.irqReturn v).worker = s.worker := rfl
@[simp] theorem State.irqReturn_halt (s : State) (v : BitVec 2) : (s.irqReturn v).halt = s.halt := rfl
@[simp] theorem State.irqReturn_pwr (s : State) (v : BitVec 2) : (s.irqReturn v).pwr = s.pwr := rfl
@[simp] theorem State.irqReturn_deferPending (s : State) (v : BitVec 2) : (s.irqReturn v).deferPending = s.deferPending := rfl
@[simp] theorem State.irqReturn_lock (s : State) (v : BitVec 2) : (s.irqReturn v).lock = s.lock := rfl
@[simp] theorem State.irqReturn_regs (s : State) (v : BitVec 2) : (s.irqReturn v).regs = s.regs := rfl
@[simp] theorem State.irqReturn_pmhw (s : State) (v : BitVec 2) : (s.irqReturn v).pmhw = s.pmhw := rfl
@[simp] theorem State.irqReturn_dspMem (s : State) (v : BitVec 2) : (s.irqReturn v).dspMem = s.dspMem := rfl
@[simp] theorem State.irqReturn_compMem (s : State) (v : BitVec 2) : (s.irqReturn v).compMem = s.compMem := rfl
@[simp] theorem State.irqReturn_hm (s : State) (v : BitVec 2) : (s.irqReturn v).hm = s.hm := rfl
@[simp] theorem State.irqReturn_gated (s : State) (v : BitVec 2) : (s.irqReturn v).gated = s.gated := rfl
@[simp] theorem State.irqReturn_d0Confirmed (s : State) (v : BitVec 2) : (s.irqReturn v).d0Confirmed = s.d0Confirmed := rfl
@[simp] theorem State.irqReturn_d0Requested (s : State) (v : BitVec 2) : (s.irqReturn v).d0Requested = s.d0Requested := rfl
@[simp] theorem State.irqReturn_readySent (s : State) (v : BitVec 2) : (s.irqReturn v).readySent = s.readySent := rfl
@[simp] theorem State.irqReturn_fw (s : State) (v : BitVec 2) : (s.irqReturn v).fw = s.fw := rfl
@[simp] theorem State.irqReturn_replyBox (s : State) (v : BitVec 2) : (s.irqReturn v).replyBox = s.replyBox := rfl
@[simp] theorem State.irqReturn_elapsed (s : State) (v : BitVec 2) : (s.irqReturn v).elapsed = s.elapsed := rfl
@[simp] theorem State.irqReturn_events (s : State) (v : BitVec 2) : (s.irqReturn v).events = s.events := rfl
@[simp] theorem State.irqReturn_bus (s : State) (v : BitVec 2) : (s.irqReturn v).bus = s.bus := rfl
@[simp] theorem State.irqReturn_draws (s : State) (v : BitVec 2) : (s.irqReturn v).draws = s.draws := rfl
@[simp] theorem State.irqReturn_port (s : State) (v : BitVec 2) : (s.irqReturn v).port = s.port := rfl
@[simp] theorem State.irqReturn_presenter (s : State) (v : BitVec 2) : (s.irqReturn v).presenter = s.presenter := rfl
@[simp] theorem State.irqReturn_replyCalls (s : State) (v : BitVec 2) : (s.irqReturn v).replyCalls = s.replyCalls := rfl
@[simp] theorem State.irqReturn_msgCalls (s : State) (v : BitVec 2) : (s.irqReturn v).msgCalls = s.msgCalls := rfl
@[simp] theorem State.irqReturn_atDelay (s : State) (v : BitVec 2) : (s.irqReturn v).atDelay = s.atDelay := rfl
@[simp] theorem State.irqReturn_lastTaken (s : State) (v : BitVec 2) : (s.irqReturn v).lastTaken = s.lastTaken := rfl
@[simp] theorem State.irqReturn_irqRet (s : State) (v : BitVec 2) : (s.irqReturn v).irqRet = v := rfl
@[simp] theorem State.irqReturn_ex (s : State) (v : BitVec 2) (b : Agent) : (s.irqReturn v).ex b = s.ex b := rfl
@[simp] theorem State.irqReturn_loc (s : State) (v : BitVec 2) (b : Agent) : (s.irqReturn v).loc b = s.loc b := rfl
@[simp] theorem State.irqReturn_mem (s : State) (v : BitVec 2) (r : Region) : (s.irqReturn v).mem r = s.mem r := rfl

/-! ## Region memory and registers -/

@[simp] theorem State.setMem_cfg (s : State) (r : Region) (m : Memory) : (s.setMem r m).cfg = s.cfg := by cases r <;> rfl
@[simp] theorem State.setMem_attached (s : State) (r : Region) (m : Memory) : (s.setMem r m).attached = s.attached := by cases r <;> rfl
@[simp] theorem State.setMem_ctx (s : State) (r : Region) (m : Memory) : (s.setMem r m).ctx = s.ctx := by cases r <;> rfl
@[simp] theorem State.setMem_host (s : State) (r : Region) (m : Memory) : (s.setMem r m).host = s.host := by cases r <;> rfl
@[simp] theorem State.setMem_irq (s : State) (r : Region) (m : Memory) : (s.setMem r m).irq = s.irq := by cases r <;> rfl
@[simp] theorem State.setMem_worker (s : State) (r : Region) (m : Memory) : (s.setMem r m).worker = s.worker := by cases r <;> rfl
@[simp] theorem State.setMem_halt (s : State) (r : Region) (m : Memory) : (s.setMem r m).halt = s.halt := by cases r <;> rfl
@[simp] theorem State.setMem_irqRet (s : State) (r : Region) (m : Memory) : (s.setMem r m).irqRet = s.irqRet := by cases r <;> rfl
@[simp] theorem State.setMem_pwr (s : State) (r : Region) (m : Memory) : (s.setMem r m).pwr = s.pwr := by cases r <;> rfl
@[simp] theorem State.setMem_deferPending (s : State) (r : Region) (m : Memory) : (s.setMem r m).deferPending = s.deferPending := by cases r <;> rfl
@[simp] theorem State.setMem_lock (s : State) (r : Region) (m : Memory) : (s.setMem r m).lock = s.lock := by cases r <;> rfl
@[simp] theorem State.setMem_regs (s : State) (r : Region) (m : Memory) : (s.setMem r m).regs = s.regs := by cases r <;> rfl
@[simp] theorem State.setMem_pmhw (s : State) (r : Region) (m : Memory) : (s.setMem r m).pmhw = s.pmhw := by cases r <;> rfl
@[simp] theorem State.setMem_hm (s : State) (r : Region) (m : Memory) : (s.setMem r m).hm = s.hm := by cases r <;> rfl
@[simp] theorem State.setMem_gated (s : State) (r : Region) (m : Memory) : (s.setMem r m).gated = s.gated := by cases r <;> rfl
@[simp] theorem State.setMem_d0Confirmed (s : State) (r : Region) (m : Memory) : (s.setMem r m).d0Confirmed = s.d0Confirmed := by cases r <;> rfl
@[simp] theorem State.setMem_d0Requested (s : State) (r : Region) (m : Memory) : (s.setMem r m).d0Requested = s.d0Requested := by cases r <;> rfl
@[simp] theorem State.setMem_readySent (s : State) (r : Region) (m : Memory) : (s.setMem r m).readySent = s.readySent := by cases r <;> rfl
@[simp] theorem State.setMem_fw (s : State) (r : Region) (m : Memory) : (s.setMem r m).fw = s.fw := by cases r <;> rfl
@[simp] theorem State.setMem_replyBox (s : State) (r : Region) (m : Memory) : (s.setMem r m).replyBox = s.replyBox := by cases r <;> rfl
@[simp] theorem State.setMem_elapsed (s : State) (r : Region) (m : Memory) : (s.setMem r m).elapsed = s.elapsed := by cases r <;> rfl
@[simp] theorem State.setMem_events (s : State) (r : Region) (m : Memory) : (s.setMem r m).events = s.events := by cases r <;> rfl
@[simp] theorem State.setMem_bus (s : State) (r : Region) (m : Memory) : (s.setMem r m).bus = s.bus := by cases r <;> rfl
@[simp] theorem State.setMem_draws (s : State) (r : Region) (m : Memory) : (s.setMem r m).draws = s.draws := by cases r <;> rfl
@[simp] theorem State.setMem_port (s : State) (r : Region) (m : Memory) : (s.setMem r m).port = s.port := by cases r <;> rfl
@[simp] theorem State.setMem_presenter (s : State) (r : Region) (m : Memory) : (s.setMem r m).presenter = s.presenter := by cases r <;> rfl
@[simp] theorem State.setMem_replyCalls (s : State) (r : Region) (m : Memory) : (s.setMem r m).replyCalls = s.replyCalls := by cases r <;> rfl
@[simp] theorem State.setMem_msgCalls (s : State) (r : Region) (m : Memory) : (s.setMem r m).msgCalls = s.msgCalls := by cases r <;> rfl
@[simp] theorem State.setMem_atDelay (s : State) (r : Region) (m : Memory) : (s.setMem r m).atDelay = s.atDelay := by cases r <;> rfl
@[simp] theorem State.setMem_lastTaken (s : State) (r : Region) (m : Memory) : (s.setMem r m).lastTaken = s.lastTaken := by cases r <;> rfl
@[simp] theorem State.setMem_mem (s : State) (r r' : Region) (m : Memory) :
    (s.setMem r m).mem r' = if r' = r then m else s.mem r' := by cases r <;> cases r' <;> rfl
@[simp] theorem State.setMem_ex (s : State) (r : Region) (m : Memory) (b : Agent) : (s.setMem r m).ex b = s.ex b := by
  cases r <;> rfl
@[simp] theorem State.setMem_loc (s : State) (r : Region) (m : Memory) (b : Agent) : (s.setMem r m).loc b = s.loc b := by
  cases r <;> rfl
@[simp] theorem State.setReg_cfg (s : State) (g : DevReg) (v : Word) : (s.setReg g v).cfg = s.cfg := by cases g <;> rfl
@[simp] theorem State.setReg_attached (s : State) (g : DevReg) (v : Word) : (s.setReg g v).attached = s.attached := by cases g <;> rfl
@[simp] theorem State.setReg_ctx (s : State) (g : DevReg) (v : Word) : (s.setReg g v).ctx = s.ctx := by cases g <;> rfl
@[simp] theorem State.setReg_host (s : State) (g : DevReg) (v : Word) : (s.setReg g v).host = s.host := by cases g <;> rfl
@[simp] theorem State.setReg_irq (s : State) (g : DevReg) (v : Word) : (s.setReg g v).irq = s.irq := by cases g <;> rfl
@[simp] theorem State.setReg_worker (s : State) (g : DevReg) (v : Word) : (s.setReg g v).worker = s.worker := by cases g <;> rfl
@[simp] theorem State.setReg_halt (s : State) (g : DevReg) (v : Word) : (s.setReg g v).halt = s.halt := by cases g <;> rfl
@[simp] theorem State.setReg_irqRet (s : State) (g : DevReg) (v : Word) : (s.setReg g v).irqRet = s.irqRet := by cases g <;> rfl
@[simp] theorem State.setReg_pwr (s : State) (g : DevReg) (v : Word) : (s.setReg g v).pwr = s.pwr := by cases g <;> rfl
@[simp] theorem State.setReg_deferPending (s : State) (g : DevReg) (v : Word) : (s.setReg g v).deferPending = s.deferPending := by cases g <;> rfl
@[simp] theorem State.setReg_lock (s : State) (g : DevReg) (v : Word) : (s.setReg g v).lock = s.lock := by cases g <;> rfl
@[simp] theorem State.setReg_pmhw (s : State) (g : DevReg) (v : Word) : (s.setReg g v).pmhw = s.pmhw := by cases g <;> rfl
@[simp] theorem State.setReg_dspMem (s : State) (g : DevReg) (v : Word) : (s.setReg g v).dspMem = s.dspMem := by cases g <;> rfl
@[simp] theorem State.setReg_compMem (s : State) (g : DevReg) (v : Word) : (s.setReg g v).compMem = s.compMem := by cases g <;> rfl
@[simp] theorem State.setReg_hm (s : State) (g : DevReg) (v : Word) : (s.setReg g v).hm = s.hm := by cases g <;> rfl
@[simp] theorem State.setReg_gated (s : State) (g : DevReg) (v : Word) : (s.setReg g v).gated = s.gated := by cases g <;> rfl
@[simp] theorem State.setReg_d0Confirmed (s : State) (g : DevReg) (v : Word) : (s.setReg g v).d0Confirmed = s.d0Confirmed := by cases g <;> rfl
@[simp] theorem State.setReg_d0Requested (s : State) (g : DevReg) (v : Word) : (s.setReg g v).d0Requested = s.d0Requested := by cases g <;> rfl
@[simp] theorem State.setReg_elapsed (s : State) (g : DevReg) (v : Word) : (s.setReg g v).elapsed = s.elapsed := by cases g <;> rfl
@[simp] theorem State.setReg_events (s : State) (g : DevReg) (v : Word) : (s.setReg g v).events = s.events := by cases g <;> rfl
@[simp] theorem State.setReg_bus (s : State) (g : DevReg) (v : Word) : (s.setReg g v).bus = s.bus := by cases g <;> rfl
@[simp] theorem State.setReg_draws (s : State) (g : DevReg) (v : Word) : (s.setReg g v).draws = s.draws := by cases g <;> rfl
@[simp] theorem State.setReg_port (s : State) (g : DevReg) (v : Word) : (s.setReg g v).port = s.port := by cases g <;> rfl
@[simp] theorem State.setReg_presenter (s : State) (g : DevReg) (v : Word) : (s.setReg g v).presenter = s.presenter := by cases g <;> rfl
@[simp] theorem State.setReg_replyCalls (s : State) (g : DevReg) (v : Word) : (s.setReg g v).replyCalls = s.replyCalls := by cases g <;> rfl
@[simp] theorem State.setReg_msgCalls (s : State) (g : DevReg) (v : Word) : (s.setReg g v).msgCalls = s.msgCalls := by cases g <;> rfl
@[simp] theorem State.setReg_atDelay (s : State) (g : DevReg) (v : Word) : (s.setReg g v).atDelay = s.atDelay := by cases g <;> rfl
@[simp] theorem State.setReg_lastTaken (s : State) (g : DevReg) (v : Word) : (s.setReg g v).lastTaken = s.lastTaken := by cases g <;> rfl
@[simp] theorem State.setReg_regs (s : State) (g : DevReg) (v : Word) : (s.setReg g v).regs = s.regs.set g v := by
  cases g <;> rfl
/-- Only a write to `CMDO` that raises BUSY posts a message (R291). -/
theorem State.setReg_cmdo_replyBox (s : State) (v : Word) :
    (s.setReg .cmdo v).replyBox = if flagOf v s.cfg.cmdoBusy && !s.cmdoBusy then s.ctx.outbox else s.replyBox := rfl
theorem State.setReg_replyBox (s : State) (g : DevReg) (v : Word) (h : g ≠ .cmdo) : (s.setReg g v).replyBox = s.replyBox := by
  cases g <;> first | rfl | exact absurd rfl h
@[simp] theorem State.setReg_ex (s : State) (g : DevReg) (v : Word) (b : Agent) : (s.setReg g v).ex b = s.ex b := by cases g <;> rfl
@[simp] theorem State.setReg_loc (s : State) (g : DevReg) (v : Word) (b : Agent) : (s.setReg g v).loc b = s.loc b := by cases g <;> rfl
@[simp] theorem State.setReg_mem (s : State) (g : DevReg) (v : Word) (r : Region) : (s.setReg g v).mem r = s.mem r := by cases g <;> rfl
@[simp] theorem Regs.get_set (g : Regs) (x y : DevReg) (v : Word) :
    (g.set x v).get y = if y = x then v else g.get y := by cases x <;> cases y <;> rfl
theorem Regs.ext_get {g h : Regs} (e : ∀ x, g.get x = h.get x) : g = h := by
  have h1 := e .csr; have h2 := e .imrh; have h3 := e .imrd; have h4 := e .cmdo
  have h5 := e .cmdi; have h6 := e .dmamode; have h7 := e .scr0; have h8 := e .scr1
  cases g; cases h; simp_all [Regs.get]
@[simp] theorem Regs.get_csr (g : Regs) : g.get .csr = g.csr := rfl
@[simp] theorem Regs.get_imrh (g : Regs) : g.get .imrh = g.imrh := rfl
@[simp] theorem Regs.get_imrd (g : Regs) : g.get .imrd = g.imrd := rfl
@[simp] theorem Regs.get_cmdo (g : Regs) : g.get .cmdo = g.cmdo := rfl
@[simp] theorem Regs.get_cmdi (g : Regs) : g.get .cmdi = g.cmdi := rfl
@[simp] theorem Regs.get_dmamode (g : Regs) : g.get .dmamode = g.dmamode := rfl
@[simp] theorem Regs.get_scr0 (g : Regs) : g.get .scr0 = g.scr0 := rfl
@[simp] theorem Regs.get_scr1 (g : Regs) : g.get .scr1 = g.scr1 := rfl

/-! ## Results, the start and the end of an operation -/

@[simp] theorem State.result_cfg (s : State) (a : Agent) (k : Kind) (v : Word) : (s.result a k v).cfg = s.cfg := by cases a <;> rfl
@[simp] theorem State.result_attached (s : State) (a : Agent) (k : Kind) (v : Word) : (s.result a k v).attached = s.attached := by cases a <;> rfl
@[simp] theorem State.result_ctx (s : State) (a : Agent) (k : Kind) (v : Word) : (s.result a k v).ctx = s.ctx := by cases a <;> rfl
@[simp] theorem State.result_halt (s : State) (a : Agent) (k : Kind) (v : Word) : (s.result a k v).halt = s.halt := by cases a <;> rfl
@[simp] theorem State.result_irqRet (s : State) (a : Agent) (k : Kind) (v : Word) : (s.result a k v).irqRet = s.irqRet := by cases a <;> rfl
@[simp] theorem State.result_pwr (s : State) (a : Agent) (k : Kind) (v : Word) : (s.result a k v).pwr = s.pwr := by cases a <;> rfl
@[simp] theorem State.result_deferPending (s : State) (a : Agent) (k : Kind) (v : Word) : (s.result a k v).deferPending = s.deferPending := by cases a <;> rfl
@[simp] theorem State.result_lock (s : State) (a : Agent) (k : Kind) (v : Word) : (s.result a k v).lock = s.lock := by cases a <;> rfl
@[simp] theorem State.result_regs (s : State) (a : Agent) (k : Kind) (v : Word) : (s.result a k v).regs = s.regs := by cases a <;> rfl
@[simp] theorem State.result_pmhw (s : State) (a : Agent) (k : Kind) (v : Word) : (s.result a k v).pmhw = s.pmhw := by cases a <;> rfl
@[simp] theorem State.result_dspMem (s : State) (a : Agent) (k : Kind) (v : Word) : (s.result a k v).dspMem = s.dspMem := by cases a <;> rfl
@[simp] theorem State.result_compMem (s : State) (a : Agent) (k : Kind) (v : Word) : (s.result a k v).compMem = s.compMem := by cases a <;> rfl
@[simp] theorem State.result_hm (s : State) (a : Agent) (k : Kind) (v : Word) : (s.result a k v).hm = s.hm := by cases a <;> rfl
@[simp] theorem State.result_gated (s : State) (a : Agent) (k : Kind) (v : Word) : (s.result a k v).gated = s.gated := by cases a <;> rfl
@[simp] theorem State.result_d0Confirmed (s : State) (a : Agent) (k : Kind) (v : Word) : (s.result a k v).d0Confirmed = s.d0Confirmed := by cases a <;> rfl
@[simp] theorem State.result_d0Requested (s : State) (a : Agent) (k : Kind) (v : Word) : (s.result a k v).d0Requested = s.d0Requested := by cases a <;> rfl
@[simp] theorem State.result_readySent (s : State) (a : Agent) (k : Kind) (v : Word) : (s.result a k v).readySent = s.readySent := by cases a <;> rfl
@[simp] theorem State.result_fw (s : State) (a : Agent) (k : Kind) (v : Word) : (s.result a k v).fw = s.fw := by cases a <;> rfl
@[simp] theorem State.result_replyBox (s : State) (a : Agent) (k : Kind) (v : Word) : (s.result a k v).replyBox = s.replyBox := by cases a <;> rfl
@[simp] theorem State.result_elapsed (s : State) (a : Agent) (k : Kind) (v : Word) : (s.result a k v).elapsed = s.elapsed := by cases a <;> rfl
@[simp] theorem State.result_events (s : State) (a : Agent) (k : Kind) (v : Word) : (s.result a k v).events = s.events := by cases a <;> rfl
@[simp] theorem State.result_bus (s : State) (a : Agent) (k : Kind) (v : Word) : (s.result a k v).bus = s.bus := by cases a <;> rfl
@[simp] theorem State.result_draws (s : State) (a : Agent) (k : Kind) (v : Word) : (s.result a k v).draws = s.draws := by cases a <;> rfl
@[simp] theorem State.result_port (s : State) (a : Agent) (k : Kind) (v : Word) : (s.result a k v).port = s.port := by cases a <;> rfl
@[simp] theorem State.result_presenter (s : State) (a : Agent) (k : Kind) (v : Word) : (s.result a k v).presenter = s.presenter := by cases a <;> rfl
@[simp] theorem State.result_replyCalls (s : State) (a : Agent) (k : Kind) (v : Word) : (s.result a k v).replyCalls = s.replyCalls := by cases a <;> rfl
@[simp] theorem State.result_msgCalls (s : State) (a : Agent) (k : Kind) (v : Word) : (s.result a k v).msgCalls = s.msgCalls := by cases a <;> rfl
@[simp] theorem State.result_atDelay (s : State) (a : Agent) (k : Kind) (v : Word) : (s.result a k v).atDelay = s.atDelay := by cases a <;> rfl
@[simp] theorem State.result_lastTaken (s : State) (a : Agent) (k : Kind) (v : Word) : (s.result a k v).lastTaken = s.lastTaken := by cases a <;> rfl
theorem State.result_ex (s : State) (a b : Agent) (k : Kind) (v : Word) :
    (s.result a k v).ex b = if b = a then { s.ex a with status := k.code, errval := v } else s.ex b := by
  simp [State.result]
@[simp] theorem State.result_loc (s : State) (a b : Agent) (k : Kind) (v : Word) : (s.result a k v).loc b = s.loc b := by
  cases a <;> cases b <;> rfl
@[simp] theorem State.result_mem (s : State) (a : Agent) (k : Kind) (v : Word) (r : Region) :
    (s.result a k v).mem r = s.mem r := by cases a <;> rfl
@[simp] theorem State.raise_cfg (s : State) (a : Agent) (k : Kind) (v : Word) : (s.raise a k v).cfg = s.cfg := by cases a <;> rfl
@[simp] theorem State.raise_attached (s : State) (a : Agent) (k : Kind) (v : Word) : (s.raise a k v).attached = s.attached := by cases a <;> rfl
@[simp] theorem State.raise_ctx (s : State) (a : Agent) (k : Kind) (v : Word) : (s.raise a k v).ctx = s.ctx := by cases a <;> rfl
@[simp] theorem State.raise_irqRet (s : State) (a : Agent) (k : Kind) (v : Word) : (s.raise a k v).irqRet = s.irqRet := by cases a <;> rfl
@[simp] theorem State.raise_pwr (s : State) (a : Agent) (k : Kind) (v : Word) : (s.raise a k v).pwr = s.pwr := by cases a <;> rfl
@[simp] theorem State.raise_deferPending (s : State) (a : Agent) (k : Kind) (v : Word) : (s.raise a k v).deferPending = s.deferPending := by cases a <;> rfl
@[simp] theorem State.raise_lock (s : State) (a : Agent) (k : Kind) (v : Word) : (s.raise a k v).lock = s.lock := by cases a <;> rfl
@[simp] theorem State.raise_regs (s : State) (a : Agent) (k : Kind) (v : Word) : (s.raise a k v).regs = s.regs := by cases a <;> rfl
@[simp] theorem State.raise_pmhw (s : State) (a : Agent) (k : Kind) (v : Word) : (s.raise a k v).pmhw = s.pmhw := by cases a <;> rfl
@[simp] theorem State.raise_dspMem (s : State) (a : Agent) (k : Kind) (v : Word) : (s.raise a k v).dspMem = s.dspMem := by cases a <;> rfl
@[simp] theorem State.raise_compMem (s : State) (a : Agent) (k : Kind) (v : Word) : (s.raise a k v).compMem = s.compMem := by cases a <;> rfl
@[simp] theorem State.raise_hm (s : State) (a : Agent) (k : Kind) (v : Word) : (s.raise a k v).hm = s.hm := by cases a <;> rfl
@[simp] theorem State.raise_gated (s : State) (a : Agent) (k : Kind) (v : Word) : (s.raise a k v).gated = s.gated := by cases a <;> rfl
@[simp] theorem State.raise_d0Confirmed (s : State) (a : Agent) (k : Kind) (v : Word) : (s.raise a k v).d0Confirmed = s.d0Confirmed := by cases a <;> rfl
@[simp] theorem State.raise_d0Requested (s : State) (a : Agent) (k : Kind) (v : Word) : (s.raise a k v).d0Requested = s.d0Requested := by cases a <;> rfl
@[simp] theorem State.raise_readySent (s : State) (a : Agent) (k : Kind) (v : Word) : (s.raise a k v).readySent = s.readySent := by cases a <;> rfl
@[simp] theorem State.raise_fw (s : State) (a : Agent) (k : Kind) (v : Word) : (s.raise a k v).fw = s.fw := by cases a <;> rfl
@[simp] theorem State.raise_replyBox (s : State) (a : Agent) (k : Kind) (v : Word) : (s.raise a k v).replyBox = s.replyBox := by cases a <;> rfl
@[simp] theorem State.raise_elapsed (s : State) (a : Agent) (k : Kind) (v : Word) : (s.raise a k v).elapsed = s.elapsed := by cases a <;> rfl
@[simp] theorem State.raise_events (s : State) (a : Agent) (k : Kind) (v : Word) : (s.raise a k v).events = s.events := by cases a <;> rfl
@[simp] theorem State.raise_bus (s : State) (a : Agent) (k : Kind) (v : Word) : (s.raise a k v).bus = s.bus := by cases a <;> rfl
@[simp] theorem State.raise_draws (s : State) (a : Agent) (k : Kind) (v : Word) : (s.raise a k v).draws = s.draws := by cases a <;> rfl
@[simp] theorem State.raise_port (s : State) (a : Agent) (k : Kind) (v : Word) : (s.raise a k v).port = s.port := by cases a <;> rfl
@[simp] theorem State.raise_presenter (s : State) (a : Agent) (k : Kind) (v : Word) : (s.raise a k v).presenter = s.presenter := by cases a <;> rfl
@[simp] theorem State.raise_replyCalls (s : State) (a : Agent) (k : Kind) (v : Word) : (s.raise a k v).replyCalls = s.replyCalls := by cases a <;> rfl
@[simp] theorem State.raise_msgCalls (s : State) (a : Agent) (k : Kind) (v : Word) : (s.raise a k v).msgCalls = s.msgCalls := by cases a <;> rfl
@[simp] theorem State.raise_atDelay (s : State) (a : Agent) (k : Kind) (v : Word) : (s.raise a k v).atDelay = s.atDelay := by cases a <;> rfl
@[simp] theorem State.raise_lastTaken (s : State) (a : Agent) (k : Kind) (v : Word) : (s.raise a k v).lastTaken = s.lastTaken := by cases a <;> rfl
@[simp] theorem State.raise_halt (s : State) (a : Agent) (k : Kind) (v : Word) :
    (s.raise a k v).halt = (s.halt || k.fatal) := by cases a <;> rfl
theorem State.raise_ex (s : State) (a b : Agent) (k : Kind) (v : Word) :
    (s.raise a k v).ex b = if b = a then { s.ex a with status := k.code, errval := v } else s.ex b := by
  cases a <;> cases b <;> rfl
@[simp] theorem State.raise_loc (s : State) (a b : Agent) (k : Kind) (v : Word) : (s.raise a k v).loc b = s.loc b := by
  cases a <;> cases b <;> rfl
@[simp] theorem State.raise_mem (s : State) (a : Agent) (k : Kind) (v : Word) (r : Region) :
    (s.raise a k v).mem r = s.mem r := by cases a <;> cases r <;> rfl
@[simp] theorem State.start_cfg (s : State) (a : Agent) (i : Instr) (ms : List Micro) : (s.start a i ms).cfg = s.cfg := by cases a <;> rfl
@[simp] theorem State.start_attached (s : State) (a : Agent) (i : Instr) (ms : List Micro) : (s.start a i ms).attached = s.attached := by cases a <;> rfl
@[simp] theorem State.start_ctx (s : State) (a : Agent) (i : Instr) (ms : List Micro) : (s.start a i ms).ctx = s.ctx := by cases a <;> rfl
@[simp] theorem State.start_halt (s : State) (a : Agent) (i : Instr) (ms : List Micro) : (s.start a i ms).halt = s.halt := by cases a <;> rfl
@[simp] theorem State.start_irqRet (s : State) (a : Agent) (i : Instr) (ms : List Micro) : (s.start a i ms).irqRet = s.irqRet := by cases a <;> rfl
@[simp] theorem State.start_pwr (s : State) (a : Agent) (i : Instr) (ms : List Micro) : (s.start a i ms).pwr = s.pwr := by cases a <;> rfl
@[simp] theorem State.start_deferPending (s : State) (a : Agent) (i : Instr) (ms : List Micro) : (s.start a i ms).deferPending = s.deferPending := by cases a <;> rfl
@[simp] theorem State.start_lock (s : State) (a : Agent) (i : Instr) (ms : List Micro) : (s.start a i ms).lock = s.lock := by cases a <;> rfl
@[simp] theorem State.start_regs (s : State) (a : Agent) (i : Instr) (ms : List Micro) : (s.start a i ms).regs = s.regs := by cases a <;> rfl
@[simp] theorem State.start_pmhw (s : State) (a : Agent) (i : Instr) (ms : List Micro) : (s.start a i ms).pmhw = s.pmhw := by cases a <;> rfl
@[simp] theorem State.start_dspMem (s : State) (a : Agent) (i : Instr) (ms : List Micro) : (s.start a i ms).dspMem = s.dspMem := by cases a <;> rfl
@[simp] theorem State.start_compMem (s : State) (a : Agent) (i : Instr) (ms : List Micro) : (s.start a i ms).compMem = s.compMem := by cases a <;> rfl
@[simp] theorem State.start_hm (s : State) (a : Agent) (i : Instr) (ms : List Micro) : (s.start a i ms).hm = s.hm := by cases a <;> rfl
@[simp] theorem State.start_gated (s : State) (a : Agent) (i : Instr) (ms : List Micro) : (s.start a i ms).gated = s.gated := by cases a <;> rfl
@[simp] theorem State.start_d0Confirmed (s : State) (a : Agent) (i : Instr) (ms : List Micro) : (s.start a i ms).d0Confirmed = s.d0Confirmed := by cases a <;> rfl
@[simp] theorem State.start_d0Requested (s : State) (a : Agent) (i : Instr) (ms : List Micro) : (s.start a i ms).d0Requested = s.d0Requested := by cases a <;> rfl
@[simp] theorem State.start_readySent (s : State) (a : Agent) (i : Instr) (ms : List Micro) : (s.start a i ms).readySent = s.readySent := by cases a <;> rfl
@[simp] theorem State.start_fw (s : State) (a : Agent) (i : Instr) (ms : List Micro) : (s.start a i ms).fw = s.fw := by cases a <;> rfl
@[simp] theorem State.start_replyBox (s : State) (a : Agent) (i : Instr) (ms : List Micro) : (s.start a i ms).replyBox = s.replyBox := by cases a <;> rfl
@[simp] theorem State.start_elapsed (s : State) (a : Agent) (i : Instr) (ms : List Micro) : (s.start a i ms).elapsed = s.elapsed := by cases a <;> rfl
@[simp] theorem State.start_events (s : State) (a : Agent) (i : Instr) (ms : List Micro) : (s.start a i ms).events = s.events := by cases a <;> rfl
@[simp] theorem State.start_bus (s : State) (a : Agent) (i : Instr) (ms : List Micro) : (s.start a i ms).bus = s.bus := by cases a <;> rfl
@[simp] theorem State.start_draws (s : State) (a : Agent) (i : Instr) (ms : List Micro) : (s.start a i ms).draws = s.draws := by cases a <;> rfl
@[simp] theorem State.start_port (s : State) (a : Agent) (i : Instr) (ms : List Micro) : (s.start a i ms).port = s.port := by cases a <;> rfl
@[simp] theorem State.start_presenter (s : State) (a : Agent) (i : Instr) (ms : List Micro) : (s.start a i ms).presenter = s.presenter := by cases a <;> rfl
@[simp] theorem State.start_replyCalls (s : State) (a : Agent) (i : Instr) (ms : List Micro) : (s.start a i ms).replyCalls = s.replyCalls := by cases a <;> rfl
@[simp] theorem State.start_msgCalls (s : State) (a : Agent) (i : Instr) (ms : List Micro) : (s.start a i ms).msgCalls = s.msgCalls := by cases a <;> rfl
@[simp] theorem State.start_atDelay (s : State) (a : Agent) (i : Instr) (ms : List Micro) : (s.start a i ms).atDelay = s.atDelay := by cases a <;> rfl
@[simp] theorem State.start_lastTaken (s : State) (a : Agent) (i : Instr) (ms : List Micro) : (s.start a i ms).lastTaken = s.lastTaken := by cases a <;> rfl
theorem State.start_ex (s : State) (a b : Agent) (i : Instr) (ms : List Micro) :
    (s.start a i ms).ex b =
      if b = a then { s.ex a with op := some i, step := 1, todo := ms, loc := {} } else s.ex b := by
  simp [State.start]
@[simp] theorem State.start_loc (s : State) (a : Agent) (i : Instr) (ms : List Micro) :
    (s.start a i ms).loc a = {} := by cases a <;> rfl
@[simp] theorem State.start_mem (s : State) (a : Agent) (i : Instr) (ms : List Micro) (r : Region) :
    (s.start a i ms).mem r = s.mem r := by cases a <;> rfl
@[simp] theorem State.finish_cfg (s : State) (a : Agent) : (s.finish a).cfg = s.cfg := by cases a <;> rfl
@[simp] theorem State.finish_attached (s : State) (a : Agent) : (s.finish a).attached = s.attached := by cases a <;> rfl
@[simp] theorem State.finish_ctx (s : State) (a : Agent) : (s.finish a).ctx = s.ctx := by cases a <;> rfl
@[simp] theorem State.finish_halt (s : State) (a : Agent) : (s.finish a).halt = s.halt := by cases a <;> rfl
@[simp] theorem State.finish_irqRet (s : State) (a : Agent) : (s.finish a).irqRet = s.irqRet := by cases a <;> rfl
@[simp] theorem State.finish_pwr (s : State) (a : Agent) : (s.finish a).pwr = s.pwr := by cases a <;> rfl
@[simp] theorem State.finish_deferPending (s : State) (a : Agent) : (s.finish a).deferPending = s.deferPending := by cases a <;> rfl
@[simp] theorem State.finish_lock (s : State) (a : Agent) : (s.finish a).lock = s.lock := by cases a <;> rfl
@[simp] theorem State.finish_regs (s : State) (a : Agent) : (s.finish a).regs = s.regs := by cases a <;> rfl
@[simp] theorem State.finish_pmhw (s : State) (a : Agent) : (s.finish a).pmhw = s.pmhw := by cases a <;> rfl
@[simp] theorem State.finish_dspMem (s : State) (a : Agent) : (s.finish a).dspMem = s.dspMem := by cases a <;> rfl
@[simp] theorem State.finish_compMem (s : State) (a : Agent) : (s.finish a).compMem = s.compMem := by cases a <;> rfl
@[simp] theorem State.finish_hm (s : State) (a : Agent) : (s.finish a).hm = s.hm := by cases a <;> rfl
@[simp] theorem State.finish_gated (s : State) (a : Agent) : (s.finish a).gated = s.gated := by cases a <;> rfl
@[simp] theorem State.finish_d0Confirmed (s : State) (a : Agent) : (s.finish a).d0Confirmed = s.d0Confirmed := by cases a <;> rfl
@[simp] theorem State.finish_d0Requested (s : State) (a : Agent) : (s.finish a).d0Requested = s.d0Requested := by cases a <;> rfl
@[simp] theorem State.finish_readySent (s : State) (a : Agent) : (s.finish a).readySent = s.readySent := by cases a <;> rfl
@[simp] theorem State.finish_fw (s : State) (a : Agent) : (s.finish a).fw = s.fw := by cases a <;> rfl
@[simp] theorem State.finish_replyBox (s : State) (a : Agent) : (s.finish a).replyBox = s.replyBox := by cases a <;> rfl
@[simp] theorem State.finish_elapsed (s : State) (a : Agent) : (s.finish a).elapsed = s.elapsed := by cases a <;> rfl
@[simp] theorem State.finish_events (s : State) (a : Agent) : (s.finish a).events = s.events := by cases a <;> rfl
@[simp] theorem State.finish_bus (s : State) (a : Agent) : (s.finish a).bus = s.bus := by cases a <;> rfl
@[simp] theorem State.finish_draws (s : State) (a : Agent) : (s.finish a).draws = s.draws := by cases a <;> rfl
@[simp] theorem State.finish_port (s : State) (a : Agent) : (s.finish a).port = s.port := by cases a <;> rfl
@[simp] theorem State.finish_presenter (s : State) (a : Agent) : (s.finish a).presenter = s.presenter := by cases a <;> rfl
@[simp] theorem State.finish_replyCalls (s : State) (a : Agent) : (s.finish a).replyCalls = s.replyCalls := by cases a <;> rfl
@[simp] theorem State.finish_msgCalls (s : State) (a : Agent) : (s.finish a).msgCalls = s.msgCalls := by cases a <;> rfl
@[simp] theorem State.finish_atDelay (s : State) (a : Agent) : (s.finish a).atDelay = s.atDelay := by cases a <;> rfl
@[simp] theorem State.finish_lastTaken (s : State) (a : Agent) : (s.finish a).lastTaken = s.lastTaken := by cases a <;> rfl
theorem State.finish_ex (s : State) (a b : Agent) :
    (s.finish a).ex b = if b = a then { s.ex a with op := none, step := 0, todo := [], loc := {} } else s.ex b := by
  simp [State.finish]
@[simp] theorem State.finish_mem (s : State) (a : Agent) (r : Region) : (s.finish a).mem r = s.mem r := by
  cases a <;> rfl

/-! ## Context registers and `PWR.state` -/

@[simp] theorem State.ctxStep_cfg (s : State) (m : CtxMove) : (ctxStep s m).cfg = s.cfg := rfl
@[simp] theorem State.ctxStep_attached (s : State) (m : CtxMove) : (ctxStep s m).attached = s.attached := rfl
@[simp] theorem State.ctxStep_host (s : State) (m : CtxMove) : (ctxStep s m).host = s.host := rfl
@[simp] theorem State.ctxStep_irq (s : State) (m : CtxMove) : (ctxStep s m).irq = s.irq := rfl
@[simp] theorem State.ctxStep_worker (s : State) (m : CtxMove) : (ctxStep s m).worker = s.worker := rfl
@[simp] theorem State.ctxStep_halt (s : State) (m : CtxMove) : (ctxStep s m).halt = s.halt := rfl
@[simp] theorem State.ctxStep_irqRet (s : State) (m : CtxMove) : (ctxStep s m).irqRet = s.irqRet := rfl
@[simp] theorem State.ctxStep_pwr (s : State) (m : CtxMove) : (ctxStep s m).pwr = s.pwr := rfl
@[simp] theorem State.ctxStep_deferPending (s : State) (m : CtxMove) : (ctxStep s m).deferPending = s.deferPending := rfl
@[simp] theorem State.ctxStep_lock (s : State) (m : CtxMove) : (ctxStep s m).lock = s.lock := rfl
@[simp] theorem State.ctxStep_regs (s : State) (m : CtxMove) : (ctxStep s m).regs = s.regs := rfl
@[simp] theorem State.ctxStep_pmhw (s : State) (m : CtxMove) : (ctxStep s m).pmhw = s.pmhw := rfl
@[simp] theorem State.ctxStep_dspMem (s : State) (m : CtxMove) : (ctxStep s m).dspMem = s.dspMem := rfl
@[simp] theorem State.ctxStep_compMem (s : State) (m : CtxMove) : (ctxStep s m).compMem = s.compMem := rfl
@[simp] theorem State.ctxStep_hm (s : State) (m : CtxMove) : (ctxStep s m).hm = s.hm := rfl
@[simp] theorem State.ctxStep_gated (s : State) (m : CtxMove) : (ctxStep s m).gated = s.gated := rfl
@[simp] theorem State.ctxStep_d0Confirmed (s : State) (m : CtxMove) : (ctxStep s m).d0Confirmed = s.d0Confirmed := rfl
@[simp] theorem State.ctxStep_d0Requested (s : State) (m : CtxMove) : (ctxStep s m).d0Requested = s.d0Requested := rfl
@[simp] theorem State.ctxStep_readySent (s : State) (m : CtxMove) : (ctxStep s m).readySent = s.readySent := rfl
@[simp] theorem State.ctxStep_fw (s : State) (m : CtxMove) : (ctxStep s m).fw = s.fw := rfl
@[simp] theorem State.ctxStep_replyBox (s : State) (m : CtxMove) : (ctxStep s m).replyBox = s.replyBox := rfl
@[simp] theorem State.ctxStep_elapsed (s : State) (m : CtxMove) : (ctxStep s m).elapsed = s.elapsed := rfl
@[simp] theorem State.ctxStep_events (s : State) (m : CtxMove) : (ctxStep s m).events = s.events := rfl
@[simp] theorem State.ctxStep_bus (s : State) (m : CtxMove) : (ctxStep s m).bus = s.bus := rfl
@[simp] theorem State.ctxStep_draws (s : State) (m : CtxMove) : (ctxStep s m).draws = s.draws := rfl
@[simp] theorem State.ctxStep_port (s : State) (m : CtxMove) : (ctxStep s m).port = s.port := rfl
@[simp] theorem State.ctxStep_presenter (s : State) (m : CtxMove) : (ctxStep s m).presenter = s.presenter := rfl
@[simp] theorem State.ctxStep_replyCalls (s : State) (m : CtxMove) : (ctxStep s m).replyCalls = s.replyCalls := rfl
@[simp] theorem State.ctxStep_msgCalls (s : State) (m : CtxMove) : (ctxStep s m).msgCalls = s.msgCalls := rfl
@[simp] theorem State.ctxStep_atDelay (s : State) (m : CtxMove) : (ctxStep s m).atDelay = s.atDelay := rfl
@[simp] theorem State.ctxStep_lastTaken (s : State) (m : CtxMove) : (ctxStep s m).lastTaken = s.lastTaken := rfl
@[simp] theorem State.ctxStep_ctx (s : State) (m : CtxMove) : (ctxStep s m).ctx = s.ctx.apply m := rfl
@[simp] theorem State.ctxStep_ex (s : State) (m : CtxMove) (b : Agent) : (ctxStep s m).ex b = s.ex b := rfl
@[simp] theorem State.ctxStep_loc (s : State) (m : CtxMove) (b : Agent) : (ctxStep s m).loc b = s.loc b := rfl
@[simp] theorem State.ctxStep_mem (s : State) (m : CtxMove) (r : Region) : (ctxStep s m).mem r = s.mem r := rfl
@[simp] theorem State.pwrStep_cfg (s : State) (m : PwrMove) : (pwrStep s m).cfg = s.cfg := by
  cases m <;> simp only [pwrStep] <;> (try split) <;> rfl
@[simp] theorem State.pwrStep_attached (s : State) (m : PwrMove) : (pwrStep s m).attached = s.attached := by
  cases m <;> simp only [pwrStep] <;> (try split) <;> rfl
@[simp] theorem State.pwrStep_ctx (s : State) (m : PwrMove) : (pwrStep s m).ctx = s.ctx := by
  cases m <;> simp only [pwrStep] <;> (try split) <;> rfl
@[simp] theorem State.pwrStep_host (s : State) (m : PwrMove) : (pwrStep s m).host = s.host := by
  cases m <;> simp only [pwrStep] <;> (try split) <;> rfl
@[simp] theorem State.pwrStep_irq (s : State) (m : PwrMove) : (pwrStep s m).irq = s.irq := by
  cases m <;> simp only [pwrStep] <;> (try split) <;> rfl
@[simp] theorem State.pwrStep_worker (s : State) (m : PwrMove) : (pwrStep s m).worker = s.worker := by
  cases m <;> simp only [pwrStep] <;> (try split) <;> rfl
@[simp] theorem State.pwrStep_halt (s : State) (m : PwrMove) : (pwrStep s m).halt = s.halt := by
  cases m <;> simp only [pwrStep] <;> (try split) <;> rfl
@[simp] theorem State.pwrStep_irqRet (s : State) (m : PwrMove) : (pwrStep s m).irqRet = s.irqRet := by
  cases m <;> simp only [pwrStep] <;> (try split) <;> rfl
@[simp] theorem State.pwrStep_deferPending (s : State) (m : PwrMove) : (pwrStep s m).deferPending = s.deferPending := by
  cases m <;> simp only [pwrStep] <;> (try split) <;> rfl
@[simp] theorem State.pwrStep_lock (s : State) (m : PwrMove) : (pwrStep s m).lock = s.lock := by
  cases m <;> simp only [pwrStep] <;> (try split) <;> rfl
@[simp] theorem State.pwrStep_regs (s : State) (m : PwrMove) : (pwrStep s m).regs = s.regs := by
  cases m <;> simp only [pwrStep] <;> (try split) <;> rfl
@[simp] theorem State.pwrStep_pmhw (s : State) (m : PwrMove) : (pwrStep s m).pmhw = s.pmhw := by
  cases m <;> simp only [pwrStep] <;> (try split) <;> rfl
@[simp] theorem State.pwrStep_dspMem (s : State) (m : PwrMove) : (pwrStep s m).dspMem = s.dspMem := by
  cases m <;> simp only [pwrStep] <;> (try split) <;> rfl
@[simp] theorem State.pwrStep_compMem (s : State) (m : PwrMove) : (pwrStep s m).compMem = s.compMem := by
  cases m <;> simp only [pwrStep] <;> (try split) <;> rfl
@[simp] theorem State.pwrStep_hm (s : State) (m : PwrMove) : (pwrStep s m).hm = s.hm := by
  cases m <;> simp only [pwrStep] <;> (try split) <;> rfl
@[simp] theorem State.pwrStep_gated (s : State) (m : PwrMove) : (pwrStep s m).gated = s.gated := by
  cases m <;> simp only [pwrStep] <;> (try split) <;> rfl
@[simp] theorem State.pwrStep_readySent (s : State) (m : PwrMove) : (pwrStep s m).readySent = s.readySent := by
  cases m <;> simp only [pwrStep] <;> (try split) <;> rfl
@[simp] theorem State.pwrStep_fw (s : State) (m : PwrMove) : (pwrStep s m).fw = s.fw := by
  cases m <;> simp only [pwrStep] <;> (try split) <;> rfl
@[simp] theorem State.pwrStep_replyBox (s : State) (m : PwrMove) : (pwrStep s m).replyBox = s.replyBox := by
  cases m <;> simp only [pwrStep] <;> (try split) <;> rfl
@[simp] theorem State.pwrStep_elapsed (s : State) (m : PwrMove) : (pwrStep s m).elapsed = s.elapsed := by
  cases m <;> simp only [pwrStep] <;> (try split) <;> rfl
@[simp] theorem State.pwrStep_events (s : State) (m : PwrMove) : (pwrStep s m).events = s.events := by
  cases m <;> simp only [pwrStep] <;> (try split) <;> rfl
@[simp] theorem State.pwrStep_bus (s : State) (m : PwrMove) : (pwrStep s m).bus = s.bus := by
  cases m <;> simp only [pwrStep] <;> (try split) <;> rfl
@[simp] theorem State.pwrStep_draws (s : State) (m : PwrMove) : (pwrStep s m).draws = s.draws := by
  cases m <;> simp only [pwrStep] <;> (try split) <;> rfl
@[simp] theorem State.pwrStep_port (s : State) (m : PwrMove) : (pwrStep s m).port = s.port := by
  cases m <;> simp only [pwrStep] <;> (try split) <;> rfl
@[simp] theorem State.pwrStep_presenter (s : State) (m : PwrMove) : (pwrStep s m).presenter = s.presenter := by
  cases m <;> simp only [pwrStep] <;> (try split) <;> rfl
@[simp] theorem State.pwrStep_replyCalls (s : State) (m : PwrMove) : (pwrStep s m).replyCalls = s.replyCalls := by
  cases m <;> simp only [pwrStep] <;> (try split) <;> rfl
@[simp] theorem State.pwrStep_msgCalls (s : State) (m : PwrMove) : (pwrStep s m).msgCalls = s.msgCalls := by
  cases m <;> simp only [pwrStep] <;> (try split) <;> rfl
@[simp] theorem State.pwrStep_atDelay (s : State) (m : PwrMove) : (pwrStep s m).atDelay = s.atDelay := by
  cases m <;> simp only [pwrStep] <;> (try split) <;> rfl
@[simp] theorem State.pwrStep_lastTaken (s : State) (m : PwrMove) : (pwrStep s m).lastTaken = s.lastTaken := by
  cases m <;> simp only [pwrStep] <;> (try split) <;> rfl
@[simp] theorem State.pwrStep_ex (s : State) (m : PwrMove) (b : Agent) : (pwrStep s m).ex b = s.ex b := by
  cases m <;> simp only [pwrStep] <;> (try split) <;> rfl
@[simp] theorem State.pwrStep_loc (s : State) (m : PwrMove) (b : Agent) : (pwrStep s m).loc b = s.loc b := by
  cases m <;> simp only [pwrStep] <;> (try split) <;> rfl
@[simp] theorem State.pwrStep_mem (s : State) (m : PwrMove) (r : Region) : (pwrStep s m).mem r = s.mem r := by
  cases m <;> simp only [pwrStep] <;> (try split) <;> rfl

/-! ## The sequencer: updates of one agent's record -/


@[simp] theorem State.goto_eq (s : State) (a : Agent) (k : Nat) : s.goto a k = s.setEx a { s.ex a with step := k } := rfl
@[simp] theorem State.setTodo_eq (s : State) (a : Agent) (ms : List Micro) :
    s.setTodo a ms = s.setEx a { s.ex a with todo := ms } := rfl
@[simp] theorem State.nest_eq (s : State) (a : Agent) (i : Instr) :
    s.nest a i = s.setEx a { s.ex a with op := some i, loc := {} } := rfl
@[simp] theorem State.unnest_eq (s : State) (a : Agent) (o n : Word) :
    s.unnest a o n = s.setEx a { s.ex a with op := some .irqdefer, loc := { cmdo := o, cmdi := n } } := rfl

end Sys2Proof.Machine
end

