-- ==== Sys2Proof/Laws/Views.lean ====
section
/-! SUPPORT. The fields and the views of the state that the bus primitives (R16) keep. -/

namespace Sys2Proof.Machine

/-! ## Views that depend on few fields -/

theorem State.inaccessible_congr {s t : State} (hc : t.cfg = s.cfg) (hx : t.ctx = s.ctx) (hg : t.gated = s.gated)
    (hd : t.d0Confirmed = s.d0Confirmed) (r : Region) (x : Nat) : t.inaccessible r x = s.inaccessible r x := by
  simp [State.inaccessible, State.isGated, State.exempt, State.inMailbox, hc, hx, hg, hd]
theorem State.isIsr_congr {s t : State} (hc : t.cfg = s.cfg) (r : Region) (x : Nat) : t.isIsr r x = s.isIsr r x := by
  simp [State.isIsr, hc]
theorem State.isPm_congr {s t : State} (hc : t.cfg = s.cfg) (r : Region) (x : Nat) : t.isPm r x = s.isPm r x := by
  simp [State.isPm, hc]
theorem State.stored_congr {s t : State} (hc : t.cfg = s.cfg) (hr : t.regs = s.regs) (hm : ∀ r, t.mem r = s.mem r)
    (r : Region) (x : Nat) : t.stored r x = s.stored r x := by
  simp [State.stored, hc, hr, hm]
theorem State.word_congr {s t : State} (hc : t.cfg = s.cfg) (hr : t.regs = s.regs) (hm : ∀ r, t.mem r = s.mem r)
    (hp : t.pmhw = s.pmhw) (r : Region) (x : Nat) : t.word r x = s.word r x := by
  simp [State.word, State.overlay, State.isPm, State.stored, hc, hr, hm, hp]
theorem State.isrWord_congr {s t : State} (hc : t.cfg = s.cfg) (hr : t.regs = s.regs) (d : Word) :
    t.isrWord d = s.isrWord d := by
  have h1 : t.cmdoDone = s.cmdoDone := by rw [State.cmdoDone, State.cmdoDone, hc, hr]
  have h2 : t.cmdiBusy = s.cmdiBusy := by rw [State.cmdiBusy, State.cmdiBusy, hc, hr]
  rw [State.isrWord, State.isrWord, hc, h1, h2]
theorem State.irqLine_congr {s t : State} (hc : t.cfg = s.cfg) (hr : t.regs = s.regs) : t.irqLine = s.irqLine := by
  simp [State.irqLine, State.cmdoDone, State.cmdiBusy, State.imrhDone, State.imrhBusy, hc, hr]

/-! ## Updates that touch no region -/

@[simp] theorem State.setEx_isIsr (s : State) (a : Agent) (e : Exec) (r' : Region) (x : Nat) : (s.setEx a e).isIsr r' x = s.isIsr r' x :=
  State.isIsr_congr (by simp) r' x
@[simp] theorem State.setEx_isPm (s : State) (a : Agent) (e : Exec) (r' : Region) (x : Nat) : (s.setEx a e).isPm r' x = s.isPm r' x :=
  State.isPm_congr (by simp) r' x
@[simp] theorem State.setEx_inaccessible (s : State) (a : Agent) (e : Exec) (r' : Region) (x : Nat) :
    (s.setEx a e).inaccessible r' x = s.inaccessible r' x :=
  State.inaccessible_congr (by simp) (by simp) (by simp) (by simp) r' x
@[simp] theorem State.setEx_stored (s : State) (a : Agent) (e : Exec) (r' : Region) (x : Nat) : (s.setEx a e).stored r' x = s.stored r' x :=
  State.stored_congr (by simp) (by simp) (by simp) r' x
@[simp] theorem State.setEx_word (s : State) (a : Agent) (e : Exec) (r' : Region) (x : Nat) : (s.setEx a e).word r' x = s.word r' x :=
  State.word_congr (by simp) (by simp) (by simp) (by simp) r' x
@[simp] theorem State.setEx_isrWord (s : State) (a : Agent) (e : Exec) (x : Word) : (s.setEx a e).isrWord x = s.isrWord x :=
  State.isrWord_congr (by simp) (by simp) x
@[simp] theorem State.setLoc_isIsr (s : State) (a : Agent) (l : Locals) (r' : Region) (x : Nat) : (s.setLoc a l).isIsr r' x = s.isIsr r' x :=
  State.isIsr_congr (by simp) r' x
@[simp] theorem State.setLoc_isPm (s : State) (a : Agent) (l : Locals) (r' : Region) (x : Nat) : (s.setLoc a l).isPm r' x = s.isPm r' x :=
  State.isPm_congr (by simp) r' x
@[simp] theorem State.setLoc_inaccessible (s : State) (a : Agent) (l : Locals) (r' : Region) (x : Nat) :
    (s.setLoc a l).inaccessible r' x = s.inaccessible r' x :=
  State.inaccessible_congr (by simp) (by simp) (by simp) (by simp) r' x
@[simp] theorem State.setLoc_stored (s : State) (a : Agent) (l : Locals) (r' : Region) (x : Nat) : (s.setLoc a l).stored r' x = s.stored r' x :=
  State.stored_congr (by simp) (by simp) (by simp) r' x
@[simp] theorem State.setLoc_word (s : State) (a : Agent) (l : Locals) (r' : Region) (x : Nat) : (s.setLoc a l).word r' x = s.word r' x :=
  State.word_congr (by simp) (by simp) (by simp) (by simp) r' x
@[simp] theorem State.setLoc_isrWord (s : State) (a : Agent) (l : Locals) (x : Word) : (s.setLoc a l).isrWord x = s.isrWord x :=
  State.isrWord_congr (by simp) (by simp) x
@[simp] theorem State.record_isIsr (s : State) (y : BusRec) (r' : Region) (x : Nat) : (s.record y).isIsr r' x = s.isIsr r' x :=
  State.isIsr_congr (by simp) r' x
@[simp] theorem State.record_isPm (s : State) (y : BusRec) (r' : Region) (x : Nat) : (s.record y).isPm r' x = s.isPm r' x :=
  State.isPm_congr (by simp) r' x
@[simp] theorem State.record_inaccessible (s : State) (y : BusRec) (r' : Region) (x : Nat) :
    (s.record y).inaccessible r' x = s.inaccessible r' x :=
  State.inaccessible_congr (by simp) (by simp) (by simp) (by simp) r' x
@[simp] theorem State.record_stored (s : State) (y : BusRec) (r' : Region) (x : Nat) : (s.record y).stored r' x = s.stored r' x :=
  State.stored_congr (by simp) (by simp) (by simp) r' x
@[simp] theorem State.record_word (s : State) (y : BusRec) (r' : Region) (x : Nat) : (s.record y).word r' x = s.word r' x :=
  State.word_congr (by simp) (by simp) (by simp) (by simp) r' x
@[simp] theorem State.record_isrWord (s : State) (y : BusRec) (x : Word) : (s.record y).isrWord x = s.isrWord x :=
  State.isrWord_congr (by simp) (by simp) x
@[simp] theorem State.emit_isIsr (s : State) (e : Event) (r' : Region) (x : Nat) : (s.emit e).isIsr r' x = s.isIsr r' x :=
  State.isIsr_congr (by simp) r' x
@[simp] theorem State.emit_isPm (s : State) (e : Event) (r' : Region) (x : Nat) : (s.emit e).isPm r' x = s.isPm r' x :=
  State.isPm_congr (by simp) r' x
@[simp] theorem State.emit_inaccessible (s : State) (e : Event) (r' : Region) (x : Nat) :
    (s.emit e).inaccessible r' x = s.inaccessible r' x :=
  State.inaccessible_congr (by simp) (by simp) (by simp) (by simp) r' x
@[simp] theorem State.emit_stored (s : State) (e : Event) (r' : Region) (x : Nat) : (s.emit e).stored r' x = s.stored r' x :=
  State.stored_congr (by simp) (by simp) (by simp) r' x
@[simp] theorem State.emit_word (s : State) (e : Event) (r' : Region) (x : Nat) : (s.emit e).word r' x = s.word r' x :=
  State.word_congr (by simp) (by simp) (by simp) (by simp) r' x
@[simp] theorem State.emit_isrWord (s : State) (e : Event) (x : Word) : (s.emit e).isrWord x = s.isrWord x :=
  State.isrWord_congr (by simp) (by simp) x
@[simp] theorem State.draw_isIsr (s : State) (r' : Region) (x : Nat) : (s.draw.2).isIsr r' x = s.isIsr r' x :=
  State.isIsr_congr (by simp) r' x
@[simp] theorem State.draw_isPm (s : State) (r' : Region) (x : Nat) : (s.draw.2).isPm r' x = s.isPm r' x :=
  State.isPm_congr (by simp) r' x
@[simp] theorem State.draw_inaccessible (s : State) (r' : Region) (x : Nat) :
    (s.draw.2).inaccessible r' x = s.inaccessible r' x :=
  State.inaccessible_congr (by simp) (by simp) (by simp) (by simp) r' x
@[simp] theorem State.draw_stored (s : State) (r' : Region) (x : Nat) : (s.draw.2).stored r' x = s.stored r' x :=
  State.stored_congr (by simp) (by simp) (by simp) r' x
@[simp] theorem State.draw_word (s : State) (r' : Region) (x : Nat) : (s.draw.2).word r' x = s.word r' x :=
  State.word_congr (by simp) (by simp) (by simp) (by simp) r' x
@[simp] theorem State.draw_isrWord (s : State) (x : Word) : (s.draw.2).isrWord x = s.isrWord x :=
  State.isrWord_congr (by simp) (by simp) x
@[simp] theorem State.irqReturn_isIsr (s : State) (v : BitVec 2) (r' : Region) (x : Nat) : (s.irqReturn v).isIsr r' x = s.isIsr r' x :=
  State.isIsr_congr (by simp) r' x
@[simp] theorem State.irqReturn_isPm (s : State) (v : BitVec 2) (r' : Region) (x : Nat) : (s.irqReturn v).isPm r' x = s.isPm r' x :=
  State.isPm_congr (by simp) r' x
@[simp] theorem State.irqReturn_inaccessible (s : State) (v : BitVec 2) (r' : Region) (x : Nat) :
    (s.irqReturn v).inaccessible r' x = s.inaccessible r' x :=
  State.inaccessible_congr (by simp) (by simp) (by simp) (by simp) r' x
@[simp] theorem State.irqReturn_stored (s : State) (v : BitVec 2) (r' : Region) (x : Nat) : (s.irqReturn v).stored r' x = s.stored r' x :=
  State.stored_congr (by simp) (by simp) (by simp) r' x
@[simp] theorem State.irqReturn_word (s : State) (v : BitVec 2) (r' : Region) (x : Nat) : (s.irqReturn v).word r' x = s.word r' x :=
  State.word_congr (by simp) (by simp) (by simp) (by simp) r' x
@[simp] theorem State.irqReturn_isrWord (s : State) (v : BitVec 2) (x : Word) : (s.irqReturn v).isrWord x = s.isrWord x :=
  State.isrWord_congr (by simp) (by simp) x
@[simp] theorem State.result_isIsr (s : State) (a : Agent) (k : Kind) (v : Word) (r' : Region) (x : Nat) : (s.result a k v).isIsr r' x = s.isIsr r' x :=
  State.isIsr_congr (by simp) r' x
@[simp] theorem State.result_isPm (s : State) (a : Agent) (k : Kind) (v : Word) (r' : Region) (x : Nat) : (s.result a k v).isPm r' x = s.isPm r' x :=
  State.isPm_congr (by simp) r' x
@[simp] theorem State.result_inaccessible (s : State) (a : Agent) (k : Kind) (v : Word) (r' : Region) (x : Nat) :
    (s.result a k v).inaccessible r' x = s.inaccessible r' x :=
  State.inaccessible_congr (by simp) (by simp) (by simp) (by simp) r' x
@[simp] theorem State.result_stored (s : State) (a : Agent) (k : Kind) (v : Word) (r' : Region) (x : Nat) : (s.result a k v).stored r' x = s.stored r' x :=
  State.stored_congr (by simp) (by simp) (by simp) r' x
@[simp] theorem State.result_word (s : State) (a : Agent) (k : Kind) (v : Word) (r' : Region) (x : Nat) : (s.result a k v).word r' x = s.word r' x :=
  State.word_congr (by simp) (by simp) (by simp) (by simp) r' x
@[simp] theorem State.result_isrWord (s : State) (a : Agent) (k : Kind) (v : Word) (x : Word) : (s.result a k v).isrWord x = s.isrWord x :=
  State.isrWord_congr (by simp) (by simp) x
@[simp] theorem State.raise_isIsr (s : State) (a : Agent) (k : Kind) (v : Word) (r' : Region) (x : Nat) : (s.raise a k v).isIsr r' x = s.isIsr r' x :=
  State.isIsr_congr (by simp) r' x
@[simp] theorem State.raise_isPm (s : State) (a : Agent) (k : Kind) (v : Word) (r' : Region) (x : Nat) : (s.raise a k v).isPm r' x = s.isPm r' x :=
  State.isPm_congr (by simp) r' x
@[simp] theorem State.raise_inaccessible (s : State) (a : Agent) (k : Kind) (v : Word) (r' : Region) (x : Nat) :
    (s.raise a k v).inaccessible r' x = s.inaccessible r' x :=
  State.inaccessible_congr (by simp) (by simp) (by simp) (by simp) r' x
@[simp] theorem State.raise_stored (s : State) (a : Agent) (k : Kind) (v : Word) (r' : Region) (x : Nat) : (s.raise a k v).stored r' x = s.stored r' x :=
  State.stored_congr (by simp) (by simp) (by simp) r' x
@[simp] theorem State.raise_word (s : State) (a : Agent) (k : Kind) (v : Word) (r' : Region) (x : Nat) : (s.raise a k v).word r' x = s.word r' x :=
  State.word_congr (by simp) (by simp) (by simp) (by simp) r' x
@[simp] theorem State.raise_isrWord (s : State) (a : Agent) (k : Kind) (v : Word) (x : Word) : (s.raise a k v).isrWord x = s.isrWord x :=
  State.isrWord_congr (by simp) (by simp) x
@[simp] theorem State.start_isIsr (s : State) (a : Agent) (i : Instr) (ms : List Micro) (r' : Region) (x : Nat) : (s.start a i ms).isIsr r' x = s.isIsr r' x :=
  State.isIsr_congr (by simp) r' x
@[simp] theorem State.start_isPm (s : State) (a : Agent) (i : Instr) (ms : List Micro) (r' : Region) (x : Nat) : (s.start a i ms).isPm r' x = s.isPm r' x :=
  State.isPm_congr (by simp) r' x
@[simp] theorem State.start_inaccessible (s : State) (a : Agent) (i : Instr) (ms : List Micro) (r' : Region) (x : Nat) :
    (s.start a i ms).inaccessible r' x = s.inaccessible r' x :=
  State.inaccessible_congr (by simp) (by simp) (by simp) (by simp) r' x
@[simp] theorem State.start_stored (s : State) (a : Agent) (i : Instr) (ms : List Micro) (r' : Region) (x : Nat) : (s.start a i ms).stored r' x = s.stored r' x :=
  State.stored_congr (by simp) (by simp) (by simp) r' x
@[simp] theorem State.start_word (s : State) (a : Agent) (i : Instr) (ms : List Micro) (r' : Region) (x : Nat) : (s.start a i ms).word r' x = s.word r' x :=
  State.word_congr (by simp) (by simp) (by simp) (by simp) r' x
@[simp] theorem State.start_isrWord (s : State) (a : Agent) (i : Instr) (ms : List Micro) (x : Word) : (s.start a i ms).isrWord x = s.isrWord x :=
  State.isrWord_congr (by simp) (by simp) x
@[simp] theorem State.finish_isIsr (s : State) (a : Agent) (r' : Region) (x : Nat) : (s.finish a).isIsr r' x = s.isIsr r' x :=
  State.isIsr_congr (by simp) r' x
@[simp] theorem State.finish_isPm (s : State) (a : Agent) (r' : Region) (x : Nat) : (s.finish a).isPm r' x = s.isPm r' x :=
  State.isPm_congr (by simp) r' x
@[simp] theorem State.finish_inaccessible (s : State) (a : Agent) (r' : Region) (x : Nat) :
    (s.finish a).inaccessible r' x = s.inaccessible r' x :=
  State.inaccessible_congr (by simp) (by simp) (by simp) (by simp) r' x
@[simp] theorem State.finish_stored (s : State) (a : Agent) (r' : Region) (x : Nat) : (s.finish a).stored r' x = s.stored r' x :=
  State.stored_congr (by simp) (by simp) (by simp) r' x
@[simp] theorem State.finish_word (s : State) (a : Agent) (r' : Region) (x : Nat) : (s.finish a).word r' x = s.word r' x :=
  State.word_congr (by simp) (by simp) (by simp) (by simp) r' x
@[simp] theorem State.finish_isrWord (s : State) (a : Agent) (x : Word) : (s.finish a).isrWord x = s.isrWord x :=
  State.isrWord_congr (by simp) (by simp) x
@[simp] theorem State.ctxStep_isIsr (s : State) (m : CtxMove) (r' : Region) (x : Nat) : (ctxStep s m).isIsr r' x = s.isIsr r' x :=
  State.isIsr_congr (by simp) r' x
@[simp] theorem State.ctxStep_isPm (s : State) (m : CtxMove) (r' : Region) (x : Nat) : (ctxStep s m).isPm r' x = s.isPm r' x :=
  State.isPm_congr (by simp) r' x
@[simp] theorem State.ctxStep_stored (s : State) (m : CtxMove) (r' : Region) (x : Nat) : (ctxStep s m).stored r' x = s.stored r' x :=
  State.stored_congr (by simp) (by simp) (by simp) r' x
@[simp] theorem State.ctxStep_word (s : State) (m : CtxMove) (r' : Region) (x : Nat) : (ctxStep s m).word r' x = s.word r' x :=
  State.word_congr (by simp) (by simp) (by simp) (by simp) r' x
@[simp] theorem State.ctxStep_isrWord (s : State) (m : CtxMove) (x : Word) : (ctxStep s m).isrWord x = s.isrWord x :=
  State.isrWord_congr (by simp) (by simp) x
@[simp] theorem State.pwrStep_isIsr (s : State) (m : PwrMove) (r' : Region) (x : Nat) : (pwrStep s m).isIsr r' x = s.isIsr r' x :=
  State.isIsr_congr (by simp) r' x
@[simp] theorem State.pwrStep_isPm (s : State) (m : PwrMove) (r' : Region) (x : Nat) : (pwrStep s m).isPm r' x = s.isPm r' x :=
  State.isPm_congr (by simp) r' x
@[simp] theorem State.pwrStep_stored (s : State) (m : PwrMove) (r' : Region) (x : Nat) : (pwrStep s m).stored r' x = s.stored r' x :=
  State.stored_congr (by simp) (by simp) (by simp) r' x
@[simp] theorem State.pwrStep_word (s : State) (m : PwrMove) (r' : Region) (x : Nat) : (pwrStep s m).word r' x = s.word r' x :=
  State.word_congr (by simp) (by simp) (by simp) (by simp) r' x
@[simp] theorem State.pwrStep_isrWord (s : State) (m : PwrMove) (x : Word) : (pwrStep s m).isrWord x = s.isrWord x :=
  State.isrWord_congr (by simp) (by simp) x
@[simp] theorem State.setMem_isIsr (s : State) (r : Region) (m : Memory) (r' : Region) (x : Nat) : (s.setMem r m).isIsr r' x = s.isIsr r' x :=
  State.isIsr_congr (by simp) r' x
@[simp] theorem State.setMem_isPm (s : State) (r : Region) (m : Memory) (r' : Region) (x : Nat) : (s.setMem r m).isPm r' x = s.isPm r' x :=
  State.isPm_congr (by simp) r' x
@[simp] theorem State.setMem_inaccessible (s : State) (r : Region) (m : Memory) (r' : Region) (x : Nat) :
    (s.setMem r m).inaccessible r' x = s.inaccessible r' x :=
  State.inaccessible_congr (by simp) (by simp) (by simp) (by simp) r' x
@[simp] theorem State.setReg_isIsr (s : State) (g : DevReg) (v : Word) (r' : Region) (x : Nat) : (s.setReg g v).isIsr r' x = s.isIsr r' x :=
  State.isIsr_congr (by simp) r' x
@[simp] theorem State.setReg_isPm (s : State) (g : DevReg) (v : Word) (r' : Region) (x : Nat) : (s.setReg g v).isPm r' x = s.isPm r' x :=
  State.isPm_congr (by simp) r' x
@[simp] theorem State.setReg_inaccessible (s : State) (g : DevReg) (v : Word) (r' : Region) (x : Nat) :
    (s.setReg g v).inaccessible r' x = s.inaccessible r' x :=
  State.inaccessible_congr (by simp) (by simp) (by simp) (by simp) r' x

/-! ## Reads -/

@[simp] theorem State.busRead_cfg (s : State) (r : Region) (base x : Nat) : ((s.busRead r base x).2).cfg = s.cfg := by
  unfold State.busRead; split <;> (try split) <;> simp
@[simp] theorem State.busRead_attached (s : State) (r : Region) (base x : Nat) : ((s.busRead r base x).2).attached = s.attached := by
  unfold State.busRead; split <;> (try split) <;> simp
@[simp] theorem State.busRead_ctx (s : State) (r : Region) (base x : Nat) : ((s.busRead r base x).2).ctx = s.ctx := by
  unfold State.busRead; split <;> (try split) <;> simp
@[simp] theorem State.busRead_host (s : State) (r : Region) (base x : Nat) : ((s.busRead r base x).2).host = s.host := by
  unfold State.busRead; split <;> (try split) <;> simp
@[simp] theorem State.busRead_irq (s : State) (r : Region) (base x : Nat) : ((s.busRead r base x).2).irq = s.irq := by
  unfold State.busRead; split <;> (try split) <;> simp
@[simp] theorem State.busRead_worker (s : State) (r : Region) (base x : Nat) : ((s.busRead r base x).2).worker = s.worker := by
  unfold State.busRead; split <;> (try split) <;> simp
@[simp] theorem State.busRead_halt (s : State) (r : Region) (base x : Nat) : ((s.busRead r base x).2).halt = s.halt := by
  unfold State.busRead; split <;> (try split) <;> simp
@[simp] theorem State.busRead_irqRet (s : State) (r : Region) (base x : Nat) : ((s.busRead r base x).2).irqRet = s.irqRet := by
  unfold State.busRead; split <;> (try split) <;> simp
@[simp] theorem State.busRead_pwr (s : State) (r : Region) (base x : Nat) : ((s.busRead r base x).2).pwr = s.pwr := by
  unfold State.busRead; split <;> (try split) <;> simp
@[simp] theorem State.busRead_deferPending (s : State) (r : Region) (base x : Nat) : ((s.busRead r base x).2).deferPending = s.deferPending := by
  unfold State.busRead; split <;> (try split) <;> simp
@[simp] theorem State.busRead_lock (s : State) (r : Region) (base x : Nat) : ((s.busRead r base x).2).lock = s.lock := by
  unfold State.busRead; split <;> (try split) <;> simp
@[simp] theorem State.busRead_regs (s : State) (r : Region) (base x : Nat) : ((s.busRead r base x).2).regs = s.regs := by
  unfold State.busRead; split <;> (try split) <;> simp
@[simp] theorem State.busRead_pmhw (s : State) (r : Region) (base x : Nat) : ((s.busRead r base x).2).pmhw = s.pmhw := by
  unfold State.busRead; split <;> (try split) <;> simp
@[simp] theorem State.busRead_dspMem (s : State) (r : Region) (base x : Nat) : ((s.busRead r base x).2).dspMem = s.dspMem := by
  unfold State.busRead; split <;> (try split) <;> simp
@[simp] theorem State.busRead_compMem (s : State) (r : Region) (base x : Nat) : ((s.busRead r base x).2).compMem = s.compMem := by
  unfold State.busRead; split <;> (try split) <;> simp
@[simp] theorem State.busRead_hm (s : State) (r : Region) (base x : Nat) : ((s.busRead r base x).2).hm = s.hm := by
  unfold State.busRead; split <;> (try split) <;> simp
@[simp] theorem State.busRead_gated (s : State) (r : Region) (base x : Nat) : ((s.busRead r base x).2).gated = s.gated := by
  unfold State.busRead; split <;> (try split) <;> simp
@[simp] theorem State.busRead_d0Confirmed (s : State) (r : Region) (base x : Nat) : ((s.busRead r base x).2).d0Confirmed = s.d0Confirmed := by
  unfold State.busRead; split <;> (try split) <;> simp
@[simp] theorem State.busRead_d0Requested (s : State) (r : Region) (base x : Nat) : ((s.busRead r base x).2).d0Requested = s.d0Requested := by
  unfold State.busRead; split <;> (try split) <;> simp
@[simp] theorem State.busRead_readySent (s : State) (r : Region) (base x : Nat) : ((s.busRead r base x).2).readySent = s.readySent := by
  unfold State.busRead; split <;> (try split) <;> simp
@[simp] theorem State.busRead_fw (s : State) (r : Region) (base x : Nat) : ((s.busRead r base x).2).fw = s.fw := by
  unfold State.busRead; split <;> (try split) <;> simp
@[simp] theorem State.busRead_replyBox (s : State) (r : Region) (base x : Nat) : ((s.busRead r base x).2).replyBox = s.replyBox := by
  unfold State.busRead; split <;> (try split) <;> simp
@[simp] theorem State.busRead_elapsed (s : State) (r : Region) (base x : Nat) : ((s.busRead r base x).2).elapsed = s.elapsed := by
  unfold State.busRead; split <;> (try split) <;> simp
@[simp] theorem State.busRead_events (s : State) (r : Region) (base x : Nat) : ((s.busRead r base x).2).events = s.events := by
  unfold State.busRead; split <;> (try split) <;> simp
@[simp] theorem State.busRead_bus (s : State) (r : Region) (base x : Nat) : ((s.busRead r base x).2).bus = s.bus := by
  unfold State.busRead; split <;> (try split) <;> simp
@[simp] theorem State.busRead_port (s : State) (r : Region) (base x : Nat) : ((s.busRead r base x).2).port = s.port := by
  unfold State.busRead; split <;> (try split) <;> simp
@[simp] theorem State.busRead_presenter (s : State) (r : Region) (base x : Nat) : ((s.busRead r base x).2).presenter = s.presenter := by
  unfold State.busRead; split <;> (try split) <;> simp
@[simp] theorem State.busRead_replyCalls (s : State) (r : Region) (base x : Nat) : ((s.busRead r base x).2).replyCalls = s.replyCalls := by
  unfold State.busRead; split <;> (try split) <;> simp
@[simp] theorem State.busRead_msgCalls (s : State) (r : Region) (base x : Nat) : ((s.busRead r base x).2).msgCalls = s.msgCalls := by
  unfold State.busRead; split <;> (try split) <;> simp
@[simp] theorem State.busRead_atDelay (s : State) (r : Region) (base x : Nat) : ((s.busRead r base x).2).atDelay = s.atDelay := by
  unfold State.busRead; split <;> (try split) <;> simp
@[simp] theorem State.busRead_lastTaken (s : State) (r : Region) (base x : Nat) : ((s.busRead r base x).2).lastTaken = s.lastTaken := by
  unfold State.busRead; split <;> (try split) <;> simp
@[simp] theorem State.busRead_ex (s : State) (r : Region) (base x : Nat) (b : Agent) : ((s.busRead r base x).2).ex b = s.ex b := by
  unfold State.busRead; split <;> (try split) <;> simp
@[simp] theorem State.busRead_loc (s : State) (r : Region) (base x : Nat) (b : Agent) : ((s.busRead r base x).2).loc b = s.loc b := by
  unfold State.busRead; split <;> (try split) <;> simp
@[simp] theorem State.busRead_mem (s : State) (r : Region) (base x : Nat) (r' : Region) : ((s.busRead r base x).2).mem r' = s.mem r' := by
  unfold State.busRead; split <;> (try split) <;> simp
@[simp] theorem State.busRead_isIsr (s : State) (r : Region) (base y : Nat) (r' : Region) (x : Nat) : ((s.busRead r base y).2).isIsr r' x = s.isIsr r' x :=
  State.isIsr_congr (by simp) r' x
@[simp] theorem State.busRead_isPm (s : State) (r : Region) (base y : Nat) (r' : Region) (x : Nat) : ((s.busRead r base y).2).isPm r' x = s.isPm r' x :=
  State.isPm_congr (by simp) r' x
@[simp] theorem State.busRead_inaccessible (s : State) (r : Region) (base y : Nat) (r' : Region) (x : Nat) :
    ((s.busRead r base y).2).inaccessible r' x = s.inaccessible r' x :=
  State.inaccessible_congr (by simp) (by simp) (by simp) (by simp) r' x
@[simp] theorem State.busRead_stored (s : State) (r : Region) (base y : Nat) (r' : Region) (x : Nat) : ((s.busRead r base y).2).stored r' x = s.stored r' x :=
  State.stored_congr (by simp) (by simp) (by simp) r' x
@[simp] theorem State.busRead_word (s : State) (r : Region) (base y : Nat) (r' : Region) (x : Nat) : ((s.busRead r base y).2).word r' x = s.word r' x :=
  State.word_congr (by simp) (by simp) (by simp) (by simp) r' x
@[simp] theorem State.busRead_isrWord (s : State) (r : Region) (base y : Nat) (x : Word) : ((s.busRead r base y).2).isrWord x = s.isrWord x :=
  State.isrWord_congr (by simp) (by simp) x
@[simp] theorem State.read32_cfg (s : State) (a : Agent) (r : Region) (off : Nat) : ((s.read32 a r off).2).cfg = s.cfg := by
  simp [State.read32]
@[simp] theorem State.read32_attached (s : State) (a : Agent) (r : Region) (off : Nat) : ((s.read32 a r off).2).attached = s.attached := by
  simp [State.read32]
@[simp] theorem State.read32_ctx (s : State) (a : Agent) (r : Region) (off : Nat) : ((s.read32 a r off).2).ctx = s.ctx := by
  simp [State.read32]
@[simp] theorem State.read32_host (s : State) (a : Agent) (r : Region) (off : Nat) : ((s.read32 a r off).2).host = s.host := by
  simp [State.read32]
@[simp] theorem State.read32_irq (s : State) (a : Agent) (r : Region) (off : Nat) : ((s.read32 a r off).2).irq = s.irq := by
  simp [State.read32]
@[simp] theorem State.read32_worker (s : State) (a : Agent) (r : Region) (off : Nat) : ((s.read32 a r off).2).worker = s.worker := by
  simp [State.read32]
@[simp] theorem State.read32_halt (s : State) (a : Agent) (r : Region) (off : Nat) : ((s.read32 a r off).2).halt = s.halt := by
  simp [State.read32]
@[simp] theorem State.read32_irqRet (s : State) (a : Agent) (r : Region) (off : Nat) : ((s.read32 a r off).2).irqRet = s.irqRet := by
  simp [State.read32]
@[simp] theorem State.read32_pwr (s : State) (a : Agent) (r : Region) (off : Nat) : ((s.read32 a r off).2).pwr = s.pwr := by
  simp [State.read32]
@[simp] theorem State.read32_deferPending (s : State) (a : Agent) (r : Region) (off : Nat) : ((s.read32 a r off).2).deferPending = s.deferPending := by
  simp [State.read32]
@[simp] theorem State.read32_lock (s : State) (a : Agent) (r : Region) (off : Nat) : ((s.read32 a r off).2).lock = s.lock := by
  simp [State.read32]
@[simp] theorem State.read32_regs (s : State) (a : Agent) (r : Region) (off : Nat) : ((s.read32 a r off).2).regs = s.regs := by
  simp [State.read32]
@[simp] theorem State.read32_pmhw (s : State) (a : Agent) (r : Region) (off : Nat) : ((s.read32 a r off).2).pmhw = s.pmhw := by
  simp [State.read32]
@[simp] theorem State.read32_dspMem (s : State) (a : Agent) (r : Region) (off : Nat) : ((s.read32 a r off).2).dspMem = s.dspMem := by
  simp [State.read32]
@[simp] theorem State.read32_compMem (s : State) (a : Agent) (r : Region) (off : Nat) : ((s.read32 a r off).2).compMem = s.compMem := by
  simp [State.read32]
@[simp] theorem State.read32_hm (s : State) (a : Agent) (r : Region) (off : Nat) : ((s.read32 a r off).2).hm = s.hm := by
  simp [State.read32]
@[simp] theorem State.read32_gated (s : State) (a : Agent) (r : Region) (off : Nat) : ((s.read32 a r off).2).gated = s.gated := by
  simp [State.read32]
@[simp] theorem State.read32_d0Confirmed (s : State) (a : Agent) (r : Region) (off : Nat) : ((s.read32 a r off).2).d0Confirmed = s.d0Confirmed := by
  simp [State.read32]
@[simp] theorem State.read32_d0Requested (s : State) (a : Agent) (r : Region) (off : Nat) : ((s.read32 a r off).2).d0Requested = s.d0Requested := by
  simp [State.read32]
@[simp] theorem State.read32_readySent (s : State) (a : Agent) (r : Region) (off : Nat) : ((s.read32 a r off).2).readySent = s.readySent := by
  simp [State.read32]
@[simp] theorem State.read32_fw (s : State) (a : Agent) (r : Region) (off : Nat) : ((s.read32 a r off).2).fw = s.fw := by
  simp [State.read32]
@[simp] theorem State.read32_replyBox (s : State) (a : Agent) (r : Region) (off : Nat) : ((s.read32 a r off).2).replyBox = s.replyBox := by
  simp [State.read32]
@[simp] theorem State.read32_elapsed (s : State) (a : Agent) (r : Region) (off : Nat) : ((s.read32 a r off).2).elapsed = s.elapsed := by
  simp [State.read32]
@[simp] theorem State.read32_events (s : State) (a : Agent) (r : Region) (off : Nat) : ((s.read32 a r off).2).events = s.events := by
  simp [State.read32]
@[simp] theorem State.read32_port (s : State) (a : Agent) (r : Region) (off : Nat) : ((s.read32 a r off).2).port = s.port := by
  simp [State.read32]
@[simp] theorem State.read32_presenter (s : State) (a : Agent) (r : Region) (off : Nat) : ((s.read32 a r off).2).presenter = s.presenter := by
  simp [State.read32]
@[simp] theorem State.read32_replyCalls (s : State) (a : Agent) (r : Region) (off : Nat) : ((s.read32 a r off).2).replyCalls = s.replyCalls := by
  simp [State.read32]
@[simp] theorem State.read32_msgCalls (s : State) (a : Agent) (r : Region) (off : Nat) : ((s.read32 a r off).2).msgCalls = s.msgCalls := by
  simp [State.read32]
@[simp] theorem State.read32_atDelay (s : State) (a : Agent) (r : Region) (off : Nat) : ((s.read32 a r off).2).atDelay = s.atDelay := by
  simp [State.read32]
@[simp] theorem State.read32_lastTaken (s : State) (a : Agent) (r : Region) (off : Nat) : ((s.read32 a r off).2).lastTaken = s.lastTaken := by
  simp [State.read32]
@[simp] theorem State.read32_ex (s : State) (a : Agent) (r : Region) (off : Nat) (b : Agent) : ((s.read32 a r off).2).ex b = s.ex b := by
  simp [State.read32]
@[simp] theorem State.read32_loc (s : State) (a : Agent) (r : Region) (off : Nat) (b : Agent) : ((s.read32 a r off).2).loc b = s.loc b := by
  simp [State.read32]
@[simp] theorem State.read32_mem (s : State) (a : Agent) (r : Region) (off : Nat) (r' : Region) : ((s.read32 a r off).2).mem r' = s.mem r' := by
  simp [State.read32]
@[simp] theorem State.read32_isIsr (s : State) (a : Agent) (r : Region) (off : Nat) (r' : Region) (x : Nat) : ((s.read32 a r off).2).isIsr r' x = s.isIsr r' x :=
  State.isIsr_congr (by simp) r' x
@[simp] theorem State.read32_isPm (s : State) (a : Agent) (r : Region) (off : Nat) (r' : Region) (x : Nat) : ((s.read32 a r off).2).isPm r' x = s.isPm r' x :=
  State.isPm_congr (by simp) r' x
@[simp] theorem State.read32_inaccessible (s : State) (a : Agent) (r : Region) (off : Nat) (r' : Region) (x : Nat) :
    ((s.read32 a r off).2).inaccessible r' x = s.inaccessible r' x :=
  State.inaccessible_congr (by simp) (by simp) (by simp) (by simp) r' x
@[simp] theorem State.read32_stored (s : State) (a : Agent) (r : Region) (off : Nat) (r' : Region) (x : Nat) : ((s.read32 a r off).2).stored r' x = s.stored r' x :=
  State.stored_congr (by simp) (by simp) (by simp) r' x
@[simp] theorem State.read32_word (s : State) (a : Agent) (r : Region) (off : Nat) (r' : Region) (x : Nat) : ((s.read32 a r off).2).word r' x = s.word r' x :=
  State.word_congr (by simp) (by simp) (by simp) (by simp) r' x
@[simp] theorem State.read32_isrWord (s : State) (a : Agent) (r : Region) (off : Nat) (x : Word) : ((s.read32 a r off).2).isrWord x = s.isrWord x :=
  State.isrWord_congr (by simp) (by simp) x
@[simp] theorem State.read8_cfg (s : State) (a : Agent) (r : Region) (y : Nat) : ((s.read8 a r y).2).cfg = s.cfg := by
  simp [State.read8]
@[simp] theorem State.read8_attached (s : State) (a : Agent) (r : Region) (y : Nat) : ((s.read8 a r y).2).attached = s.attached := by
  simp [State.read8]
@[simp] theorem State.read8_ctx (s : State) (a : Agent) (r : Region) (y : Nat) : ((s.read8 a r y).2).ctx = s.ctx := by
  simp [State.read8]
@[simp] theorem State.read8_host (s : State) (a : Agent) (r : Region) (y : Nat) : ((s.read8 a r y).2).host = s.host := by
  simp [State.read8]
@[simp] theorem State.read8_irq (s : State) (a : Agent) (r : Region) (y : Nat) : ((s.read8 a r y).2).irq = s.irq := by
  simp [State.read8]
@[simp] theorem State.read8_worker (s : State) (a : Agent) (r : Region) (y : Nat) : ((s.read8 a r y).2).worker = s.worker := by
  simp [State.read8]
@[simp] theorem State.read8_halt (s : State) (a : Agent) (r : Region) (y : Nat) : ((s.read8 a r y).2).halt = s.halt := by
  simp [State.read8]
@[simp] theorem State.read8_irqRet (s : State) (a : Agent) (r : Region) (y : Nat) : ((s.read8 a r y).2).irqRet = s.irqRet := by
  simp [State.read8]
@[simp] theorem State.read8_pwr (s : State) (a : Agent) (r : Region) (y : Nat) : ((s.read8 a r y).2).pwr = s.pwr := by
  simp [State.read8]
@[simp] theorem State.read8_deferPending (s : State) (a : Agent) (r : Region) (y : Nat) : ((s.read8 a r y).2).deferPending = s.deferPending := by
  simp [State.read8]
@[simp] theorem State.read8_lock (s : State) (a : Agent) (r : Region) (y : Nat) : ((s.read8 a r y).2).lock = s.lock := by
  simp [State.read8]
@[simp] theorem State.read8_regs (s : State) (a : Agent) (r : Region) (y : Nat) : ((s.read8 a r y).2).regs = s.regs := by
  simp [State.read8]
@[simp] theorem State.read8_pmhw (s : State) (a : Agent) (r : Region) (y : Nat) : ((s.read8 a r y).2).pmhw = s.pmhw := by
  simp [State.read8]
@[simp] theorem State.read8_dspMem (s : State) (a : Agent) (r : Region) (y : Nat) : ((s.read8 a r y).2).dspMem = s.dspMem := by
  simp [State.read8]
@[simp] theorem State.read8_compMem (s : State) (a : Agent) (r : Region) (y : Nat) : ((s.read8 a r y).2).compMem = s.compMem := by
  simp [State.read8]
@[simp] theorem State.read8_hm (s : State) (a : Agent) (r : Region) (y : Nat) : ((s.read8 a r y).2).hm = s.hm := by
  simp [State.read8]
@[simp] theorem State.read8_gated (s : State) (a : Agent) (r : Region) (y : Nat) : ((s.read8 a r y).2).gated = s.gated := by
  simp [State.read8]
@[simp] theorem State.read8_d0Confirmed (s : State) (a : Agent) (r : Region) (y : Nat) : ((s.read8 a r y).2).d0Confirmed = s.d0Confirmed := by
  simp [State.read8]
@[simp] theorem State.read8_d0Requested (s : State) (a : Agent) (r : Region) (y : Nat) : ((s.read8 a r y).2).d0Requested = s.d0Requested := by
  simp [State.read8]
@[simp] theorem State.read8_readySent (s : State) (a : Agent) (r : Region) (y : Nat) : ((s.read8 a r y).2).readySent = s.readySent := by
  simp [State.read8]
@[simp] theorem State.read8_fw (s : State) (a : Agent) (r : Region) (y : Nat) : ((s.read8 a r y).2).fw = s.fw := by
  simp [State.read8]
@[simp] theorem State.read8_replyBox (s : State) (a : Agent) (r : Region) (y : Nat) : ((s.read8 a r y).2).replyBox = s.replyBox := by
  simp [State.read8]
@[simp] theorem State.read8_elapsed (s : State) (a : Agent) (r : Region) (y : Nat) : ((s.read8 a r y).2).elapsed = s.elapsed := by
  simp [State.read8]
@[simp] theorem State.read8_events (s : State) (a : Agent) (r : Region) (y : Nat) : ((s.read8 a r y).2).events = s.events := by
  simp [State.read8]
@[simp] theorem State.read8_port (s : State) (a : Agent) (r : Region) (y : Nat) : ((s.read8 a r y).2).port = s.port := by
  simp [State.read8]
@[simp] theorem State.read8_presenter (s : State) (a : Agent) (r : Region) (y : Nat) : ((s.read8 a r y).2).presenter = s.presenter := by
  simp [State.read8]
@[simp] theorem State.read8_replyCalls (s : State) (a : Agent) (r : Region) (y : Nat) : ((s.read8 a r y).2).replyCalls = s.replyCalls := by
  simp [State.read8]
@[simp] theorem State.read8_msgCalls (s : State) (a : Agent) (r : Region) (y : Nat) : ((s.read8 a r y).2).msgCalls = s.msgCalls := by
  simp [State.read8]
@[simp] theorem State.read8_atDelay (s : State) (a : Agent) (r : Region) (y : Nat) : ((s.read8 a r y).2).atDelay = s.atDelay := by
  simp [State.read8]
@[simp] theorem State.read8_lastTaken (s : State) (a : Agent) (r : Region) (y : Nat) : ((s.read8 a r y).2).lastTaken = s.lastTaken := by
  simp [State.read8]
@[simp] theorem State.read8_ex (s : State) (a : Agent) (r : Region) (y : Nat) (b : Agent) : ((s.read8 a r y).2).ex b = s.ex b := by
  simp [State.read8]
@[simp] theorem State.read8_loc (s : State) (a : Agent) (r : Region) (y : Nat) (b : Agent) : ((s.read8 a r y).2).loc b = s.loc b := by
  simp [State.read8]
@[simp] theorem State.read8_mem (s : State) (a : Agent) (r : Region) (y : Nat) (r' : Region) : ((s.read8 a r y).2).mem r' = s.mem r' := by
  simp [State.read8]
@[simp] theorem State.read8_isIsr (s : State) (a : Agent) (r : Region) (y : Nat) (r' : Region) (x : Nat) : ((s.read8 a r y).2).isIsr r' x = s.isIsr r' x :=
  State.isIsr_congr (by simp) r' x
@[simp] theorem State.read8_isPm (s : State) (a : Agent) (r : Region) (y : Nat) (r' : Region) (x : Nat) : ((s.read8 a r y).2).isPm r' x = s.isPm r' x :=
  State.isPm_congr (by simp) r' x
@[simp] theorem State.read8_inaccessible (s : State) (a : Agent) (r : Region) (y : Nat) (r' : Region) (x : Nat) :
    ((s.read8 a r y).2).inaccessible r' x = s.inaccessible r' x :=
  State.inaccessible_congr (by simp) (by simp) (by simp) (by simp) r' x
@[simp] theorem State.read8_stored (s : State) (a : Agent) (r : Region) (y : Nat) (r' : Region) (x : Nat) : ((s.read8 a r y).2).stored r' x = s.stored r' x :=
  State.stored_congr (by simp) (by simp) (by simp) r' x
@[simp] theorem State.read8_word (s : State) (a : Agent) (r : Region) (y : Nat) (r' : Region) (x : Nat) : ((s.read8 a r y).2).word r' x = s.word r' x :=
  State.word_congr (by simp) (by simp) (by simp) (by simp) r' x
@[simp] theorem State.read8_isrWord (s : State) (a : Agent) (r : Region) (y : Nat) (x : Word) : ((s.read8 a r y).2).isrWord x = s.isrWord x :=
  State.isrWord_congr (by simp) (by simp) x
@[simp] theorem State.readStep_cfg (s : State) (a : Agent) (r : Region) (off : Nat) (sl : Slot) : (readStep a r off sl s).cfg = s.cfg := by
  simp [readStep]
@[simp] theorem State.readStep_attached (s : State) (a : Agent) (r : Region) (off : Nat) (sl : Slot) : (readStep a r off sl s).attached = s.attached := by
  simp [readStep]
@[simp] theorem State.readStep_ctx (s : State) (a : Agent) (r : Region) (off : Nat) (sl : Slot) : (readStep a r off sl s).ctx = s.ctx := by
  simp [readStep]
@[simp] theorem State.readStep_halt (s : State) (a : Agent) (r : Region) (off : Nat) (sl : Slot) : (readStep a r off sl s).halt = s.halt := by
  simp [readStep]
@[simp] theorem State.readStep_irqRet (s : State) (a : Agent) (r : Region) (off : Nat) (sl : Slot) : (readStep a r off sl s).irqRet = s.irqRet := by
  simp [readStep]
@[simp] theorem State.readStep_pwr (s : State) (a : Agent) (r : Region) (off : Nat) (sl : Slot) : (readStep a r off sl s).pwr = s.pwr := by
  simp [readStep]
@[simp] theorem State.readStep_deferPending (s : State) (a : Agent) (r : Region) (off : Nat) (sl : Slot) : (readStep a r off sl s).deferPending = s.deferPending := by
  simp [readStep]
@[simp] theorem State.readStep_lock (s : State) (a : Agent) (r : Region) (off : Nat) (sl : Slot) : (readStep a r off sl s).lock = s.lock := by
  simp [readStep]
@[simp] theorem State.readStep_regs (s : State) (a : Agent) (r : Region) (off : Nat) (sl : Slot) : (readStep a r off sl s).regs = s.regs := by
  simp [readStep]
@[simp] theorem State.readStep_pmhw (s : State) (a : Agent) (r : Region) (off : Nat) (sl : Slot) : (readStep a r off sl s).pmhw = s.pmhw := by
  simp [readStep]
@[simp] theorem State.readStep_dspMem (s : State) (a : Agent) (r : Region) (off : Nat) (sl : Slot) : (readStep a r off sl s).dspMem = s.dspMem := by
  simp [readStep]
@[simp] theorem State.readStep_compMem (s : State) (a : Agent) (r : Region) (off : Nat) (sl : Slot) : (readStep a r off sl s).compMem = s.compMem := by
  simp [readStep]
@[simp] theorem State.readStep_hm (s : State) (a : Agent) (r : Region) (off : Nat) (sl : Slot) : (readStep a r off sl s).hm = s.hm := by
  simp [readStep]
@[simp] theorem State.readStep_gated (s : State) (a : Agent) (r : Region) (off : Nat) (sl : Slot) : (readStep a r off sl s).gated = s.gated := by
  simp [readStep]
@[simp] theorem State.readStep_d0Confirmed (s : State) (a : Agent) (r : Region) (off : Nat) (sl : Slot) : (readStep a r off sl s).d0Confirmed = s.d0Confirmed := by
  simp [readStep]
@[simp] theorem State.readStep_d0Requested (s : State) (a : Agent) (r : Region) (off : Nat) (sl : Slot) : (readStep a r off sl s).d0Requested = s.d0Requested := by
  simp [readStep]
@[simp] theorem State.readStep_readySent (s : State) (a : Agent) (r : Region) (off : Nat) (sl : Slot) : (readStep a r off sl s).readySent = s.readySent := by
  simp [readStep]
@[simp] theorem State.readStep_fw (s : State) (a : Agent) (r : Region) (off : Nat) (sl : Slot) : (readStep a r off sl s).fw = s.fw := by
  simp [readStep]
@[simp] theorem State.readStep_replyBox (s : State) (a : Agent) (r : Region) (off : Nat) (sl : Slot) : (readStep a r off sl s).replyBox = s.replyBox := by
  simp [readStep]
@[simp] theorem State.readStep_elapsed (s : State) (a : Agent) (r : Region) (off : Nat) (sl : Slot) : (readStep a r off sl s).elapsed = s.elapsed := by
  simp [readStep]
@[simp] theorem State.readStep_events (s : State) (a : Agent) (r : Region) (off : Nat) (sl : Slot) : (readStep a r off sl s).events = s.events := by
  simp [readStep]
@[simp] theorem State.readStep_port (s : State) (a : Agent) (r : Region) (off : Nat) (sl : Slot) : (readStep a r off sl s).port = s.port := by
  simp [readStep]
@[simp] theorem State.readStep_presenter (s : State) (a : Agent) (r : Region) (off : Nat) (sl : Slot) : (readStep a r off sl s).presenter = s.presenter := by
  simp [readStep]
@[simp] theorem State.readStep_replyCalls (s : State) (a : Agent) (r : Region) (off : Nat) (sl : Slot) : (readStep a r off sl s).replyCalls = s.replyCalls := by
  simp [readStep]
@[simp] theorem State.readStep_msgCalls (s : State) (a : Agent) (r : Region) (off : Nat) (sl : Slot) : (readStep a r off sl s).msgCalls = s.msgCalls := by
  simp [readStep]
@[simp] theorem State.readStep_atDelay (s : State) (a : Agent) (r : Region) (off : Nat) (sl : Slot) : (readStep a r off sl s).atDelay = s.atDelay := by
  simp [readStep]
@[simp] theorem State.readStep_lastTaken (s : State) (a : Agent) (r : Region) (off : Nat) (sl : Slot) : (readStep a r off sl s).lastTaken = s.lastTaken := by
  simp [readStep]
@[simp] theorem State.readStep_mem (s : State) (a : Agent) (r : Region) (off : Nat) (sl : Slot) (r' : Region) : (readStep a r off sl s).mem r' = s.mem r' := by
  simp [readStep]
@[simp] theorem State.readStep_isIsr (s : State) (a : Agent) (r : Region) (off : Nat) (sl : Slot) (r' : Region) (x : Nat) : (readStep a r off sl s).isIsr r' x = s.isIsr r' x :=
  State.isIsr_congr (by simp) r' x
@[simp] theorem State.readStep_isPm (s : State) (a : Agent) (r : Region) (off : Nat) (sl : Slot) (r' : Region) (x : Nat) : (readStep a r off sl s).isPm r' x = s.isPm r' x :=
  State.isPm_congr (by simp) r' x
@[simp] theorem State.readStep_inaccessible (s : State) (a : Agent) (r : Region) (off : Nat) (sl : Slot) (r' : Region) (x : Nat) :
    (readStep a r off sl s).inaccessible r' x = s.inaccessible r' x :=
  State.inaccessible_congr (by simp) (by simp) (by simp) (by simp) r' x
@[simp] theorem State.readStep_stored (s : State) (a : Agent) (r : Region) (off : Nat) (sl : Slot) (r' : Region) (x : Nat) : (readStep a r off sl s).stored r' x = s.stored r' x :=
  State.stored_congr (by simp) (by simp) (by simp) r' x
@[simp] theorem State.readStep_word (s : State) (a : Agent) (r : Region) (off : Nat) (sl : Slot) (r' : Region) (x : Nat) : (readStep a r off sl s).word r' x = s.word r' x :=
  State.word_congr (by simp) (by simp) (by simp) (by simp) r' x
@[simp] theorem State.readStep_isrWord (s : State) (a : Agent) (r : Region) (off : Nat) (sl : Slot) (x : Word) : (readStep a r off sl s).isrWord x = s.isrWord x :=
  State.isrWord_congr (by simp) (by simp) x

/-! ## Writes -/

@[simp] theorem State.setStored_cfg (s : State) (r : Region) (off : Nat) (v : Word) : (s.setStored r off v).cfg = s.cfg := by
  unfold State.setStored; split <;> simp
@[simp] theorem State.setStored_attached (s : State) (r : Region) (off : Nat) (v : Word) : (s.setStored r off v).attached = s.attached := by
  unfold State.setStored; split <;> simp
@[simp] theorem State.setStored_ctx (s : State) (r : Region) (off : Nat) (v : Word) : (s.setStored r off v).ctx = s.ctx := by
  unfold State.setStored; split <;> simp
@[simp] theorem State.setStored_host (s : State) (r : Region) (off : Nat) (v : Word) : (s.setStored r off v).host = s.host := by
  unfold State.setStored; split <;> simp
@[simp] theorem State.setStored_irq (s : State) (r : Region) (off : Nat) (v : Word) : (s.setStored r off v).irq = s.irq := by
  unfold State.setStored; split <;> simp
@[simp] theorem State.setStored_worker (s : State) (r : Region) (off : Nat) (v : Word) : (s.setStored r off v).worker = s.worker := by
  unfold State.setStored; split <;> simp
@[simp] theorem State.setStored_halt (s : State) (r : Region) (off : Nat) (v : Word) : (s.setStored r off v).halt = s.halt := by
  unfold State.setStored; split <;> simp
@[simp] theorem State.setStored_irqRet (s : State) (r : Region) (off : Nat) (v : Word) : (s.setStored r off v).irqRet = s.irqRet := by
  unfold State.setStored; split <;> simp
@[simp] theorem State.setStored_pwr (s : State) (r : Region) (off : Nat) (v : Word) : (s.setStored r off v).pwr = s.pwr := by
  unfold State.setStored; split <;> simp
@[simp] theorem State.setStored_deferPending (s : State) (r : Region) (off : Nat) (v : Word) : (s.setStored r off v).deferPending = s.deferPending := by
  unfold State.setStored; split <;> simp
@[simp] theorem State.setStored_lock (s : State) (r : Region) (off : Nat) (v : Word) : (s.setStored r off v).lock = s.lock := by
  unfold State.setStored; split <;> simp
@[simp] theorem State.setStored_pmhw (s : State) (r : Region) (off : Nat) (v : Word) : (s.setStored r off v).pmhw = s.pmhw := by
  unfold State.setStored; split <;> simp
@[simp] theorem State.setStored_hm (s : State) (r : Region) (off : Nat) (v : Word) : (s.setStored r off v).hm = s.hm := by
  unfold State.setStored; split <;> simp
@[simp] theorem State.setStored_gated (s : State) (r : Region) (off : Nat) (v : Word) : (s.setStored r off v).gated = s.gated := by
  unfold State.setStored; split <;> simp
@[simp] theorem State.setStored_d0Confirmed (s : State) (r : Region) (off : Nat) (v : Word) : (s.setStored r off v).d0Confirmed = s.d0Confirmed := by
  unfold State.setStored; split <;> simp
@[simp] theorem State.setStored_d0Requested (s : State) (r : Region) (off : Nat) (v : Word) : (s.setStored r off v).d0Requested = s.d0Requested := by
  unfold State.setStored; split <;> simp
@[simp] theorem State.setStored_elapsed (s : State) (r : Region) (off : Nat) (v : Word) : (s.setStored r off v).elapsed = s.elapsed := by
  unfold State.setStored; split <;> simp
@[simp] theorem State.setStored_events (s : State) (r : Region) (off : Nat) (v : Word) : (s.setStored r off v).events = s.events := by
  unfold State.setStored; split <;> simp
@[simp] theorem State.setStored_bus (s : State) (r : Region) (off : Nat) (v : Word) : (s.setStored r off v).bus = s.bus := by
  unfold State.setStored; split <;> simp
@[simp] theorem State.setStored_draws (s : State) (r : Region) (off : Nat) (v : Word) : (s.setStored r off v).draws = s.draws := by
  unfold State.setStored; split <;> simp
@[simp] theorem State.setStored_port (s : State) (r : Region) (off : Nat) (v : Word) : (s.setStored r off v).port = s.port := by
  unfold State.setStored; split <;> simp
@[simp] theorem State.setStored_presenter (s : State) (r : Region) (off : Nat) (v : Word) : (s.setStored r off v).presenter = s.presenter := by
  unfold State.setStored; split <;> simp
@[simp] theorem State.setStored_replyCalls (s : State) (r : Region) (off : Nat) (v : Word) : (s.setStored r off v).replyCalls = s.replyCalls := by
  unfold State.setStored; split <;> simp
@[simp] theorem State.setStored_msgCalls (s : State) (r : Region) (off : Nat) (v : Word) : (s.setStored r off v).msgCalls = s.msgCalls := by
  unfold State.setStored; split <;> simp
@[simp] theorem State.setStored_atDelay (s : State) (r : Region) (off : Nat) (v : Word) : (s.setStored r off v).atDelay = s.atDelay := by
  unfold State.setStored; split <;> simp
@[simp] theorem State.setStored_lastTaken (s : State) (r : Region) (off : Nat) (v : Word) : (s.setStored r off v).lastTaken = s.lastTaken := by
  unfold State.setStored; split <;> simp
@[simp] theorem State.setStored_ex (s : State) (r : Region) (off : Nat) (v : Word) (b : Agent) : (s.setStored r off v).ex b = s.ex b := by
  unfold State.setStored; split <;> simp
@[simp] theorem State.setStored_loc (s : State) (r : Region) (off : Nat) (v : Word) (b : Agent) : (s.setStored r off v).loc b = s.loc b := by
  unfold State.setStored; split <;> simp
@[simp] theorem State.store_cfg (s : State) (r : Region) (off : Nat) (v : Word) : (s.store r off v).cfg = s.cfg := by
  unfold State.store; split <;> simp
@[simp] theorem State.store_attached (s : State) (r : Region) (off : Nat) (v : Word) : (s.store r off v).attached = s.attached := by
  unfold State.store; split <;> simp
@[simp] theorem State.store_ctx (s : State) (r : Region) (off : Nat) (v : Word) : (s.store r off v).ctx = s.ctx := by
  unfold State.store; split <;> simp
@[simp] theorem State.store_host (s : State) (r : Region) (off : Nat) (v : Word) : (s.store r off v).host = s.host := by
  unfold State.store; split <;> simp
@[simp] theorem State.store_irq (s : State) (r : Region) (off : Nat) (v : Word) : (s.store r off v).irq = s.irq := by
  unfold State.store; split <;> simp
@[simp] theorem State.store_worker (s : State) (r : Region) (off : Nat) (v : Word) : (s.store r off v).worker = s.worker := by
  unfold State.store; split <;> simp
@[simp] theorem State.store_halt (s : State) (r : Region) (off : Nat) (v : Word) : (s.store r off v).halt = s.halt := by
  unfold State.store; split <;> simp
@[simp] theorem State.store_irqRet (s : State) (r : Region) (off : Nat) (v : Word) : (s.store r off v).irqRet = s.irqRet := by
  unfold State.store; split <;> simp
@[simp] theorem State.store_pwr (s : State) (r : Region) (off : Nat) (v : Word) : (s.store r off v).pwr = s.pwr := by
  unfold State.store; split <;> simp
@[simp] theorem State.store_deferPending (s : State) (r : Region) (off : Nat) (v : Word) : (s.store r off v).deferPending = s.deferPending := by
  unfold State.store; split <;> simp
@[simp] theorem State.store_lock (s : State) (r : Region) (off : Nat) (v : Word) : (s.store r off v).lock = s.lock := by
  unfold State.store; split <;> simp
@[simp] theorem State.store_pmhw (s : State) (r : Region) (off : Nat) (v : Word) : (s.store r off v).pmhw = s.pmhw := by
  unfold State.store; split <;> simp
@[simp] theorem State.store_hm (s : State) (r : Region) (off : Nat) (v : Word) : (s.store r off v).hm = s.hm := by
  unfold State.store; split <;> simp
@[simp] theorem State.store_gated (s : State) (r : Region) (off : Nat) (v : Word) : (s.store r off v).gated = s.gated := by
  unfold State.store; split <;> simp
@[simp] theorem State.store_d0Confirmed (s : State) (r : Region) (off : Nat) (v : Word) : (s.store r off v).d0Confirmed = s.d0Confirmed := by
  unfold State.store; split <;> simp
@[simp] theorem State.store_d0Requested (s : State) (r : Region) (off : Nat) (v : Word) : (s.store r off v).d0Requested = s.d0Requested := by
  unfold State.store; split <;> simp
@[simp] theorem State.store_elapsed (s : State) (r : Region) (off : Nat) (v : Word) : (s.store r off v).elapsed = s.elapsed := by
  unfold State.store; split <;> simp
@[simp] theorem State.store_events (s : State) (r : Region) (off : Nat) (v : Word) : (s.store r off v).events = s.events := by
  unfold State.store; split <;> simp
@[simp] theorem State.store_bus (s : State) (r : Region) (off : Nat) (v : Word) : (s.store r off v).bus = s.bus := by
  unfold State.store; split <;> simp
@[simp] theorem State.store_draws (s : State) (r : Region) (off : Nat) (v : Word) : (s.store r off v).draws = s.draws := by
  unfold State.store; split <;> simp
@[simp] theorem State.store_port (s : State) (r : Region) (off : Nat) (v : Word) : (s.store r off v).port = s.port := by
  unfold State.store; split <;> simp
@[simp] theorem State.store_presenter (s : State) (r : Region) (off : Nat) (v : Word) : (s.store r off v).presenter = s.presenter := by
  unfold State.store; split <;> simp
@[simp] theorem State.store_replyCalls (s : State) (r : Region) (off : Nat) (v : Word) : (s.store r off v).replyCalls = s.replyCalls := by
  unfold State.store; split <;> simp
@[simp] theorem State.store_msgCalls (s : State) (r : Region) (off : Nat) (v : Word) : (s.store r off v).msgCalls = s.msgCalls := by
  unfold State.store; split <;> simp
@[simp] theorem State.store_atDelay (s : State) (r : Region) (off : Nat) (v : Word) : (s.store r off v).atDelay = s.atDelay := by
  unfold State.store; split <;> simp
@[simp] theorem State.store_lastTaken (s : State) (r : Region) (off : Nat) (v : Word) : (s.store r off v).lastTaken = s.lastTaken := by
  unfold State.store; split <;> simp
@[simp] theorem State.store_ex (s : State) (r : Region) (off : Nat) (v : Word) (b : Agent) : (s.store r off v).ex b = s.ex b := by
  unfold State.store; split <;> simp
@[simp] theorem State.store_loc (s : State) (r : Region) (off : Nat) (v : Word) (b : Agent) : (s.store r off v).loc b = s.loc b := by
  unfold State.store; split <;> simp
@[simp] theorem State.store_isIsr (s : State) (r : Region) (off : Nat) (v : Word) (r' : Region) (x : Nat) : (s.store r off v).isIsr r' x = s.isIsr r' x :=
  State.isIsr_congr (by simp) r' x
@[simp] theorem State.store_isPm (s : State) (r : Region) (off : Nat) (v : Word) (r' : Region) (x : Nat) : (s.store r off v).isPm r' x = s.isPm r' x :=
  State.isPm_congr (by simp) r' x
@[simp] theorem State.store_inaccessible (s : State) (r : Region) (off : Nat) (v : Word) (r' : Region) (x : Nat) :
    (s.store r off v).inaccessible r' x = s.inaccessible r' x :=
  State.inaccessible_congr (by simp) (by simp) (by simp) (by simp) r' x
/-- A `Write32` changes the storage of the device alone. -/
theorem State.store_eq_storage (s : State) (r : Region) (off : Nat) (v : Word) :
    s.store r off v = { s with regs := (s.store r off v).regs, readySent := (s.store r off v).readySent,
                               fw := (s.store r off v).fw, replyBox := (s.store r off v).replyBox,
                               dspMem := (s.store r off v).dspMem, compMem := (s.store r off v).compMem } := by
  unfold State.store State.setStored
  split
  · rfl
  · split
    · unfold State.setReg; split <;> rfl
    · cases r <;> rfl

/-- A write that may be dropped is the write or nothing. -/
theorem State.storeIf_eq (s : State) (b : Bool) (r : Region) (off : Nat) (v : Word) :
    s.storeIf b r off v = if b then s.store r off v else s := by
  cases b
  · rfl
  · exact (s.store_eq_storage r off v).symm

/-- A write on the bus in its cases (U6). -/
theorem State.busWrite_cases (s : State) (r : Region) (off : Nat) (v : Word) :
    s.busWrite r off v = if s.inaccessible r off then (if s.draw.1.getLsbD 0 then s.draw.2.store r off v else s.draw.2)
      else s.store r off v := by
  rw [State.busWrite, State.storeIf_eq]

@[simp] theorem State.busWrite_cfg (s : State) (r : Region) (off : Nat) (v : Word) : (s.busWrite r off v).cfg = s.cfg := by
  rw [State.busWrite_cases]; split <;> (try split) <;> simp
@[simp] theorem State.busWrite_attached (s : State) (r : Region) (off : Nat) (v : Word) : (s.busWrite r off v).attached = s.attached := by
  rw [State.busWrite_cases]; split <;> (try split) <;> simp
@[simp] theorem State.busWrite_ctx (s : State) (r : Region) (off : Nat) (v : Word) : (s.busWrite r off v).ctx = s.ctx := by
  rw [State.busWrite_cases]; split <;> (try split) <;> simp
@[simp] theorem State.busWrite_host (s : State) (r : Region) (off : Nat) (v : Word) : (s.busWrite r off v).host = s.host := by
  rw [State.busWrite_cases]; split <;> (try split) <;> simp
@[simp] theorem State.busWrite_irq (s : State) (r : Region) (off : Nat) (v : Word) : (s.busWrite r off v).irq = s.irq := by
  rw [State.busWrite_cases]; split <;> (try split) <;> simp
@[simp] theorem State.busWrite_worker (s : State) (r : Region) (off : Nat) (v : Word) : (s.busWrite r off v).worker = s.worker := by
  rw [State.busWrite_cases]; split <;> (try split) <;> simp
@[simp] theorem State.busWrite_halt (s : State) (r : Region) (off : Nat) (v : Word) : (s.busWrite r off v).halt = s.halt := by
  rw [State.busWrite_cases]; split <;> (try split) <;> simp
@[simp] theorem State.busWrite_irqRet (s : State) (r : Region) (off : Nat) (v : Word) : (s.busWrite r off v).irqRet = s.irqRet := by
  rw [State.busWrite_cases]; split <;> (try split) <;> simp
@[simp] theorem State.busWrite_pwr (s : State) (r : Region) (off : Nat) (v : Word) : (s.busWrite r off v).pwr = s.pwr := by
  rw [State.busWrite_cases]; split <;> (try split) <;> simp
@[simp] theorem State.busWrite_deferPending (s : State) (r : Region) (off : Nat) (v : Word) : (s.busWrite r off v).deferPending = s.deferPending := by
  rw [State.busWrite_cases]; split <;> (try split) <;> simp
@[simp] theorem State.busWrite_lock (s : State) (r : Region) (off : Nat) (v : Word) : (s.busWrite r off v).lock = s.lock := by
  rw [State.busWrite_cases]; split <;> (try split) <;> simp
@[simp] theorem State.busWrite_pmhw (s : State) (r : Region) (off : Nat) (v : Word) : (s.busWrite r off v).pmhw = s.pmhw := by
  rw [State.busWrite_cases]; split <;> (try split) <;> simp
@[simp] theorem State.busWrite_hm (s : State) (r : Region) (off : Nat) (v : Word) : (s.busWrite r off v).hm = s.hm := by
  rw [State.busWrite_cases]; split <;> (try split) <;> simp
@[simp] theorem State.busWrite_gated (s : State) (r : Region) (off : Nat) (v : Word) : (s.busWrite r off v).gated = s.gated := by
  rw [State.busWrite_cases]; split <;> (try split) <;> simp
@[simp] theorem State.busWrite_d0Confirmed (s : State) (r : Region) (off : Nat) (v : Word) : (s.busWrite r off v).d0Confirmed = s.d0Confirmed := by
  rw [State.busWrite_cases]; split <;> (try split) <;> simp
@[simp] theorem State.busWrite_d0Requested (s : State) (r : Region) (off : Nat) (v : Word) : (s.busWrite r off v).d0Requested = s.d0Requested := by
  rw [State.busWrite_cases]; split <;> (try split) <;> simp
@[simp] theorem State.busWrite_elapsed (s : State) (r : Region) (off : Nat) (v : Word) : (s.busWrite r off v).elapsed = s.elapsed := by
  rw [State.busWrite_cases]; split <;> (try split) <;> simp
@[simp] theorem State.busWrite_events (s : State) (r : Region) (off : Nat) (v : Word) : (s.busWrite r off v).events = s.events := by
  rw [State.busWrite_cases]; split <;> (try split) <;> simp
@[simp] theorem State.busWrite_bus (s : State) (r : Region) (off : Nat) (v : Word) : (s.busWrite r off v).bus = s.bus := by
  rw [State.busWrite_cases]; split <;> (try split) <;> simp
@[simp] theorem State.busWrite_port (s : State) (r : Region) (off : Nat) (v : Word) : (s.busWrite r off v).port = s.port := by
  rw [State.busWrite_cases]; split <;> (try split) <;> simp
@[simp] theorem State.busWrite_presenter (s : State) (r : Region) (off : Nat) (v : Word) : (s.busWrite r off v).presenter = s.presenter := by
  rw [State.busWrite_cases]; split <;> (try split) <;> simp
@[simp] theorem State.busWrite_replyCalls (s : State) (r : Region) (off : Nat) (v : Word) : (s.busWrite r off v).replyCalls = s.replyCalls := by
  rw [State.busWrite_cases]; split <;> (try split) <;> simp
@[simp] theorem State.busWrite_msgCalls (s : State) (r : Region) (off : Nat) (v : Word) : (s.busWrite r off v).msgCalls = s.msgCalls := by
  rw [State.busWrite_cases]; split <;> (try split) <;> simp
@[simp] theorem State.busWrite_atDelay (s : State) (r : Region) (off : Nat) (v : Word) : (s.busWrite r off v).atDelay = s.atDelay := by
  rw [State.busWrite_cases]; split <;> (try split) <;> simp
@[simp] theorem State.busWrite_lastTaken (s : State) (r : Region) (off : Nat) (v : Word) : (s.busWrite r off v).lastTaken = s.lastTaken := by
  rw [State.busWrite_cases]; split <;> (try split) <;> simp
@[simp] theorem State.busWrite_ex (s : State) (r : Region) (off : Nat) (v : Word) (b : Agent) : (s.busWrite r off v).ex b = s.ex b := by
  rw [State.busWrite_cases]; split <;> (try split) <;> simp
@[simp] theorem State.busWrite_loc (s : State) (r : Region) (off : Nat) (v : Word) (b : Agent) : (s.busWrite r off v).loc b = s.loc b := by
  rw [State.busWrite_cases]; split <;> (try split) <;> simp
@[simp] theorem State.busWrite_isIsr (s : State) (r : Region) (off : Nat) (v : Word) (r' : Region) (x : Nat) : (s.busWrite r off v).isIsr r' x = s.isIsr r' x :=
  State.isIsr_congr (by simp) r' x
@[simp] theorem State.busWrite_isPm (s : State) (r : Region) (off : Nat) (v : Word) (r' : Region) (x : Nat) : (s.busWrite r off v).isPm r' x = s.isPm r' x :=
  State.isPm_congr (by simp) r' x
@[simp] theorem State.busWrite_inaccessible (s : State) (r : Region) (off : Nat) (v : Word) (r' : Region) (x : Nat) :
    (s.busWrite r off v).inaccessible r' x = s.inaccessible r' x :=
  State.inaccessible_congr (by simp) (by simp) (by simp) (by simp) r' x
@[simp] theorem State.write32_cfg (s : State) (a : Agent) (r : Region) (off : Nat) (v : Word) : (s.write32 a r off v).cfg = s.cfg := by
  simp [State.write32]
@[simp] theorem State.write32_attached (s : State) (a : Agent) (r : Region) (off : Nat) (v : Word) : (s.write32 a r off v).attached = s.attached := by
  simp [State.write32]
@[simp] theorem State.write32_ctx (s : State) (a : Agent) (r : Region) (off : Nat) (v : Word) : (s.write32 a r off v).ctx = s.ctx := by
  simp [State.write32]
@[simp] theorem State.write32_host (s : State) (a : Agent) (r : Region) (off : Nat) (v : Word) : (s.write32 a r off v).host = s.host := by
  simp [State.write32]
@[simp] theorem State.write32_irq (s : State) (a : Agent) (r : Region) (off : Nat) (v : Word) : (s.write32 a r off v).irq = s.irq := by
  simp [State.write32]
@[simp] theorem State.write32_worker (s : State) (a : Agent) (r : Region) (off : Nat) (v : Word) : (s.write32 a r off v).worker = s.worker := by
  simp [State.write32]
@[simp] theorem State.write32_halt (s : State) (a : Agent) (r : Region) (off : Nat) (v : Word) : (s.write32 a r off v).halt = s.halt := by
  simp [State.write32]
@[simp] theorem State.write32_irqRet (s : State) (a : Agent) (r : Region) (off : Nat) (v : Word) : (s.write32 a r off v).irqRet = s.irqRet := by
  simp [State.write32]
@[simp] theorem State.write32_pwr (s : State) (a : Agent) (r : Region) (off : Nat) (v : Word) : (s.write32 a r off v).pwr = s.pwr := by
  simp [State.write32]
@[simp] theorem State.write32_deferPending (s : State) (a : Agent) (r : Region) (off : Nat) (v : Word) : (s.write32 a r off v).deferPending = s.deferPending := by
  simp [State.write32]
@[simp] theorem State.write32_lock (s : State) (a : Agent) (r : Region) (off : Nat) (v : Word) : (s.write32 a r off v).lock = s.lock := by
  simp [State.write32]
@[simp] theorem State.write32_pmhw (s : State) (a : Agent) (r : Region) (off : Nat) (v : Word) : (s.write32 a r off v).pmhw = s.pmhw := by
  simp [State.write32]
@[simp] theorem State.write32_hm (s : State) (a : Agent) (r : Region) (off : Nat) (v : Word) : (s.write32 a r off v).hm = s.hm := by
  simp [State.write32]
@[simp] theorem State.write32_gated (s : State) (a : Agent) (r : Region) (off : Nat) (v : Word) : (s.write32 a r off v).gated = s.gated := by
  simp [State.write32]
@[simp] theorem State.write32_d0Confirmed (s : State) (a : Agent) (r : Region) (off : Nat) (v : Word) : (s.write32 a r off v).d0Confirmed = s.d0Confirmed := by
  simp [State.write32]
@[simp] theorem State.write32_d0Requested (s : State) (a : Agent) (r : Region) (off : Nat) (v : Word) : (s.write32 a r off v).d0Requested = s.d0Requested := by
  simp [State.write32]
@[simp] theorem State.write32_elapsed (s : State) (a : Agent) (r : Region) (off : Nat) (v : Word) : (s.write32 a r off v).elapsed = s.elapsed := by
  simp [State.write32]
@[simp] theorem State.write32_events (s : State) (a : Agent) (r : Region) (off : Nat) (v : Word) : (s.write32 a r off v).events = s.events := by
  simp [State.write32]
@[simp] theorem State.write32_port (s : State) (a : Agent) (r : Region) (off : Nat) (v : Word) : (s.write32 a r off v).port = s.port := by
  simp [State.write32]
@[simp] theorem State.write32_presenter (s : State) (a : Agent) (r : Region) (off : Nat) (v : Word) : (s.write32 a r off v).presenter = s.presenter := by
  simp [State.write32]
@[simp] theorem State.write32_replyCalls (s : State) (a : Agent) (r : Region) (off : Nat) (v : Word) : (s.write32 a r off v).replyCalls = s.replyCalls := by
  simp [State.write32]
@[simp] theorem State.write32_msgCalls (s : State) (a : Agent) (r : Region) (off : Nat) (v : Word) : (s.write32 a r off v).msgCalls = s.msgCalls := by
  simp [State.write32]
@[simp] theorem State.write32_atDelay (s : State) (a : Agent) (r : Region) (off : Nat) (v : Word) : (s.write32 a r off v).atDelay = s.atDelay := by
  simp [State.write32]
@[simp] theorem State.write32_lastTaken (s : State) (a : Agent) (r : Region) (off : Nat) (v : Word) : (s.write32 a r off v).lastTaken = s.lastTaken := by
  simp [State.write32]
@[simp] theorem State.write32_ex (s : State) (a : Agent) (r : Region) (off : Nat) (v : Word) (b : Agent) : (s.write32 a r off v).ex b = s.ex b := by
  simp [State.write32]
@[simp] theorem State.write32_loc (s : State) (a : Agent) (r : Region) (off : Nat) (v : Word) (b : Agent) : (s.write32 a r off v).loc b = s.loc b := by
  simp [State.write32]
@[simp] theorem State.write32_isIsr (s : State) (a : Agent) (r : Region) (off : Nat) (v : Word) (r' : Region) (x : Nat) : (s.write32 a r off v).isIsr r' x = s.isIsr r' x :=
  State.isIsr_congr (by simp) r' x
@[simp] theorem State.write32_isPm (s : State) (a : Agent) (r : Region) (off : Nat) (v : Word) (r' : Region) (x : Nat) : (s.write32 a r off v).isPm r' x = s.isPm r' x :=
  State.isPm_congr (by simp) r' x
@[simp] theorem State.write32_inaccessible (s : State) (a : Agent) (r : Region) (off : Nat) (v : Word) (r' : Region) (x : Nat) :
    (s.write32 a r off v).inaccessible r' x = s.inaccessible r' x :=
  State.inaccessible_congr (by simp) (by simp) (by simp) (by simp) r' x
@[simp] theorem State.mergeStep_cfg (s : State) (a : Agent) (r : Region) (off : Nat) (m v : Word) : (mergeStep a r off m v s).cfg = s.cfg := by
  simp [mergeStep]
@[simp] theorem State.mergeStep_attached (s : State) (a : Agent) (r : Region) (off : Nat) (m v : Word) : (mergeStep a r off m v s).attached = s.attached := by
  simp [mergeStep]
@[simp] theorem State.mergeStep_ctx (s : State) (a : Agent) (r : Region) (off : Nat) (m v : Word) : (mergeStep a r off m v s).ctx = s.ctx := by
  simp [mergeStep]
@[simp] theorem State.mergeStep_host (s : State) (a : Agent) (r : Region) (off : Nat) (m v : Word) : (mergeStep a r off m v s).host = s.host := by
  simp [mergeStep]
@[simp] theorem State.mergeStep_irq (s : State) (a : Agent) (r : Region) (off : Nat) (m v : Word) : (mergeStep a r off m v s).irq = s.irq := by
  simp [mergeStep]
@[simp] theorem State.mergeStep_worker (s : State) (a : Agent) (r : Region) (off : Nat) (m v : Word) : (mergeStep a r off m v s).worker = s.worker := by
  simp [mergeStep]
@[simp] theorem State.mergeStep_halt (s : State) (a : Agent) (r : Region) (off : Nat) (m v : Word) : (mergeStep a r off m v s).halt = s.halt := by
  simp [mergeStep]
@[simp] theorem State.mergeStep_irqRet (s : State) (a : Agent) (r : Region) (off : Nat) (m v : Word) : (mergeStep a r off m v s).irqRet = s.irqRet := by
  simp [mergeStep]
@[simp] theorem State.mergeStep_pwr (s : State) (a : Agent) (r : Region) (off : Nat) (m v : Word) : (mergeStep a r off m v s).pwr = s.pwr := by
  simp [mergeStep]
@[simp] theorem State.mergeStep_deferPending (s : State) (a : Agent) (r : Region) (off : Nat) (m v : Word) : (mergeStep a r off m v s).deferPending = s.deferPending := by
  simp [mergeStep]
@[simp] theorem State.mergeStep_lock (s : State) (a : Agent) (r : Region) (off : Nat) (m v : Word) : (mergeStep a r off m v s).lock = s.lock := by
  simp [mergeStep]
@[simp] theorem State.mergeStep_pmhw (s : State) (a : Agent) (r : Region) (off : Nat) (m v : Word) : (mergeStep a r off m v s).pmhw = s.pmhw := by
  simp [mergeStep]
@[simp] theorem State.mergeStep_hm (s : State) (a : Agent) (r : Region) (off : Nat) (m v : Word) : (mergeStep a r off m v s).hm = s.hm := by
  simp [mergeStep]
@[simp] theorem State.mergeStep_gated (s : State) (a : Agent) (r : Region) (off : Nat) (m v : Word) : (mergeStep a r off m v s).gated = s.gated := by
  simp [mergeStep]
@[simp] theorem State.mergeStep_d0Confirmed (s : State) (a : Agent) (r : Region) (off : Nat) (m v : Word) : (mergeStep a r off m v s).d0Confirmed = s.d0Confirmed := by
  simp [mergeStep]
@[simp] theorem State.mergeStep_d0Requested (s : State) (a : Agent) (r : Region) (off : Nat) (m v : Word) : (mergeStep a r off m v s).d0Requested = s.d0Requested := by
  simp [mergeStep]
@[simp] theorem State.mergeStep_elapsed (s : State) (a : Agent) (r : Region) (off : Nat) (m v : Word) : (mergeStep a r off m v s).elapsed = s.elapsed := by
  simp [mergeStep]
@[simp] theorem State.mergeStep_events (s : State) (a : Agent) (r : Region) (off : Nat) (m v : Word) : (mergeStep a r off m v s).events = s.events := by
  simp [mergeStep]
@[simp] theorem State.mergeStep_port (s : State) (a : Agent) (r : Region) (off : Nat) (m v : Word) : (mergeStep a r off m v s).port = s.port := by
  simp [mergeStep]
@[simp] theorem State.mergeStep_presenter (s : State) (a : Agent) (r : Region) (off : Nat) (m v : Word) : (mergeStep a r off m v s).presenter = s.presenter := by
  simp [mergeStep]
@[simp] theorem State.mergeStep_replyCalls (s : State) (a : Agent) (r : Region) (off : Nat) (m v : Word) : (mergeStep a r off m v s).replyCalls = s.replyCalls := by
  simp [mergeStep]
@[simp] theorem State.mergeStep_msgCalls (s : State) (a : Agent) (r : Region) (off : Nat) (m v : Word) : (mergeStep a r off m v s).msgCalls = s.msgCalls := by
  simp [mergeStep]
@[simp] theorem State.mergeStep_atDelay (s : State) (a : Agent) (r : Region) (off : Nat) (m v : Word) : (mergeStep a r off m v s).atDelay = s.atDelay := by
  simp [mergeStep]
@[simp] theorem State.mergeStep_lastTaken (s : State) (a : Agent) (r : Region) (off : Nat) (m v : Word) : (mergeStep a r off m v s).lastTaken = s.lastTaken := by
  simp [mergeStep]
@[simp] theorem State.mergeStep_ex (s : State) (a : Agent) (r : Region) (off : Nat) (m v : Word) (b : Agent) : (mergeStep a r off m v s).ex b = s.ex b := by
  simp [mergeStep]
@[simp] theorem State.mergeStep_loc (s : State) (a : Agent) (r : Region) (off : Nat) (m v : Word) (b : Agent) : (mergeStep a r off m v s).loc b = s.loc b := by
  simp [mergeStep]
@[simp] theorem State.mergeStep_isIsr (s : State) (a : Agent) (r : Region) (off : Nat) (m v : Word) (r' : Region) (x : Nat) : (mergeStep a r off m v s).isIsr r' x = s.isIsr r' x :=
  State.isIsr_congr (by simp) r' x
@[simp] theorem State.mergeStep_isPm (s : State) (a : Agent) (r : Region) (off : Nat) (m v : Word) (r' : Region) (x : Nat) : (mergeStep a r off m v s).isPm r' x = s.isPm r' x :=
  State.isPm_congr (by simp) r' x
@[simp] theorem State.mergeStep_inaccessible (s : State) (a : Agent) (r : Region) (off : Nat) (m v : Word) (r' : Region) (x : Nat) :
    (mergeStep a r off m v s).inaccessible r' x = s.inaccessible r' x :=
  State.inaccessible_congr (by simp) (by simp) (by simp) (by simp) r' x
@[simp] theorem State.groupUnit_cfg (s : State) (a : Agent) (r : Region) (off h k : Nat) : (groupUnit a r off h k s).cfg = s.cfg := by
  simp [groupUnit]
@[simp] theorem State.groupUnit_attached (s : State) (a : Agent) (r : Region) (off h k : Nat) : (groupUnit a r off h k s).attached = s.attached := by
  simp [groupUnit]
@[simp] theorem State.groupUnit_ctx (s : State) (a : Agent) (r : Region) (off h k : Nat) : (groupUnit a r off h k s).ctx = s.ctx := by
  simp [groupUnit]
@[simp] theorem State.groupUnit_host (s : State) (a : Agent) (r : Region) (off h k : Nat) : (groupUnit a r off h k s).host = s.host := by
  simp [groupUnit]
@[simp] theorem State.groupUnit_irq (s : State) (a : Agent) (r : Region) (off h k : Nat) : (groupUnit a r off h k s).irq = s.irq := by
  simp [groupUnit]
@[simp] theorem State.groupUnit_worker (s : State) (a : Agent) (r : Region) (off h k : Nat) : (groupUnit a r off h k s).worker = s.worker := by
  simp [groupUnit]
@[simp] theorem State.groupUnit_halt (s : State) (a : Agent) (r : Region) (off h k : Nat) : (groupUnit a r off h k s).halt = s.halt := by
  simp [groupUnit]
@[simp] theorem State.groupUnit_irqRet (s : State) (a : Agent) (r : Region) (off h k : Nat) : (groupUnit a r off h k s).irqRet = s.irqRet := by
  simp [groupUnit]
@[simp] theorem State.groupUnit_pwr (s : State) (a : Agent) (r : Region) (off h k : Nat) : (groupUnit a r off h k s).pwr = s.pwr := by
  simp [groupUnit]
@[simp] theorem State.groupUnit_deferPending (s : State) (a : Agent) (r : Region) (off h k : Nat) : (groupUnit a r off h k s).deferPending = s.deferPending := by
  simp [groupUnit]
@[simp] theorem State.groupUnit_lock (s : State) (a : Agent) (r : Region) (off h k : Nat) : (groupUnit a r off h k s).lock = s.lock := by
  simp [groupUnit]
@[simp] theorem State.groupUnit_pmhw (s : State) (a : Agent) (r : Region) (off h k : Nat) : (groupUnit a r off h k s).pmhw = s.pmhw := by
  simp [groupUnit]
@[simp] theorem State.groupUnit_hm (s : State) (a : Agent) (r : Region) (off h k : Nat) : (groupUnit a r off h k s).hm = s.hm := by
  simp [groupUnit]
@[simp] theorem State.groupUnit_gated (s : State) (a : Agent) (r : Region) (off h k : Nat) : (groupUnit a r off h k s).gated = s.gated := by
  simp [groupUnit]
@[simp] theorem State.groupUnit_d0Confirmed (s : State) (a : Agent) (r : Region) (off h k : Nat) : (groupUnit a r off h k s).d0Confirmed = s.d0Confirmed := by
  simp [groupUnit]
@[simp] theorem State.groupUnit_d0Requested (s : State) (a : Agent) (r : Region) (off h k : Nat) : (groupUnit a r off h k s).d0Requested = s.d0Requested := by
  simp [groupUnit]
@[simp] theorem State.groupUnit_elapsed (s : State) (a : Agent) (r : Region) (off h k : Nat) : (groupUnit a r off h k s).elapsed = s.elapsed := by
  simp [groupUnit]
@[simp] theorem State.groupUnit_events (s : State) (a : Agent) (r : Region) (off h k : Nat) : (groupUnit a r off h k s).events = s.events := by
  simp [groupUnit]
@[simp] theorem State.groupUnit_port (s : State) (a : Agent) (r : Region) (off h k : Nat) : (groupUnit a r off h k s).port = s.port := by
  simp [groupUnit]
@[simp] theorem State.groupUnit_presenter (s : State) (a : Agent) (r : Region) (off h k : Nat) : (groupUnit a r off h k s).presenter = s.presenter := by
  simp [groupUnit]
@[simp] theorem State.groupUnit_replyCalls (s : State) (a : Agent) (r : Region) (off h k : Nat) : (groupUnit a r off h k s).replyCalls = s.replyCalls := by
  simp [groupUnit]
@[simp] theorem State.groupUnit_msgCalls (s : State) (a : Agent) (r : Region) (off h k : Nat) : (groupUnit a r off h k s).msgCalls = s.msgCalls := by
  simp [groupUnit]
@[simp] theorem State.groupUnit_atDelay (s : State) (a : Agent) (r : Region) (off h k : Nat) : (groupUnit a r off h k s).atDelay = s.atDelay := by
  simp [groupUnit]
@[simp] theorem State.groupUnit_lastTaken (s : State) (a : Agent) (r : Region) (off h k : Nat) : (groupUnit a r off h k s).lastTaken = s.lastTaken := by
  simp [groupUnit]
@[simp] theorem State.groupUnit_ex (s : State) (a : Agent) (r : Region) (off h k : Nat) (b : Agent) : (groupUnit a r off h k s).ex b = s.ex b := by
  simp [groupUnit]
@[simp] theorem State.groupUnit_loc (s : State) (a : Agent) (r : Region) (off h k : Nat) (b : Agent) : (groupUnit a r off h k s).loc b = s.loc b := by
  simp [groupUnit]
@[simp] theorem State.groupUnit_isIsr (s : State) (a : Agent) (r : Region) (off h k : Nat) (r' : Region) (x : Nat) : (groupUnit a r off h k s).isIsr r' x = s.isIsr r' x :=
  State.isIsr_congr (by simp) r' x
@[simp] theorem State.groupUnit_isPm (s : State) (a : Agent) (r : Region) (off h k : Nat) (r' : Region) (x : Nat) : (groupUnit a r off h k s).isPm r' x = s.isPm r' x :=
  State.isPm_congr (by simp) r' x
@[simp] theorem State.groupUnit_inaccessible (s : State) (a : Agent) (r : Region) (off h k : Nat) (r' : Region) (x : Nat) :
    (groupUnit a r off h k s).inaccessible r' x = s.inaccessible r' x :=
  State.inaccessible_congr (by simp) (by simp) (by simp) (by simp) r' x
@[simp] theorem State.tailStep_cfg (s : State) (a : Agent) (r : Region) (off h n : Nat) : (tailStep a r off h n s).cfg = s.cfg := by
  unfold tailStep; split <;> simp
@[simp] theorem State.tailStep_attached (s : State) (a : Agent) (r : Region) (off h n : Nat) : (tailStep a r off h n s).attached = s.attached := by
  unfold tailStep; split <;> simp
@[simp] theorem State.tailStep_ctx (s : State) (a : Agent) (r : Region) (off h n : Nat) : (tailStep a r off h n s).ctx = s.ctx := by
  unfold tailStep; split <;> simp
@[simp] theorem State.tailStep_host (s : State) (a : Agent) (r : Region) (off h n : Nat) : (tailStep a r off h n s).host = s.host := by
  unfold tailStep; split <;> simp
@[simp] theorem State.tailStep_irq (s : State) (a : Agent) (r : Region) (off h n : Nat) : (tailStep a r off h n s).irq = s.irq := by
  unfold tailStep; split <;> simp
@[simp] theorem State.tailStep_worker (s : State) (a : Agent) (r : Region) (off h n : Nat) : (tailStep a r off h n s).worker = s.worker := by
  unfold tailStep; split <;> simp
@[simp] theorem State.tailStep_halt (s : State) (a : Agent) (r : Region) (off h n : Nat) : (tailStep a r off h n s).halt = s.halt := by
  unfold tailStep; split <;> simp
@[simp] theorem State.tailStep_irqRet (s : State) (a : Agent) (r : Region) (off h n : Nat) : (tailStep a r off h n s).irqRet = s.irqRet := by
  unfold tailStep; split <;> simp
@[simp] theorem State.tailStep_pwr (s : State) (a : Agent) (r : Region) (off h n : Nat) : (tailStep a r off h n s).pwr = s.pwr := by
  unfold tailStep; split <;> simp
@[simp] theorem State.tailStep_deferPending (s : State) (a : Agent) (r : Region) (off h n : Nat) : (tailStep a r off h n s).deferPending = s.deferPending := by
  unfold tailStep; split <;> simp
@[simp] theorem State.tailStep_lock (s : State) (a : Agent) (r : Region) (off h n : Nat) : (tailStep a r off h n s).lock = s.lock := by
  unfold tailStep; split <;> simp
@[simp] theorem State.tailStep_pmhw (s : State) (a : Agent) (r : Region) (off h n : Nat) : (tailStep a r off h n s).pmhw = s.pmhw := by
  unfold tailStep; split <;> simp
@[simp] theorem State.tailStep_hm (s : State) (a : Agent) (r : Region) (off h n : Nat) : (tailStep a r off h n s).hm = s.hm := by
  unfold tailStep; split <;> simp
@[simp] theorem State.tailStep_gated (s : State) (a : Agent) (r : Region) (off h n : Nat) : (tailStep a r off h n s).gated = s.gated := by
  unfold tailStep; split <;> simp
@[simp] theorem State.tailStep_d0Confirmed (s : State) (a : Agent) (r : Region) (off h n : Nat) : (tailStep a r off h n s).d0Confirmed = s.d0Confirmed := by
  unfold tailStep; split <;> simp
@[simp] theorem State.tailStep_d0Requested (s : State) (a : Agent) (r : Region) (off h n : Nat) : (tailStep a r off h n s).d0Requested = s.d0Requested := by
  unfold tailStep; split <;> simp
@[simp] theorem State.tailStep_elapsed (s : State) (a : Agent) (r : Region) (off h n : Nat) : (tailStep a r off h n s).elapsed = s.elapsed := by
  unfold tailStep; split <;> simp
@[simp] theorem State.tailStep_events (s : State) (a : Agent) (r : Region) (off h n : Nat) : (tailStep a r off h n s).events = s.events := by
  unfold tailStep; split <;> simp
@[simp] theorem State.tailStep_port (s : State) (a : Agent) (r : Region) (off h n : Nat) : (tailStep a r off h n s).port = s.port := by
  unfold tailStep; split <;> simp
@[simp] theorem State.tailStep_presenter (s : State) (a : Agent) (r : Region) (off h n : Nat) : (tailStep a r off h n s).presenter = s.presenter := by
  unfold tailStep; split <;> simp
@[simp] theorem State.tailStep_replyCalls (s : State) (a : Agent) (r : Region) (off h n : Nat) : (tailStep a r off h n s).replyCalls = s.replyCalls := by
  unfold tailStep; split <;> simp
@[simp] theorem State.tailStep_msgCalls (s : State) (a : Agent) (r : Region) (off h n : Nat) : (tailStep a r off h n s).msgCalls = s.msgCalls := by
  unfold tailStep; split <;> simp
@[simp] theorem State.tailStep_atDelay (s : State) (a : Agent) (r : Region) (off h n : Nat) : (tailStep a r off h n s).atDelay = s.atDelay := by
  unfold tailStep; split <;> simp
@[simp] theorem State.tailStep_lastTaken (s : State) (a : Agent) (r : Region) (off h n : Nat) : (tailStep a r off h n s).lastTaken = s.lastTaken := by
  unfold tailStep; split <;> simp
@[simp] theorem State.tailStep_ex (s : State) (a : Agent) (r : Region) (off h n : Nat) (b : Agent) : (tailStep a r off h n s).ex b = s.ex b := by
  unfold tailStep; split <;> simp
@[simp] theorem State.tailStep_loc (s : State) (a : Agent) (r : Region) (off h n : Nat) (b : Agent) : (tailStep a r off h n s).loc b = s.loc b := by
  unfold tailStep; split <;> simp
@[simp] theorem State.tailStep_isIsr (s : State) (a : Agent) (r : Region) (off h n : Nat) (r' : Region) (x : Nat) : (tailStep a r off h n s).isIsr r' x = s.isIsr r' x :=
  State.isIsr_congr (by simp) r' x
@[simp] theorem State.tailStep_isPm (s : State) (a : Agent) (r : Region) (off h n : Nat) (r' : Region) (x : Nat) : (tailStep a r off h n s).isPm r' x = s.isPm r' x :=
  State.isPm_congr (by simp) r' x
@[simp] theorem State.tailStep_inaccessible (s : State) (a : Agent) (r : Region) (off h n : Nat) (r' : Region) (x : Nat) :
    (tailStep a r off h n s).inaccessible r' x = s.inaccessible r' x :=
  State.inaccessible_congr (by simp) (by simp) (by simp) (by simp) r' x

/-! ## Bytes of a bulk read -/

@[simp] theorem State.byteUnit_cfg (s : State) (a : Agent) (r : Region) (off : Nat) (d : Dest) (k : Nat) : (byteUnit a r off d k s).cfg = s.cfg := by
  cases d <;> simp [byteUnit]
@[simp] theorem State.byteUnit_attached (s : State) (a : Agent) (r : Region) (off : Nat) (d : Dest) (k : Nat) : (byteUnit a r off d k s).attached = s.attached := by
  cases d <;> simp [byteUnit]
@[simp] theorem State.byteUnit_ctx (s : State) (a : Agent) (r : Region) (off : Nat) (d : Dest) (k : Nat) : (byteUnit a r off d k s).ctx = s.ctx := by
  cases d <;> simp [byteUnit]
@[simp] theorem State.byteUnit_halt (s : State) (a : Agent) (r : Region) (off : Nat) (d : Dest) (k : Nat) : (byteUnit a r off d k s).halt = s.halt := by
  cases d <;> simp [byteUnit]
@[simp] theorem State.byteUnit_irqRet (s : State) (a : Agent) (r : Region) (off : Nat) (d : Dest) (k : Nat) : (byteUnit a r off d k s).irqRet = s.irqRet := by
  cases d <;> simp [byteUnit]
@[simp] theorem State.byteUnit_pwr (s : State) (a : Agent) (r : Region) (off : Nat) (d : Dest) (k : Nat) : (byteUnit a r off d k s).pwr = s.pwr := by
  cases d <;> simp [byteUnit]
@[simp] theorem State.byteUnit_deferPending (s : State) (a : Agent) (r : Region) (off : Nat) (d : Dest) (k : Nat) : (byteUnit a r off d k s).deferPending = s.deferPending := by
  cases d <;> simp [byteUnit]
@[simp] theorem State.byteUnit_lock (s : State) (a : Agent) (r : Region) (off : Nat) (d : Dest) (k : Nat) : (byteUnit a r off d k s).lock = s.lock := by
  cases d <;> simp [byteUnit]
@[simp] theorem State.byteUnit_regs (s : State) (a : Agent) (r : Region) (off : Nat) (d : Dest) (k : Nat) : (byteUnit a r off d k s).regs = s.regs := by
  cases d <;> simp [byteUnit]
@[simp] theorem State.byteUnit_pmhw (s : State) (a : Agent) (r : Region) (off : Nat) (d : Dest) (k : Nat) : (byteUnit a r off d k s).pmhw = s.pmhw := by
  cases d <;> simp [byteUnit]
@[simp] theorem State.byteUnit_dspMem (s : State) (a : Agent) (r : Region) (off : Nat) (d : Dest) (k : Nat) : (byteUnit a r off d k s).dspMem = s.dspMem := by
  cases d <;> simp [byteUnit]
@[simp] theorem State.byteUnit_compMem (s : State) (a : Agent) (r : Region) (off : Nat) (d : Dest) (k : Nat) : (byteUnit a r off d k s).compMem = s.compMem := by
  cases d <;> simp [byteUnit]
@[simp] theorem State.byteUnit_gated (s : State) (a : Agent) (r : Region) (off : Nat) (d : Dest) (k : Nat) : (byteUnit a r off d k s).gated = s.gated := by
  cases d <;> simp [byteUnit]
@[simp] theorem State.byteUnit_d0Confirmed (s : State) (a : Agent) (r : Region) (off : Nat) (d : Dest) (k : Nat) : (byteUnit a r off d k s).d0Confirmed = s.d0Confirmed := by
  cases d <;> simp [byteUnit]
@[simp] theorem State.byteUnit_d0Requested (s : State) (a : Agent) (r : Region) (off : Nat) (d : Dest) (k : Nat) : (byteUnit a r off d k s).d0Requested = s.d0Requested := by
  cases d <;> simp [byteUnit]
@[simp] theorem State.byteUnit_readySent (s : State) (a : Agent) (r : Region) (off : Nat) (d : Dest) (k : Nat) : (byteUnit a r off d k s).readySent = s.readySent := by
  cases d <;> simp [byteUnit]
@[simp] theorem State.byteUnit_fw (s : State) (a : Agent) (r : Region) (off : Nat) (d : Dest) (k : Nat) : (byteUnit a r off d k s).fw = s.fw := by
  cases d <;> simp [byteUnit]
@[simp] theorem State.byteUnit_replyBox (s : State) (a : Agent) (r : Region) (off : Nat) (d : Dest) (k : Nat) : (byteUnit a r off d k s).replyBox = s.replyBox := by
  cases d <;> simp [byteUnit]
@[simp] theorem State.byteUnit_elapsed (s : State) (a : Agent) (r : Region) (off : Nat) (d : Dest) (k : Nat) : (byteUnit a r off d k s).elapsed = s.elapsed := by
  cases d <;> simp [byteUnit]
@[simp] theorem State.byteUnit_events (s : State) (a : Agent) (r : Region) (off : Nat) (d : Dest) (k : Nat) : (byteUnit a r off d k s).events = s.events := by
  cases d <;> simp [byteUnit]
@[simp] theorem State.byteUnit_port (s : State) (a : Agent) (r : Region) (off : Nat) (d : Dest) (k : Nat) : (byteUnit a r off d k s).port = s.port := by
  cases d <;> simp [byteUnit]
@[simp] theorem State.byteUnit_presenter (s : State) (a : Agent) (r : Region) (off : Nat) (d : Dest) (k : Nat) : (byteUnit a r off d k s).presenter = s.presenter := by
  cases d <;> simp [byteUnit]
@[simp] theorem State.byteUnit_replyCalls (s : State) (a : Agent) (r : Region) (off : Nat) (d : Dest) (k : Nat) : (byteUnit a r off d k s).replyCalls = s.replyCalls := by
  cases d <;> simp [byteUnit]
@[simp] theorem State.byteUnit_msgCalls (s : State) (a : Agent) (r : Region) (off : Nat) (d : Dest) (k : Nat) : (byteUnit a r off d k s).msgCalls = s.msgCalls := by
  cases d <;> simp [byteUnit]
@[simp] theorem State.byteUnit_atDelay (s : State) (a : Agent) (r : Region) (off : Nat) (d : Dest) (k : Nat) : (byteUnit a r off d k s).atDelay = s.atDelay := by
  cases d <;> simp [byteUnit]
@[simp] theorem State.byteUnit_lastTaken (s : State) (a : Agent) (r : Region) (off : Nat) (d : Dest) (k : Nat) : (byteUnit a r off d k s).lastTaken = s.lastTaken := by
  cases d <;> simp [byteUnit]
@[simp] theorem State.byteUnit_mem (s : State) (a : Agent) (r : Region) (off : Nat) (d : Dest) (k : Nat) (r' : Region) :
    (byteUnit a r off d k s).mem r' = s.mem r' := by
  cases r' <;> simp [State.mem]
@[simp] theorem State.byteUnit_isIsr (s : State) (a : Agent) (r : Region) (off : Nat) (d : Dest) (k : Nat) (r' : Region) (x : Nat) : (byteUnit a r off d k s).isIsr r' x = s.isIsr r' x :=
  State.isIsr_congr (by simp) r' x
@[simp] theorem State.byteUnit_isPm (s : State) (a : Agent) (r : Region) (off : Nat) (d : Dest) (k : Nat) (r' : Region) (x : Nat) : (byteUnit a r off d k s).isPm r' x = s.isPm r' x :=
  State.isPm_congr (by simp) r' x
@[simp] theorem State.byteUnit_inaccessible (s : State) (a : Agent) (r : Region) (off : Nat) (d : Dest) (k : Nat) (r' : Region) (x : Nat) :
    (byteUnit a r off d k s).inaccessible r' x = s.inaccessible r' x :=
  State.inaccessible_congr (by simp) (by simp) (by simp) (by simp) r' x
@[simp] theorem State.byteUnit_stored (s : State) (a : Agent) (r : Region) (off : Nat) (d : Dest) (k : Nat) (r' : Region) (x : Nat) : (byteUnit a r off d k s).stored r' x = s.stored r' x :=
  State.stored_congr (by simp) (by simp) (by simp) r' x
@[simp] theorem State.byteUnit_word (s : State) (a : Agent) (r : Region) (off : Nat) (d : Dest) (k : Nat) (r' : Region) (x : Nat) : (byteUnit a r off d k s).word r' x = s.word r' x :=
  State.word_congr (by simp) (by simp) (by simp) (by simp) r' x
@[simp] theorem State.byteUnit_isrWord (s : State) (a : Agent) (r : Region) (off : Nat) (d : Dest) (k : Nat) (x : Word) : (byteUnit a r off d k s).isrWord x = s.isrWord x :=
  State.isrWord_congr (by simp) (by simp) x

end Sys2Proof.Machine
end

