-- ==== Sys2Proof/Laws/Access.lean ====
section
/-! SUPPORT. What the bus primitives do (R16): one lemma per primitive for the value read, for the word or register written
and for everything else. -/

namespace Sys2Proof.Machine

/-! ## Words stored -/

@[simp] theorem State.stored_setStored_same (s : State) (r : Region) (off : Nat) (v : Word) :
    (s.setStored r off v).stored r off = v := by
  unfold State.setStored
  cases e : regAt s.cfg r off with
  | none => simp [State.stored, e]
  | some g => simp [State.stored, e]

theorem State.stored_setStored_other (s : State) {r r' : Region} {off off' : Nat} (v : Word) (ha : off % 4 = 0)
    (ha' : off' % 4 = 0) (hne : ¬(r' = r ∧ off' = off)) : (s.setStored r off v).stored r' off' = s.stored r' off' := by
  unfold State.setStored
  cases e : regAt s.cfg r off with
  | none =>
    cases e' : regAt s.cfg r' off' with
    | none =>
      simp only [State.stored, State.setMem_cfg, e', State.setMem_mem]
      split
      · rename_i h
        subst h
        have : off' ≠ off := fun e => hne ⟨rfl, e⟩
        exact Memory.readWord_writeWord_apart _ _ _ _ (by omega)
      · rfl
    | some g' => simp [State.stored, e']
  | some g =>
    cases e' : regAt s.cfg r' off' with
    | none => simp [State.stored, e']
    | some g' =>
      have : g' ≠ g := by
        rintro rfl
        exact hne ⟨(regAt_some e').1.trans (regAt_some e).1.symm, (regAt_some e').2.symm.trans (regAt_some e).2⟩
      simp [State.stored, e', this]

/-- What the overlay of the power status field leaves of a stored word (R44). -/
theorem State.overlay_masked (s : State) (r : Region) (off : Nat) (v : Word) :
    s.overlay r off (if s.isPm r off then v &&& ~~~s.cfg.pmSts.mask else v) = s.overlay r off v := by
  unfold State.overlay
  split
  · ext k _
    simp only [← BitVec.getLsbD_eq_getElem, getLsbD_merged, BitVec.getLsbD_and, BitVec.getLsbD_not]
    by_cases hk : k < 32 <;> cases h : s.cfg.pmSts.mask.getLsbD k <;> simp [hk]
    all_goals omega
  · rfl

theorem State.overlay_congr {s t : State} (hc : t.cfg = s.cfg) (hp : t.pmhw = s.pmhw) (r : Region) (x : Nat) (w : Word) :
    t.overlay r x w = s.overlay r x w := by simp [State.overlay, State.isPm, hc, hp]

/-- A write that takes effect, read back: the word, with the power status field over it (R30, R44). -/
theorem State.word_store_same (s : State) (r : Region) (off : Nat) (v : Word) (hi : s.isIsr r off = false) :
    (s.store r off v).word r off = s.overlay r off v := by
  rw [State.word, State.overlay_congr (s := s) (by simp) (by simp)]
  simp only [State.store, hi, Bool.false_eq_true, if_false, State.stored_setStored_same]
  exact s.overlay_masked r off v

/-- A write leaves every other word as it was. -/
theorem State.word_store_other (s : State) {r r' : Region} {off off' : Nat} (v : Word) (ha : off % 4 = 0)
    (ha' : off' % 4 = 0) (hne : ¬(r' = r ∧ off' = off)) : (s.store r off v).word r' off' = s.word r' off' := by
  rw [State.word, State.word, State.overlay_congr (s := s) (by simp) (by simp)]
  unfold State.store
  split
  · rfl
  · rw [State.stored_setStored_other s _ ha ha' hne]

/-- A write to `ISR` changes nothing (R32). -/
theorem State.store_isr (s : State) (r : Region) (off : Nat) (v : Word) (hi : s.isIsr r off = true) :
    s.store r off v = s := by simp [State.store, hi]

/-- A write to a device register (R30). -/
theorem State.store_reg (s : State) (g : DevReg) (v : Word) (hw : s.cfg.wf = true)
    (hp : s.isPm .dsp (regOff s.cfg g) = false) : s.store .dsp (regOff s.cfg g) v = s.setReg g v := by
  have : s.isIsr .dsp (regOff s.cfg g) = false := by simp [State.isIsr, regOff_ne_isr hw g]
  simp [State.store, this, hp, State.setStored, regAt_regOff hw g]

/-- A write away from the device registers goes to plain memory (R45). -/
theorem State.store_plain (s : State) {r : Region} {off : Nat} (v : Word) (h : r = .dsp → off ∉ s.cfg.offsets)
    (hp : s.isPm r off = false) : s.store r off v = s.setMem r (Memory.writeWord (s.mem r) off v) := by
  have : s.isIsr r off = false := by
    cases r with
    | comp => rfl
    | dsp =>
      have := h rfl
      simp only [State.isIsr, beq_self_eq_true, Bool.true_and, beq_eq_false_iff_ne]
      exact fun e => this (e ▸ isrOff_mem s.cfg)
  simp [State.store, this, hp, State.setStored, regAt_none h]

/-- Plain memory outside the word written is kept by every write. -/
theorem State.read_mem_store (s : State) {r r' : Region} {off : Nat} (v : Word) {x : Nat}
    (hx : ¬(r' = r ∧ off ≤ x ∧ x < off + 4)) :
    Memory.read ((s.store r off v).mem r') x = Memory.read (s.mem r') x := by
  unfold State.store
  split
  · rfl
  · unfold State.setStored
    cases e : regAt s.cfg r off with
    | some g => simp
    | none =>
      simp only [State.setMem_mem]
      split
      · rename_i h
        subst h
        rw [Memory.read_writeWord, if_neg (by tauto)]
      · rfl

/-- A write that is not at a register's offset leaves the registers. -/
theorem State.regs_store_of_none (s : State) {r : Region} {off : Nat} (v : Word) (h : regAt s.cfg r off = none) :
    (s.store r off v).regs = s.regs := by
  unfold State.store
  split
  · rfl
  · simp [State.setStored, h]

/-- A write at register `g`'s offset leaves every other register. -/
theorem State.regs_get_store (s : State) {r : Region} {off : Nat} (v : Word) {g : DevReg} (h : regAt s.cfg r off ≠ some g) :
    (s.store r off v).regs.get g = s.regs.get g := by
  cases e : regAt s.cfg r off with
  | none => rw [State.regs_store_of_none s v e]
  | some g' =>
    unfold State.store
    split
    · rfl
    · have : g ≠ g' := fun h' => h (h' ▸ e)
      simp [State.setStored, e, this]

/-- A write at a register's offset leaves plain memory. -/
theorem State.mem_store_of_some (s : State) {r : Region} {off : Nat} (v : Word) {g : DevReg} (h : regAt s.cfg r off = some g)
    (r' : Region) : (s.store r off v).mem r' = s.mem r' := by
  unfold State.store
  split
  · rfl
  · simp [State.setStored, h]

/-! ## Reads -/

/-- An accessible word other than `ISR`: what is there, and nothing else happens (R69). -/
theorem State.busRead_eq (s : State) {r : Region} {base x : Nat} (ha : s.inaccessible r x = false)
    (hi : s.isIsr r base = false) : s.busRead r base x = (s.word r base, s) := by
  simp [State.busRead, ha, hi]

theorem State.read32_fst (s : State) (a : Agent) {r : Region} {off : Nat} (ha : s.inaccessible r off = false)
    (hi : s.isIsr r off = false) : (s.read32 a r off).1 = s.word r off := by
  simp [State.read32, s.busRead_eq ha hi]

theorem State.read32_snd (s : State) (a : Agent) {r : Region} {off : Nat} (ha : s.inaccessible r off = false)
    (hi : s.isIsr r off = false) : (s.read32 a r off).2 = s.record (.rd32 a r off (s.word r off)) := by
  simp [State.read32, s.busRead_eq ha hi]

/-- An inaccessible word reads as the next free value (U6). -/
theorem State.read32_fst_of_inaccessible (s : State) (a : Agent) {r : Region} {off : Nat} (ha : s.inaccessible r off = true) :
    (s.read32 a r off).1 = Config.draw s.draws := by
  simp [State.read32, State.busRead, ha]

theorem State.read8_fst (s : State) (a : Agent) {r : Region} {x : Nat} (ha : s.inaccessible r x = false)
    (hi : s.isIsrByte r x = false) : (s.read8 a r x).1 = s.byteAt r x := by
  simp only [State.isIsrByte] at hi
  simp [State.read8, s.busRead_eq ha hi, State.byteAt]

@[simp] theorem State.read32_bus (s : State) (a : Agent) (r : Region) (off : Nat) :
    (s.read32 a r off).2.bus = s.bus ++ [.rd32 a r off (s.read32 a r off).1] := by
  simp [State.read32]

@[simp] theorem State.read8_bus (s : State) (a : Agent) (r : Region) (x : Nat) :
    (s.read8 a r x).2.bus = s.bus ++ [.rd8 a r x (s.read8 a r x).1] := by
  simp [State.read8]

/-- The mirror bits of a value read from `ISR` (R32), with the drawn bits ignored. -/
theorem flagOf_isrWord (s : State) (hw : s.cfg.wf = true) (d : Word) :
    flagOf (s.isrWord d) s.cfg.isrDone = s.cmdoDone ∧ flagOf (s.isrWord d) s.cfg.isrBusy = s.cmdiBusy := by
  have h := s.cfg.wf_isr hw
  obtain ⟨i, hi, ei⟩ := oneBit_eq (twoBits_fst h)
  obtain ⟨j, hj, ej⟩ := oneBit_eq (twoBits_snd h)
  have hij : i ≠ j := by
    rintro rfl
    simp [twoBits, ei, ej] at h
  have hij' : ¬ j = i := fun e => hij e.symm
  rw [ei, ej, flagOf_twoPow _ hi, flagOf_twoPow _ hj]
  simp only [State.isrWord, ei, ej]
  cases s.cmdoDone <;> cases s.cmdiBusy <;>
    simp only [BitVec.getLsbD_or, BitVec.getLsbD_and, BitVec.getLsbD_not, BitVec.getLsbD_twoPow, hi, hj, hij, hij',
      decide_true, decide_false, Bool.or_true, Bool.or_false, Bool.and_true, Bool.and_false, Bool.not_true,
      Bool.true_or, if_true, if_false, Bool.false_eq_true, and_self, Bool.or_self] <;>
    simp

end Sys2Proof.Machine
end

