-- ==== Sys2Proof/Laws/Copy.lean ====
section
/-! SUPPORT. What the two bulk copies do (R115, R116): what they keep, the bytes they move, the bytes they leave. -/

namespace Sys2Proof.Machine

/-! ## Loops over units -/

/-- What every unit keeps, the loop keeps. -/
theorem unitsLoop_keeps {α : Type} (π : State → α) {f : Nat → State → State} (h : ∀ k t, π (f k t) = π t) (b n : Nat)
    (s : State) : π (unitsLoop f b n s) = π s := by
  induction n generalizing b s with
  | zero => rfl
  | succ n ih => rw [unitsLoop, ih, h]

/-- What holds before the first unit and is carried over every unit holds after the last. -/
theorem unitsLoop_induct {P : Nat → State → Prop} {f : Nat → State → State} {b n : Nat} {s : State} (h0 : P b s)
    (hs : ∀ k t, b ≤ k → k < b + n → P k t → P (k + 1) (f k t)) : P (b + n) (unitsLoop f b n s) := by
  induction n generalizing b s with
  | zero => exact h0
  | succ n ih =>
    have := ih (b := b + 1) (s := f b s) (hs b s (by omega) (by omega) h0)
      (fun k t h1 h2 => hs k t (by omega) (by omega))
    simpa [unitsLoop, Nat.add_assoc, Nat.add_comm 1 n] using this

theorem unitsLoop_induct_zero {P : Nat → State → Prop} {f : Nat → State → State} {n : Nat} {s : State} (h0 : P 0 s)
    (hs : ∀ k t, k < n → P k t → P (k + 1) (f k t)) : P n (unitsLoop f 0 n s) := by
  have := unitsLoop_induct (P := P) (f := f) (b := 0) (n := n) (s := s) h0 (fun k t _ h => hs k t (by omega))
  simpa using this

/-! ## Bulk reads: what is kept -/

@[simp] theorem State.bulkOut_cfg (s : State) (a : Agent) (r : Region) (off : Nat) (dst : Dest) (n : Nat) :
    (s.bulkOut a r off dst n).cfg = s.cfg := unitsLoop_keeps (·.cfg) (by simp) 0 n s
@[simp] theorem State.bulkOut_attached (s : State) (a : Agent) (r : Region) (off : Nat) (dst : Dest) (n : Nat) :
    (s.bulkOut a r off dst n).attached = s.attached := unitsLoop_keeps (·.attached) (by simp) 0 n s
@[simp] theorem State.bulkOut_ctx (s : State) (a : Agent) (r : Region) (off : Nat) (dst : Dest) (n : Nat) :
    (s.bulkOut a r off dst n).ctx = s.ctx := unitsLoop_keeps (·.ctx) (by simp) 0 n s
@[simp] theorem State.bulkOut_halt (s : State) (a : Agent) (r : Region) (off : Nat) (dst : Dest) (n : Nat) :
    (s.bulkOut a r off dst n).halt = s.halt := unitsLoop_keeps (·.halt) (by simp) 0 n s
@[simp] theorem State.bulkOut_irqRet (s : State) (a : Agent) (r : Region) (off : Nat) (dst : Dest) (n : Nat) :
    (s.bulkOut a r off dst n).irqRet = s.irqRet := unitsLoop_keeps (·.irqRet) (by simp) 0 n s
@[simp] theorem State.bulkOut_pwr (s : State) (a : Agent) (r : Region) (off : Nat) (dst : Dest) (n : Nat) :
    (s.bulkOut a r off dst n).pwr = s.pwr := unitsLoop_keeps (·.pwr) (by simp) 0 n s
@[simp] theorem State.bulkOut_deferPending (s : State) (a : Agent) (r : Region) (off : Nat) (dst : Dest) (n : Nat) :
    (s.bulkOut a r off dst n).deferPending = s.deferPending := unitsLoop_keeps (·.deferPending) (by simp) 0 n s
@[simp] theorem State.bulkOut_lock (s : State) (a : Agent) (r : Region) (off : Nat) (dst : Dest) (n : Nat) :
    (s.bulkOut a r off dst n).lock = s.lock := unitsLoop_keeps (·.lock) (by simp) 0 n s
@[simp] theorem State.bulkOut_regs (s : State) (a : Agent) (r : Region) (off : Nat) (dst : Dest) (n : Nat) :
    (s.bulkOut a r off dst n).regs = s.regs := unitsLoop_keeps (·.regs) (by simp) 0 n s
@[simp] theorem State.bulkOut_pmhw (s : State) (a : Agent) (r : Region) (off : Nat) (dst : Dest) (n : Nat) :
    (s.bulkOut a r off dst n).pmhw = s.pmhw := unitsLoop_keeps (·.pmhw) (by simp) 0 n s
@[simp] theorem State.bulkOut_dspMem (s : State) (a : Agent) (r : Region) (off : Nat) (dst : Dest) (n : Nat) :
    (s.bulkOut a r off dst n).dspMem = s.dspMem := unitsLoop_keeps (·.dspMem) (by simp) 0 n s
@[simp] theorem State.bulkOut_compMem (s : State) (a : Agent) (r : Region) (off : Nat) (dst : Dest) (n : Nat) :
    (s.bulkOut a r off dst n).compMem = s.compMem := unitsLoop_keeps (·.compMem) (by simp) 0 n s
@[simp] theorem State.bulkOut_gated (s : State) (a : Agent) (r : Region) (off : Nat) (dst : Dest) (n : Nat) :
    (s.bulkOut a r off dst n).gated = s.gated := unitsLoop_keeps (·.gated) (by simp) 0 n s
@[simp] theorem State.bulkOut_d0Confirmed (s : State) (a : Agent) (r : Region) (off : Nat) (dst : Dest) (n : Nat) :
    (s.bulkOut a r off dst n).d0Confirmed = s.d0Confirmed := unitsLoop_keeps (·.d0Confirmed) (by simp) 0 n s
@[simp] theorem State.bulkOut_d0Requested (s : State) (a : Agent) (r : Region) (off : Nat) (dst : Dest) (n : Nat) :
    (s.bulkOut a r off dst n).d0Requested = s.d0Requested := unitsLoop_keeps (·.d0Requested) (by simp) 0 n s
@[simp] theorem State.bulkOut_readySent (s : State) (a : Agent) (r : Region) (off : Nat) (dst : Dest) (n : Nat) :
    (s.bulkOut a r off dst n).readySent = s.readySent := unitsLoop_keeps (·.readySent) (by simp) 0 n s
@[simp] theorem State.bulkOut_fw (s : State) (a : Agent) (r : Region) (off : Nat) (dst : Dest) (n : Nat) :
    (s.bulkOut a r off dst n).fw = s.fw := unitsLoop_keeps (·.fw) (by simp) 0 n s
@[simp] theorem State.bulkOut_replyBox (s : State) (a : Agent) (r : Region) (off : Nat) (dst : Dest) (n : Nat) :
    (s.bulkOut a r off dst n).replyBox = s.replyBox := unitsLoop_keeps (·.replyBox) (by simp) 0 n s
@[simp] theorem State.bulkOut_elapsed (s : State) (a : Agent) (r : Region) (off : Nat) (dst : Dest) (n : Nat) :
    (s.bulkOut a r off dst n).elapsed = s.elapsed := unitsLoop_keeps (·.elapsed) (by simp) 0 n s
@[simp] theorem State.bulkOut_events (s : State) (a : Agent) (r : Region) (off : Nat) (dst : Dest) (n : Nat) :
    (s.bulkOut a r off dst n).events = s.events := unitsLoop_keeps (·.events) (by simp) 0 n s
@[simp] theorem State.bulkOut_port (s : State) (a : Agent) (r : Region) (off : Nat) (dst : Dest) (n : Nat) :
    (s.bulkOut a r off dst n).port = s.port := unitsLoop_keeps (·.port) (by simp) 0 n s
@[simp] theorem State.bulkOut_presenter (s : State) (a : Agent) (r : Region) (off : Nat) (dst : Dest) (n : Nat) :
    (s.bulkOut a r off dst n).presenter = s.presenter := unitsLoop_keeps (·.presenter) (by simp) 0 n s
@[simp] theorem State.bulkOut_replyCalls (s : State) (a : Agent) (r : Region) (off : Nat) (dst : Dest) (n : Nat) :
    (s.bulkOut a r off dst n).replyCalls = s.replyCalls := unitsLoop_keeps (·.replyCalls) (by simp) 0 n s
@[simp] theorem State.bulkOut_msgCalls (s : State) (a : Agent) (r : Region) (off : Nat) (dst : Dest) (n : Nat) :
    (s.bulkOut a r off dst n).msgCalls = s.msgCalls := unitsLoop_keeps (·.msgCalls) (by simp) 0 n s
@[simp] theorem State.bulkOut_atDelay (s : State) (a : Agent) (r : Region) (off : Nat) (dst : Dest) (n : Nat) :
    (s.bulkOut a r off dst n).atDelay = s.atDelay := unitsLoop_keeps (·.atDelay) (by simp) 0 n s
@[simp] theorem State.bulkOut_lastTaken (s : State) (a : Agent) (r : Region) (off : Nat) (dst : Dest) (n : Nat) :
    (s.bulkOut a r off dst n).lastTaken = s.lastTaken := unitsLoop_keeps (·.lastTaken) (by simp) 0 n s
@[simp] theorem State.bulkOut_mem (s : State) (a : Agent) (r : Region) (off : Nat) (dst : Dest) (n : Nat) (r' : Region) :
    (s.bulkOut a r off dst n).mem r' = s.mem r' := unitsLoop_keeps (·.mem r') (by simp) 0 n s
@[simp] theorem State.bulkOut_isIsr (s : State) (a : Agent) (r : Region) (off : Nat) (dst : Dest) (n : Nat) (r' : Region) (x : Nat) :
    (s.bulkOut a r off dst n).isIsr r' x = s.isIsr r' x := unitsLoop_keeps (·.isIsr r' x) (by simp) 0 n s
@[simp] theorem State.bulkOut_isPm (s : State) (a : Agent) (r : Region) (off : Nat) (dst : Dest) (n : Nat) (r' : Region) (x : Nat) :
    (s.bulkOut a r off dst n).isPm r' x = s.isPm r' x := unitsLoop_keeps (·.isPm r' x) (by simp) 0 n s
@[simp] theorem State.bulkOut_inaccessible (s : State) (a : Agent) (r : Region) (off : Nat) (dst : Dest) (n : Nat) (r' : Region) (x : Nat) :
    (s.bulkOut a r off dst n).inaccessible r' x = s.inaccessible r' x := unitsLoop_keeps (·.inaccessible r' x) (by simp) 0 n s
@[simp] theorem State.bulkOut_stored (s : State) (a : Agent) (r : Region) (off : Nat) (dst : Dest) (n : Nat) (r' : Region) (x : Nat) :
    (s.bulkOut a r off dst n).stored r' x = s.stored r' x := unitsLoop_keeps (·.stored r' x) (by simp) 0 n s
@[simp] theorem State.bulkOut_word (s : State) (a : Agent) (r : Region) (off : Nat) (dst : Dest) (n : Nat) (r' : Region) (x : Nat) :
    (s.bulkOut a r off dst n).word r' x = s.word r' x := unitsLoop_keeps (·.word r' x) (by simp) 0 n s

theorem State.byteAt_congr {s t : State} (h : ∀ r x, t.word r x = s.word r x) (r : Region) (x : Nat) :
    t.byteAt r x = s.byteAt r x := by rw [State.byteAt, State.byteAt, h]

@[simp] theorem State.bulkOut_byteAt (s : State) (a : Agent) (r : Region) (off : Nat) (dst : Dest) (n : Nat) (r' : Region) (x : Nat) :
    (s.bulkOut a r off dst n).byteAt r' x = s.byteAt r' x := State.byteAt_congr (by simp) r' x

/-- A bulk read into host memory keeps every agent's record. -/
@[simp] theorem State.bulkOut_host_ex (s : State) (a : Agent) (r : Region) (off base n : Nat) (b : Agent) :
    (s.bulkOut a r off (.host base) n).ex b = s.ex b :=
  unitsLoop_keeps (·.ex b) (fun k t => by simp only [byteUnit]; cases b <;> simp [State.ex]) 0 n s

@[simp] theorem State.bulkOut_host_loc (s : State) (a : Agent) (r : Region) (off base n : Nat) (b : Agent) :
    (s.bulkOut a r off (.host base) n).loc b = s.loc b := by simp [State.loc]

/-- A bulk read into the buffer keeps host memory. -/
@[simp] theorem State.bulkOut_buf_hm (s : State) (a : Agent) (r : Region) (off base n : Nat) :
    (s.bulkOut a r off (.buf base) n).hm = s.hm := unitsLoop_keeps (·.hm) (fun k t => by simp [byteUnit]) 0 n s

/-- A bulk read into the buffer keeps the other agents' records. -/
theorem State.bulkOut_buf_ex (s : State) {a b : Agent} (r : Region) (off base n : Nat) (h : b ≠ a) :
    (s.bulkOut a r off (.buf base) n).ex b = s.ex b :=
  unitsLoop_keeps (·.ex b) (fun k t => by simp [byteUnit, State.setLoc, h]) 0 n s

/-- Of its own record, a bulk read into the buffer changes only the buffer. -/
theorem State.bulkOut_buf_own (s : State) (a : Agent) (r : Region) (off base n : Nat) :
    (s.bulkOut a r off (.buf base) n).ex a =
      { s.ex a with loc := { s.loc a with buf := ((s.bulkOut a r off (.buf base) n).loc a).buf } } := by
  have : ∀ (b : Nat) (t : State), (unitsLoop (byteUnit a r off (.buf base)) b n t).ex a =
      { t.ex a with loc := { t.loc a with buf := ((unitsLoop (byteUnit a r off (.buf base)) b n t).loc a).buf } } := by
    induction n with
    | zero => intro b t; rfl
    | succ n ih =>
      intro b t
      rw [unitsLoop, ih (b + 1)]
      obtain ⟨m, h1, h2⟩ : ∃ m, (byteUnit a r off (.buf base) b t).ex a = { t.ex a with loc := { t.loc a with buf := m } } ∧
          (byteUnit a r off (.buf base) b t).loc a = { t.loc a with buf := m } :=
        ⟨Memory.write (t.loc a).buf (base + b) (t.read8 a r (off + b)).1, by simp [byteUnit, State.setLoc], by simp [byteUnit]⟩
      rw [h1, h2]
  exact this 0 s

/-! ## Bulk reads: the bytes moved -/

/-- The bytes that a bulk read leaves in host memory (R115): the region's bytes at the destination, the old bytes everywhere
else. -/
theorem State.bulkOut_host_hm (s : State) (a : Agent) (r : Region) (off base n : Nat) :
    (∀ x, ¬(base ≤ x ∧ x < base + n) → Memory.read (s.bulkOut a r off (.host base) n).hm x = Memory.read s.hm x) ∧
      ∀ i < n, s.inaccessible r (off + i) = false → s.isIsrByte r (off + i) = false →
        Memory.read (s.bulkOut a r off (.host base) n).hm (base + i) = s.byteAt r (off + i) := by
  have key : (∀ r' x, (unitsLoop (byteUnit a r off (.host base)) 0 n s).inaccessible r' x = s.inaccessible r' x) ∧
      (∀ r' x, (unitsLoop (byteUnit a r off (.host base)) 0 n s).isIsr r' x = s.isIsr r' x) ∧
      (∀ r' x, (unitsLoop (byteUnit a r off (.host base)) 0 n s).byteAt r' x = s.byteAt r' x) ∧
      (∀ x, ¬(base ≤ x ∧ x < base + n) →
        Memory.read (unitsLoop (byteUnit a r off (.host base)) 0 n s).hm x = Memory.read s.hm x) ∧
      ∀ i < n, s.inaccessible r (off + i) = false → s.isIsrByte r (off + i) = false →
        Memory.read (unitsLoop (byteUnit a r off (.host base)) 0 n s).hm (base + i) = s.byteAt r (off + i) := by
    refine unitsLoop_induct_zero (P := fun k t => (∀ r' x, t.inaccessible r' x = s.inaccessible r' x) ∧
      (∀ r' x, t.isIsr r' x = s.isIsr r' x) ∧ (∀ r' x, t.byteAt r' x = s.byteAt r' x) ∧
      (∀ x, ¬(base ≤ x ∧ x < base + k) → Memory.read t.hm x = Memory.read s.hm x) ∧
      ∀ i < k, s.inaccessible r (off + i) = false → s.isIsrByte r (off + i) = false →
        Memory.read t.hm (base + i) = s.byteAt r (off + i))
      ⟨fun _ _ => rfl, fun _ _ => rfl, fun _ _ => rfl, fun _ _ => rfl, fun i hi => absurd hi (by omega)⟩ ?_
    rintro k t - ⟨h1, h2, h3, h4, h5⟩
    refine ⟨fun r' x => by simp [h1], fun r' x => by simp [h2],
      fun r' x => by rw [State.byteAt_congr (s := t) (by simp) r' x, h3], fun x hx => ?_, fun i hi ha hs => ?_⟩
    · simp only [byteUnit, State.read8_hm, Memory.read_write]
      rw [if_neg (by omega), h4 x (by omega)]
    · simp only [byteUnit, State.read8_hm, Memory.read_write]
      by_cases hk : i = k
      · subst hk
        have hs' : t.isIsrByte r (off + i) = false := by simpa [State.isIsrByte, h2] using hs
        rw [if_pos rfl, State.read8_fst t a (by rw [h1]; exact ha) hs', h3]
      · rw [if_neg (by omega), h5 i (by omega) ha hs]
  exact ⟨key.2.2.2.1, key.2.2.2.2⟩

/-- The bytes that a bulk read leaves in the operation's buffer. -/
theorem State.bulkOut_buf_buf (s : State) (a : Agent) (r : Region) (off base n : Nat) :
    (∀ x, ¬(base ≤ x ∧ x < base + n) →
        Memory.read ((s.bulkOut a r off (.buf base) n).loc a).buf x = Memory.read (s.loc a).buf x) ∧
      ∀ i < n, s.inaccessible r (off + i) = false → s.isIsrByte r (off + i) = false →
        Memory.read ((s.bulkOut a r off (.buf base) n).loc a).buf (base + i) = s.byteAt r (off + i) := by
  have key := unitsLoop_induct_zero (f := byteUnit a r off (.buf base)) (n := n) (s := s)
    (P := fun k t => (∀ r' x, t.inaccessible r' x = s.inaccessible r' x) ∧
      (∀ r' x, t.isIsr r' x = s.isIsr r' x) ∧ (∀ r' x, t.byteAt r' x = s.byteAt r' x) ∧
      (∀ x, ¬(base ≤ x ∧ x < base + k) → Memory.read (t.loc a).buf x = Memory.read (s.loc a).buf x) ∧
      ∀ i < k, s.inaccessible r (off + i) = false → s.isIsrByte r (off + i) = false →
        Memory.read (t.loc a).buf (base + i) = s.byteAt r (off + i))
    ⟨fun _ _ => rfl, fun _ _ => rfl, fun _ _ => rfl, fun _ _ => rfl, fun i hi => absurd hi (by omega)⟩ (by
      rintro k t - ⟨h1, h2, h3, h4, h5⟩
      refine ⟨fun r' x => by simp [h1], fun r' x => by simp [h2],
        fun r' x => by rw [State.byteAt_congr (s := t) (by simp) r' x, h3], fun x hx => ?_, fun i hi ha hs => ?_⟩
      · simp only [byteUnit, State.loc_setLoc, State.read8_loc, Memory.read_write]
        rw [if_neg (by omega), h4 x (by omega)]
      · simp only [byteUnit, State.loc_setLoc, State.read8_loc, Memory.read_write]
        by_cases hk : i = k
        · subst hk
          have hs' : t.isIsrByte r (off + i) = false := by simpa [State.isIsrByte, h2] using hs
          rw [if_pos rfl, State.read8_fst t a (by rw [h1]; exact ha) hs', h3]
        · rw [if_neg (by omega), h5 i (by omega) ha hs])
  exact ⟨key.2.2.2.1, key.2.2.2.2⟩

/-! ## One write -/

theorem State.busWrite_eq (s : State) {r : Region} {off : Nat} (v : Word) (ha : s.inaccessible r off = false) :
    s.busWrite r off v = s.store r off v := by simp [State.busWrite, ha]

/-- The word at the offset written reads as the value written, the power status field over it. -/
theorem State.word_write32_same (s : State) (a : Agent) {r : Region} {off : Nat} (v : Word)
    (ha : s.inaccessible r off = false) (hi : s.isIsr r off = false) :
    (s.write32 a r off v).word r off = s.overlay r off v := by
  simp [State.write32, s.busWrite_eq v ha, s.word_store_same r off v hi]

/-- Every other word reads as before. -/
theorem State.word_write32_other (s : State) (a : Agent) {r r' : Region} {off x : Nat} (v : Word) (ho : off % 4 = 0)
    (hx : x % 4 = 0) (hne : ¬(r' = r ∧ x = off)) : (s.write32 a r off v).word r' x = s.word r' x := by
  rw [State.write32, State.busWrite_cases]
  split
  · split <;> simp [State.word_store_other _ v ho hx hne]
  · simp [State.word_store_other _ v ho hx hne]

/-- Every byte outside the word written reads as before. -/
theorem State.byteAt_write32_other (s : State) (a : Agent) {r r' : Region} {off x : Nat} (v : Word) (ho : off % 4 = 0)
    (hne : ¬(r' = r ∧ off ≤ x ∧ x < off + 4)) : (s.write32 a r off v).byteAt r' x = s.byteAt r' x := by
  rw [State.byteAt, State.byteAt, State.word_write32_other s a v ho (by omega)]
  rintro ⟨h, h'⟩
  exact hne ⟨h, by omega, by omega⟩

/-- Plain memory outside the word written is kept. -/
theorem State.read_mem_write32 (s : State) (a : Agent) {r r' : Region} {off x : Nat} (v : Word)
    (hx : ¬(r' = r ∧ off ≤ x ∧ x < off + 4)) :
    Memory.read ((s.write32 a r off v).mem r') x = Memory.read (s.mem r') x := by
  rw [State.write32, State.busWrite_cases]
  split
  · split
    · simpa using State.read_mem_store s.draw.2 v hx
    · simp
  · simpa using State.read_mem_store s v hx

/-- A register away from the word written is kept. -/
theorem State.regs_get_write32 (s : State) (a : Agent) {r : Region} {off : Nat} (v : Word) {g : DevReg}
    (h : regAt s.cfg r off ≠ some g) : (s.write32 a r off v).regs.get g = s.regs.get g := by
  rw [State.write32, State.busWrite_cases]
  split
  · split
    · simpa using State.regs_get_store s.draw.2 v (by simpa using h)
    · simp
  · simpa using State.regs_get_store s v h

/-! ## Bulk writes: what is kept -/

@[simp] theorem State.bulkIn_cfg (s : State) (a : Agent) (r : Region) (off h n : Nat) :
    (s.bulkIn a r off h n).cfg = s.cfg := by
  rw [State.bulkIn, State.tailStep_cfg]; exact unitsLoop_keeps (·.cfg) (by simp) 0 _ s
@[simp] theorem State.bulkIn_attached (s : State) (a : Agent) (r : Region) (off h n : Nat) :
    (s.bulkIn a r off h n).attached = s.attached := by
  rw [State.bulkIn, State.tailStep_attached]; exact unitsLoop_keeps (·.attached) (by simp) 0 _ s
@[simp] theorem State.bulkIn_ctx (s : State) (a : Agent) (r : Region) (off h n : Nat) :
    (s.bulkIn a r off h n).ctx = s.ctx := by
  rw [State.bulkIn, State.tailStep_ctx]; exact unitsLoop_keeps (·.ctx) (by simp) 0 _ s
@[simp] theorem State.bulkIn_host (s : State) (a : Agent) (r : Region) (off h n : Nat) :
    (s.bulkIn a r off h n).host = s.host := by
  rw [State.bulkIn, State.tailStep_host]; exact unitsLoop_keeps (·.host) (by simp) 0 _ s
@[simp] theorem State.bulkIn_irq (s : State) (a : Agent) (r : Region) (off h n : Nat) :
    (s.bulkIn a r off h n).irq = s.irq := by
  rw [State.bulkIn, State.tailStep_irq]; exact unitsLoop_keeps (·.irq) (by simp) 0 _ s
@[simp] theorem State.bulkIn_worker (s : State) (a : Agent) (r : Region) (off h n : Nat) :
    (s.bulkIn a r off h n).worker = s.worker := by
  rw [State.bulkIn, State.tailStep_worker]; exact unitsLoop_keeps (·.worker) (by simp) 0 _ s
@[simp] theorem State.bulkIn_halt (s : State) (a : Agent) (r : Region) (off h n : Nat) :
    (s.bulkIn a r off h n).halt = s.halt := by
  rw [State.bulkIn, State.tailStep_halt]; exact unitsLoop_keeps (·.halt) (by simp) 0 _ s
@[simp] theorem State.bulkIn_irqRet (s : State) (a : Agent) (r : Region) (off h n : Nat) :
    (s.bulkIn a r off h n).irqRet = s.irqRet := by
  rw [State.bulkIn, State.tailStep_irqRet]; exact unitsLoop_keeps (·.irqRet) (by simp) 0 _ s
@[simp] theorem State.bulkIn_pwr (s : State) (a : Agent) (r : Region) (off h n : Nat) :
    (s.bulkIn a r off h n).pwr = s.pwr := by
  rw [State.bulkIn, State.tailStep_pwr]; exact unitsLoop_keeps (·.pwr) (by simp) 0 _ s
@[simp] theorem State.bulkIn_deferPending (s : State) (a : Agent) (r : Region) (off h n : Nat) :
    (s.bulkIn a r off h n).deferPending = s.deferPending := by
  rw [State.bulkIn, State.tailStep_deferPending]; exact unitsLoop_keeps (·.deferPending) (by simp) 0 _ s
@[simp] theorem State.bulkIn_lock (s : State) (a : Agent) (r : Region) (off h n : Nat) :
    (s.bulkIn a r off h n).lock = s.lock := by
  rw [State.bulkIn, State.tailStep_lock]; exact unitsLoop_keeps (·.lock) (by simp) 0 _ s
@[simp] theorem State.bulkIn_pmhw (s : State) (a : Agent) (r : Region) (off h n : Nat) :
    (s.bulkIn a r off h n).pmhw = s.pmhw := by
  rw [State.bulkIn, State.tailStep_pmhw]; exact unitsLoop_keeps (·.pmhw) (by simp) 0 _ s
@[simp] theorem State.bulkIn_hm (s : State) (a : Agent) (r : Region) (off h n : Nat) :
    (s.bulkIn a r off h n).hm = s.hm := by
  rw [State.bulkIn, State.tailStep_hm]; exact unitsLoop_keeps (·.hm) (by simp) 0 _ s
@[simp] theorem State.bulkIn_gated (s : State) (a : Agent) (r : Region) (off h n : Nat) :
    (s.bulkIn a r off h n).gated = s.gated := by
  rw [State.bulkIn, State.tailStep_gated]; exact unitsLoop_keeps (·.gated) (by simp) 0 _ s
@[simp] theorem State.bulkIn_d0Confirmed (s : State) (a : Agent) (r : Region) (off h n : Nat) :
    (s.bulkIn a r off h n).d0Confirmed = s.d0Confirmed := by
  rw [State.bulkIn, State.tailStep_d0Confirmed]; exact unitsLoop_keeps (·.d0Confirmed) (by simp) 0 _ s
@[simp] theorem State.bulkIn_d0Requested (s : State) (a : Agent) (r : Region) (off h n : Nat) :
    (s.bulkIn a r off h n).d0Requested = s.d0Requested := by
  rw [State.bulkIn, State.tailStep_d0Requested]; exact unitsLoop_keeps (·.d0Requested) (by simp) 0 _ s
@[simp] theorem State.bulkIn_elapsed (s : State) (a : Agent) (r : Region) (off h n : Nat) :
    (s.bulkIn a r off h n).elapsed = s.elapsed := by
  rw [State.bulkIn, State.tailStep_elapsed]; exact unitsLoop_keeps (·.elapsed) (by simp) 0 _ s
@[simp] theorem State.bulkIn_events (s : State) (a : Agent) (r : Region) (off h n : Nat) :
    (s.bulkIn a r off h n).events = s.events := by
  rw [State.bulkIn, State.tailStep_events]; exact unitsLoop_keeps (·.events) (by simp) 0 _ s
@[simp] theorem State.bulkIn_port (s : State) (a : Agent) (r : Region) (off h n : Nat) :
    (s.bulkIn a r off h n).port = s.port := by
  rw [State.bulkIn, State.tailStep_port]; exact unitsLoop_keeps (·.port) (by simp) 0 _ s
@[simp] theorem State.bulkIn_presenter (s : State) (a : Agent) (r : Region) (off h n : Nat) :
    (s.bulkIn a r off h n).presenter = s.presenter := by
  rw [State.bulkIn, State.tailStep_presenter]; exact unitsLoop_keeps (·.presenter) (by simp) 0 _ s
@[simp] theorem State.bulkIn_replyCalls (s : State) (a : Agent) (r : Region) (off h n : Nat) :
    (s.bulkIn a r off h n).replyCalls = s.replyCalls := by
  rw [State.bulkIn, State.tailStep_replyCalls]; exact unitsLoop_keeps (·.replyCalls) (by simp) 0 _ s
@[simp] theorem State.bulkIn_msgCalls (s : State) (a : Agent) (r : Region) (off h n : Nat) :
    (s.bulkIn a r off h n).msgCalls = s.msgCalls := by
  rw [State.bulkIn, State.tailStep_msgCalls]; exact unitsLoop_keeps (·.msgCalls) (by simp) 0 _ s
@[simp] theorem State.bulkIn_atDelay (s : State) (a : Agent) (r : Region) (off h n : Nat) :
    (s.bulkIn a r off h n).atDelay = s.atDelay := by
  rw [State.bulkIn, State.tailStep_atDelay]; exact unitsLoop_keeps (·.atDelay) (by simp) 0 _ s
@[simp] theorem State.bulkIn_lastTaken (s : State) (a : Agent) (r : Region) (off h n : Nat) :
    (s.bulkIn a r off h n).lastTaken = s.lastTaken := by
  rw [State.bulkIn, State.tailStep_lastTaken]; exact unitsLoop_keeps (·.lastTaken) (by simp) 0 _ s
@[simp] theorem State.bulkIn_ex (s : State) (a : Agent) (r : Region) (off h n : Nat) (b : Agent) :
    (s.bulkIn a r off h n).ex b = s.ex b := by
  rw [State.bulkIn, State.tailStep_ex]; exact unitsLoop_keeps (·.ex b) (by simp) 0 _ s
@[simp] theorem State.bulkIn_loc (s : State) (a : Agent) (r : Region) (off h n : Nat) (b : Agent) :
    (s.bulkIn a r off h n).loc b = s.loc b := by simp [State.loc]
@[simp] theorem State.bulkIn_isIsr (s : State) (a : Agent) (r : Region) (off h n : Nat) (r' : Region) (x : Nat) :
    (s.bulkIn a r off h n).isIsr r' x = s.isIsr r' x := by
  rw [State.bulkIn, State.tailStep_isIsr]; exact unitsLoop_keeps (·.isIsr r' x) (by simp) 0 _ s
@[simp] theorem State.bulkIn_isPm (s : State) (a : Agent) (r : Region) (off h n : Nat) (r' : Region) (x : Nat) :
    (s.bulkIn a r off h n).isPm r' x = s.isPm r' x := by
  rw [State.bulkIn, State.tailStep_isPm]; exact unitsLoop_keeps (·.isPm r' x) (by simp) 0 _ s
@[simp] theorem State.bulkIn_inaccessible (s : State) (a : Agent) (r : Region) (off h n : Nat) (r' : Region) (x : Nat) :
    (s.bulkIn a r off h n).inaccessible r' x = s.inaccessible r' x := by
  rw [State.bulkIn, State.tailStep_inaccessible]; exact unitsLoop_keeps (·.inaccessible r' x) (by simp) 0 _ s

/-! ## Bulk writes: the words written -/

theorem roundUp_eq (n : Nat) : roundUp n = 4 * (n / 4) + (if n % 4 = 0 then 0 else 4) := by
  unfold roundUp; split <;> omega

/-- The full groups of a bulk write: the words written, the words left (R116). -/
theorem groups_word (s : State) (a : Agent) (r : Region) {off : Nat} (h m : Nat) (ho : off % 4 = 0) :
    (∀ r' x, x % 4 = 0 → ¬(r' = r ∧ off ≤ x ∧ x < off + 4 * m) →
        (unitsLoop (groupUnit a r off h) 0 m s).word r' x = s.word r' x) ∧
      ∀ k < m, s.inaccessible r (off + 4 * k) = false → s.isIsr r (off + 4 * k) = false →
        (unitsLoop (groupUnit a r off h) 0 m s).word r (off + 4 * k) =
          s.overlay r (off + 4 * k) (Memory.readWord s.hm (h + 4 * k)) := by
  have key := unitsLoop_induct_zero (f := groupUnit a r off h) (n := m) (s := s)
    (P := fun k t => (∀ r' x, t.inaccessible r' x = s.inaccessible r' x) ∧ (∀ r' x, t.isIsr r' x = s.isIsr r' x) ∧
      t.cfg = s.cfg ∧ t.pmhw = s.pmhw ∧ t.hm = s.hm ∧
      (∀ r' x, x % 4 = 0 → ¬(r' = r ∧ off ≤ x ∧ x < off + 4 * k) → t.word r' x = s.word r' x) ∧
      ∀ j < k, s.inaccessible r (off + 4 * j) = false → s.isIsr r (off + 4 * j) = false →
        t.word r (off + 4 * j) = s.overlay r (off + 4 * j) (Memory.readWord s.hm (h + 4 * j)))
    ⟨fun _ _ => rfl, fun _ _ => rfl, rfl, rfl, rfl, fun _ _ _ _ => rfl, fun i hi => absurd hi (by omega)⟩ (by
      rintro k t - ⟨h1, h2, h3, h4, h5, h6, h7⟩
      refine ⟨fun r' x => by simp [h1], fun r' x => by simp [h2], by simp [h3], by simp [h4], by simp [h5],
        fun r' x hx hn => ?_, fun j hj ha hi => ?_⟩
      · rw [groupUnit, State.word_write32_other _ _ _ (by omega) hx, h6 r' x hx]
        · exact fun e => hn ⟨e.1, e.2.1, by omega⟩
        · rintro ⟨rfl, rfl⟩
          exact hn ⟨rfl, by omega, by omega⟩
      · by_cases hk : j = k
        · subst hk
          rw [groupUnit, State.word_write32_same _ _ _ (by rw [h1]; exact ha) (by rw [h2]; exact hi), h5,
            State.overlay_congr h3 h4]
        · rw [groupUnit, State.word_write32_other _ _ _ (by omega) (by omega) (by rintro ⟨-, e⟩; omega)]
          exact h7 j (by omega) ha hi)
  exact ⟨key.2.2.2.2.2.1, key.2.2.2.2.2.2⟩

theorem tailBytes_byte (m : Memory) (h n i : Nat) (hi : i < n) (hn : n < 4) :
    wordByte (tailBytes m h n) i = Memory.read m (h + i) := by
  rw [tailBytes, wordByte_wordOf _ _ _ _ _ (by omega)]
  obtain rfl | rfl | rfl : i = 0 ∨ i = 1 ∨ i = 2 := by omega
  all_goals simp [show 0 < n by omega]
  all_goals omega

/-- The payload bytes of the padded tail word, whatever the pad (R116). -/
theorem tailWord_byte (m : Memory) (h n i : Nat) (pad : Word) (hi : i < n) (hn : n < 4) :
    wordByte (tailWord m h n pad) i = Memory.read m (h + i) := by
  rw [← tailBytes_byte m h n i hi hn]
  ext k hk
  simp only [wordByte, tailWord, ← BitVec.getLsbD_eq_getElem, BitVec.getLsbD_extractLsb', BitVec.getLsbD_or,
    BitVec.getLsbD_shiftLeft, hk, decide_true, Bool.true_and]
  simp [show 8 * i + k < 8 * n by omega]

/-- The words of a bulk write (R116): everything outside the rounded range keeps, the full groups hold the source's words,
the tail word holds the remaining payload bytes. -/
theorem State.bulkIn_word_other (s : State) (a : Agent) {r r' : Region} {off x : Nat} (h n : Nat) (ho : off % 4 = 0)
    (hx : x % 4 = 0) (hn : ¬(r' = r ∧ off ≤ x ∧ x < off + roundUp n)) :
    (s.bulkIn a r off h n).word r' x = s.word r' x := by
  have hg := (groups_word s a r h (n / 4) ho).1 r' x hx
  have hr := roundUp_eq n
  unfold State.bulkIn tailStep
  split
  · rename_i h0
    exact hg (fun e => hn ⟨e.1, e.2.1, by rw [hr, if_pos h0]; omega⟩)
  · rename_i h0
    rw [if_neg h0] at hr
    rw [State.word_write32_other _ _ _ (by omega) hx, State.draw_word]
    · exact hg (fun e => hn ⟨e.1, e.2.1, by omega⟩)
    · rintro ⟨e, e'⟩
      exact hn ⟨e, by omega, by omega⟩

theorem State.bulkIn_word_full (s : State) (a : Agent) {r : Region} {off : Nat} (h n k : Nat) (ho : off % 4 = 0)
    (hk : k < n / 4) (ha : s.inaccessible r (off + 4 * k) = false) (hi : s.isIsr r (off + 4 * k) = false) :
    (s.bulkIn a r off h n).word r (off + 4 * k) = s.overlay r (off + 4 * k) (Memory.readWord s.hm (h + 4 * k)) := by
  have hg := (groups_word s a r h (n / 4) ho).2 k hk ha hi
  unfold State.bulkIn tailStep
  split
  · exact hg
  · rw [State.word_write32_other _ _ _ (by omega) (by omega) (by rintro ⟨-, e⟩; omega), State.draw_word]
    exact hg

theorem State.bulkIn_word_tail (s : State) (a : Agent) {r : Region} {off : Nat} (h n : Nat)
    (hn : n % 4 ≠ 0) (ha : s.inaccessible r (off + 4 * (n / 4)) = false) (hi : s.isIsr r (off + 4 * (n / 4)) = false) :
    ∃ pad, (s.bulkIn a r off h n).word r (off + 4 * (n / 4)) =
      s.overlay r (off + 4 * (n / 4)) (tailWord s.hm (h + 4 * (n / 4)) (n % 4) pad) := by
  have hm : (unitsLoop (groupUnit a r off h) 0 (n / 4) s).hm = s.hm := unitsLoop_keeps (·.hm) (by simp) 0 _ s
  refine ⟨(unitsLoop (groupUnit a r off h) 0 (n / 4) s).draw.1, ?_⟩
  unfold State.bulkIn tailStep
  rw [if_neg hn, State.word_write32_same, hm]
  · exact State.overlay_congr (by simpa using unitsLoop_keeps (·.cfg) (by simp) 0 _ s)
      (by simpa using unitsLoop_keeps (·.pmhw) (by simp) 0 _ s) _ _ _
  · have := unitsLoop_keeps (f := groupUnit a r off h) (·.inaccessible r (off + 4 * (n / 4))) (by simp) 0 (n / 4) s
    simpa [this] using ha
  · have := unitsLoop_keeps (f := groupUnit a r off h) (·.isIsr r (off + 4 * (n / 4))) (by simp) 0 (n / 4) s
    simpa [this] using hi

/-- The bytes of a bulk write outside the rounded range (R116, R118). -/
theorem State.bulkIn_byteAt_other (s : State) (a : Agent) {r r' : Region} {off x : Nat} (h n : Nat) (ho : off % 4 = 0)
    (hn : ¬(r' = r ∧ off ≤ x ∧ x < off + roundUp n)) : (s.bulkIn a r off h n).byteAt r' x = s.byteAt r' x := by
  rw [State.byteAt, State.byteAt, State.bulkIn_word_other s a h n ho (by omega)]
  rintro ⟨e, h1, h2⟩
  exact hn ⟨e, by omega, by unfold roundUp at *; omega⟩

/-- The payload bytes of a bulk write: each is the source's byte, whatever the pad (R116, R117). -/
theorem State.bulkIn_byteAt_payload (s : State) (a : Agent) {r : Region} {off : Nat} (h n i : Nat) (ho : off % 4 = 0)
    (hi : i < n) (ha : s.inaccessible r (off + i - i % 4) = false) (hs : s.isIsr r (off + i - i % 4) = false)
    (hp : s.isPm r (off + i - i % 4) = false) :
    (s.bulkIn a r off h n).byteAt r (off + i) = Memory.read s.hm (h + i) := by
  have e1 : off + i - (off + i) % 4 = off + 4 * (i / 4) := by omega
  have e2 : off + i - i % 4 = off + 4 * (i / 4) := by omega
  have e3 : (off + i) % 4 = i % 4 := by omega
  rw [e2] at ha hs hp
  have hov : ∀ w, s.overlay r (off + 4 * (i / 4)) w = w := by simp [State.overlay, hp]
  rw [State.byteAt, e1, e3]
  by_cases hf : i / 4 < n / 4
  · rw [State.bulkIn_word_full s a h n _ ho hf ha hs, hov, Memory.wordByte_readWord _ _ _ (by omega)]
    congr 1; omega
  · have hq : i / 4 = n / 4 := by omega
    rw [hq] at ha hs hov ⊢
    obtain ⟨pad, hpad⟩ := State.bulkIn_word_tail s a (off := off) h n (by omega) ha hs
    rw [hpad, hov, tailWord_byte _ _ _ _ _ (by omega) (by omega)]
    congr 1; omega

/-- Plain memory outside the rounded range of a bulk write. -/
theorem State.read_mem_bulkIn (s : State) (a : Agent) {r r' : Region} {off x : Nat} (h n : Nat)
    (hn : ¬(r' = r ∧ off ≤ x ∧ x < off + roundUp n)) :
    Memory.read ((s.bulkIn a r off h n).mem r') x = Memory.read (s.mem r') x := by
  have hr := roundUp_eq n
  have hg : ∀ m, ¬(r' = r ∧ off ≤ x ∧ x < off + 4 * m) →
      Memory.read ((unitsLoop (groupUnit a r off h) 0 m s).mem r') x = Memory.read (s.mem r') x := by
    intro m hm
    refine unitsLoop_induct_zero (P := fun _ t => Memory.read (t.mem r') x = Memory.read (s.mem r') x) rfl ?_
    intro k t hk ht
    rw [groupUnit, State.read_mem_write32 _ _ _ _, ht]
    exact fun e => hm ⟨e.1, by omega, by omega⟩
  unfold State.bulkIn tailStep
  split
  · rename_i h0
    exact hg _ (fun e => hn ⟨e.1, e.2.1, by rw [hr, if_pos h0]; omega⟩)
  · rename_i h0
    rw [if_neg h0] at hr
    rw [State.read_mem_write32 _ _ _ (fun e => hn ⟨e.1, by omega, by omega⟩), State.draw_mem]
    exact hg _ (fun e => hn ⟨e.1, e.2.1, by omega⟩)

/-- A register outside the rounded range of a bulk write. -/
theorem State.regs_get_bulkIn (s : State) (a : Agent) {r : Region} {off : Nat} (h n : Nat) {g : DevReg}
    (hn : ¬(r = .dsp ∧ off ≤ regOff s.cfg g ∧ regOff s.cfg g < off + roundUp n)) :
    (s.bulkIn a r off h n).regs.get g = s.regs.get g := by
  have hr := roundUp_eq n
  have hne : ∀ (t : State) k, t.cfg = s.cfg → off + 4 * k < off + roundUp n → regAt t.cfg r (off + 4 * k) ≠ some g := by
    intro t k ht hk e
    rw [ht] at e
    obtain ⟨e1, e2⟩ := regAt_some e
    exact hn ⟨e1, by omega, by omega⟩
  have hg := unitsLoop_induct_zero (f := groupUnit a r off h) (n := n / 4) (s := s)
    (P := fun _ t => t.cfg = s.cfg ∧ t.regs.get g = s.regs.get g) ⟨rfl, rfl⟩ (by
      rintro k t hk ⟨h1, h2⟩
      refine ⟨by simp [h1], ?_⟩
      rw [groupUnit, State.regs_get_write32 _ _ _ (hne t k h1 (by rw [hr]; split <;> omega)), h2])
  unfold State.bulkIn tailStep
  split
  · exact hg.2
  · rename_i h0
    rw [if_neg h0] at hr
    rw [State.regs_get_write32 _ _ _ (hne _ _ (by simpa using hg.1) (by omega)), State.draw_regs]
    exact hg.2


end Sys2Proof.Machine
end

