-- ==== Sys2Proof/Laws/Run.lean ====
section
/-! SUPPORT. How a listing runs: each entry in one lemma, a listing entry by entry, an operation from its presentation to its
end. Proofs about an instruction cite these and never unfold the runner. -/

namespace Sys2Proof.Machine

/-! ## Lists of entries -/

@[simp] theorem runList_nil (f : Micro → State → Flow) (s : State) : runList f [] s = .go s := rfl

theorem runList_cons (f : Micro → State → Flow) (m : Micro) (ms : List Micro) (s : State) :
    runList f (m :: ms) s =
      match f m s with
      | .go s' => runList f ms s'
      | .raised s' => runFrom f true ms s'
      | .blocked rest s' => .blocked (rest ++ ms) s'
      | .refuse r => .refuse r := by
  cases h : f m s <;> simp [runList, runFrom, h]

/-- An entry that is done is followed by the rest of the listing. -/
theorem runList_go {f : Micro → State → Flow} {m : Micro} {s s' : State} (h : f m s = .go s') (ms : List Micro) :
    runList f (m :: ms) s = runList f ms s' := by rw [runList_cons, h]

/-- An entry that raises an error. -/
theorem runList_raised {f : Micro → State → Flow} {m : Micro} {s s' : State} (h : f m s = .raised s') (ms : List Micro) :
    runList f (m :: ms) s = runFrom f true ms s' := by rw [runList_cons, h]

/-- An entry that has to wait. -/
theorem runList_blocked {f : Micro → State → Flow} {m : Micro} {s s' : State} {rest : List Micro}
    (h : f m s = .blocked rest s') (ms : List Micro) : runList f (m :: ms) s = .blocked (rest ++ ms) s' := by
  rw [runList_cons, h]

/-- An entry that refuses. -/
theorem runList_refuse {f : Micro → State → Flow} {m : Micro} {s : State} {r : Refusal} (h : f m s = .refuse r)
    (ms : List Micro) : runList f (m :: ms) s = .refuse r := by rw [runList_cons, h]

/-- After an error the entries before the closing one are not performed (R17). -/
theorem runFrom_raised_skip {f : Micro → State → Flow} {m : Micro} (h : m.closes = false) (ms : List Micro) (s : State) :
    runFrom f true (m :: ms) s = runFrom f true ms s := by
  simp [runFrom, h]

/-- The closing entry is performed after an error. -/
theorem runFrom_raised_close {f : Micro → State → Flow} {m : Micro} {s s' : State} (h : m.closes = true)
    (hf : f m s = .go s') (ms : List Micro) : runFrom f true (m :: ms) s = runList f ms s' := by
  simp [runFrom, h, hf, runList]

/-- After an error a listing none of whose entries closes is passed over (R17). -/
theorem runFrom_raised_append {f : Micro → State → Flow} {ms : List Micro} (h : ∀ m ∈ ms, m.closes = false)
    (ns : List Micro) (s : State) : runFrom f true (ms ++ ns) s = runFrom f true ns s := by
  induction ms with
  | nil => rfl
  | cons m ms ih =>
    rw [List.cons_append, runFrom_raised_skip (h m (by simp))]
    exact ih (fun x hx => h x (by simp [hx]))

theorem runFrom_append {f : Micro → State → Flow} {k : Bool} {ms : List Micro} {s s' : State}
    (h : runFrom f k ms s = .go s') (ns : List Micro) : runFrom f k (ms ++ ns) s = runFrom f false ns s' := by
  induction ms generalizing k s with
  | nil => cases k <;> simp [runFrom] at h; subst h; rfl
  | cons x l ih =>
    rw [List.cons_append]
    by_cases hk : (k && !x.closes) = true
    · simp only [runFrom, hk, if_true] at h ⊢; exact ih h
    · simp only [runFrom, hk] at h ⊢
      cases ex : f x s with
      | go w => rw [ex] at h; exact ih h
      | raised w => rw [ex] at h; exact ih h
      | blocked _ _ => rw [ex] at h; simp at h
      | refuse _ => rw [ex] at h; simp at h

theorem runFrom_append_raised {f : Micro → State → Flow} {k : Bool} {ms : List Micro} {s s' : State}
    (h : runFrom f k ms s = .raised s') (ns : List Micro) : runFrom f k (ms ++ ns) s = runFrom f true ns s' := by
  induction ms generalizing k s with
  | nil => cases k <;> simp [runFrom] at h; subst h; rfl
  | cons x l ih =>
    rw [List.cons_append]
    by_cases hk : (k && !x.closes) = true
    · simp only [runFrom, hk, if_true] at h ⊢; exact ih h
    · simp only [runFrom, hk] at h ⊢
      cases ex : f x s with
      | go w => rw [ex] at h; exact ih h
      | raised w => rw [ex] at h; exact ih h
      | blocked _ _ => rw [ex] at h; simp at h
      | refuse _ => rw [ex] at h; simp at h

theorem runFrom_append_blocked {f : Micro → State → Flow} {k : Bool} {ms rest : List Micro} {s s' : State}
    (h : runFrom f k ms s = .blocked rest s') (ns : List Micro) : runFrom f k (ms ++ ns) s = .blocked (rest ++ ns) s' := by
  induction ms generalizing k s with
  | nil => cases k <;> simp [runFrom] at h
  | cons x l ih =>
    rw [List.cons_append]
    by_cases hk : (k && !x.closes) = true
    · simp only [runFrom, hk, if_true] at h ⊢; exact ih h
    · simp only [runFrom, hk] at h ⊢
      cases ex : f x s with
      | go w => rw [ex] at h; exact ih h
      | raised w => rw [ex] at h; exact ih h
      | blocked r w =>
        rw [ex] at h
        simp only [Bool.false_eq_true, if_false, Flow.blocked.injEq] at h ⊢
        simp [← h.1, ← h.2]
      | refuse _ => rw [ex] at h; simp at h

theorem runFrom_append_refuse {f : Micro → State → Flow} {k : Bool} {ms : List Micro} {s : State} {r : Refusal}
    (h : runFrom f k ms s = .refuse r) (ns : List Micro) : runFrom f k (ms ++ ns) s = .refuse r := by
  induction ms generalizing k s with
  | nil => cases k <;> simp [runFrom] at h
  | cons x l ih =>
    rw [List.cons_append]
    by_cases hk : (k && !x.closes) = true
    · simp only [runFrom, hk, if_true] at h ⊢; exact ih h
    · simp only [runFrom, hk] at h ⊢
      cases ex : f x s with
      | go w => rw [ex] at h; exact ih h
      | raised w => rw [ex] at h; exact ih h
      | blocked r w => rw [ex] at h; simp at h
      | refuse _ => rw [ex] at h; exact h

/-- A listing in two parts. -/
theorem runList_append {f : Micro → State → Flow} {ms : List Micro} {s s' : State} (h : runList f ms s = .go s')
    (ns : List Micro) : runList f (ms ++ ns) s = runList f ns s' := runFrom_append h ns

/-! ## Entries -/

/-- The entries that `entire` takes through a loop of its own. -/
def Micro.looped : Micro → Bool
  | .copyIn _ _ _ _ | .copyOut _ _ _ _ | .poll _ | .pollWait _ | .windows _ _ => true
  | _ => false

/-- An entry of one micro-step. -/
theorem entire_of_unit {a : Agent} {m : Micro} {s s' : State} (d : Nat) (h : unit a 0 m s = .to [] s')
    (hm : m.looped = false) : entire d a m s = .go s' := by
  cases d with
  | zero => simp [entire, h]
  | succ d =>
    cases m <;> first
      | (simp [Micro.looped] at hm; done)
      | simp [entire, h]

@[simp] theorem entire_read (d : Nat) (a : Agent) (r : Region) (off : Nat) (sl : Slot) (s : State) :
    entire d a (.read r off sl) s = .go (readStep a r off sl s) := by cases d <;> rfl
@[simp] theorem entire_write (d : Nat) (a : Agent) (r : Region) (off : Nat) (v : Word) (s : State) :
    entire d a (.write r off v) s = .go (s.write32 a r off v) := by cases d <;> rfl
@[simp] theorem entire_merge (d : Nat) (a : Agent) (r : Region) (off : Nat) (m v : Word) (s : State) :
    entire d a (.merge r off m v) s = .go (mergeStep a r off m v s) := by cases d <;> rfl
@[simp] theorem entire_tail (d : Nat) (a : Agent) (r : Region) (off h n : Nat) (s : State) :
    entire d a (.tail r off h n) s = .go (tailStep a r off h n s) := by cases d <;> rfl
@[simp] theorem entire_delay (d : Nat) (a : Agent) (ms : Nat) (s : State) :
    entire d a (.delay ms) s = .go (s.delay a ms) := by cases d <;> rfl
@[simp] theorem entire_release (d : Nat) (a : Agent)  (s : State) :
    entire d a (.release) s = .go ({ s with lock := none }) := by cases d <;> rfl
@[simp] theorem entire_emit (d : Nat) (a : Agent) (e : Event) (s : State) :
    entire d a (.emit e) s = .go (s.emit e) := by cases d <;> rfl
@[simp] theorem entire_ctx (d : Nat) (a : Agent) (m : CtxMove) (s : State) :
    entire d a (.ctx m) s = .go (ctxStep s m) := by cases d <;> rfl
@[simp] theorem entire_pwr (d : Nat) (a : Agent) (m : PwrMove) (s : State) :
    entire d a (.pwr m) s = .go (pwrStep s m) := by cases d <;> rfl
@[simp] theorem entire_ok (d : Nat) (a : Agent)  (s : State) :
    entire d a (.ok) s = .go (s.result a .ok 0) := by cases d <;> rfl
@[simp] theorem entire_result0 (d : Nat) (a : Agent)  (s : State) :
    entire d a (.result0) s = .go (result0Step a s) := by cases d <;> rfl
@[simp] theorem entire_result01 (d : Nat) (a : Agent)  (s : State) :
    entire d a (.result01) s = .go (result01Step a s) := by cases d <;> rfl
@[simp] theorem entire_judge (d : Nat) (a : Agent) (x : Word) (s : State) :
    entire d a (.judge x) s = .go (judgeStep a x s) := by cases d <;> rfl
@[simp] theorem entire_replyResult (d : Nat) (a : Agent)  (s : State) :
    entire d a (.replyResult) s = .go (replyResultStep a s) := by cases d <;> rfl
@[simp] theorem entire_setWork (d : Nat) (a : Agent)  (s : State) :
    entire d a (.setWork) s = .go (s.setLoc a { s.loc a with work := true }) := by cases d <;> rfl
@[simp] theorem entire_wakeOrNone (d : Nat) (a : Agent)  (s : State) :
    entire d a (.wakeOrNone) s = .go (wakeStep a s) := by cases d <;> rfl
@[simp] theorem entire_clearPending (d : Nat) (a : Agent)  (s : State) :
    entire d a (.clearPending) s = .go ({ s with deferPending := false }) := by cases d <;> rfl
@[simp] theorem entire_emitReply (d : Nat) (a : Agent)  (s : State) :
    entire d a (.emitReply) s = .go (emitReplyStep a s) := by cases d <;> rfl
@[simp] theorem entire_emitMsg (d : Nat) (a : Agent)  (s : State) :
    entire d a (.emitMsg) s = .go (s.emit (.msg (s.loc a).cmdi)) := by cases d <;> rfl
@[simp] theorem entire_ret (d : Nat) (a : Agent) (o n : Word) (s : State) :
    entire d a (.ret o n) s = .go (s.unnest a o n) := by cases d <;> rfl
@[simp] theorem entire_armEnd (d : Nat) (a : Agent) (k : Nat) (s : State) :
    entire d a (.armEnd k) s = .go s := by cases d <;> rfl
@[simp] theorem entire_handled (d : Nat) (a : Agent)  (s : State) :
    entire d a (.handled) s = .go (s.irqReturn irqHandled) := by cases d <;> rfl
@[simp] theorem entire_fwrOutbox (d : Nat) (a : Agent)  (s : State) :
    entire d a (.fwrOutbox) s = .go (ctxStep s (.outbox (declaredBox s.cfg (s.loc a).buf s.cfg.fwr.hbOffAt s.cfg.fwr.hbSizeAt))) := by cases d <;> rfl
@[simp] theorem entire_fwrInbox (d : Nat) (a : Agent)  (s : State) :
    entire d a (.fwrInbox) s = .go (ctxStep s (.inbox (declaredBox s.cfg (s.loc a).buf s.cfg.fwr.dbOffAt s.cfg.fwr.dbSizeAt))) := by cases d <;> rfl
@[simp] theorem entire_fwrVersion (d : Nat) (a : Agent)  (s : State) :
    entire d a (.fwrVersion) s = .go (s.emit (.version (Memory.readBytes (s.loc a).buf s.cfg.fwr.verAt s.cfg.fwr.verLen))) := by cases d <;> rfl
@[simp] theorem entire_capBegin (d : Nat) (a : Agent) (x : Option (Word × Word × Word)) (s : State) :
    entire d a (.capBegin x) s = .go (capBeginStep a x s) := by cases d <;> rfl
@[simp] theorem entire_capEmit (d : Nat) (a : Agent)  (s : State) :
    entire d a (.capEmit) s = .go (capEmitStep a s) := by cases d <;> rfl
@[simp] theorem entire_idle (d : Nat) (a : Agent)  (s : State) :
    entire d a (.idle) s = .go (s.finish a) := by cases d <;> rfl

/-- `Acquire` of a free lock (R17). -/
theorem entire_acquire (d : Nat) (a : Agent) {s : State} (h : s.lock = none) :
    entire d a .acquire s = .go { s with lock := some a } := by
  cases d <;> simp [entire, unit, acquireStep, h]

/-- `Acquire` of a lock that has an owner waits (R17, R82). -/
theorem entire_acquire_wait (d : Nat) (a b : Agent) {s : State} (h : s.lock = some b) :
    entire d a .acquire s = .blocked [.acquire] s := by
  cases d <;> simp [entire, unit, acquireStep, h]

/-- `raise` (R17). -/
@[simp] theorem entire_raise (d : Nat) (a : Agent) (k : Kind) (v : Word) (s : State) :
    entire d a (.raise k v) s = .raised (s.raise a k v) := by cases d <;> rfl

/-- A conditional whose test fails. -/
theorem entire_given_false (d : Nat) (a : Agent) {c : Cond} {s : State} (h : c.holds s.cfg (s.loc a) = false) :
    entire d a (.given c) s = .go s := by cases d <;> simp [entire, unit, h]

/-- A conditional whose test holds. -/
theorem entire_given_true (d : Nat) (a : Agent) {c : Cond} {s : State} (h : c.holds s.cfg (s.loc a) = true) :
    entire (d + 1) a (.given c) s = runList (entire d a) (guarded s.cfg c) s := by simp [entire, unit, h]

@[simp] theorem entire_copyIn (d : Nat) (a : Agent) (r : Region) (off h : Nat) (p : List Span) (s : State) :
    entire (d + 1) a (.copyIn r off h p) s = .go (spansLoop (groupUnit a r off h) p s) := rfl

@[simp] theorem entire_copyOut (d : Nat) (a : Agent) (r : Region) (off : Nat) (dst : Dest) (p : List Span) (s : State) :
    entire (d + 1) a (.copyOut r off dst p) s = .go (spansLoop (byteUnit a r off dst) p s) := rfl

@[simp] theorem entire_poll (d : Nat) (a : Agent) (n : Nat) (s : State) :
    entire (d + 1) a (.poll n) s = pollAll a n s := rfl

/-- The delay of the poll loop and the rest of the loop. -/
@[simp] theorem entire_pollWait (d : Nat) (a : Agent) (n : Nat) (s : State) :
    entire (d + 1) a (.pollWait n) s = pollAll a n (s.delay a tPoll) := rfl

@[simp] theorem entire_windows (d : Nat) (a : Agent) (k n : Nat) (s : State) :
    entire (d + 1) a (.windows k n) s = windowsAll (entire d a) k n s := rfl

/-- The two reads of `READ64`, low half first. -/
@[simp] theorem entire_read64 (d : Nat) (a : Agent) (r : Region) (off : Nat) (s : State) :
    entire (d + 1) a (.read64 r off) s = .go (readStep a r (off + 4) .hi (readStep a r off .lo s)) := by
  simp [entire, unit, read64Step, runList_cons]

/-- The two writes of `WRITE64`, low half first. -/
@[simp] theorem entire_write64 (d : Nat) (a : Agent) (r : Region) (off : Nat) (lo hi : Word) (s : State) :
    entire (d + 1) a (.write64 r off lo hi) s = .go ((s.write32 a r off lo).write32 a r (off + 4) hi) := by
  simp [entire, unit, write64Step, runList_cons]

/-- A bulk read. -/
theorem runList_bulkRead (d : Nat) (a : Agent) (r : Region) (off : Nat) (dst : Dest) (n : Nat) (ms : List Micro)
    (s : State) : runList (entire (d + 1) a) (bulkRead r off dst n ++ ms) s =
      runList (entire (d + 1) a) ms (s.bulkOut a r off dst n) := by
  by_cases h : n = 0 <;> simp [bulkRead, runList_cons, spansLoop, State.bulkOut, unitsLoop, h]

/-- A bulk write. -/
theorem runList_bulkWrite (d : Nat) (a : Agent) (r : Region) (off h n : Nat) (ms : List Micro) (s : State) :
    runList (entire (d + 1) a) (bulkWrite r off h n ++ ms) s =
      runList (entire (d + 1) a) ms (s.bulkIn a r off h n) := by
  by_cases h1 : n / 4 = 0 <;> by_cases h2 : n % 4 = 0 <;>
    simp only [bulkWrite, h1, h2, if_true, if_false, List.nil_append, List.cons_append, runList_cons,
      entire_copyIn, entire_tail, spansLoop, State.bulkIn, unitsLoop, tailStep, List.foldl_cons, List.foldl_nil]

/-- An entry that goes on to further entries. -/
theorem entire_orRefuse_none (d : Nat) (a : Agent) {m : Micro} {b : Option Breach} {ms : List Micro} {s s' : State}
    (hu : unit a 0 m s = orRefuse b (.to ms s')) (hb : b = none)
    (hm : m.looped = false) :
    entire (d + 1) a m s = runList (entire d a) ms s' := by
  have hu' : unit a 0 m s = .to ms s' := by rw [hu, hb]; rfl
  cases m <;> first
    | (simp [Micro.looped] at hm; done)
    | simp [entire, hu']

/-- M1 and M2 (R163), and all of `MBOXWR` (R161). -/
theorem entire_boxWrite (d : Nat) (a : Agent) {b h n : Word} {s : State}
    (hb : boxWriteBreach s.cfg s.ctx.outbox b.toNat n.toNat = none) :
    entire (d + 2) a (.boxWrite b h n) s =
      .go (s.bulkIn a .dsp (s.ctx.outbox.off + b.toNat) h.toNat n.toNat) := by
  rw [entire_orRefuse_none (d + 1) a rfl hb rfl]
  simpa using runList_bulkWrite d a .dsp (s.ctx.outbox.off + b.toNat) h.toNat n.toNat [] s

/-- `MBOXRD` (R162). -/
theorem entire_boxRead (d : Nat) (a : Agent) {b h n : Word} {s : State}
    (hb : boxReadBreach s.cfg s.ctx.inbox b.toNat n.toNat = none) :
    entire (d + 2) a (.boxRead b h n) s =
      .go (s.bulkOut a .dsp (s.ctx.inbox.off + b.toNat) (.host h.toNat) n.toNat) := by
  rw [entire_orRefuse_none (d + 1) a rfl hb rfl]
  simpa using runList_bulkRead d a .dsp (s.ctx.inbox.off + b.toNat) (.host h.toNat) n.toNat [] s

/-- P1 and P2 (R164). -/
theorem entire_header (d : Nat) (a : Agent) {s : State}
    (hb : boxReadBreach s.cfg s.ctx.outbox 0 s.cfg.rhSize = none) :
    entire (d + 2) a .header s =
      .go ((s.setLoc a { s.loc a with box := s.ctx.outbox }).bulkOut a .dsp s.ctx.outbox.off (.buf 0) s.cfg.rhSize) := by
  rw [entire_orRefuse_none (d + 1) a rfl hb rfl]
  simpa using runList_bulkRead d a .dsp s.ctx.outbox.off (.buf 0) s.cfg.rhSize [] (s.setLoc a { s.loc a with box := s.ctx.outbox })

/-- P5 (R164). -/
theorem entire_readBack (d : Nat) (a : Agent) {h : Word} {s : State}
    (hb : readBackBreach s.cfg (s.loc a).box h.toNat (s.loc a).size = none) :
    entire (d + 2) a (.readBack h) s =
      .go (s.bulkOut a .dsp (s.loc a).box.off (.host h.toNat) (s.loc a).size) := by
  rw [entire_orRefuse_none (d + 1) a rfl hb rfl]
  simpa using runList_bulkRead d a .dsp (s.loc a).box.off (.host h.toNat) (s.loc a).size [] s

theorem entire_fetch (d : Nat) (a : Agent) {m : Micro} {off at' n : Nat} {s : State}
    (hu : unit a 0 m s = fetchStep s.cfg off at' n s) (hb : regionFits s.cfg .dsp off n = true)
    (hm : m.looped = false) :
    entire (d + 2) a m s = .go (s.bulkOut a .dsp off (.buf at') n) := by
  rw [entire_orRefuse_none (d + 1) a (hu.trans rfl) (by simp [hb]) hm]
  simpa using runList_bulkRead d a .dsp off (.buf at') n [] s

/-- W3a (R189). -/
theorem entire_hdrRead (d : Nat) (a : Agent) {s : State} (hb : regionFits s.cfg .dsp s.ctx.outbox.off s.cfg.rhSize = true) :
    entire (d + 2) a .hdrRead s = .go (s.bulkOut a .dsp s.ctx.outbox.off (.buf 0) s.cfg.rhSize) :=
  entire_fetch d a rfl hb rfl

/-- F2 (R212). -/
theorem entire_fwrRead (d : Nat) (a : Agent) {s : State} (hb : regionFits s.cfg .dsp (s.loc a).fbase s.cfg.fwr.size = true) :
    entire (d + 2) a .fwrRead s =
      .go (s.bulkOut a .dsp (s.loc a).fbase (.buf 0) s.cfg.fwr.size) :=
  entire_fetch d a rfl hb rfl

/-- The read of window element `k` (R212 F6). -/
theorem entire_winRead (d : Nat) (a : Agent) {k : Nat} {s : State}
    (hb : regionFits s.cfg .dsp ((s.loc a).winOff + k * s.cfg.fwr.elemSize) s.cfg.fwr.elemSize = true) :
    entire (d + 2) a (.winRead k) s =
      .go (s.bulkOut a .dsp ((s.loc a).winOff + k * s.cfg.fwr.elemSize) (.buf 0) s.cfg.fwr.elemSize) :=
  entire_fetch d a rfl hb rfl

/-- X2 (R220). -/
theorem entire_capSnap (d : Nat) (a : Agent) {s : State} (hb : regionFits s.cfg .dsp (s.loc a).used s.cfg.xoopsSize = true) :
    entire (d + 2) a .capSnap s =
      .go (s.bulkOut a .dsp (s.loc a).used (.buf 0) s.cfg.xoopsSize) :=
  entire_fetch d a rfl hb rfl

/-- X3 (R220). -/
theorem entire_capStack (d : Nat) (a : Agent) {s : State}
    (hb : regionFits s.cfg .dsp ((s.loc a).used + s.cfg.xoopsSize) (4 * s.cfg.stackWords) = true) :
    entire (d + 2) a .capStack s =
      .go (s.bulkOut a .dsp ((s.loc a).used + s.cfg.xoopsSize) (.buf s.cfg.xoopsSize) (4 * s.cfg.stackWords)) :=
  entire_fetch d a rfl hb rfl

/-- F1 and the base of F2 (R212). -/
theorem entire_fwrBegin (d : Nat) (a : Agent) {s : State} (h : s.ctx.fwrDone = false) :
    entire d a .fwrBegin s =
      .go ((ctxStep s .fwrDone).setLoc a { s.loc a with fbase := s.ctx.inbox.off + s.cfg.fwrOff }) := by
  cases d <;> simp [entire, unit, fwrBeginStep, h]

/-- F5 and all of F6 (R212). -/
theorem entire_fwrExtdata (d : Nat) (a : Agent) (s : State) :
    entire (d + 2) a .fwrExtdata s =
      windowsAll (entire d a) 0 (winTable s.cfg.winTableOf ((s.loc a).fbase + s.cfg.fwr.size)).2
        ((s.emit (.extdata ((s.loc a).fbase + s.cfg.fwr.size))).setLoc a
          { s.loc a with winOff := (winTable s.cfg.winTableOf ((s.loc a).fbase + s.cfg.fwr.size)).1 }) := by
  simp only [entire, unit, fwrExtdataStep, runList_cons]
  cases windowsAll (entire d a) 0 _ _ <;> simp [runFrom]

/-- F7 (R212) when no box has size 0. -/
theorem entire_zeroBox (d : Nat) (a : Agent) {s : State} (hi : s.ctx.inbox.size ≠ 0) (ho : s.ctx.outbox.size ≠ 0) :
    entire d a .zeroBox s = .go s := by
  cases d <;> simp [entire, unit, zeroBoxStep, hi, ho]

/-- F7 (R212, R234) when a box has size 0. -/
theorem entire_zeroBox_raise (d : Nat) (a : Agent) {s : State} (h : s.ctx.inbox.size = 0 ∨ s.ctx.outbox.size = 0) :
    entire (d + 1) a .zeroBox s = .raised ((s.emit (.log .configZeroBox 0)).raise a .configZeroBox 0) := by
  simp [entire, unit, zeroBoxStep, h, runList_cons, runFrom]

/-- A consumer's call with none left to make returns at once (R252). -/
theorem entire_call_none (d : Nat) (a : Agent) {s : State} :
    (s.replyCalls = [] → entire d a (.call .reply) s = .go s) ∧
      (s.msgCalls = [] → entire d a (.call .message) s = .go s) := by
  constructor <;> intro h <;> cases d <;> simp [entire, unit, callStep, h]

/-! ## The sequencer -/

/-- Where the sequencer of an agent with an operation in progress moves on to. -/
theorem State.advance_eq {s : State} {a : Agent} {i : Instr} (h : (s.ex a).op = some i) (todo : List Micro) :
    s.advance a todo = s.setEx a { s.ex a with todo := todo, step := place s.cfg (s.loc a) i todo } := by
  rw [State.advance, h]
  simp [State.goto, State.setTodo]

/-- An idle agent's sequencer stays. -/
theorem State.advance_idle {s : State} {a : Agent} (h : (s.ex a).op = none) (todo : List Micro) : s.advance a todo = s := by
  rw [State.advance, h]

/-! ## Operations -/

/-- The port takes the operation when it may be presented and breaks no part of the caller's contract. -/
theorem portRefusal_eq_none {s : State} {i : Instr} (hp : Presentable s i) (hc : contractBreach s.cfg i = none) :
    portRefusal s s.presenter i = none := by
  obtain ⟨h1, h2, h3, h4⟩ := hp
  have h5 : (s.presenter == .host && s.halt) = false := by
    cases e : s.presenter <;> simp_all
  simp [portRefusal, h1, h2, h4, h5, hc, refusalOf]

/-- An operation whose listing runs to its end. -/
theorem perform_go {i : Instr} {ms : List Micro} {s t : State} (hp : portRefusal s s.presenter i = none)
    (h : runList (entire 8 s.presenter) ms (s.start s.presenter i []) = .go t) :
    perform i ms s = .next (t.finish s.presenter) := by
  simp [perform, hp, runAgent, runList_append h, runList_cons]

/-- An operation whose listing raises an error (R17, R230). -/
theorem perform_raised {i : Instr} {ms : List Micro} {s t : State} (hp : portRefusal s s.presenter i = none)
    (h : runList (entire 8 s.presenter) ms (s.start s.presenter i []) = .raised t) :
    perform i ms s = .next (t.finish s.presenter) := by
  have := runFrom_append_raised h [.idle]
  rw [runFrom_raised_close rfl (entire_idle 8 s.presenter t), runList_nil] at this
  simp only [perform, hp, runAgent, runList, this]

/-- An operation whose listing refuses (R67). -/
theorem perform_refuse {i : Instr} {ms : List Micro} {s : State} {r : Refusal} (hp : portRefusal s s.presenter i = none)
    (h : runList (entire 8 s.presenter) ms (s.start s.presenter i []) = .refuse r) : perform i ms s = .refused r := by
  simp only [perform, hp, runAgent, runList, runFrom_append_refuse h [.idle]]

end Sys2Proof.Machine
end

