-- ==== Sys2Proof/Laws/Keep.lean ====
section
/-! SUPPORT. How a property of states is shown to be kept: said once for the micro-steps, it holds of an entry, a listing, an
operation, a step. Invariants and frames over every instruction cite these and never unfold the runner. -/

namespace Sys2Proof.Machine

/-! ## Spans -/

/-- Unit `k` is one of those still to be made. -/
def inSpans (k : Nat) (pend : List Span) : Prop := ∃ p ∈ pend, p.base ≤ k ∧ k < p.base + p.len

/-- The unit taken is one of those still to be made, and so is every unit that is left. -/
theorem takeUnit_inSpans {pick : Nat} {pend rest : List Span} {k : Nat} (h : takeUnit pick pend = some (k, rest)) :
    inSpans k pend ∧ ∀ j, inSpans j rest → inSpans j pend := by
  induction pend generalizing pick rest k with
  | nil => simp [takeUnit] at h
  | cons p ps ih =>
    simp only [takeUnit] at h
    split at h
    · rename_i hp
      simp only [Option.some.injEq, Prod.mk.injEq] at h
      obtain ⟨rfl, rfl⟩ := h
      refine ⟨⟨p, by simp, by omega, by omega⟩, ?_⟩
      rintro j ⟨q, hq, h1, h2⟩
      simp only [List.mem_append] at hq
      rcases hq with (hq | hq) | hq
      · split at hq
        · simp at hq
        · simp only [List.mem_singleton] at hq
          subst hq
          exact ⟨p, by simp, by simpa using h1, by simp at h2; omega⟩
      · split at hq
        · simp at hq
        · simp only [List.mem_singleton] at hq
          subst hq
          exact ⟨p, by simp, by simp at h1; omega, by simp at h2; omega⟩
      · exact ⟨q, by simp [hq], h1, h2⟩
    · cases e : takeUnit (pick - p.len) ps with
      | none => rw [e] at h; simp at h
      | some x =>
        obtain ⟨k', rest'⟩ := x
        rw [e] at h
        simp only [Option.some.injEq, Prod.mk.injEq] at h
        obtain ⟨rfl, rfl⟩ := h
        obtain ⟨⟨q, hq, h1, h2⟩, h3⟩ := ih e
        refine ⟨⟨q, by simp [hq], h1, h2⟩, ?_⟩
        rintro j ⟨q, hq, h1, h2⟩
        rcases List.mem_cons.mp hq with rfl | hq
        · exact ⟨q, by simp, h1, h2⟩
        · obtain ⟨q', hq', h'⟩ := h3 j ⟨q, hq, h1, h2⟩
          exact ⟨q', by simp [hq'], h'⟩

/-! ## What is to be shown -/

/-- The property of the state that a micro-step leaves, and of the entries it leaves. -/
def NextOk (P : State → Prop) (Q : Micro → Prop) : Next → Prop
  | .to rest s => P s ∧ ∀ m ∈ rest, Q m
  | .raised s => P s
  | .wait | .refuse _ => True

/-- The property of the state that a run leaves, and of the entries it leaves. -/
def FlowOk (P : State → Prop) (Q : Micro → Prop) : Flow → Prop
  | .go s => P s
  | .raised s => P s
  | .blocked rest s => P s ∧ ∀ m ∈ rest, Q m
  | .refuse _ => True

/-- The entries that are not covered by `Keeps.unit`: the copies. -/
def Micro.special : Micro → Bool
  | .copyIn _ _ _ _ | .copyOut _ _ _ _ => true
  | _ => false

/-- The micro-steps of agent `a` on entries with `Q` keep `P`, and go on to entries with `Q`. -/
structure Keeps (a : Agent) (P : State → Prop) (Q : Micro → Prop) : Prop where
  unit : ∀ pick m s, m.special = false → P s → Q m → NextOk P Q (unit a pick m s)
  group : ∀ r off h pend k s, P s → Q (.copyIn r off h pend) → inSpans k pend → P (groupUnit a r off h k s)
  byte : ∀ r off dst pend k s, P s → Q (.copyOut r off dst pend) → inSpans k pend → P (byteUnit a r off dst k s)
  subIn : ∀ r off h pend pend', Q (.copyIn r off h pend) → (∀ k, inSpans k pend' → inSpans k pend) →
    Q (.copyIn r off h pend')
  subOut : ∀ r off dst pend pend', Q (.copyOut r off dst pend) → (∀ k, inSpans k pend' → inSpans k pend) →
    Q (.copyOut r off dst pend')

variable {a : Agent} {P : State → Prop} {Q : Micro → Prop}

theorem unitsLoop_keep {f : Nat → State → State} {b n : Nat} {s : State}
    (h : ∀ k t, b ≤ k → k < b + n → P t → P (f k t)) (hs : P s) : P (unitsLoop f b n s) := by
  induction n generalizing b s with
  | zero => exact hs
  | succ n ih =>
    exact ih (fun k t h1 h2 ht => h k t (by omega) (by omega) ht) (h b s (by omega) (by omega) hs)

theorem spansLoop_keep {f : Nat → State → State} {pend : List Span} {s : State}
    (h : ∀ k t, inSpans k pend → P t → P (f k t)) (hs : P s) : P (spansLoop f pend s) := by
  unfold spansLoop
  induction pend generalizing s with
  | nil => exact hs
  | cons p ps ih =>
    refine ih (fun k t hk ht => h k t ?_ ht) (unitsLoop_keep (fun k t h1 h2 ht => h k t ⟨p, by simp, h1, h2⟩ ht) hs)
    obtain ⟨q, hq, h'⟩ := hk
    exact ⟨q, by simp [hq], h'⟩

theorem unitStep_keep {pick : Nat} {pend : List Span} {f : Nat → State → State} {left : List Span → Micro} {s : State}
    (h : ∀ k t, inSpans k pend → P t → P (f k t)) (hs : P s)
    (hq : ∀ pend', (∀ k, inSpans k pend' → inSpans k pend) → Q (left pend')) : NextOk P Q (unitStep pick pend f left s) := by
  unfold unitStep
  cases e : takeUnit (pick % units pend) pend with
  | none => exact ⟨hs, by simp⟩
  | some x =>
    obtain ⟨k, rest⟩ := x
    have := takeUnit_inSpans e
    cases rest with
    | nil => exact ⟨h k s this.1 hs, by simp⟩
    | cons q qs => exact ⟨h k s this.1 hs, by simpa using hq _ this.2⟩

namespace Keeps

/-- Any micro-step. -/
theorem anyUnit (K : Keeps a P Q) (pick : Nat) (m : Micro) (s : State) (hs : P s) (hq : Q m) :
    NextOk P Q (Machine.unit a pick m s) := by
  cases m with
  | copyIn r off h pend =>
    exact unitStep_keep (fun k t hk ht => K.group r off h pend k t ht hq hk) hs (fun p' hp => K.subIn _ _ _ _ _ hq hp)
  | copyOut r off dst pend =>
    exact unitStep_keep (fun k t hk ht => K.byte r off dst pend k t ht hq hk) hs (fun p' hp => K.subOut _ _ _ _ _ hq hp)
  | _ => exact K.unit pick _ s rfl hs hq

theorem runFrom_ok {f : Micro → State → Flow} (hf : ∀ m s, P s → Q m → FlowOk P Q (f m s)) (skip : Bool)
    (ms : List Micro) (s : State) (hs : P s) (hq : ∀ m ∈ ms, Q m) : FlowOk P Q (runFrom f skip ms s) := by
  induction ms generalizing skip s with
  | nil => cases skip <;> exact hs
  | cons m ms ih =>
    have hm : Q m := hq m (by simp)
    have hms : ∀ x ∈ ms, Q x := fun x hx => hq x (by simp [hx])
    simp only [runFrom]
    split
    · exact ih true s hs hms
    · have := hf m s hs hm
      cases e : f m s with
      | go t => rw [e] at this; exact ih false t this hms
      | raised t => rw [e] at this; exact ih true t this hms
      | blocked rest t =>
        rw [e] at this
        refine ⟨this.1, fun x hx => ?_⟩
        rcases List.mem_append.mp hx with hx | hx
        · exact this.2 x hx
        · exact hms x hx
      | refuse r => trivial

theorem windowsAll_ok {f : Micro → State → Flow} (hf : ∀ m s, P s → Q m → FlowOk P Q (f m s))
    (hw : ∀ k n, Q (.windows k (n + 1)) → Q (.winRead k) ∧ Q .winDispatch ∧ Q (.windows (k + 1) n))
    (k n : Nat) (s : State) (hs : P s) (hq : Q (.windows k n)) : FlowOk P Q (windowsAll f k n s) := by
  induction n generalizing k s with
  | zero => exact hs
  | succ n ih =>
    obtain ⟨h1, h2, h3⟩ := hw k n hq
    have := runFrom_ok hf false [.winRead k, .winDispatch] s hs (by simp [h1, h2])
    simp only [windowsAll, runList]
    cases e : runFrom f false [.winRead k, .winDispatch] s with
    | go t => rw [e] at this; exact ih (k + 1) t this h3
    | raised t => rw [e] at this; exact this
    | blocked rest t =>
      rw [e] at this
      refine ⟨this.1, fun x hx => ?_⟩
      rcases List.mem_append.mp hx with hx | hx
      · exact this.2 x hx
      · simp at hx; subst hx; exact h3
    | refuse r => trivial

theorem pollAll_ok (K : Keeps a P Q) (n : Nat) (s : State) (hs : P s) (hq : ∀ m ∈ pollLoop n, Q m) :
    FlowOk P Q (pollAll a n s) := by
  induction n generalizing s with
  | zero =>
    have h1 := K.unit 0 (.pwr .timedOut) s rfl hs (hq _ (by simp [pollLoop]))
    exact K.unit 0 (.raise .timeout 0) _ rfl h1.1 (hq _ (by simp [pollLoop]))
  | succ n ih =>
    have h0 := K.unit 0 (.poll (n + 1)) s rfl hs (hq _ (by simp [pollLoop]))
    simp only [Machine.unit, pollStep] at h0
    simp only [pollAll]
    split
    · rename_i h; rw [if_pos h] at h0; exact h0.1
    · rename_i h
      rw [if_neg h] at h0
      have h1 := K.unit 0 (.pollWait n) _ rfl h0.1 (h0.2 _ (by simp))
      exact ih _ h1.1 h1.2

/-- An entry, all of it. -/
theorem entire_ok (K : Keeps a P Q) (d : Nat) (m : Micro) (s : State) (hs : P s) (hq : Q m) :
    FlowOk P Q (entire d a m s) := by
  induction d generalizing m s with
  | zero =>
    have := K.anyUnit 0 m s hs hq
    simp only [entire]
    match e : Machine.unit a 0 m s with
    | .to [] t => rw [e] at this; exact this.1
    | .to (x :: xs) t => rw [e] at this; exact this
    | .raised t => rw [e] at this; exact this
    | .wait => exact ⟨hs, by simpa using hq⟩
    | .refuse r => trivial
  | succ d ih =>
    have hw : ∀ k n, Q (.windows k (n + 1)) → Q (.winRead k) ∧ Q .winDispatch ∧ Q (.windows (k + 1) n) := by
      intro k n h
      have := K.unit 0 (.windows k (n + 1)) s rfl hs h
      simp only [Machine.unit, NextOk] at this
      exact ⟨this.2 _ (by simp), this.2 _ (by simp), this.2 _ (by simp)⟩
    have gen : FlowOk P Q (match Machine.unit a 0 m s with
        | .to rest s' => runList (entire d a) rest s'
        | .raised s' => .raised s'
        | .wait => .blocked [m] s
        | .refuse r => .refuse r) := by
      have := K.anyUnit 0 m s hs hq
      match e : Machine.unit a 0 m s with
      | .to rest t => rw [e] at this; exact runFrom_ok ih false rest t this.1 this.2
      | .raised t => rw [e] at this; exact this
      | .wait => exact ⟨hs, by simpa using hq⟩
      | .refuse r => trivial
    cases m with
    | copyIn r off h pend => exact spansLoop_keep (fun k t hk ht => K.group r off h pend k t ht hq hk) hs
    | copyOut r off dst pend => exact spansLoop_keep (fun k t hk ht => K.byte r off dst pend k t ht hq hk) hs
    | poll n =>
      refine K.pollAll_ok n s hs (fun m hm => ?_)
      cases n with
      | zero => exact (K.unit 0 (.poll 0) s rfl hs hq).2 m hm
      | succ n => simp [pollLoop] at hm; exact hm ▸ hq
    | pollWait n =>
      have h1 := K.unit 0 (.pollWait n) s rfl hs hq
      exact K.pollAll_ok n _ h1.1 h1.2
    | windows k n => exact windowsAll_ok ih hw k n s hs hq
    | _ => exact gen

/-- An agent's entries, run to the end or to a wait. -/
theorem runAgent_ok (K : Keeps a P Q)
    (hset : ∀ s todo n, P s → (∀ m ∈ todo, Q m) → P (s.setEx a { s.ex a with todo := todo, step := n }))
    (todo : List Micro) (s t : State) (hs : P s) (hq : ∀ m ∈ todo, Q m) (h : runAgent a todo s = .next t) : P t := by
  have := runFrom_ok (K.entire_ok 8) false todo s hs hq
  simp only [runAgent, runList] at h
  cases e : runFrom (entire 8 a) false todo s with
  | go u => rw [e] at this h; cases h; exact this
  | raised u => rw [e] at this h; cases h; exact this
  | blocked rest u =>
    rw [e] at this h
    cases h
    cases ho : (u.ex a).op with
    | none => rw [State.advance_idle ho]; exact this.1
    | some i => rw [State.advance_eq ho]; exact hset u rest _ this.1 this.2
  | refuse r => rw [e] at h; cases h

/-- An operation. -/
theorem perform_ok {i : Instr} {ms : List Micro} {s t : State} (K : Keeps s.presenter P Q)
    (hset : ∀ s' todo n, P s' → (∀ m ∈ todo, Q m) →
      P (s'.setEx s.presenter { s'.ex s.presenter with todo := todo, step := n }))
    (hs : P (s.start s.presenter i [])) (hq : ∀ m ∈ ms, Q m) (hi : Q .idle) (h : perform i ms s = .next t) : P t := by
  unfold perform at h
  cases e : portRefusal s s.presenter i with
  | some r => rw [e] at h; cases h
  | none =>
    rw [e] at h
    refine K.runAgent_ok hset _ _ _ hs (fun m hm => ?_) h
    rcases List.mem_append.mp hm with hm | hm
    · exact hq m hm
    · simp at hm; subst hm; exact hi

end Keeps

/-- Every operation is a run of its listing. -/
theorem exec_eq_perform (i : Instr) (s : State) : exec i s = perform i (listing s.cfg i) s := by cases i <;> rfl

end Sys2Proof.Machine
end

