-- ==== Sys2Proof/Laws/PerInstr.lean ====
section
/-! SUPPORT. What holds of every operation as syntax, one lemma per constructor. -/

namespace Sys2Proof.Laws

/-- The first word of an operation's descriptor (R91, R93, R96): the reserved bits `W0[31:9]` are 0, `W0[7:0]` is the
operation's code, and `W0[8]` is set only in an access operation on `RGN_COMP`. -/
def Encoding.Statement (i : Instr) : Prop :=
  (descWord (encode i) 0).extractLsb' 9 23 = 0 ∧ (descWord (encode i) 0).extractLsb' 0 8 = i.opcode.extractLsb' 0 8 ∧
    ((descWord (encode i) 0).getLsbD 8 = true → regionOf (descWord (encode i) 0) = .comp ∧
      i.opcode.extractLsb' 0 8 ∈ ([0x01, 0x02, 0x03, 0x04, 0x05, 0x06] : List (BitVec 8)))

theorem descWord_descOf_0 (w0 w1 w2 w3 : Word) : descWord (descOf w0 w1 w2 w3) 0 = w0 := by
  unfold descWord descOf
  ext i hi
  simp only [BitVec.getElem_extractLsb', BitVec.getLsbD_append]
  simp [hi]

theorem Encoding.read32 (r : Region) (off : Word) : Encoding.Statement (.read32 r off) := by
  simp only [Encoding.Statement, encode, descWord_descOf_0, Instr.opcode]
  cases r <;> decide

theorem Encoding.write32 (r : Region) (off v : Word) : Encoding.Statement (.write32 r off v) := by
  simp only [Encoding.Statement, encode, descWord_descOf_0, Instr.opcode]
  cases r <;> decide

theorem Encoding.read64 (r : Region) (off : Word) : Encoding.Statement (.read64 r off) := by
  simp only [Encoding.Statement, encode, descWord_descOf_0, Instr.opcode]
  cases r <;> decide

theorem Encoding.write64 (r : Region) (off lo hi : Word) : Encoding.Statement (.write64 r off lo hi) := by
  simp only [Encoding.Statement, encode, descWord_descOf_0, Instr.opcode]
  cases r <;> decide

theorem Encoding.blkrd (r : Region) (off h n : Word) : Encoding.Statement (.blkrd r off h n) := by
  simp only [Encoding.Statement, encode, descWord_descOf_0, Instr.opcode]
  cases r <;> decide

theorem Encoding.blkwr (r : Region) (off h n : Word) : Encoding.Statement (.blkwr r off h n) := by
  simp only [Encoding.Statement, encode, descWord_descOf_0, Instr.opcode]
  cases r <;> decide

theorem Encoding.enterD0 : Encoding.Statement .enterD0 := by
  simp only [Encoding.Statement, encode, descWord_descOf_0, Instr.opcode]
  decide

theorem Encoding.reset : Encoding.Statement .reset := by
  simp only [Encoding.Statement, encode, descWord_descOf_0, Instr.opcode]
  decide

theorem Encoding.run : Encoding.Statement .run := by
  simp only [Encoding.Statement, encode, descWord_descOf_0, Instr.opcode]
  decide

theorem Encoding.mboxwr (b h n : Word) : Encoding.Statement (.mboxwr b h n) := by
  simp only [Encoding.Statement, encode, descWord_descOf_0, Instr.opcode]
  decide

theorem Encoding.mboxrd (b h n : Word) : Encoding.Statement (.mboxrd b h n) := by
  simp only [Encoding.Statement, encode, descWord_descOf_0, Instr.opcode]
  decide

theorem Encoding.sendmsg (h n : Word) : Encoding.Statement (.sendmsg h n) := by
  simp only [Encoding.Statement, encode, descWord_descOf_0, Instr.opcode]
  decide

theorem Encoding.getreply (h n : Word) : Encoding.Statement (.getreply h n) := by
  simp only [Encoding.Statement, encode, descWord_descOf_0, Instr.opcode]
  decide

theorem Encoding.irqimm : Encoding.Statement .irqimm := by
  simp only [Encoding.Statement, encode, descWord_descOf_0, Instr.opcode]
  decide

theorem Encoding.irqdefer : Encoding.Statement .irqdefer := by
  simp only [Encoding.Statement, encode, descWord_descOf_0, Instr.opcode]
  decide

theorem Encoding.cmddone : Encoding.Statement .cmddone := by
  simp only [Encoding.Statement, encode, descWord_descOf_0, Instr.opcode]
  decide

theorem Encoding.fwready : Encoding.Statement .fwready := by
  simp only [Encoding.Statement, encode, descWord_descOf_0, Instr.opcode]
  decide

theorem Encoding.paniccap (off o n : Word) : Encoding.Statement (.paniccap off o n) := by
  simp only [Encoding.Statement, encode, descWord_descOf_0, Instr.opcode]
  decide

end Sys2Proof.Laws
end

