-- ==== Sys2Proof/Laws/Update.lean ====
section
/-! SUPPORT. What an `Update32`, a `Write32` and a `Delay` of a listing do (R16, R17): one lemma per field kept, then what
each writes. Proofs about the power controller and the dispatcher cite these. -/

namespace Sys2Proof.Machine

/-! ## The trace -/

/-- The accesses made between two states one of whose traces extends the other's. -/
theorem newAccesses_of_append {s t : State} {l : List BusRec} (h : t.bus = s.bus ++ l) :
    newAccesses s t = l.map BusRec.access := by simp [newAccesses, h]

@[simp] theorem State.write32_bus (s : State) (a : Agent) (r : Region) (off : Nat) (v : Word) :
    (s.write32 a r off v).bus = s.bus ++ [.wr32 a r off v] := by
  rw [State.write32, State.busWrite_cases]
  split <;> (try split) <;> simp

/-! ## Update32 -/

/-- An `Update32` of a listing. -/
theorem runList_update (d : Nat) (a : Agent) (r : Region) (off : Nat) (m v : Word) (ms : List Micro) (s : State) :
    runList (entire d a) (update r off m v ++ ms) s = runList (entire d a) ms (s.update32 a r off m v) := by
  simp [update, runList_cons, State.update32]

@[simp] theorem State.update32_cfg (s : State) (a : Agent) (r : Region) (off : Nat) (m v : Word) : (s.update32 a r off m v).cfg = s.cfg := by
  simp [State.update32]
@[simp] theorem State.update32_attached (s : State) (a : Agent) (r : Region) (off : Nat) (m v : Word) : (s.update32 a r off m v).attached = s.attached := by
  simp [State.update32]
@[simp] theorem State.update32_ctx (s : State) (a : Agent) (r : Region) (off : Nat) (m v : Word) : (s.update32 a r off m v).ctx = s.ctx := by
  simp [State.update32]
@[simp] theorem State.update32_halt (s : State) (a : Agent) (r : Region) (off : Nat) (m v : Word) : (s.update32 a r off m v).halt = s.halt := by
  simp [State.update32]
@[simp] theorem State.update32_irqRet (s : State) (a : Agent) (r : Region) (off : Nat) (m v : Word) : (s.update32 a r off m v).irqRet = s.irqRet := by
  simp [State.update32]
@[simp] theorem State.update32_pwr (s : State) (a : Agent) (r : Region) (off : Nat) (m v : Word) : (s.update32 a r off m v).pwr = s.pwr := by
  simp [State.update32]
@[simp] theorem State.update32_deferPending (s : State) (a : Agent) (r : Region) (off : Nat) (m v : Word) : (s.update32 a r off m v).deferPending = s.deferPending := by
  simp [State.update32]
@[simp] theorem State.update32_lock (s : State) (a : Agent) (r : Region) (off : Nat) (m v : Word) : (s.update32 a r off m v).lock = s.lock := by
  simp [State.update32]
@[simp] theorem State.update32_pmhw (s : State) (a : Agent) (r : Region) (off : Nat) (m v : Word) : (s.update32 a r off m v).pmhw = s.pmhw := by
  simp [State.update32]
@[simp] theorem State.update32_hm (s : State) (a : Agent) (r : Region) (off : Nat) (m v : Word) : (s.update32 a r off m v).hm = s.hm := by
  simp [State.update32]
@[simp] theorem State.update32_gated (s : State) (a : Agent) (r : Region) (off : Nat) (m v : Word) : (s.update32 a r off m v).gated = s.gated := by
  simp [State.update32]
@[simp] theorem State.update32_d0Confirmed (s : State) (a : Agent) (r : Region) (off : Nat) (m v : Word) : (s.update32 a r off m v).d0Confirmed = s.d0Confirmed := by
  simp [State.update32]
@[simp] theorem State.update32_d0Requested (s : State) (a : Agent) (r : Region) (off : Nat) (m v : Word) : (s.update32 a r off m v).d0Requested = s.d0Requested := by
  simp [State.update32]
@[simp] theorem State.update32_elapsed (s : State) (a : Agent) (r : Region) (off : Nat) (m v : Word) : (s.update32 a r off m v).elapsed = s.elapsed := by
  simp [State.update32]
@[simp] theorem State.update32_events (s : State) (a : Agent) (r : Region) (off : Nat) (m v : Word) : (s.update32 a r off m v).events = s.events := by
  simp [State.update32]
@[simp] theorem State.update32_port (s : State) (a : Agent) (r : Region) (off : Nat) (m v : Word) : (s.update32 a r off m v).port = s.port := by
  simp [State.update32]
@[simp] theorem State.update32_presenter (s : State) (a : Agent) (r : Region) (off : Nat) (m v : Word) : (s.update32 a r off m v).presenter = s.presenter := by
  simp [State.update32]
@[simp] theorem State.update32_replyCalls (s : State) (a : Agent) (r : Region) (off : Nat) (m v : Word) : (s.update32 a r off m v).replyCalls = s.replyCalls := by
  simp [State.update32]
@[simp] theorem State.update32_msgCalls (s : State) (a : Agent) (r : Region) (off : Nat) (m v : Word) : (s.update32 a r off m v).msgCalls = s.msgCalls := by
  simp [State.update32]
@[simp] theorem State.update32_atDelay (s : State) (a : Agent) (r : Region) (off : Nat) (m v : Word) : (s.update32 a r off m v).atDelay = s.atDelay := by
  simp [State.update32]
@[simp] theorem State.update32_lastTaken (s : State) (a : Agent) (r : Region) (off : Nat) (m v : Word) : (s.update32 a r off m v).lastTaken = s.lastTaken := by
  simp [State.update32]
@[simp] theorem State.update32_isIsr (s : State) (a : Agent) (r : Region) (off : Nat) (m v : Word) (r' : Region) (x : Nat) :
    (s.update32 a r off m v).isIsr r' x = s.isIsr r' x := State.isIsr_congr (by simp) r' x
@[simp] theorem State.update32_isPm (s : State) (a : Agent) (r : Region) (off : Nat) (m v : Word) (r' : Region) (x : Nat) :
    (s.update32 a r off m v).isPm r' x = s.isPm r' x := State.isPm_congr (by simp) r' x
@[simp] theorem State.update32_inaccessible (s : State) (a : Agent) (r : Region) (off : Nat) (m v : Word) (r' : Region) (x : Nat) :
    (s.update32 a r off m v).inaccessible r' x = s.inaccessible r' x :=
  State.inaccessible_congr (by simp) (by simp) (by simp) (by simp) r' x

/-- The records of the other agents are kept. -/
theorem State.update32_ex (s : State) {a b : Agent} (r : Region) (off : Nat) (m v : Word) (h : b ≠ a) :
    (s.update32 a r off m v).ex b = s.ex b := by simp [State.update32, readStep, State.ex_setLoc, h]

@[simp] theorem State.update32_ex_op (s : State) (a : Agent) (r : Region) (off : Nat) (m v : Word) (b : Agent) :
    ((s.update32 a r off m v).ex b).op = (s.ex b).op := by
  simp only [State.update32, State.mergeStep_ex, readStep, State.ex_setLoc]
  split <;> simp_all
@[simp] theorem State.update32_ex_step (s : State) (a : Agent) (r : Region) (off : Nat) (m v : Word) (b : Agent) :
    ((s.update32 a r off m v).ex b).step = (s.ex b).step := by
  simp only [State.update32, State.mergeStep_ex, readStep, State.ex_setLoc]
  split <;> simp_all
@[simp] theorem State.update32_ex_todo (s : State) (a : Agent) (r : Region) (off : Nat) (m v : Word) (b : Agent) :
    ((s.update32 a r off m v).ex b).todo = (s.ex b).todo := by
  simp only [State.update32, State.mergeStep_ex, readStep, State.ex_setLoc]
  split <;> simp_all
@[simp] theorem State.update32_ex_status (s : State) (a : Agent) (r : Region) (off : Nat) (m v : Word) (b : Agent) :
    ((s.update32 a r off m v).ex b).status = (s.ex b).status := by
  simp only [State.update32, State.mergeStep_ex, readStep, State.ex_setLoc]
  split <;> simp_all
@[simp] theorem State.update32_ex_errval (s : State) (a : Agent) (r : Region) (off : Nat) (m v : Word) (b : Agent) :
    ((s.update32 a r off m v).ex b).errval = (s.ex b).errval := by
  simp only [State.update32, State.mergeStep_ex, readStep, State.ex_setLoc]
  split <;> simp_all
@[simp] theorem State.update32_ex_result0 (s : State) (a : Agent) (r : Region) (off : Nat) (m v : Word) (b : Agent) :
    ((s.update32 a r off m v).ex b).result0 = (s.ex b).result0 := by
  simp only [State.update32, State.mergeStep_ex, readStep, State.ex_setLoc]
  split <;> simp_all
@[simp] theorem State.update32_ex_result1 (s : State) (a : Agent) (r : Region) (off : Nat) (m v : Word) (b : Agent) :
    ((s.update32 a r off m v).ex b).result1 = (s.ex b).result1 := by
  simp only [State.update32, State.mergeStep_ex, readStep, State.ex_setLoc]
  split <;> simp_all
@[simp] theorem State.update32_loc_lo (s : State) (a : Agent) (r : Region) (off : Nat) (m v : Word) (b : Agent) :
    ((s.update32 a r off m v).loc b).lo = (s.loc b).lo := by
  by_cases h : b = a
  · subst h; simp [State.update32, readStep, Locals.setSlot]
  · simp [State.loc, State.update32_ex s r off m v h]
@[simp] theorem State.update32_loc_hi (s : State) (a : Agent) (r : Region) (off : Nat) (m v : Word) (b : Agent) :
    ((s.update32 a r off m v).loc b).hi = (s.loc b).hi := by
  by_cases h : b = a
  · subst h; simp [State.update32, readStep, Locals.setSlot]
  · simp [State.loc, State.update32_ex s r off m v h]
@[simp] theorem State.update32_loc_isr (s : State) (a : Agent) (r : Region) (off : Nat) (m v : Word) (b : Agent) :
    ((s.update32 a r off m v).loc b).isr = (s.loc b).isr := by
  by_cases h : b = a
  · subst h; simp [State.update32, readStep, Locals.setSlot]
  · simp [State.loc, State.update32_ex s r off m v h]
@[simp] theorem State.update32_loc_cmdo (s : State) (a : Agent) (r : Region) (off : Nat) (m v : Word) (b : Agent) :
    ((s.update32 a r off m v).loc b).cmdo = (s.loc b).cmdo := by
  by_cases h : b = a
  · subst h; simp [State.update32, readStep, Locals.setSlot]
  · simp [State.loc, State.update32_ex s r off m v h]
@[simp] theorem State.update32_loc_cmdi (s : State) (a : Agent) (r : Region) (off : Nat) (m v : Word) (b : Agent) :
    ((s.update32 a r off m v).loc b).cmdi = (s.loc b).cmdi := by
  by_cases h : b = a
  · subst h; simp [State.update32, readStep, Locals.setSlot]
  · simp [State.loc, State.update32_ex s r off m v h]
@[simp] theorem State.update32_loc_work (s : State) (a : Agent) (r : Region) (off : Nat) (m v : Word) (b : Agent) :
    ((s.update32 a r off m v).loc b).work = (s.loc b).work := by
  by_cases h : b = a
  · subst h; simp [State.update32, readStep, Locals.setSlot]
  · simp [State.loc, State.update32_ex s r off m v h]
@[simp] theorem State.update32_loc_buf (s : State) (a : Agent) (r : Region) (off : Nat) (m v : Word) (b : Agent) :
    ((s.update32 a r off m v).loc b).buf = (s.loc b).buf := by
  by_cases h : b = a
  · subst h; simp [State.update32, readStep, Locals.setSlot]
  · simp [State.loc, State.update32_ex s r off m v h]
@[simp] theorem State.update32_loc_box (s : State) (a : Agent) (r : Region) (off : Nat) (m v : Word) (b : Agent) :
    ((s.update32 a r off m v).loc b).box = (s.loc b).box := by
  by_cases h : b = a
  · subst h; simp [State.update32, readStep, Locals.setSlot]
  · simp [State.loc, State.update32_ex s r off m v h]
@[simp] theorem State.update32_loc_size (s : State) (a : Agent) (r : Region) (off : Nat) (m v : Word) (b : Agent) :
    ((s.update32 a r off m v).loc b).size = (s.loc b).size := by
  by_cases h : b = a
  · subst h; simp [State.update32, readStep, Locals.setSlot]
  · simp [State.loc, State.update32_ex s r off m v h]
@[simp] theorem State.update32_loc_kind (s : State) (a : Agent) (r : Region) (off : Nat) (m v : Word) (b : Agent) :
    ((s.update32 a r off m v).loc b).kind = (s.loc b).kind := by
  by_cases h : b = a
  · subst h; simp [State.update32, readStep, Locals.setSlot]
  · simp [State.loc, State.update32_ex s r off m v h]
@[simp] theorem State.update32_loc_ev (s : State) (a : Agent) (r : Region) (off : Nat) (m v : Word) (b : Agent) :
    ((s.update32 a r off m v).loc b).ev = (s.loc b).ev := by
  by_cases h : b = a
  · subst h; simp [State.update32, readStep, Locals.setSlot]
  · simp [State.loc, State.update32_ex s r off m v h]
@[simp] theorem State.update32_loc_fbase (s : State) (a : Agent) (r : Region) (off : Nat) (m v : Word) (b : Agent) :
    ((s.update32 a r off m v).loc b).fbase = (s.loc b).fbase := by
  by_cases h : b = a
  · subst h; simp [State.update32, readStep, Locals.setSlot]
  · simp [State.loc, State.update32_ex s r off m v h]
@[simp] theorem State.update32_loc_winOff (s : State) (a : Agent) (r : Region) (off : Nat) (m v : Word) (b : Agent) :
    ((s.update32 a r off m v).loc b).winOff = (s.loc b).winOff := by
  by_cases h : b = a
  · subst h; simp [State.update32, readStep, Locals.setSlot]
  · simp [State.loc, State.update32_ex s r off m v h]
@[simp] theorem State.update32_loc_used (s : State) (a : Agent) (r : Region) (off : Nat) (m v : Word) (b : Agent) :
    ((s.update32 a r off m v).loc b).used = (s.loc b).used := by
  by_cases h : b = a
  · subst h; simp [State.update32, readStep, Locals.setSlot]
  · simp [State.loc, State.update32_ex s r off m v h]
@[simp] theorem State.update32_loc_capOff (s : State) (a : Agent) (r : Region) (off : Nat) (m v : Word) (b : Agent) :
    ((s.update32 a r off m v).loc b).capOff = (s.loc b).capOff := by
  by_cases h : b = a
  · subst h; simp [State.update32, readStep, Locals.setSlot]
  · simp [State.loc, State.update32_ex s r off m v h]
@[simp] theorem State.update32_loc_capCmdo (s : State) (a : Agent) (r : Region) (off : Nat) (m v : Word) (b : Agent) :
    ((s.update32 a r off m v).loc b).capCmdo = (s.loc b).capCmdo := by
  by_cases h : b = a
  · subst h; simp [State.update32, readStep, Locals.setSlot]
  · simp [State.loc, State.update32_ex s r off m v h]
@[simp] theorem State.update32_loc_capCmdi (s : State) (a : Agent) (r : Region) (off : Nat) (m v : Word) (b : Agent) :
    ((s.update32 a r off m v).loc b).capCmdi = (s.loc b).capCmdi := by
  by_cases h : b = a
  · subst h; simp [State.update32, readStep, Locals.setSlot]
  · simp [State.loc, State.update32_ex s r off m v h]

/-- The two accesses. -/
theorem State.update32_bus (s : State) (a : Agent) (r : Region) (off : Nat) (m v : Word) :
    (s.update32 a r off m v).bus = s.bus ++ [.rd32 a r off (s.read32 a r off).1, .wr32 a r off (merged (s.read32 a r off).1 m v)] := by
  simp [State.update32, mergeStep, readStep, Locals.setSlot, kept]

/-- The write half, with the value read. -/
theorem State.update32_eq (s : State) (a : Agent) (r : Region) (off : Nat) (m v : Word) :
    s.update32 a r off m v = (readStep a r off .old s).write32 a r off (merged (s.read32 a r off).1 m v) := by
  simp [State.update32, mergeStep, readStep, Locals.setSlot, kept]

/-- The word updated (R16): the field holds the value, every other bit is kept. -/
theorem State.word_update32_same (s : State) (a : Agent) {r : Region} {off : Nat} (m v : Word)
    (ha : s.inaccessible r off = false) (hi : s.isIsr r off = false) :
    (s.update32 a r off m v).word r off = s.overlay r off (merged (s.word r off) m v) := by
  rw [State.update32_eq, State.word_write32_same _ _ _ (by simpa using ha) (by simpa using hi), State.read32_fst s a ha hi]
  exact State.overlay_congr (by simp) (by simp) _ _ _

/-- Every other word reads as before. -/
theorem State.word_update32_other (s : State) (a : Agent) {r r' : Region} {off x : Nat} (m v : Word) (ho : off % 4 = 0)
    (hx : x % 4 = 0) (hne : ¬(r' = r ∧ x = off)) : (s.update32 a r off m v).word r' x = s.word r' x := by
  rw [State.update32_eq, State.word_write32_other _ _ _ ho hx hne]
  simp

/-- Every byte outside the word updated reads as before. -/
theorem State.byteAt_update32_other (s : State) (a : Agent) {r r' : Region} {off x : Nat} (m v : Word) (ho : off % 4 = 0)
    (hne : ¬(r' = r ∧ off ≤ x ∧ x < off + 4)) : (s.update32 a r off m v).byteAt r' x = s.byteAt r' x := by
  rw [State.update32_eq, State.byteAt_write32_other _ _ _ ho hne]
  exact State.byteAt_congr (by simp) _ _

/-- Plain memory outside the word updated is kept. -/
theorem State.read_mem_update32 (s : State) (a : Agent) {r r' : Region} {off x : Nat} (m v : Word)
    (hx : ¬(r' = r ∧ off ≤ x ∧ x < off + 4)) :
    Memory.read ((s.update32 a r off m v).mem r') x = Memory.read (s.mem r') x := by
  rw [State.update32_eq, State.read_mem_write32 _ _ _ hx]
  simp

/-- A register away from the word updated is kept. -/
theorem State.regs_get_update32 (s : State) (a : Agent) {r : Region} {off : Nat} (m v : Word) {g : DevReg}
    (h : regAt s.cfg r off ≠ some g) : (s.update32 a r off m v).regs.get g = s.regs.get g := by
  rw [State.update32_eq, State.regs_get_write32 _ _ _ (by simpa using h)]
  simp

/-- A write to a register that is accessible and free of the power status field. -/
theorem State.write32_reg (s : State) (a : Agent) (g : DevReg) (v : Word) (hw : s.cfg.wf = true)
    (ha : s.inaccessible .dsp (regOff s.cfg g) = false) (hp : s.isPm .dsp (regOff s.cfg g) = false) :
    s.write32 a .dsp (regOff s.cfg g) v = (s.setReg g v).record (.wr32 a .dsp (regOff s.cfg g) v) := by
  simp [State.write32, s.busWrite_eq v ha, s.store_reg g v hw hp]

/-- What an accessible register reads as. -/
theorem State.word_reg (s : State) (g : DevReg) (hw : s.cfg.wf = true) (hp : s.isPm .dsp (regOff s.cfg g) = false) :
    s.word .dsp (regOff s.cfg g) = s.regs.get g := by
  simp [State.word, State.overlay, hp, State.stored, regAt_regOff hw g]

/-- An `Update32` of a register that is accessible and free of the power status field: the registers after it. -/
theorem State.update32_reg (s : State) (a : Agent) (g : DevReg) (m v : Word) (hw : s.cfg.wf = true)
    (ha : s.inaccessible .dsp (regOff s.cfg g) = false) (hp : s.isPm .dsp (regOff s.cfg g) = false) :
    (s.update32 a .dsp (regOff s.cfg g) m v).regs = s.regs.set g (merged (s.regs.get g) m v) := by
  have hi : s.isIsr .dsp (regOff s.cfg g) = false := by simp [State.isIsr, regOff_ne_isr hw g]
  have e := State.write32_reg (readStep a .dsp (regOff s.cfg g) .old s) a g
    (merged (s.read32 a .dsp (regOff s.cfg g)).1 m v) (by simpa using hw) (by simpa using ha) (by simpa using hp)
  simp only [State.readStep_cfg] at e
  rw [State.update32_eq, e, State.read32_fst s a ha hi, State.word_reg s g hw hp]
  cases g <;> simp [State.setReg, Regs.set]

/-- Plain memory is kept by an `Update32` of a register. -/
theorem State.mem_update32_reg (s : State) (a : Agent) (g : DevReg) (m v : Word) (hw : s.cfg.wf = true) (r : Region) :
    (s.update32 a .dsp (regOff s.cfg g) m v).mem r = s.mem r := by
  have h : regAt s.cfg .dsp (regOff s.cfg g) = some g := regAt_regOff hw g
  rw [State.update32_eq]
  rw [State.write32, State.busWrite_cases]
  split
  · split
    · simpa using State.mem_store_of_some (readStep a .dsp (regOff s.cfg g) .old s).draw.2 _ (by simpa using h) r
    · simp
  · simpa using State.mem_store_of_some (readStep a .dsp (regOff s.cfg g) .old s) _ (by simpa using h) r

/-- The accessible registers of a state whose registers are plain. -/
theorem State.registersPlain_reg {s : State} (h : s.registersPlain) (g : DevReg) :
    s.inaccessible .dsp (regOff s.cfg g) = false ∧ s.isPm .dsp (regOff s.cfg g) = false := by
  refine ⟨h.1 _ (regOff_mem _ g), ?_⟩
  rcases h.2 with e | e
  · simp [State.isPm, e]
  · have : regOff s.cfg g ≠ s.cfg.pmSts.off := fun e' => e (e' ▸ regOff_mem _ g)
    simp [State.isPm, this]

/-- `registersPlain` depends on few fields. -/
theorem State.registersPlain_congr {s t : State} (hc : t.cfg = s.cfg) (hx : t.ctx = s.ctx) (hg : t.gated = s.gated)
    (hd : t.d0Confirmed = s.d0Confirmed) (h : s.registersPlain) : t.registersPlain := by
  unfold State.registersPlain at h ⊢
  rw [hc]
  refine ⟨fun o ho => ?_, by simpa only [State.pmApart, hc] using h.2⟩
  rw [State.inaccessible_congr hc hx hg hd]
  exact h.1 o ho

/-! ## The environment -/

/-- `t` differs from `s` in what the environment may change, and in nothing else: the device registers, the power hardware's
value, the bytes of both regions, what is gated, and the model's record of the firmware (R253, R291). -/
def DeviceOnly (s t : State) : Prop :=
  t = { s with regs := t.regs, pmhw := t.pmhw, dspMem := t.dspMem, compMem := t.compMem, gated := t.gated,
               readySent := t.readySent, fw := t.fw, replyBox := t.replyBox }

theorem DeviceOnly.eq {s t : State} (h : DeviceOnly s t) :
    t = { s with regs := t.regs, pmhw := t.pmhw, dspMem := t.dspMem, compMem := t.compMem, gated := t.gated,
                 readySent := t.readySent, fw := t.fw, replyBox := t.replyBox } := h

theorem DeviceOnly.refl (s : State) : DeviceOnly s s := rfl

theorem DeviceOnly.trans {s t u : State} (h : DeviceOnly s t) (h' : DeviceOnly t u) : DeviceOnly s u := by
  unfold DeviceOnly at *
  exact h'.trans (by rw [h])

theorem DeviceOnly.store (s : State) (r : Region) (off : Nat) (v : Word) : DeviceOnly s (s.store r off v) := by
  unfold State.store State.setStored
  split
  · rfl
  · split
    · unfold State.setReg; split <;> rfl
    · cases r <;> rfl

theorem DeviceOnly.setReg (s : State) (g : DevReg) (v : Word) : DeviceOnly s (s.setReg g v) := by
  unfold State.setReg; split <;> rfl

theorem DeviceOnly.pokeByte (s : State) (r : Region) (x : Nat) (b : Byte) : DeviceOnly s (s.pokeByte r x b) :=
  .store _ _ _ _

theorem DeviceOnly.pokeBytes (s : State) (r : Region) (x : Nat) (bs : List Byte) : DeviceOnly s (s.pokeBytes r x bs) := by
  induction bs generalizing s x with
  | nil => exact .refl s
  | cons b bs ih => exact (DeviceOnly.pokeByte s r x b).trans (ih _ _)

/-- One access of the firmware. -/
theorem DeviceOnly.act (s : State) (x : FwAct) : DeviceOnly s (s.act x) := by
  cases x with
  | poke off b => exact DeviceOnly.pokeByte s .dsp off b
  | cmdo w => exact DeviceOnly.setReg s .cmdo w
  | cmdi w => exact DeviceOnly.setReg s .cmdi w
  | ack => exact DeviceOnly.setReg s .cmdi _
  | imrd v => exact DeviceOnly.setReg s .imrd v

theorem DeviceOnly.fwNext (s : State) : DeviceOnly s s.fwNext := by
  unfold State.fwNext
  split
  · exact .refl s
  · split
    · exact .trans (t := { s with fw := _ }) rfl (.act _ _)
    · exact .refl s

theorem DeviceOnly.fwRun (n : Nat) (s : State) : DeviceOnly s (s.fwRun n) := by
  induction n generalizing s with
  | zero => exact .refl s
  | succ n ih => exact (DeviceOnly.fwNext s).trans (ih _)

/-- Everything that a move of the environment can do. -/
theorem DeviceOnly.move (s : State) (m : EnvMove) : DeviceOnly s (s.move m) := by
  unfold State.move
  split
  · cases m <;> first
      | rfl
      | exact .fwNext s
      | exact .store _ _ _ _
      | exact .trans (t := s.fwBegin _) rfl (.fwRun _ _)
  · exact .refl s

theorem DeviceOnly.moves (s : State) (ms : List EnvMove) : DeviceOnly s (s.moves ms) := by
  unfold State.moves
  induction ms generalizing s with
  | nil => exact .refl s
  | cons m ms ih => exact (DeviceOnly.move s m).trans (ih _)

theorem DeviceOnly.ex {s t : State} (h : DeviceOnly s t) (b : Agent) : t.ex b = s.ex b := by
  have := congrArg (State.ex · b) h.eq
  cases b <;> exact this

@[simp] theorem State.pokeByte_cfg (s : State) (r : Region) (x : Nat) (b : Byte) : (s.pokeByte r x b).cfg = s.cfg := by
  rw [(DeviceOnly.pokeByte s r x b).eq]
@[simp] theorem State.pokeBytes_cfg (s : State) (r : Region) (x : Nat) (bs : List Byte) :
    (s.pokeBytes r x bs).cfg = s.cfg := by rw [(DeviceOnly.pokeBytes s r x bs).eq]
@[simp] theorem State.move_cfg (s : State) (m : EnvMove) : (s.move m).cfg = s.cfg :=
  by rw [(DeviceOnly.move s m).eq]
@[simp] theorem State.moves_cfg (s : State) (ms : List EnvMove) : (s.moves ms).cfg = s.cfg :=
  by rw [(DeviceOnly.moves s ms).eq]
@[simp] theorem State.pokeByte_attached (s : State) (r : Region) (x : Nat) (b : Byte) : (s.pokeByte r x b).attached = s.attached := by
  rw [(DeviceOnly.pokeByte s r x b).eq]
@[simp] theorem State.pokeBytes_attached (s : State) (r : Region) (x : Nat) (bs : List Byte) :
    (s.pokeBytes r x bs).attached = s.attached := by rw [(DeviceOnly.pokeBytes s r x bs).eq]
@[simp] theorem State.move_attached (s : State) (m : EnvMove) : (s.move m).attached = s.attached :=
  by rw [(DeviceOnly.move s m).eq]
@[simp] theorem State.moves_attached (s : State) (ms : List EnvMove) : (s.moves ms).attached = s.attached :=
  by rw [(DeviceOnly.moves s ms).eq]
@[simp] theorem State.pokeByte_ctx (s : State) (r : Region) (x : Nat) (b : Byte) : (s.pokeByte r x b).ctx = s.ctx := by
  rw [(DeviceOnly.pokeByte s r x b).eq]
@[simp] theorem State.pokeBytes_ctx (s : State) (r : Region) (x : Nat) (bs : List Byte) :
    (s.pokeBytes r x bs).ctx = s.ctx := by rw [(DeviceOnly.pokeBytes s r x bs).eq]
@[simp] theorem State.move_ctx (s : State) (m : EnvMove) : (s.move m).ctx = s.ctx :=
  by rw [(DeviceOnly.move s m).eq]
@[simp] theorem State.moves_ctx (s : State) (ms : List EnvMove) : (s.moves ms).ctx = s.ctx :=
  by rw [(DeviceOnly.moves s ms).eq]
@[simp] theorem State.pokeByte_host (s : State) (r : Region) (x : Nat) (b : Byte) : (s.pokeByte r x b).host = s.host := by
  rw [(DeviceOnly.pokeByte s r x b).eq]
@[simp] theorem State.pokeBytes_host (s : State) (r : Region) (x : Nat) (bs : List Byte) :
    (s.pokeBytes r x bs).host = s.host := by rw [(DeviceOnly.pokeBytes s r x bs).eq]
@[simp] theorem State.move_host (s : State) (m : EnvMove) : (s.move m).host = s.host :=
  by rw [(DeviceOnly.move s m).eq]
@[simp] theorem State.moves_host (s : State) (ms : List EnvMove) : (s.moves ms).host = s.host :=
  by rw [(DeviceOnly.moves s ms).eq]
@[simp] theorem State.pokeByte_irq (s : State) (r : Region) (x : Nat) (b : Byte) : (s.pokeByte r x b).irq = s.irq := by
  rw [(DeviceOnly.pokeByte s r x b).eq]
@[simp] theorem State.pokeBytes_irq (s : State) (r : Region) (x : Nat) (bs : List Byte) :
    (s.pokeBytes r x bs).irq = s.irq := by rw [(DeviceOnly.pokeBytes s r x bs).eq]
@[simp] theorem State.move_irq (s : State) (m : EnvMove) : (s.move m).irq = s.irq :=
  by rw [(DeviceOnly.move s m).eq]
@[simp] theorem State.moves_irq (s : State) (ms : List EnvMove) : (s.moves ms).irq = s.irq :=
  by rw [(DeviceOnly.moves s ms).eq]
@[simp] theorem State.pokeByte_worker (s : State) (r : Region) (x : Nat) (b : Byte) : (s.pokeByte r x b).worker = s.worker := by
  rw [(DeviceOnly.pokeByte s r x b).eq]
@[simp] theorem State.pokeBytes_worker (s : State) (r : Region) (x : Nat) (bs : List Byte) :
    (s.pokeBytes r x bs).worker = s.worker := by rw [(DeviceOnly.pokeBytes s r x bs).eq]
@[simp] theorem State.move_worker (s : State) (m : EnvMove) : (s.move m).worker = s.worker :=
  by rw [(DeviceOnly.move s m).eq]
@[simp] theorem State.moves_worker (s : State) (ms : List EnvMove) : (s.moves ms).worker = s.worker :=
  by rw [(DeviceOnly.moves s ms).eq]
@[simp] theorem State.pokeByte_halt (s : State) (r : Region) (x : Nat) (b : Byte) : (s.pokeByte r x b).halt = s.halt := by
  rw [(DeviceOnly.pokeByte s r x b).eq]
@[simp] theorem State.pokeBytes_halt (s : State) (r : Region) (x : Nat) (bs : List Byte) :
    (s.pokeBytes r x bs).halt = s.halt := by rw [(DeviceOnly.pokeBytes s r x bs).eq]
@[simp] theorem State.move_halt (s : State) (m : EnvMove) : (s.move m).halt = s.halt :=
  by rw [(DeviceOnly.move s m).eq]
@[simp] theorem State.moves_halt (s : State) (ms : List EnvMove) : (s.moves ms).halt = s.halt :=
  by rw [(DeviceOnly.moves s ms).eq]
@[simp] theorem State.pokeByte_irqRet (s : State) (r : Region) (x : Nat) (b : Byte) : (s.pokeByte r x b).irqRet = s.irqRet := by
  rw [(DeviceOnly.pokeByte s r x b).eq]
@[simp] theorem State.pokeBytes_irqRet (s : State) (r : Region) (x : Nat) (bs : List Byte) :
    (s.pokeBytes r x bs).irqRet = s.irqRet := by rw [(DeviceOnly.pokeBytes s r x bs).eq]
@[simp] theorem State.move_irqRet (s : State) (m : EnvMove) : (s.move m).irqRet = s.irqRet :=
  by rw [(DeviceOnly.move s m).eq]
@[simp] theorem State.moves_irqRet (s : State) (ms : List EnvMove) : (s.moves ms).irqRet = s.irqRet :=
  by rw [(DeviceOnly.moves s ms).eq]
@[simp] theorem State.pokeByte_pwr (s : State) (r : Region) (x : Nat) (b : Byte) : (s.pokeByte r x b).pwr = s.pwr := by
  rw [(DeviceOnly.pokeByte s r x b).eq]
@[simp] theorem State.pokeBytes_pwr (s : State) (r : Region) (x : Nat) (bs : List Byte) :
    (s.pokeBytes r x bs).pwr = s.pwr := by rw [(DeviceOnly.pokeBytes s r x bs).eq]
@[simp] theorem State.move_pwr (s : State) (m : EnvMove) : (s.move m).pwr = s.pwr :=
  by rw [(DeviceOnly.move s m).eq]
@[simp] theorem State.moves_pwr (s : State) (ms : List EnvMove) : (s.moves ms).pwr = s.pwr :=
  by rw [(DeviceOnly.moves s ms).eq]
@[simp] theorem State.pokeByte_deferPending (s : State) (r : Region) (x : Nat) (b : Byte) : (s.pokeByte r x b).deferPending = s.deferPending := by
  rw [(DeviceOnly.pokeByte s r x b).eq]
@[simp] theorem State.pokeBytes_deferPending (s : State) (r : Region) (x : Nat) (bs : List Byte) :
    (s.pokeBytes r x bs).deferPending = s.deferPending := by rw [(DeviceOnly.pokeBytes s r x bs).eq]
@[simp] theorem State.move_deferPending (s : State) (m : EnvMove) : (s.move m).deferPending = s.deferPending :=
  by rw [(DeviceOnly.move s m).eq]
@[simp] theorem State.moves_deferPending (s : State) (ms : List EnvMove) : (s.moves ms).deferPending = s.deferPending :=
  by rw [(DeviceOnly.moves s ms).eq]
@[simp] theorem State.pokeByte_lock (s : State) (r : Region) (x : Nat) (b : Byte) : (s.pokeByte r x b).lock = s.lock := by
  rw [(DeviceOnly.pokeByte s r x b).eq]
@[simp] theorem State.pokeBytes_lock (s : State) (r : Region) (x : Nat) (bs : List Byte) :
    (s.pokeBytes r x bs).lock = s.lock := by rw [(DeviceOnly.pokeBytes s r x bs).eq]
@[simp] theorem State.move_lock (s : State) (m : EnvMove) : (s.move m).lock = s.lock :=
  by rw [(DeviceOnly.move s m).eq]
@[simp] theorem State.moves_lock (s : State) (ms : List EnvMove) : (s.moves ms).lock = s.lock :=
  by rw [(DeviceOnly.moves s ms).eq]
@[simp] theorem State.pokeByte_hm (s : State) (r : Region) (x : Nat) (b : Byte) : (s.pokeByte r x b).hm = s.hm := by
  rw [(DeviceOnly.pokeByte s r x b).eq]
@[simp] theorem State.pokeBytes_hm (s : State) (r : Region) (x : Nat) (bs : List Byte) :
    (s.pokeBytes r x bs).hm = s.hm := by rw [(DeviceOnly.pokeBytes s r x bs).eq]
@[simp] theorem State.move_hm (s : State) (m : EnvMove) : (s.move m).hm = s.hm :=
  by rw [(DeviceOnly.move s m).eq]
@[simp] theorem State.moves_hm (s : State) (ms : List EnvMove) : (s.moves ms).hm = s.hm :=
  by rw [(DeviceOnly.moves s ms).eq]
@[simp] theorem State.pokeByte_d0Confirmed (s : State) (r : Region) (x : Nat) (b : Byte) : (s.pokeByte r x b).d0Confirmed = s.d0Confirmed := by
  rw [(DeviceOnly.pokeByte s r x b).eq]
@[simp] theorem State.pokeBytes_d0Confirmed (s : State) (r : Region) (x : Nat) (bs : List Byte) :
    (s.pokeBytes r x bs).d0Confirmed = s.d0Confirmed := by rw [(DeviceOnly.pokeBytes s r x bs).eq]
@[simp] theorem State.move_d0Confirmed (s : State) (m : EnvMove) : (s.move m).d0Confirmed = s.d0Confirmed :=
  by rw [(DeviceOnly.move s m).eq]
@[simp] theorem State.moves_d0Confirmed (s : State) (ms : List EnvMove) : (s.moves ms).d0Confirmed = s.d0Confirmed :=
  by rw [(DeviceOnly.moves s ms).eq]
@[simp] theorem State.pokeByte_d0Requested (s : State) (r : Region) (x : Nat) (b : Byte) : (s.pokeByte r x b).d0Requested = s.d0Requested := by
  rw [(DeviceOnly.pokeByte s r x b).eq]
@[simp] theorem State.pokeBytes_d0Requested (s : State) (r : Region) (x : Nat) (bs : List Byte) :
    (s.pokeBytes r x bs).d0Requested = s.d0Requested := by rw [(DeviceOnly.pokeBytes s r x bs).eq]
@[simp] theorem State.move_d0Requested (s : State) (m : EnvMove) : (s.move m).d0Requested = s.d0Requested :=
  by rw [(DeviceOnly.move s m).eq]
@[simp] theorem State.moves_d0Requested (s : State) (ms : List EnvMove) : (s.moves ms).d0Requested = s.d0Requested :=
  by rw [(DeviceOnly.moves s ms).eq]
@[simp] theorem State.pokeByte_elapsed (s : State) (r : Region) (x : Nat) (b : Byte) : (s.pokeByte r x b).elapsed = s.elapsed := by
  rw [(DeviceOnly.pokeByte s r x b).eq]
@[simp] theorem State.pokeBytes_elapsed (s : State) (r : Region) (x : Nat) (bs : List Byte) :
    (s.pokeBytes r x bs).elapsed = s.elapsed := by rw [(DeviceOnly.pokeBytes s r x bs).eq]
@[simp] theorem State.move_elapsed (s : State) (m : EnvMove) : (s.move m).elapsed = s.elapsed :=
  by rw [(DeviceOnly.move s m).eq]
@[simp] theorem State.moves_elapsed (s : State) (ms : List EnvMove) : (s.moves ms).elapsed = s.elapsed :=
  by rw [(DeviceOnly.moves s ms).eq]
@[simp] theorem State.pokeByte_events (s : State) (r : Region) (x : Nat) (b : Byte) : (s.pokeByte r x b).events = s.events := by
  rw [(DeviceOnly.pokeByte s r x b).eq]
@[simp] theorem State.pokeBytes_events (s : State) (r : Region) (x : Nat) (bs : List Byte) :
    (s.pokeBytes r x bs).events = s.events := by rw [(DeviceOnly.pokeBytes s r x bs).eq]
@[simp] theorem State.move_events (s : State) (m : EnvMove) : (s.move m).events = s.events :=
  by rw [(DeviceOnly.move s m).eq]
@[simp] theorem State.moves_events (s : State) (ms : List EnvMove) : (s.moves ms).events = s.events :=
  by rw [(DeviceOnly.moves s ms).eq]
@[simp] theorem State.pokeByte_bus (s : State) (r : Region) (x : Nat) (b : Byte) : (s.pokeByte r x b).bus = s.bus := by
  rw [(DeviceOnly.pokeByte s r x b).eq]
@[simp] theorem State.pokeBytes_bus (s : State) (r : Region) (x : Nat) (bs : List Byte) :
    (s.pokeBytes r x bs).bus = s.bus := by rw [(DeviceOnly.pokeBytes s r x bs).eq]
@[simp] theorem State.move_bus (s : State) (m : EnvMove) : (s.move m).bus = s.bus :=
  by rw [(DeviceOnly.move s m).eq]
@[simp] theorem State.moves_bus (s : State) (ms : List EnvMove) : (s.moves ms).bus = s.bus :=
  by rw [(DeviceOnly.moves s ms).eq]
@[simp] theorem State.pokeByte_draws (s : State) (r : Region) (x : Nat) (b : Byte) : (s.pokeByte r x b).draws = s.draws := by
  rw [(DeviceOnly.pokeByte s r x b).eq]
@[simp] theorem State.pokeBytes_draws (s : State) (r : Region) (x : Nat) (bs : List Byte) :
    (s.pokeBytes r x bs).draws = s.draws := by rw [(DeviceOnly.pokeBytes s r x bs).eq]
@[simp] theorem State.move_draws (s : State) (m : EnvMove) : (s.move m).draws = s.draws :=
  by rw [(DeviceOnly.move s m).eq]
@[simp] theorem State.moves_draws (s : State) (ms : List EnvMove) : (s.moves ms).draws = s.draws :=
  by rw [(DeviceOnly.moves s ms).eq]
@[simp] theorem State.pokeByte_port (s : State) (r : Region) (x : Nat) (b : Byte) : (s.pokeByte r x b).port = s.port := by
  rw [(DeviceOnly.pokeByte s r x b).eq]
@[simp] theorem State.pokeBytes_port (s : State) (r : Region) (x : Nat) (bs : List Byte) :
    (s.pokeBytes r x bs).port = s.port := by rw [(DeviceOnly.pokeBytes s r x bs).eq]
@[simp] theorem State.move_port (s : State) (m : EnvMove) : (s.move m).port = s.port :=
  by rw [(DeviceOnly.move s m).eq]
@[simp] theorem State.moves_port (s : State) (ms : List EnvMove) : (s.moves ms).port = s.port :=
  by rw [(DeviceOnly.moves s ms).eq]
@[simp] theorem State.pokeByte_presenter (s : State) (r : Region) (x : Nat) (b : Byte) : (s.pokeByte r x b).presenter = s.presenter := by
  rw [(DeviceOnly.pokeByte s r x b).eq]
@[simp] theorem State.pokeBytes_presenter (s : State) (r : Region) (x : Nat) (bs : List Byte) :
    (s.pokeBytes r x bs).presenter = s.presenter := by rw [(DeviceOnly.pokeBytes s r x bs).eq]
@[simp] theorem State.move_presenter (s : State) (m : EnvMove) : (s.move m).presenter = s.presenter :=
  by rw [(DeviceOnly.move s m).eq]
@[simp] theorem State.moves_presenter (s : State) (ms : List EnvMove) : (s.moves ms).presenter = s.presenter :=
  by rw [(DeviceOnly.moves s ms).eq]
@[simp] theorem State.pokeByte_replyCalls (s : State) (r : Region) (x : Nat) (b : Byte) : (s.pokeByte r x b).replyCalls = s.replyCalls := by
  rw [(DeviceOnly.pokeByte s r x b).eq]
@[simp] theorem State.pokeBytes_replyCalls (s : State) (r : Region) (x : Nat) (bs : List Byte) :
    (s.pokeBytes r x bs).replyCalls = s.replyCalls := by rw [(DeviceOnly.pokeBytes s r x bs).eq]
@[simp] theorem State.move_replyCalls (s : State) (m : EnvMove) : (s.move m).replyCalls = s.replyCalls :=
  by rw [(DeviceOnly.move s m).eq]
@[simp] theorem State.moves_replyCalls (s : State) (ms : List EnvMove) : (s.moves ms).replyCalls = s.replyCalls :=
  by rw [(DeviceOnly.moves s ms).eq]
@[simp] theorem State.pokeByte_msgCalls (s : State) (r : Region) (x : Nat) (b : Byte) : (s.pokeByte r x b).msgCalls = s.msgCalls := by
  rw [(DeviceOnly.pokeByte s r x b).eq]
@[simp] theorem State.pokeBytes_msgCalls (s : State) (r : Region) (x : Nat) (bs : List Byte) :
    (s.pokeBytes r x bs).msgCalls = s.msgCalls := by rw [(DeviceOnly.pokeBytes s r x bs).eq]
@[simp] theorem State.move_msgCalls (s : State) (m : EnvMove) : (s.move m).msgCalls = s.msgCalls :=
  by rw [(DeviceOnly.move s m).eq]
@[simp] theorem State.moves_msgCalls (s : State) (ms : List EnvMove) : (s.moves ms).msgCalls = s.msgCalls :=
  by rw [(DeviceOnly.moves s ms).eq]
@[simp] theorem State.pokeByte_atDelay (s : State) (r : Region) (x : Nat) (b : Byte) : (s.pokeByte r x b).atDelay = s.atDelay := by
  rw [(DeviceOnly.pokeByte s r x b).eq]
@[simp] theorem State.pokeBytes_atDelay (s : State) (r : Region) (x : Nat) (bs : List Byte) :
    (s.pokeBytes r x bs).atDelay = s.atDelay := by rw [(DeviceOnly.pokeBytes s r x bs).eq]
@[simp] theorem State.move_atDelay (s : State) (m : EnvMove) : (s.move m).atDelay = s.atDelay :=
  by rw [(DeviceOnly.move s m).eq]
@[simp] theorem State.moves_atDelay (s : State) (ms : List EnvMove) : (s.moves ms).atDelay = s.atDelay :=
  by rw [(DeviceOnly.moves s ms).eq]
@[simp] theorem State.pokeByte_lastTaken (s : State) (r : Region) (x : Nat) (b : Byte) : (s.pokeByte r x b).lastTaken = s.lastTaken := by
  rw [(DeviceOnly.pokeByte s r x b).eq]
@[simp] theorem State.pokeBytes_lastTaken (s : State) (r : Region) (x : Nat) (bs : List Byte) :
    (s.pokeBytes r x bs).lastTaken = s.lastTaken := by rw [(DeviceOnly.pokeBytes s r x bs).eq]
@[simp] theorem State.move_lastTaken (s : State) (m : EnvMove) : (s.move m).lastTaken = s.lastTaken :=
  by rw [(DeviceOnly.move s m).eq]
@[simp] theorem State.moves_lastTaken (s : State) (ms : List EnvMove) : (s.moves ms).lastTaken = s.lastTaken :=
  by rw [(DeviceOnly.moves s ms).eq]

/-! ## Firmware moves -/

/-- A byte of plain memory, written. -/
theorem State.pokeByte_regs {s : State} {r : Region} {x : Nat} (b : Byte) (h : regAt s.cfg r (x - x % 4) = none) :
    (s.pokeByte r x b).regs = s.regs ∧ (s.pokeByte r x b).pmhw = s.pmhw ∧ (s.pokeByte r x b).fw = s.fw ∧
      (s.pokeByte r x b).replyBox = s.replyBox := by
  simp only [State.pokeByte, State.store, State.setStored, h]
  split
  · exact ⟨rfl, rfl, rfl, rfl⟩
  · cases r <;> exact ⟨rfl, rfl, rfl, rfl⟩

/-- The firmware's byte writes into plain memory, then what follows them. -/
theorem State.fwRun_pokes (bs : List Byte) (x : Nat) (s : State) (rest : List FwAct) (n : Nat)
    (hr : ∀ i < bs.length, regAt s.cfg .dsp (x + i - (x + i) % 4) = none) (hc : s.coreRunning = true) :
    State.fwRun (bs.length + n) { s with fw := pokes x bs ++ rest } =
      State.fwRun n { s.pokeBytes .dsp x bs with fw := rest } := by
  induction bs generalizing s x with
  | nil => simp [pokes, State.pokeBytes]
  | cons b bs ih =>
    have h0 := State.pokeByte_regs (s := s) (r := .dsp) (x := x) b (by simpa using hr 0 (by simp))
    have e : ({ s with fw := pokes x (b :: bs) ++ rest } : State).fwNext =
        { s.pokeByte .dsp x b with fw := pokes (x + 1) bs ++ rest } := by
      have hc' : ({ s with fw := pokes x (b :: bs) ++ rest } : State).coreRunning = true := hc
      have h1 : regAt s.cfg .dsp (x - x % 4) = none := by simpa using hr 0 (by simp)
      simp only [pokes, List.cons_append] at hc' ⊢
      simp only [State.fwNext, hc', if_true]
      simp only [State.act, State.pokeByte, State.store, State.setStored, State.stored, State.isIsr, State.isPm, State.mem,
        State.setMem, h1]
      split <;> rfl
    rw [List.length_cons, Nat.add_right_comm, State.fwRun, e, State.pokeBytes]
    have hc1 : (s.pokeByte .dsp x b).coreRunning = true := by
      simpa [State.coreRunning, State.csrRst, State.csrStall, State.inD0, h0.1, h0.2.1] using hc
    exact ih (x + 1) (s.pokeByte .dsp x b)
      (fun i hi => by simpa [Nat.add_assoc, Nat.add_comm 1 i] using hr (i + 1) (by simpa using hi)) hc1

/-! ## Delay -/

@[simp] theorem State.delay_cfg (s : State) (a : Agent) (n : Nat) : (s.delay a n).cfg = s.cfg := by
  unfold State.delay State.delayMoves
  split <;> simp
@[simp] theorem State.delay_attached (s : State) (a : Agent) (n : Nat) : (s.delay a n).attached = s.attached := by
  unfold State.delay State.delayMoves
  split <;> simp
@[simp] theorem State.delay_ctx (s : State) (a : Agent) (n : Nat) : (s.delay a n).ctx = s.ctx := by
  unfold State.delay State.delayMoves
  split <;> simp
@[simp] theorem State.delay_host (s : State) (a : Agent) (n : Nat) : (s.delay a n).host = s.host := by
  unfold State.delay State.delayMoves
  split <;> simp
@[simp] theorem State.delay_irq (s : State) (a : Agent) (n : Nat) : (s.delay a n).irq = s.irq := by
  unfold State.delay State.delayMoves
  split <;> simp
@[simp] theorem State.delay_worker (s : State) (a : Agent) (n : Nat) : (s.delay a n).worker = s.worker := by
  unfold State.delay State.delayMoves
  split <;> simp
@[simp] theorem State.delay_halt (s : State) (a : Agent) (n : Nat) : (s.delay a n).halt = s.halt := by
  unfold State.delay State.delayMoves
  split <;> simp
@[simp] theorem State.delay_irqRet (s : State) (a : Agent) (n : Nat) : (s.delay a n).irqRet = s.irqRet := by
  unfold State.delay State.delayMoves
  split <;> simp
@[simp] theorem State.delay_pwr (s : State) (a : Agent) (n : Nat) : (s.delay a n).pwr = s.pwr := by
  unfold State.delay State.delayMoves
  split <;> simp
@[simp] theorem State.delay_deferPending (s : State) (a : Agent) (n : Nat) : (s.delay a n).deferPending = s.deferPending := by
  unfold State.delay State.delayMoves
  split <;> simp
@[simp] theorem State.delay_lock (s : State) (a : Agent) (n : Nat) : (s.delay a n).lock = s.lock := by
  unfold State.delay State.delayMoves
  split <;> simp
@[simp] theorem State.delay_hm (s : State) (a : Agent) (n : Nat) : (s.delay a n).hm = s.hm := by
  unfold State.delay State.delayMoves
  split <;> simp
@[simp] theorem State.delay_d0Confirmed (s : State) (a : Agent) (n : Nat) : (s.delay a n).d0Confirmed = s.d0Confirmed := by
  unfold State.delay State.delayMoves
  split <;> simp
@[simp] theorem State.delay_d0Requested (s : State) (a : Agent) (n : Nat) : (s.delay a n).d0Requested = s.d0Requested := by
  unfold State.delay State.delayMoves
  split <;> simp
@[simp] theorem State.delay_events (s : State) (a : Agent) (n : Nat) : (s.delay a n).events = s.events := by
  unfold State.delay State.delayMoves
  split <;> simp
@[simp] theorem State.delay_draws (s : State) (a : Agent) (n : Nat) : (s.delay a n).draws = s.draws := by
  unfold State.delay State.delayMoves
  split <;> simp
@[simp] theorem State.delay_port (s : State) (a : Agent) (n : Nat) : (s.delay a n).port = s.port := by
  unfold State.delay State.delayMoves
  split <;> simp
@[simp] theorem State.delay_presenter (s : State) (a : Agent) (n : Nat) : (s.delay a n).presenter = s.presenter := by
  unfold State.delay State.delayMoves
  split <;> simp
@[simp] theorem State.delay_replyCalls (s : State) (a : Agent) (n : Nat) : (s.delay a n).replyCalls = s.replyCalls := by
  unfold State.delay State.delayMoves
  split <;> simp
@[simp] theorem State.delay_msgCalls (s : State) (a : Agent) (n : Nat) : (s.delay a n).msgCalls = s.msgCalls := by
  unfold State.delay State.delayMoves
  split <;> simp
@[simp] theorem State.delay_lastTaken (s : State) (a : Agent) (n : Nat) : (s.delay a n).lastTaken = s.lastTaken := by
  unfold State.delay State.delayMoves
  split <;> simp
@[simp] theorem State.delay_bus (s : State) (a : Agent) (n : Nat) : (s.delay a n).bus = s.bus ++ [.delay a n] := by
  unfold State.delay State.delayMoves
  split <;> simp
@[simp] theorem State.delay_elapsed (s : State) (a : Agent) (n : Nat) : (s.delay a n).elapsed = s.elapsed + n := by
  unfold State.delay State.delayMoves
  split <;> simp
@[simp] theorem State.delay_ex (s : State) (a : Agent) (n : Nat) (b : Agent) : (s.delay a n).ex b = s.ex b := by
  cases b <;> simp [State.ex]
@[simp] theorem State.delay_loc (s : State) (a : Agent) (n : Nat) (b : Agent) : (s.delay a n).loc b = s.loc b := by
  simp [State.loc]

/-- A delay in which the environment makes no move. -/
theorem State.delay_quiet (s : State) (a : Agent) (n : Nat) (h : s.atDelay = []) :
    s.delay a n = { s with elapsed := s.elapsed + n, bus := s.bus ++ [.delay a n] } := by
  simp [State.delay, State.delayMoves, State.record, h]

end Sys2Proof.Machine
end

