-- ==== Sys2Proof/Machine/Program.lean ====
section
/-! DEFINITION. How an operation is written as an assembler line (R101) and what the pseudo-operations stand for (R102).
The block itself never sees either: it is presented descriptors. -/

namespace Sys2Proof

/-- The mnemonic of an operation (R93). -/
def Instr.mnemonic : Instr → String
  | .read32 _ _ => "READ32"
  | .write32 _ _ _ => "WRITE32"
  | .read64 _ _ => "READ64"
  | .write64 _ _ _ _ => "WRITE64"
  | .blkrd _ _ _ _ => "BLKRD"
  | .blkwr _ _ _ _ => "BLKWR"
  | .enterD0 => "ENTER_D0"
  | .reset => "RESET"
  | .run => "RUN"
  | .mboxwr _ _ _ => "MBOXWR"
  | .mboxrd _ _ _ => "MBOXRD"
  | .sendmsg _ _ => "SENDMSG"
  | .getreply _ _ => "GETREPLY"
  | .irqimm => "IRQIMM"
  | .irqdefer => "IRQDEFER"
  | .cmddone => "CMDDONE"
  | .fwready => "FWREADY"
  | .paniccap _ _ _ => "PANICCAP"

/-- How a region is written (R101). -/
def Region.name : Region → String
  | .dsp => "DSP"
  | .comp => "COMP"

/-- The operands of the assembler line, in the order of R101, numbers in decimal, a 64-bit value as one number. -/
def Instr.operands : Instr → List String
  | .read32 r off | .read64 r off => [r.name, toString off.toNat]
  | .write32 r off v => [r.name, toString off.toNat, toString v.toNat]
  | .write64 r off lo hi => [r.name, toString off.toNat, toString (hi ++ lo).toNat]
  | .blkrd r off h n | .blkwr r off h n => [r.name, toString off.toNat, toString h.toNat, toString n.toNat]
  | .mboxwr b h n | .mboxrd b h n => [toString b.toNat, toString h.toNat, toString n.toNat]
  | .sendmsg h n | .getreply h n => [toString h.toNat, toString n.toNat]
  | .paniccap off o n => [toString off.toNat, toString o.toNat, toString n.toNat]
  | .enterD0 | .reset | .run | .irqimm | .irqdefer | .cmddone | .fwready => []

/-- The assembler line of an operation (R101). -/
def Instr.line (i : Instr) : String :=
  match i.operands with
  | [] => i.mnemonic
  | os => i.mnemonic ++ " " ++ String.intercalate ", " os

/-- The letter that marks an agent in a listing of several agents (R103). -/
def Agent.letter : Agent → String
  | .host => "H"
  | .irq => "I"
  | .worker => "W"

namespace Machine

/-- The first operation of the pseudo-operation `UPDATE32 rgn, off, mask, val` (R102). -/
def update32First (r : Region) (off : Word) : Instr := .read32 r off

/-- The second operation of `UPDATE32 rgn, off, mask, val` (R102), its value computed by whoever presents the two from the
`RESULT0` that the first left. -/
def update32Second (s : State) (a : Agent) (r : Region) (off mask val : Word) : Instr :=
  .write32 r off (merged (s.ex a).result0 mask val)

/-- `BRINGUP` with the loader's writes `load` (R102). -/
def bringup (load : List Instr) : List Instr := [.enterD0] ++ load ++ [.run]

/-- What follows `IRQIMM` in the pseudo-operation `HANDLEIRQ` (R102). -/
def handleIrqSecond (s : State) : Option Instr := if s.irqRet = irqWake then some .irqdefer else none

end Machine

end Sys2Proof
end

