-- ==== Sys2Proof/Tests/Slice0.lean ====
section
/-! SUPPORT. Tests. Expected values are those of 95_test_vectors.md (the vector is named), of the examples that close a rule,
or worked by hand from the rule named. Then one witness for the hypotheses of each statement that has some. -/

-- The tests are checked one after another: side by side, their kernel evaluations each hold a thread.
set_option Elab.async false

namespace Sys2Proof.Tests

open Sys2Proof Sys2Proof.Machine

/-! ## Helpers -/

/-- An observation of the next state. -/
def see {α : Type} (o : Host.Outcome State Fault Refusal) (f : State → α) : Option α :=
  match o with
  | .next s => some (f s)
  | .fault _ | .refused _ => none

/-- The refusal. -/
def why (o : Host.Outcome State Fault Refusal) : Option Refusal :=
  match o with
  | .refused r => some r
  | .next _ | .fault _ => none

/-- The reset state with D0 confirmed and nothing gated. -/
def open' : State := { State.reset with gated := [], d0Confirmed := true }

/-- The same with agent `a` presenting. -/
def as' (a : Agent) : State := { open' with presenter := a }

/-- The same in D0 with the device registers 0: core released, nothing masked, nothing pending. -/
def idle' (a : Agent) : State := { as' a with regs := ⟨0, 0, 0, 0, 0, 0, 0, 0⟩, pmhw := 0 }

/-- Bytes put into host memory. -/
def hostBytes (s : State) (a : Nat) (bs : List Byte) : State :=
  { s with hm := (List.range bs.length).foldl (fun m i => Memory.write m (a + i) (bs.getD i 0)) s.hm }

/-! ## Well-formedness: an ill-formed term for each check -/

theorem test_wf_read32_misaligned : (Instr.read32 .dsp 0x102).breach = some .misaligned := by decide
theorem test_wf_write32_misaligned : (Instr.write32 .comp 1 0).breach = some .misaligned := by decide
theorem test_wf_read64_misaligned : (Instr.read64 .dsp 2).breach = some .misaligned := by decide
theorem test_wf_write64_misaligned : (Instr.write64 .dsp 3 0 0).breach = some .misaligned := by decide
theorem test_wf_blkwr_misaligned : (Instr.blkwr .dsp 0x201 0x9000 4).breach = some .misaligned := by decide
theorem test_wf_blkwr_host : (Instr.blkwr .dsp 0x200 0xFFFFFFFF 2).breach = some .outOfHost := by decide
theorem test_wf_blkrd_host : (Instr.blkrd .dsp 1 0xFFFFFFFE 3).breach = some .outOfHost := by decide
theorem test_wf_mboxwr_host : (Instr.mboxwr 0 0xFFFFFFFF 2).breach = some .outOfHost := by decide
theorem test_wf_mboxrd_host : (Instr.mboxrd 0 0xFFFFFFFF 2).breach = some .outOfHost := by decide
theorem test_wf_sendmsg_host : (Instr.sendmsg 0xFFFFFFFF 2).breach = some .outOfHost := by decide
theorem test_wf_last_byte : (Instr.blkrd .dsp 1 0xFFFFFFFE 2).wellFormed = true := by decide

/-! ## Configuration (R13): an ill-formed configuration for each check -/

theorem test_cfg_wf : Cfg.test.wf = true := by decide +kernel
theorem test_cfg_size : { Cfg.test with dspSize := 0x100002 }.wf = false := by decide +kernel
theorem test_cfg_size_zero : { Cfg.test with compSize := 0 }.wf = false := by decide +kernel
theorem test_cfg_a_offset : { Cfg.test with csrOff := 0xFB002 }.wf = false := by decide +kernel
theorem test_cfg_a_range : { Cfg.test with scr1Off := 0x100000 }.wf = false := by decide +kernel
theorem test_cfg_a_status : { Cfg.test with pmSts := ⟨.comp, 0x100, 3⟩ }.wf = false := by decide +kernel
theorem test_cfg_b_distinct : { Cfg.test with cmdoOff := 0xFB040 }.wf = false := by decide +kernel
theorem test_cfg_c_one_bit : { Cfg.test with csrRst := 0x6 }.wf = false := by decide +kernel
theorem test_cfg_c_differ : { Cfg.test with cmdiDone := 0x80000000 }.wf = false := by decide +kernel
theorem test_cfg_d_opp : { Cfg.test with dmamodeOpp := 0 }.wf = false := by decide +kernel
theorem test_cfg_e_magic : { Cfg.test with panicMagic := 0x0DEAD001 }.wf = false := by decide +kernel
theorem test_cfg_e_mask : { Cfg.test with panicMask := 0, panicMagic := 0 }.wf = false := by decide +kernel
theorem test_cfg_f_value : { Cfg.test with stClkSel := ⟨.dsp, 0xFB000, 0x70, 0x80⟩ }.wf = false := by decide +kernel
theorem test_cfg_g_gate : { Cfg.test with stGateOff := ⟨.dsp, 0xA8, 2, 0⟩ }.wf = false := by decide +kernel
theorem test_cfg_h_status_mask : { Cfg.test with pmSts := ⟨.comp, 0x84, 0⟩ }.wf = false := by decide +kernel
theorem test_cfg_i_box : { Cfg.test with bootOut := ⟨0x9E002, 0x100⟩ }.wf = false := by decide +kernel
theorem test_cfg_j_windows : { Cfg.test with wtStream := 3 }.wf = false := by decide +kernel
theorem test_cfg_k_outside : { Cfg.test with bootIn := ⟨0xFB000, 0x400⟩ }.wf = false := by decide +kernel
theorem test_cfg_header : { Cfg.test with rhErrOff := 6 }.wf = false := by decide +kernel
theorem test_cfg_layout : { Cfg.test with fwr := { Cfg.test.fwr with verLen := 17 } }.wf = false := by decide +kernel
theorem test_cfg_element : { Cfg.test with fwr := { Cfg.test.fwr with elemSize := 11 } }.wf = false := by decide +kernel
theorem test_cfg_diag : { Cfg.test with diagTable := [] }.wf = false := by decide +kernel
theorem test_cfg_diag_names :
    { Cfg.test with diagTable := List.replicate 7 ⟨.dmac0, .dsp, 0, 4⟩ }.wf = false := by decide +kernel
theorem test_bad_cfg_refused :
    why (step { State.reset with cfg := { Cfg.test with dspSize := 2 } }) = some .badConfig := by decide +kernel

/-! ## Decoding: the words of B0, written out -/

theorem test_decode_read32 : decode [0x01, 0, 0, 0, 0x04, 0x02, 0, 0, 0, 0, 0, 0, 0, 0, 0, 0] =
    .ok (.read32 .dsp 0x204, []) := by rfl
theorem test_decode_write32 : decode [0x02, 0x01, 0, 0, 0x84, 0, 0, 0, 0x03, 0, 0, 0, 0, 0, 0, 0] =
    .ok (.write32 .comp 0x84 3, []) := by rfl
theorem test_decode_read64 : decode [0x03, 0, 0, 0, 0, 0x02, 0, 0, 0, 0, 0, 0, 0, 0, 0, 0] =
    .ok (.read64 .dsp 0x200, []) := by rfl
theorem test_decode_write64 :
    decode [0x04, 0, 0, 0, 0x20, 0, 0, 0, 0x88, 0x77, 0x66, 0x55, 0x44, 0x33, 0x22, 0x11] =
      .ok (.write64 .dsp 0x20 0x55667788 0x11223344, []) := by rfl
theorem test_decode_blkrd : decode [0x05, 0x01, 0, 0, 0x10, 0, 0, 0, 0, 0x80, 0, 0, 0x03, 0, 0, 0] =
    .ok (.blkrd .comp 0x10 0x8000 3, []) := by rfl
theorem test_decode_blkwr : decode [0x06, 0, 0, 0, 0, 0x02, 0, 0, 0, 0x90, 0, 0, 0x07, 0, 0, 0] =
    .ok (.blkwr .dsp 0x200 0x9000 7, []) := by rfl
theorem test_decode_enterD0 : decode [0x10, 0, 0, 0, 0xFF, 0xFF, 0xFF, 0xFF, 0xFF, 0xFF, 0xFF, 0xFF, 0xFF, 0xFF, 0xFF,
    0xFF] = .ok (.enterD0, []) := by rfl
theorem test_decode_reset : decode [0x11, 0, 0, 0, 0, 0, 0, 0, 0, 0, 0, 0, 0, 0, 0, 0] = .ok (.reset, []) := by rfl
theorem test_decode_run : decode [0x12, 0, 0, 0, 0, 0, 0, 0, 0, 0, 0, 0, 0, 0, 0, 0] = .ok (.run, []) := by rfl
theorem test_decode_mboxwr : decode [0x20, 0, 0, 0, 0x10, 0, 0, 0, 0, 0x70, 0, 0, 0x04, 0, 0, 0] =
    .ok (.mboxwr 0x10 0x7000 4, []) := by rfl
theorem test_decode_mboxrd : decode [0x21, 0, 0, 0, 0, 0, 0, 0, 0, 0x71, 0, 0, 0x04, 0, 0, 0] =
    .ok (.mboxrd 0 0x7100 4, []) := by rfl
theorem test_decode_sendmsg : decode [0x22, 0, 0, 0, 0, 0, 0, 0, 0, 0x70, 0, 0, 0x0B, 0, 0, 0] =
    .ok (.sendmsg 0x7000 11, []) := by rfl
theorem test_decode_getreply : decode [0x23, 0, 0, 0, 0, 0, 0, 0, 0, 0x71, 0, 0, 0x10, 0, 0, 0] =
    .ok (.getreply 0x7100 16, []) := by rfl
theorem test_decode_irqimm : decode [0x30, 0, 0, 0, 0, 0, 0, 0, 0, 0, 0, 0, 0, 0, 0, 0] = .ok (.irqimm, []) := by rfl
theorem test_decode_irqdefer : decode [0x31, 0, 0, 0, 0, 0, 0, 0, 0, 0, 0, 0, 0, 0, 0, 0] = .ok (.irqdefer, []) := by rfl
theorem test_decode_cmddone : decode [0x32, 0, 0, 0, 0, 0, 0, 0, 0, 0, 0, 0, 0, 0, 0, 0] = .ok (.cmddone, []) := by rfl
theorem test_decode_fwready : decode [0x40, 0, 0, 0, 0, 0, 0, 0, 0, 0, 0, 0, 0, 0, 0, 0] = .ok (.fwready, []) := by rfl
theorem test_decode_paniccap :
    decode [0x41, 0, 0, 0, 0, 0xEC, 0x09, 0, 0, 0x0C, 0, 0, 0, 0xD0, 0xEA, 0x8D] =
      .ok (.paniccap 0x9EC00 0xC00 0x8DEAD000, []) := by rfl

/-- B0.23 to B0.31: the illegal values of `W0`, each with its reason. -/
theorem test_decode_illegal :
    ([0x00, 0x07, 0xFF, 0x13, 0x24, 0x33, 0x42, 0x110, 0x141, 0x10001, 0x201, 0x80000012].map
      (fun w => match decodeDesc (descOf w 0 0 0) with | .error e => some e | .ok _ => none)) =
    [some .unassigned, some .unassigned, some .unassigned, some .unassigned, some .unassigned, some .unassigned,
      some .unassigned, some .regionBit, some .regionBit, some .reservedBits, some .reservedBits, some .reservedBits] := by
  decide +kernel

/-- R104: fewer than sixteen bytes are no descriptor. -/
theorem test_decode_truncated : decode [0x10, 0, 0, 0] = .error .truncated := by rfl

/-- R101, B0.4: an assembler line. -/
theorem test_line : (Instr.write64 .dsp 0x20 0x55667788 0x11223344).line = "WRITE64 DSP, 32, 1234605616436508552" := by
  decide +kernel

/-! ## Access -/

/-- B1.10. -/
theorem test_read32 : see (exec (.read32 .dsp 0x10) ((as' .host).pokeBytes .dsp 0x10 [0x78, 0x56, 0x34, 0x12]))
    (fun s => s.host.result0) = some 0x12345678 := by decide +kernel
/-- B1.17, B1.18. -/
theorem test_read32_refused : [why (exec (.read32 .dsp 0x100000) (as' .host)), why (exec (.read32 .dsp 0x102) (as' .host))] =
    [some (.contract .outOfRegion), some (.contract .misaligned)] := by decide +kernel
/-- R112: byte 0 is the lowest address. -/
theorem test_write32 : see (exec (.write32 .comp 0xFC 0x04030201) (as' .host)) (fun s => Memory.readBytes s.compMem 0xFB 5) =
    some [0, 1, 2, 3, 4] := by decide +kernel
/-- R32: a write to `ISR` changes nothing. -/
theorem test_write32_isr : see (exec (.write32 .dsp 0xFB018 0xFFFFFFFF) (as' .host)) (fun s => (s.regs, s.dspMem)) =
    some ((as' .host).regs, []) := by decide +kernel
/-- B1.12. -/
theorem test_read64 : see (exec (.read64 .dsp 0x20) ((as' .host).pokeBytes .dsp 0x20 [1, 2, 3, 4, 5, 6, 7, 8]))
    (fun s => (s.host.result0, s.host.result1)) = some (0x04030201, 0x08070605) := by decide +kernel
/-- B1.13. -/
theorem test_write64 : see (exec (.write64 .dsp 0x20 0x55667788 0x11223344) (as' .host))
    (fun s => Memory.readBytes s.dspMem 0x20 8) = some [0x88, 0x77, 0x66, 0x55, 0x44, 0x33, 0x22, 0x11] := by decide +kernel
/-- B3.4: a read at an odd place, no byte beyond its length. -/
theorem test_blkrd : see (exec (.blkrd .dsp 0x9E7FD 0x7100 3) ((as' .host).pokeBytes .dsp 0x9E7FD [0xA1, 0xA2, 0xA3, 0xA4]))
    (fun s => Memory.readBytes s.hm 0x7100 4) = some [0xA1, 0xA2, 0xA3, 0] := by decide +kernel
/-- B1.9. -/
theorem test_blkwr : see (exec (.blkwr .dsp 0x200 0x9000 8)
    (hostBytes (as' .host) 0x9000 [0x11, 0x22, 0x33, 0x44, 0x55, 0x66, 0x77, 0x88])) (fun s => s.bus) =
    some [.wr32 .host .dsp 0x200 0x44332211, .wr32 .host .dsp 0x204 0x88776655] := by decide +kernel
/-- B1.2: one access, with one free pad. -/
theorem test_blkwr_tail : see (exec (.blkwr .dsp 0x200 0x9000 1) (hostBytes (as' .host) 0x9000 [0x11]))
    (fun s => (s.bus.length, s.draws)) = some (1, 1) := by decide +kernel

/-! ## Power -/

/-- B2.2: ready at the third poll. -/
theorem test_enterD0 : see (exec .enterD0 { as' .host with atDelay := [[], [.pwrReady]] })
    (fun s => (s.bus.length, s.elapsed, s.pwr, s.host.status)) = some (32, 50, .stalledReady, 0) := by decide +kernel
/-- B2.5: ready only in the tenth delay. -/
theorem test_enterD0_timeout :
    see (exec .enterD0 { as' .host with atDelay := [[], [], [], [], [], [], [], [], [], [.pwrReady]] })
      (fun s => (s.bus.length, s.elapsed, s.pwr, s.halt)) = some (26, 200, .offD3, true) := by decide +kernel
/-- B2.7, the second row. -/
theorem test_reset : see (exec .reset { as' .host with regs := { Regs.atAttach with csr := 0xFFFFFFFF }, pwr := .running })
    (fun s => (s.regs.csr, s.pwr, s.elapsed)) = some (0xFFFFFFFD, .stalledReady, 10) := by decide +kernel
/-- B2.8. -/
theorem test_run : see (exec .run { as' .host with
      regs := { Regs.atAttach with csr := 0x400, dmamode := 0x10F0F }, pwr := .stalledReady })
    (fun s => (s.regs.csr, s.regs.dmamode, s.pwr)) = some (0, 0x10000, .running) := by decide +kernel

/-! ## Mailbox -/

/-- R161, the example. -/
theorem test_mboxwr : see (exec (.mboxwr 0x10 0x7000 4) (hostBytes (as' .host) 0x7000 [0xDE, 0xAD, 0xBE, 0xEF]))
    (fun s => s.bus) = some [.wr32 .host .dsp 0x9E010 0xEFBEADDE] := by decide +kernel
/-- R162, the example. -/
theorem test_mboxrd : see (exec (.mboxrd 0 0x7100 4) ((as' .worker).pokeBytes .dsp 0x9E400 [0x0C]))
    (fun s => Memory.readBytes s.hm 0x7100 4) = some [0x0C, 0, 0, 0] := by decide +kernel
/-- B3.1, B3.2: BUSY is set by a read-modify-write, after the payload. -/
theorem test_sendmsg : see (exec (.sendmsg 0x7000 4)
    (hostBytes { as' .host with regs := { Regs.atAttach with cmdo := 5 } } 0x7000 [1, 2, 3, 4])) (fun s => s.bus) =
    some [.wr32 .host .dsp 0x9E000 0x04030201, .rd32 .host .dsp 0xFB038 5, .wr32 .host .dsp 0xFB038 0x80000005] := by
  decide +kernel
/-- B3.6: a size that is not the expected one. -/
theorem test_getreply_mismatch :
    see (exec (.getreply 0x7100 12) ((as' .host).pokeBytes .dsp 0x9E000 [0x10, 0, 0, 0, 0, 0, 0, 0, 0xAA, 0xBB, 0xCC, 0xDD,
      0xEE])) (fun s => (s.host.status, s.host.result0, Memory.readBytes s.hm 0x7108 5)) =
      some (3, 12, [0xAA, 0xBB, 0xCC, 0xDD, 0]) := by decide +kernel
/-- B3.8: a negative error field. -/
theorem test_getreply_error :
    see (exec (.getreply 0x7100 16) ((as' .host).pokeBytes .dsp 0x9E000 [0x10, 0, 0, 0, 0xEA, 0xFF, 0xFF, 0xFF, 0xAA]))
      (fun s => (s.host.status, s.host.errval.toInt, s.host.result0, Memory.read s.hm 0x7108)) = some (2, -22, 8, 0) := by
  decide +kernel

/-! ## Doorbell -/

/-- B4.1 to B4.4: neither source, DONE, BUSY, both. -/
theorem test_irqimm :
    [(0, 0), (0x40000000, 0), (0, 0x80000123), (0x40000000, 0x80000000)].map
      (fun (x : Word × Word) => see (exec .irqimm { idle' .irq with regs := { (idle' .irq).regs with cmdo := x.1, cmdi := x.2 } })
        (fun s => (s.regs.imrh, s.irqRet, s.deferPending, s.bus.length))) =
    [some (0, 0, false, 1), some (1, 1, true, 3), some (2, 1, true, 3), some (3, 1, true, 5)] := by decide +kernel
/-- R189, the example. -/
theorem test_irqdefer_reply : see (exec .irqdefer { idle' .worker with
      regs := { (idle' .worker).regs with cmdo := 0x40000005, imrh := 1 }, deferPending := true })
    (fun s => (s.regs.cmdo, s.regs.imrh, s.irqRet, s.events)) =
    some (5, 0, 2, [.reply [0, 0, 0, 0, 0, 0, 0, 0] 0x40000005]) := by decide +kernel
/-- B4.11: a panic goes to the capture and not to the message consumer; BUSY stays. -/
theorem test_irqdefer_panic : see (exec .irqdefer { idle' .worker with
      regs := { (idle' .worker).regs with cmdo := 0x800, cmdi := 0x8DEAD000 } })
    (fun s => (s.regs.cmdi, s.events.map (fun e => match e with | .diag _ _ o i u c => (o, i, u, c) | _ => (0, 0, 0, 0)))) =
    some (0x8DEAD000, [(0x800, 0x8DEAD000, 0x9E800, 0x9E800)]) := by decide +kernel
/-- B4.15. -/
theorem test_cmddone : see (exec .cmddone { as' .host with regs := { Regs.atAttach with cmdi := 0x80000123, imrh := 2 } })
    (fun s => (s.regs.cmdi, s.regs.imrh, s.host.status, s.lock)) = some (0x40000123, 0, 0, none) := by decide +kernel

/-! ## Handshake and panic capture -/

/-- `CFG_TEST` with a window table of `n` elements right after the descriptor. -/
def cfgWindows (n : Nat) : Cfg := { Cfg.test with winTableOf := { rows := [], delta := 0, count := n } }

/-- A state whose bootstrap box holds a descriptor that declares both boxes, and the elements given. -/
def handshake (a : Agent) (els : List (Word × Word × Word)) : State :=
  { as' a with cfg := cfgWindows els.length }.pokeBytes .dsp 0x9E400
    ([0x56] ++ List.replicate 15 0 ++ wordBytes 0 ++ wordBytes 0x400 ++ wordBytes 0x400 ++ wordBytes 0x400 ++
      (els.map (fun (x : Word × Word × Word) => wordBytes x.1 ++ wordBytes x.2.1 ++ wordBytes x.2.2)).flatten)

/-- B5.2, its first four elements: the boxes, a trace region, the exception place. -/
theorem test_fwready : see (exec .fwready (handshake .host [(1, 0, 0x200), (0, 0x200, 0x200), (2, 0x400, 0x100),
      (6, 0x800, 0x100)])) (fun s => (s.ctx.outbox, s.ctx.inbox, s.ctx.excOff, s.ctx.diag.length)) =
    some (⟨0x9E000, 0x200⟩, ⟨0x9E200, 0x200⟩, 0x9E800, 9) := by decide +kernel
/-- B5.4: an unrecognised type. -/
theorem test_fwready_bad : see (exec .fwready (handshake .host [(1, 0, 0x200), (7, 0x111, 0x222), (0, 0x200, 0x200)]))
    (fun s => (s.host.status, s.host.errval, s.halt, s.ctx.inbox)) = some (5, 7, true, ⟨0x9E400, 0x400⟩) := by decide +kernel
/-- B6.2: the recorded offset is read, the encoded one is passed on. -/
theorem test_paniccap : see (exec (.paniccap 0x9EC00 0xC00 0x8DEAD000)
      ({ as' .host with ctx := { (as' .host).ctx with excValid := true, excOff := 0x9E800 } }.pokeBytes .dsp 0x9E83F [7, 1, 2]))
    (fun s => s.events.map (fun e => match e with
      | .diag b w _ _ u c => (b.getLast?, w.head?, u, c)
      | _ => (none, none, 0, 0))) = some [(some 7, some 0x0201, 0x9E800, 0x9EC00)] := by decide +kernel
/-- B6.3: a record out of range. -/
theorem test_paniccap_refused : why (exec (.paniccap 0xFFFE0 0 0) (as' .host)) = some (.contract .outOfRegion) := by
  decide +kernel

/-! ## Steps -/

/-- C5, the second operation: a halted host port. -/
theorem test_halted : why (step { as' .host with halt := true, port := [.op .host (encode .run)] }) = some .halted := by
  decide +kernel
/-- A placed instruction is run by the next step: B1.10 once more. -/
theorem test_placed : see (step ((open'.pokeBytes .dsp 0x10 [0x78]).withFetchWord 128 0x1000000001))
    (fun s => (s.host.result0, s.port)) = some (0x78, []) := by decide +kernel
/-- R274, U6: before D0 is confirmed a read of `RGN[0]` finds a free value, one of `RGN[1]` what is stored. -/
theorem test_before_d0 :
    see (step (State.reset.withFetchWord 128 0x1000000001)) (fun s => s.host.result0) = some (Config.draw 0) ∧
    see (step (State.reset.withFetchWord 128 0x8400000101)) (fun s => s.host.result0) = some 3 := by
  constructor
  · rfl
  · decide +kernel
/-- An interrupt operation is placed on the interrupt agent's port. -/
theorem test_placed_irq : see (step (open'.withFetchWord 32 0x30)) (fun s => (s.irqRet, s.irq.op)) = some (0, none) := by
  decide +kernel

/-- U6, R110 (f): with nothing gated a read of `RGN[0]` is still a free value before D0 is confirmed. -/
theorem test_not_confirmed : see (exec (.read32 .dsp 0x10) { as' .host with d0Confirmed := false }) (fun s => s.host.result0) =
    some (Config.draw 0) := by rfl
/-- C3, U6: the mailbox area from `MBOX_BASE` on stays accessible when the boxes have moved; data RAM is gated. -/
theorem test_mailbox_area :
    let s := { open' with gated := [⟨0, 0x100000⟩], ctx := { open'.ctx with outbox := ⟨0x9E000, 0x200⟩, inbox := ⟨0x9E200, 0x200⟩ } }
    ([0x9E438, 0x9EFFF, 0x9F000, 0x10, 0xFB000].map (s.inaccessible .dsp)) = [false, false, true, true, false] := by
  decide +kernel
/-- R76: a `pick` beyond the units left still takes one, and none is dropped: the third byte of three, pick 7. -/
theorem test_pick_wraps :
    see (microStep .host 8 ((open'.pokeBytes .dsp 0x10 [1, 2, 3]).setEx .host { open'.host with
        op := some (.blkrd .dsp 0x10 0x7000 3), todo := [.copyOut .dsp 0x10 (.host 0x7000) [⟨0, 3⟩], .ok, .idle] }))
      (fun t => (Memory.readBytes t.hm 0x7000 3, t.host.todo.head?, t.host.step)) =
    some ([0, 0, 3], some (.copyOut .dsp 0x10 (.host 0x7000) [⟨0, 2⟩]), 2) := by decide +kernel
/-- R25: `SEQ.step` along `ENTER_D0`: the poll loop's read is micro-step 8 each time round, its delay 9, and its success
goes on to 12. -/
theorem test_seq_step :
    let l := enterD0Listing Cfg.test ++ [.idle]
    [l, l.drop 7, .pollWait 9 :: l.drop 8, .poll 9 :: l.drop 8, l.drop 8].map (place Cfg.test {} .enterD0) = [1, 8, 9, 8, 12] := by
  decide +kernel
/-- R253: the firmware writes one byte of its post; the flag is still to come. -/
theorem test_firmware_sequence :
    let s := { open' with regs := ⟨0, 0, 0, 0, 0, 0, 0, 0⟩, pmhw := 0, fw := [.poke 0x9E400 5, .cmdi 0x80000007] }
    ((s.move .next).regs.cmdi, Memory.read (s.move .next).dspMem 0x9E400, (s.move .next).fw) = (0, 5, [.cmdi 0x80000007]) := by
  decide +kernel
/-- R252, R216: an operation that a consumer presents is the one in progress, and its end leaves nothing of it behind. -/
theorem test_nested :
    let s := fun (m : Micro) => { as' .worker with worker := { open'.worker with
      op := some .irqdefer, todo := [m, .handled, .ok, .idle], loc := { cmdo := 1, cmdi := 2 } } }
    see (microStep .worker 0 (s (.present .message (encode (.mboxrd 0 0x7000 1)))))
        (fun t => (t.worker.op, t.worker.step, t.worker.loc)) = some (some (.mboxrd 0 0x7000 1), 1, {}) ∧
      see (microStep .worker 0 (s (.ret 1 2))) (fun t => (t.worker.op, t.worker.step, t.worker.loc)) =
        some (some .irqdefer, 223, { cmdo := 1, cmdi := 2 }) := by decide +kernel
/-- R252, R97, R25: an illegal descriptor of a consumer halts, and `SEQ.step` names the stage's next micro-step, W6. -/
theorem test_call_illegal :
    let s := { as' .worker with worker := { open'.worker with
      op := some .irqdefer, todo := [.present .message (descOf 0x80000012 0 0 0), .handled, .ok, .idle] } }
    see (microStep .worker 0 s) (fun t => (t.worker.op, t.worker.step, t.worker.todo, t.worker.status, t.halt)) =
      some (some .irqdefer, 223, [.handled, .ok, .idle], 6, true) := by decide +kernel
/-- R291: the handshake moves the boxes while a message is outstanding: it is answered in the old one. -/
theorem test_answer_in_old_box :
    let s := { (idle' .host).setReg .cmdo 0x80000001 with ctx := { open'.ctx with outbox := ⟨0x9E100, 0x100⟩ } }
    let t := s.move (.fwReply [7] 0)
    (s.replyBox, Memory.read t.dspMem 0x9E000, Memory.read t.dspMem 0x9E100, t.regs.cmdo, (t.setReg .cmdo 0x80000002).replyBox) =
      (⟨0x9E000, 0x400⟩, 7, 0, 0x40000000, ⟨0x9E100, 0x100⟩) := by decide +kernel
/-- R254: with the line stuck high the worker is served too. -/
theorem test_fair :
    let s := { as' .irq with regs := ⟨0, 0, 0, 0x40000000, 0, 0, 0, 0⟩, deferPending := true, lastTaken := .irq }
    see (step s) (fun t => (t.irqRet, t.lastTaken)) = some (2, .worker) := by decide +kernel

/-! ## Witnesses: states and operands that meet the hypotheses of each statement -/

theorem witness_StepRunsDecoded :
    let s := { as' .irq with port := [.op .host (encode .run), .detach] }
    s.cfg.wf = true ∧ s.port = .op .host (encode .run) :: [.detach] ∧ s.attached = true ∧ (s.ex .host).op = none ∧
      s.halt = false ∧ decode (descBytes (encode .run)) = .ok (.run, []) :=
  ⟨by decide +kernel, rfl, rfl, rfl, rfl, rfl⟩

theorem witness_IllegalDescriptor :
    let d := descOf 0x80000012 0 0 0
    let s := { State.reset with port := [.op .host d] }
    s.cfg.wf = true ∧ s.port = .op .host d :: [] ∧ s.attached = true ∧ (s.ex .host).op = none ∧ s.halt = false ∧
      decodeDesc d = .error .reservedBits := ⟨by decide +kernel, rfl, rfl, rfl, rfl, rfl⟩

/-- One forbidden presentation for each agent. -/
theorem witness_WrongAgentRefused : (as' .irq).attached = true ∧ ((as' .irq).ex .irq).op = none ∧
    Instr.irqdefer ≠ .irqimm ∧ Instr.irqimm ≠ .irqdefer ∧ (as' .worker).presenter = .worker ∧
    (as' .host).halt = false ∧ ¬(Instr.irqimm ≠ .irqimm ∧ Instr.irqimm ≠ .irqdefer) := by decide +kernel

theorem witness_HaltClosesHostPort :
    let s := { State.reset with halt := true, port := [.op .worker (encode .cmddone)] }
    s.cfg.wf = true ∧ s.port = .op .worker (encode .cmddone) :: [] ∧ s.attached = true ∧ (s.ex .worker).op = none ∧
      s.halt = true ∧ decodeDesc (encode .cmddone) = .ok .cmddone := ⟨by decide +kernel, rfl, rfl, rfl, rfl, rfl⟩

/-- The last word of the region: plain memory. -/
theorem witness_Read32Result : (as' .host).cfg.wf = true ∧ Presentable (as' .host) (.read32 .dsp 0xFFFFC) ∧
    (0xFFFFC : Word).toNat % 4 = 0 ∧ RegionRange (as' .host) .dsp 0xFFFFC 4 ∧
    (as' .host).isIsr .dsp 0xFFFFC = false ∧ (as' .host).plainWord .dsp 0xFFFFC := by
  unfold Presentable RegionRange State.plainWord; decide +kernel

/-- A device register. -/
theorem witness_Read32Result_register : Presentable (as' .host) (.read32 .dsp 0xFB038) ∧
    RegionRange (as' .host) .dsp 0xFB038 4 ∧ (0xFB038 : Word).toNat = regOff (as' .host).cfg .cmdo ∧
    (as' .host).inaccessible .dsp 0xFB038 = false ∧ (as' .host).isPm .dsp 0xFB038 = false := by
  unfold Presentable RegionRange; decide +kernel

theorem witness_Write32Result : Presentable (as' .host) (.write32 .comp 0xFC 1) ∧ (0xFC : Word).toNat % 4 = 0 ∧
    RegionRange (as' .host) .comp 0xFC 4 ∧ (as' .host).plainWord .comp 0xFC := by
  unfold Presentable RegionRange State.plainWord; decide +kernel

theorem witness_Write32Result_register : Presentable (as' .host) (.write32 .dsp 0xFB0E8 1) ∧
    RegionRange (as' .host) .dsp 0xFB0E8 4 ∧ (0xFB0E8 : Word).toNat = regOff (as' .host).cfg .dmamode ∧
    (0xFB0E8 : Word).toNat ∈ (as' .host).cfg.offsets ∧ (as' .host).inaccessible .dsp 0xFB0E8 = false ∧
    (as' .host).isPm .dsp 0xFB0E8 = false := by unfold Presentable RegionRange; decide +kernel

theorem witness_Read64Result : Presentable (as' .host) (.read64 .dsp 0xFFFF8) ∧ (0xFFFF8 : Word).toNat % 4 = 0 ∧
    RegionRange (as' .host) .dsp 0xFFFF8 8 ∧ (as' .host).inaccessible .dsp 0xFFFFC = false ∧
    (as' .host).isIsr .dsp 0xFFFFC = false := by unfold Presentable RegionRange; decide +kernel

/-- Two registers side by side. -/
theorem witness_Write64Result : Presentable (as' .host) (.write64 .dsp 0xFB0E0 1 2) ∧
    RegionRange (as' .host) .dsp 0xFB0E0 8 ∧ (0xFB0E0 : Word).toNat = regOff (as' .host).cfg .scr0 ∧
    (0xFB0E0 : Word).toNat + 4 = regOff (as' .host).cfg .scr1 ∧ (as' .host).isPm .dsp 0xFB0E4 = false := by
  unfold Presentable RegionRange; decide +kernel

theorem witness_Write64Result_plain : Presentable (as' .host) (.write64 .comp 0xF8 1 2) ∧
    RegionRange (as' .host) .comp 0xF8 8 ∧ (as' .host).plainWord .comp 0xF8 ∧ (as' .host).plainWord .comp 0xFC := by
  unfold Presentable RegionRange State.plainWord; decide +kernel

/-- The last bytes of both spaces. -/
theorem witness_BlkrdResult : Presentable (as' .worker) (.blkrd .comp 0xFD 0xFFFFFFFD 3) ∧
    RegionRange (as' .worker) .comp 0xFD 3 ∧ HostRange 0xFFFFFFFD 3 ∧ (as' .worker).isIsrByte .comp 0xFF = false ∧
    (as' .worker).inaccessible .comp 0xFF = false := by unfold Presentable RegionRange HostRange; decide +kernel

/-- A length that is not a multiple of 4, up to the end of the region; and the same for the round trip. -/
theorem witness_BlkwrResult : Presentable (as' .host) (.blkwr .dsp 0xFFFF8 0xFFFFFFFB 5) ∧
    (0xFFFF8 : Word).toNat % 4 = 0 ∧ RegionRange (as' .host) .dsp 0xFFFF8 (roundUp 5) ∧ HostRange 0xFFFFFFFB 5 ∧
    (∀ i < 8, (as' .host).inaccessible .dsp (0xFFFF8 + i) = false ∧
      (as' .host).isIsr .dsp (0xFFFF8 + i - (0xFFFF8 + i) % 4) = false ∧
      (as' .host).isPm .dsp (0xFFFF8 + i - (0xFFFF8 + i) % 4) = false) := by
  unfold Presentable RegionRange HostRange; decide +kernel

/-- R116, R118: five bytes are two word writes, and the three bytes after them are those of the one free value drawn. -/
theorem test_blkwr_pad : see (exec (.blkwr .dsp 0x200 0x9000 5) (as' .host)) (fun t => (newAccesses (as' .host) t, t.draws)) =
    some ([.write .dsp 0x200, .write .dsp 0x204], 1) := by decide +kernel

theorem witness_BlockRoundTrip : Presentable (as' .host) (.blkwr .dsp 0xFFFF8 0x7000 5) ∧
    (0xFFFF8 : Word).toNat % 4 = 0 ∧ RegionRange (as' .host) .dsp 0xFFFF8 (roundUp 5) ∧ HostRange 0x7000 5 ∧
    HostRange 0xFFFFFFFB 5 ∧
    (∀ i < roundUp 5, (as' .host).inaccessible .dsp (0xFFFF8 + i) = false ∧
      (as' .host).isIsr .dsp (0xFFFF8 + i - (0xFFFF8 + i) % 4) = false ∧
      (as' .host).isPm .dsp (0xFFFF8 + i - (0xFFFF8 + i) % 4) = false) := by
  unfold Presentable RegionRange HostRange; decide +kernel

/-- One breach of each kind, one past each boundary. -/
theorem witness_AccessRefused : Presentable (as' .host) (.read32 .dsp 0x100000) ∧
    ¬RegionRange (as' .host) .dsp 0x100000 4 ∧ ¬RegionRange (as' .host) .dsp 0xFFFFC 8 ∧
    ¬(0xFFFFE : Word).toNat % 4 = 0 ∧ Presentable (as' .worker) (.blkrd .dsp 0xFFFFF 0 2) ∧
    ¬RegionRange (as' .worker) .dsp 0xFFFFF 2 ∧ ¬HostRange 0xFFFFFFFF 2 ∧ ¬RegionRange (as' .host) .dsp 0xFFFFC (roundUp 5) := by
  unfold Presentable RegionRange HostRange; decide +kernel

theorem witness_IsrMirror : (0xFB018 : Word).toNat = (as' .host).cfg.isrOff ∧
    (as' .host).inaccessible .dsp 0xFB018 = false ∧ (as' .host).isPm .dsp 0xFB018 = false ∧
    Presentable (as' .host) (.read32 .dsp 0xFB018) ∧ Presentable (as' .host) (.write32 .dsp 0xFB018 5) := by
  unfold Presentable; decide +kernel

/-- In the companion region, and in the DSP region. -/
theorem witness_PowerStatusField :
    let s := { as' .host with cfg := { Cfg.test with pmSts := ⟨.dsp, 0xFB084, 3⟩ } }
    (as' .host).cfg.wf = true ∧ (0x84 : Word).toNat = (as' .host).cfg.pmSts.off ∧ .comp = (as' .host).cfg.pmSts.rgn ∧
    Presentable (as' .host) (.read32 .comp 0x84) ∧ Presentable (as' .host) (.write32 .comp 0x84 5) ∧
    (as' .host).inaccessible .comp 0x84 = false ∧
    s.cfg.wf = true ∧ (0xFB084 : Word).toNat = s.cfg.pmSts.off ∧ .dsp = s.cfg.pmSts.rgn ∧
    s.inaccessible .dsp 0xFB084 = false ∧ 0xFB084 ∉ s.cfg.offsets ∧ Presentable s (.write32 .dsp 0xFB084 5) := by
  unfold Presentable; decide +kernel

theorem witness_EnterD0Success : (idle' .host).cfg.wf = true ∧ Presentable (idle' .host) .enterD0 ∧
    (idle' .host).lock = none ∧ (idle' .host).gated = [] ∧ (idle' .host).atDelay = [] ∧ (idle' .host).inD0 = true ∧
    (idle' .host).pmApart ∧ (idle' .host).requestReadable ∧ StepsClear (idle' .host).cfg := by
  unfold Presentable State.pmApart State.requestReadable StepsClear; decide +kernel

/-- The state at attach, all of `RGN[0]` inaccessible, on a device that reports D0. -/
theorem witness_EnterD0FromGated :
    let s := { State.reset with pmhw := 0 }
    s.cfg.wf = true ∧ Presentable s .enterD0 ∧ s.lock = none ∧ s.atDelay = [] ∧ s.pmApart ∧
      s.inaccessible s.cfg.pmSts.rgn s.cfg.pmSts.off = false ∧ s.inD0 = true ∧ StepsClear s.cfg ∧
      s.inaccessible .dsp s.cfg.csrOff = true ∧ s.inaccessible .dsp s.cfg.stQuirkOff.off = true := by
  unfold Presentable State.pmApart StepsClear; decide +kernel

/-- The clock-select field of `CSR`, the clock-gating field, which shares its register with an earlier one, and, in another
configuration, a bit of `IMRH` that E14 does not write. -/
theorem witness_EnterD0Targets :
    [((idle' .host).cfg, 3), ((idle' .host).cfg, 4), ({ Cfg.test with stQuirkOff := ⟨.dsp, 0xFB028, 4, 4⟩ }, 6)].all (fun x =>
      x.1.wf && match x.1.stepDescs[x.2]? with
      | none => false
      | some d =>
        ((List.range 7).all (fun j => match x.1.stepDescs[j]? with
          | none => false
          | some e => !(x.2 < j && e.rgn == d.rgn && e.off == d.off) || e.mask &&& d.mask == 0)) &&
        allRegs.all (fun g => !(d.rgn == .dsp && d.off == regOff x.1 g) || d.mask &&& enterD0Mask x.1 g == 0) &&
        d.off != x.1.isrOff) = true := by decide +kernel

/-- No failed poll; nine, with the field busy, ready and busy again between polls; ten. -/
theorem witness_PollLaw :
    let s := { as' .host with atDelay := [[.pwrReady, .pwrBusy 1], [], [], [], [], [], [], [], [.pwrReady]] }
    (idle' .host).statusAt 0 = 0 ∧ (idle' .host).cfg.pmSts.rgn = .comp ∧ Presentable (as' .host) .enterD0 ∧
    (∀ j < 9, s.statusAt j ≠ 0) ∧ s.statusAt 9 = 0 ∧ (∀ j < 10, (as' .host).statusAt j ≠ 0) := by
  unfold Presentable; decide +kernel

theorem witness_EnterD0Timeout : (as' .host).cfg.wf = true ∧ Presentable (as' .host) .enterD0 ∧
    (as' .host).inaccessible (as' .host).cfg.pmSts.rgn (as' .host).cfg.pmSts.off = false ∧ (as' .host).inD0 = false ∧
    (as' .host).atDelay = [] := by
  unfold Presentable; decide +kernel

/-- The three targets lie apart, so each field is found. -/
theorem witness_EnterD0Timeout_targets : see (exec .enterD0 (as' .host)) (fun t =>
    [(as' .host).cfg.stGateOff, (as' .host).cfg.stPdOff].map (fun d => (t.word d.rgn d.off &&& d.mask, d.val,
      (as' .host).inaccessible d.rgn d.off))) = some [(0, 0, false), (1, 1, false)] := by decide +kernel

/-- All of `RGN[0]` is gated. -/
theorem witness_ResetLaw :
    let s := { as' .host with gated := [⟨0, 0x100000⟩] }
    s.cfg.wf = true ∧ Presentable s .reset ∧ s.isPm .dsp s.cfg.csrOff = false ∧ s.d0Confirmed = true ∧
    (as' .host).inaccessible .dsp (as' .host).cfg.csrOff = false ∧ (as' .host).atDelay = [] := by
  unfold Presentable; decide +kernel

/-- Before D0 is confirmed: `RESET` and `RUN` end well with `PWR.state` as it was. -/
theorem witness_before_d0 : State.reset.cfg.wf = true ∧ Presentable State.reset .reset ∧ Presentable State.reset .run ∧
    State.reset.atDelay = [] ∧ State.reset.d0Confirmed = false ∧
    [Instr.reset, .run].map (fun i => see (exec i State.reset) (fun t => (t.host.status, t.pwr, (newAccesses State.reset t).length))) =
      [some (0, .offD3, 5), some (0, .offD3, 4)] := by
  unfold Presentable; decide +kernel

theorem witness_RunResult : (as' .host).cfg.wf = true ∧ Presentable (as' .host) .run ∧ (as' .host).registersPlain := by
  unfold Presentable State.registersPlain State.pmApart; decide +kernel

/-- The core in reset. -/
theorem witness_RunResult_reset :
    let s := { as' .host with regs := { Regs.atAttach with csr := 0x402 } }
    s.cfg.wf = true ∧ Presentable s .run ∧ s.registersPlain ∧ s.csrRst = true := by
  unfold Presentable State.registersPlain State.pmApart; decide +kernel

theorem witness_OnlyWriters : see (exec .cmddone (as' .worker)) (fun t => t.pwr) = some .offD3 := by decide +kernel

/-- The last bytes of the box, an odd length. -/
theorem witness_MboxwrResult : Presentable (as' .host) (.mboxwr 0x3F8 0x7000 5) ∧
    ((as' .host).ctx.outbox.off + (0x3F8 : Word).toNat) % 4 = 0 ∧ 0x3F8 + roundUp 5 ≤ (as' .host).ctx.outbox.size ∧
    RegionRange (as' .host) .dsp ((as' .host).ctx.outbox.off + 0x3F8) (roundUp 5) ∧ HostRange 0x7000 5 ∧
    (as' .host).inaccessible .dsp 0x9E3FC = false ∧ (as' .host).isIsr .dsp 0x9E3FC = false ∧
    (as' .host).isPm .dsp 0x9E3FC = false := by unfold Presentable RegionRange HostRange; decide +kernel

theorem witness_MboxrdResult : Presentable (as' .worker) (.mboxrd 0x3FD 0x7100 3) ∧
    0x3FD + 3 ≤ (as' .worker).ctx.inbox.size ∧ RegionRange (as' .worker) .dsp ((as' .worker).ctx.inbox.off + 0x3FD) 3 ∧
    HostRange 0x7100 3 ∧ (as' .worker).isIsrByte .dsp 0x9E7FF = false := by
  unfold Presentable RegionRange HostRange; decide +kernel

theorem witness_SendmsgResult : (as' .host).cfg.wf = true ∧ Presentable (as' .host) (.sendmsg 0x7000 0x3FE) ∧
    (as' .host).ctx.outbox.off % 4 = 0 ∧ roundUp 0x3FE ≤ (as' .host).ctx.outbox.size ∧
    RegionRange (as' .host) .dsp (as' .host).ctx.outbox.off (roundUp 0x3FE) ∧ HostRange 0x7000 0x3FE ∧
    (as' .host).registersPlain ∧ (as' .host).boxClear (as' .host).ctx.outbox := by
  unfold Presentable RegionRange HostRange State.registersPlain State.pmApart State.boxClear; decide +kernel

/-- A host box whose header is the two words given. -/
def reply (a : Agent) (declared err : Word) : State :=
  (as' a).pokeBytes .dsp 0x9E000 (wordBytes declared ++ wordBytes err)

/-- The three cases: the most negative error, a mismatch, a reply that fills the box. -/
theorem witness_GetreplyResult :
    [(reply .host 16 0x80000000, 16), (reply .worker 16 0, 12), (reply .host 0x400 0x7FFFFFFF, 0x400)].map
      (fun (x : State × Word) => (x.1.leWord .dsp 0x9E000, decide ((x.1.leWord .dsp 0x9E004).toInt < 0),
        decide (x.1.leWord .dsp 0x9E000 = x.2))) = [(16, true, true), (16, false, false), (0x400, false, true)] ∧
    Presentable (reply .worker 16 0) (.getreply 0x7100 12) ∧ (reply .host 16 0).cfg.rhSize ≤ 0x400 ∧
    RegionRange (reply .host 16 0) .dsp 0x9E000 0x400 ∧ (reply .host 16 0).readable .dsp 0x9E000 8 ∧
    HostRange 0x7100 0x400 := by
  unfold Presentable RegionRange HostRange State.readable; decide +kernel

/-- One past each boundary, the read-back's too, and a box of size 0. -/
theorem witness_MailboxRefused :
    let s := { as' .host with ctx := { (as' .host).ctx with inbox := ⟨0, 0⟩ } }
    Presentable (as' .host) (.mboxwr 0x3FC 0x7000 5) ∧ ¬0x3FC + roundUp 5 ≤ (as' .host).ctx.outbox.size ∧
    Presentable (as' .host) (.mboxrd 0x3FD 0x7100 4) ∧ ¬0x3FD + 4 ≤ (as' .host).ctx.inbox.size ∧
    Presentable (as' .host) (.sendmsg 0x7000 0x401) ∧ ¬roundUp 0x401 ≤ (as' .host).ctx.outbox.size ∧
    Presentable { as' .host with ctx := { (as' .host).ctx with outbox := ⟨0x9E000, 7⟩ } } (.getreply 0x7100 0) ∧
    s.ctx.inbox.size = 0 ∧ Presentable s (.mboxrd 0 0x7100 1) ∧
    Presentable (reply .worker 0x401 0) (.getreply 0x7100 0x401) ∧ (reply .worker 0x401 0).readable .dsp 0x9E000 8 ∧
    ¬(reply .worker 0x401 0).replySize 0x401 ≤ (reply .worker 0x401 0).ctx.outbox.size := by
  unfold Presentable State.readable; decide +kernel

/-- No source, DONE, BUSY. -/
theorem witness_IrqimmResult :
    [0, 0x40000000].all (fun o => [0, 0x80000000].all (fun i =>
      let s := { as' .irq with regs := { Regs.atAttach with cmdo := o, cmdi := i } }
      s.cmdoDone == (o != 0) && s.cmdiBusy == (i != 0))) = true ∧
    (as' .irq).cfg.wf = true ∧ Presentable (as' .irq) .irqimm ∧ (as' .irq).lock = none ∧ (as' .irq).registersPlain := by
  unfold Presentable State.registersPlain State.pmApart; decide +kernel

theorem witness_NotMineLaw : (as' .irq).cfg.wf = true ∧ Presentable (as' .irq) .irqimm ∧ (as' .irq).lock = none := by
  unfold Presentable; decide +kernel

/-- The lock owned, an operation of each of the three kinds of agents presented. -/
theorem witness_LockWait :
    let d := { as' .worker with regs := { Regs.atAttach with cmdo := 0x40000000 }, lock := some .host }
    let e := { idle' .host with lock := some .irq }
    Presentable { as' .irq with lock := some .host } .irqimm ∧ (as' .irq).cfg.wf = true ∧
    Presentable { as' .worker with lock := some .host } .cmddone ∧ { as' .worker with lock := some .host }.registersPlain ∧
    Presentable d .irqdefer ∧ d.registersPlain ∧ d.cmdoDone = true ∧ d.replyCalls = [] ∧
    RegionRange d .dsp d.ctx.outbox.off d.cfg.rhSize ∧
    Presentable e .enterD0 ∧ e.inD0 = true ∧ e.inaccessible e.cfg.pmSts.rgn e.cfg.pmSts.off = false ∧ e.atDelay = [] := by
  unfold Presentable State.registersPlain State.pmApart RegionRange; decide +kernel

/-- A worker about to run the deferred stage on the two command words given. -/
def deferred (cmdo cmdi : Word) : State :=
  { as' .worker with regs := { Regs.atAttach with cmdo := cmdo, cmdi := cmdi }, deferPending := true }

/-- Both parts, the message a panic. -/
theorem witness_IrqdeferResult :
    let s := deferred 0x40000800 0x8DEAD000
    s.cfg.wf = true ∧ Presentable s .irqdefer ∧ s.lock = none ∧ s.registersPlain ∧ s.replyCalls = [] ∧ s.msgCalls = [] ∧
      s.cmdoDone = true ∧ RegionRange s .dsp s.ctx.outbox.off s.cfg.rhSize ∧
      s.readable .dsp s.ctx.outbox.off s.cfg.rhSize ∧ s.cmdiBusy = true ∧ isPanic s.cfg s.regs.cmdi = true ∧
      (panicOffset s.regs.cmdi s.regs.cmdo s.cfg.panicOffsetOf).toNat = 0x9E800 ∧
      RegionRange s .dsp 0x9E800 (s.cfg.xoopsSize + 4 * s.cfg.stackWords) ∧
      s.plainBytes .dsp 0x9E800 (s.cfg.xoopsSize + 4 * s.cfg.stackWords) := by
  unfold Presentable RegionRange State.registersPlain State.pmApart State.readable State.plainBytes State.plainWord; decide +kernel

theorem witness_NothingToDo : (deferred 0 0).cfg.wf = true ∧ Presentable (deferred 0 0) .irqdefer ∧
    (deferred 0 0).registersPlain ∧ (deferred 0 0).cmdoDone = false ∧ (deferred 0 0).cmdiBusy = false := by
  unfold Presentable State.registersPlain State.pmApart; decide +kernel

/-- A panic word and one that differs from it in one bit of the pattern; both run to a next state. -/
theorem witness_PanicRouting :
    [0x8DEAD000, 0x8DEAC000].map (fun i => (decide ((i : Word) &&& 0x0FFFF000 = 0x0DEAD000), (deferred 0 i).cmdiBusy,
      (see (exec .irqdefer (deferred 0 i)) (fun t => t.events.length)))) = [(true, true, some 1), (false, true, some 1)] ∧
    (deferred 0 0x8DEAD000).cfg.wf = true ∧ Presentable (deferred 0 0x8DEAD000) .irqdefer ∧
    (deferred 0 0x8DEAD000).lock = none ∧ (deferred 0 0x8DEAD000).registersPlain := by
  unfold Presentable State.registersPlain State.pmApart; decide +kernel

/-- The reply consumer fetches; the three cases of the header. -/
def fetching (declared err : Word) : State :=
  { deferred 0x40000007 0 with replyCalls := [[encode (.getreply 0x7100 12)]] }.pokeBytes .dsp 0x9E000
    (wordBytes declared ++ wordBytes err)

theorem witness_ReplyFetched :
    let s := fetching 12 0
    s.cfg.wf = true ∧ Presentable s .irqdefer ∧ s.lock = none ∧ s.registersPlain ∧
      s.replyCalls = [encode (.getreply 0x7100 12)] :: [] ∧ s.cmdoDone = true ∧ s.cmdiBusy = false ∧
      s.cfg.rhSize ≤ s.ctx.outbox.size ∧ RegionRange s .dsp s.ctx.outbox.off s.ctx.outbox.size ∧
      s.readable .dsp s.ctx.outbox.off s.ctx.outbox.size ∧ s.replySize 12 = 12 ∧ 12 ≤ s.ctx.outbox.size ∧
      HostRange 0x7100 12 ∧ (fetching 16 0).replySize 12 = 12 ∧ (fetching 16 0xFFFFFFFF).replySize 12 = 8 := by
  unfold Presentable RegionRange HostRange State.registersPlain State.pmApart State.readable; decide +kernel

/-- A host-only operation in either call. -/
theorem witness_ConsumerForbidden :
    let s := { deferred 0x40000000 0 with replyCalls := [[encode .run]] }
    let t := { deferred 0 0x80000001 with msgCalls := [[encode .run]] }
    Presentable s .irqdefer ∧ s.registersPlain ∧ s.cmdoDone = true ∧
      RegionRange s .dsp s.ctx.outbox.off s.cfg.rhSize ∧ s.replyCalls = (encode .run :: []) :: [] ∧
      Presentable t .irqdefer ∧ t.registersPlain ∧ t.cmdoDone = false ∧ t.cmdiBusy = true ∧
      isPanic t.cfg t.regs.cmdi = false ∧ t.msgCalls = (encode .run :: []) :: [] := by
  unfold Presentable RegionRange State.registersPlain State.pmApart; decide +kernel

theorem witness_CmddoneResult : (as' .worker).cfg.wf = true ∧ Presentable (as' .worker) .cmddone ∧
    Presentable (as' .host) .cmddone ∧ (as' .worker).lock = none ∧ (as' .worker).registersPlain := by
  unfold Presentable State.registersPlain State.pmApart; decide +kernel

/-- With nothing gated what can be read does not depend on where the boxes are. -/
theorem readable_ctx (s : State) (x : Ctx) (off n : Nat) (hd : s.d0Confirmed = true) (hg : s.gated = []) :
    ({ s with ctx := x }).readable .dsp off n ↔ ∀ i < n, s.isIsrByte .dsp (off + i) = false := by
  simp [State.readable, State.inaccessible, State.isGated, hd, hg, State.isIsrByte, State.isIsr]

theorem handshakeReadable_open (s : State) (n : Nat) (hd : s.d0Confirmed = true) (hg : s.gated = [])
    (h : RegionRange s .dsp s.fwrBase s.cfg.fwr.size ∧ (∀ i < s.cfg.fwr.size, s.isIsrByte .dsp (s.fwrBase + i) = false) ∧
      ∀ k < n, RegionRange s .dsp (s.fwrTable.1 + k * s.cfg.fwr.elemSize) s.cfg.fwr.elemSize ∧
        ∀ i < s.cfg.fwr.elemSize, s.isIsrByte .dsp (s.fwrTable.1 + k * s.cfg.fwr.elemSize + i) = false) :
    s.handshakeReadable n :=
  ⟨h.1, (readable_ctx s s.ctx _ _ hd hg).2 h.2.1, fun k hk => ⟨(h.2.2 k hk).1, fun x => (readable_ctx s x _ _ hd hg).2 (h.2.2 k hk).2⟩⟩

/-- A table with both boxes, and one whose last inbound element has size 0. -/
theorem witness_HandshakeResult :
    let s := handshake .worker [(1, 0, 0x200), (0, 0x200, 0x200)]
    s.cfg.wf = true ∧ Presentable s .fwready ∧ s.ctx.fwrDone = false ∧ s.fwrTable = (0x9E420, 2) ∧
      s.windowTable s.fwrTable.1 2 = [(1, ⟨0x9E000, 0x200⟩), (0, ⟨0x9E200, 0x200⟩)] ∧
      (∀ e ∈ s.windowTable s.fwrTable.1 2, e.1 ∈ windowTypes s.cfg) ∧
      (discovered s.cfg s.declared (s.windowTable s.fwrTable.1 2)).inbox.size ≠ 0 ∧
      (discovered s.cfg s.declared (s.windowTable s.fwrTable.1 2)).outbox.size ≠ 0 := by
  unfold Presentable; decide +kernel

/-- The tables of these witnesses can be read. -/
theorem witness_handshakeReadable : (handshake .worker [(1, 0, 0x200), (0, 0x200, 0x200)]).handshakeReadable 2 ∧
    (handshake .host [(1, 0, 0x200), (7, 0x111, 0x222)]).handshakeReadable (1 + 1) :=
  ⟨handshakeReadable_open _ _ (by decide +kernel) (by decide +kernel) (by unfold RegionRange; decide +kernel),
    handshakeReadable_open _ _ (by decide +kernel) (by decide +kernel) (by unfold RegionRange; decide +kernel)⟩

theorem witness_HandshakeResult_zero :
    let s := handshake .host [(1, 0, 0x200), (0, 0x200, 0)]
    s.handshakeReadable 2 ∧ (discovered s.cfg s.declared (s.windowTable s.fwrTable.1 2)).inbox.size = 0 :=
  ⟨handshakeReadable_open _ _ (by decide +kernel) (by decide +kernel) (by unfold RegionRange; decide +kernel),
    by decide +kernel⟩

theorem witness_DiscoveryLaw :
    (∃ l r, (handshake .worker [(1, 0, 0x200), (0, 0x200, 0x200)]).windowTable 0x9E420 2 =
      l ++ (Cfg.test.wtInbox, ⟨0x9E200, 0x200⟩) :: r ∧ ∀ e ∈ r, e.1 ≠ Cfg.test.wtInbox) ∧
    (∃ l r, (handshake .worker [(1, 0, 0x200), (0, 0x200, 0x200)]).windowTable 0x9E420 2 =
      l ++ (Cfg.test.wtOutbox, ⟨0x9E000, 0x200⟩) :: r ∧ ∀ e ∈ r, e.1 ≠ Cfg.test.wtOutbox) ∧
    (∃ l r, (handshake .host [(1, 0, 0x200), (0, 0x200, 0)]).windowTable 0x9E420 2 =
      l ++ (Cfg.test.wtInbox, ⟨0x9E200, 0⟩) :: r ∧ ∀ e ∈ r, e.1 ≠ Cfg.test.wtInbox) :=
  ⟨⟨[(1, ⟨0x9E000, 0x200⟩)], [], by decide +kernel, by decide⟩,
    ⟨[], [(0, ⟨0x9E200, 0x200⟩)], by decide +kernel, by decide +kernel⟩,
    ⟨[(1, ⟨0x9E000, 0x200⟩)], [], by decide +kernel, by decide⟩⟩

/-- An unrecognised type at element 1, and at element 0. -/
theorem witness_BadWindow :
    let s := handshake .host [(1, 0, 0x200), (7, 0x111, 0x222)]
    s.cfg.wf = true ∧ Presentable s .fwready ∧ s.ctx.fwrDone = false ∧ 1 < s.fwrTable.2 ∧
      (∀ e ∈ s.windowTable s.fwrTable.1 1, e.1 ∈ windowTypes s.cfg) ∧ (s.window s.fwrTable.1 1).1 = 7 ∧
      (7 : Word) ∉ windowTypes s.cfg ∧ ((handshake .host [(8, 0, 0)]).window 0x9E420 0).1 ∉ windowTypes s.cfg := by
  unfold Presentable; decide +kernel

theorem witness_HandshakeOnce : Presentable (handshake .worker []) .fwready ∧
    see (exec .fwready (handshake .worker [])) (fun t => (t.ctx.fwrDone, t.presenter)) = some (true, .worker) := by
  unfold Presentable; decide +kernel

/-- The last record that fits, recorded and not recorded. -/
theorem witness_PaniccapResult :
    let s := { as' .host with ctx := { (as' .host).ctx with excValid := true, excOff := 0xFFF40 } }
    Presentable s (.paniccap 0 1 2) ∧ s.ctx.excValid = true ∧ (as' .worker).ctx.excValid = false ∧
      Presentable (as' .worker) (.paniccap 0xFFF40 1 2) ∧ (0xFFF40 : Word).toNat = s.ctx.excOff ∧
      RegionRange s .dsp 0xFFF40 (s.cfg.xoopsSize + 4 * s.cfg.stackWords) ∧
      s.readable .dsp 0xFFF40 (s.cfg.xoopsSize + 4 * s.cfg.stackWords) := by
  unfold Presentable RegionRange State.readable; decide +kernel

theorem witness_LostUpdate :
    let s := { open' with port := [.begin .host (encode .cmddone), .micro .host 0,
      .env (.fwFree .dsp State.reset.cfg.cmdiOff 0x80000456), .micro .host 0] }
    s.cfg.wf = true ∧ s.attached = true ∧ (s.ex .host).op = none ∧ s.halt = false ∧ s.registersPlain ∧
      s.port = [.begin .host (encode .cmddone), .micro .host 0, .env (.fwFree .dsp s.cfg.cmdiOff 0x80000456),
        .micro .host 0] := by
  unfold State.registersPlain State.pmApart; decide +kernel

/-- The last pair of words of the companion region, and data RAM. -/
theorem witness_TornRead64 :
    let s := { open' with port := [.begin .host (encode (.read64 .comp 0xF8)), .micro .host 1,
      .env (.fwFree .comp 0xF8 7), .micro .host 0, .micro .host 0, .micro .host 0, .micro .host 0] }
    s.cfg.wf = true ∧ s.attached = true ∧ (s.ex .host).op = none ∧ s.halt = false ∧ (0xF8 : Word).toNat % 4 = 0 ∧
      RegionRange s .comp 0xF8 8 ∧ s.plainWord .comp 0xF8 ∧ s.plainWord .comp 0xFC ∧
      RegionRange s .dsp 0x10 8 ∧ s.plainWord .dsp 0x10 ∧ s.plainWord .dsp 0x14 := by
  unfold RegionRange State.plainWord; decide +kernel

/-- The line high, work pending, both and neither. -/
theorem witness_LineServed :
    let s := { idle' .host with regs := { (idle' .host).regs with cmdo := 0x40000000 } }
    s.irqLine = true ∧ s.deferPending = false ∧ { s with deferPending := true, lastTaken := .irq }.irqLine = true ∧
    { idle' .host with deferPending := true }.irqLine = false ∧ { idle' .host with deferPending := true }.port = [] ∧
    (idle' .host).irqLine = false ∧ (idle' .host).deferPending = false ∧ (idle' .host).cfg.wf = true ∧
    (idle' .host).attached = true ∧ ∀ a, ((idle' .host).ex a).op = none ∧ ((idle' .host).ex a).todo = [] :=
  ⟨by decide +kernel, rfl, by decide +kernel, by decide +kernel, rfl, by decide +kernel, rfl, by decide +kernel, rfl,
    by intro a; cases a <;> exact ⟨rfl, rfl⟩⟩

/-- A reply that fills the box. -/
theorem witness_FirmwareReply :
    let bytes := List.replicate 0x400 (5 : Byte)
    let s := { idle' .host with regs := { (idle' .host).regs with cmdo := 0x80000001 },
                                port := [.env (.fwReply bytes 7)] }
    s.cfg.wf = true ∧ s.coreRunning = true ∧ s.fw = [] ∧ s.cmdoBusy = true ∧ bytes.length ≤ s.replyBox.size ∧
      s.replyBox.off + s.replyBox.size ≤ s.cfg.dspSize ∧ s.boxClear s.replyBox ∧ s.imrhDone = false := by
  unfold State.boxClear; decide +kernel

theorem witness_OutboundLife :
    let s := { idle' .host with port := [.op .host (encode (.sendmsg 0x7000 0x400)), .env (.fwReply (List.replicate 8 1) 7)] }
    s.cfg.wf = true ∧ s.attached = true ∧ s.halt = false ∧ s.lock = none ∧ s.d0Confirmed = true ∧ s.coreRunning = true ∧ s.fw = [] ∧
      s.cmdoBusy = false ∧
      s.registersPlain ∧ s.imrhDone = false ∧ s.cmdiBusy = false ∧ s.cmdoDone = false ∧ s.deferPending = false ∧
      s.replyCalls = [] ∧ s.ctx.outbox.off % 4 = 0 ∧ roundUp 0x400 ≤ s.ctx.outbox.size ∧
      s.ctx.outbox.off + s.ctx.outbox.size ≤ s.cfg.dspSize ∧ HostRange 0x7000 0x400 ∧ s.boxClear s.ctx.outbox ∧
      s.cfg.rhSize ≤ (List.replicate 8 (1 : Byte)).length := by
  unfold State.registersPlain State.pmApart HostRange State.boxClear; decide +kernel

theorem witness_InboundLife :
    let s := { idle' .host with port := [.env (.fwPost 0 [1, 2, 3] 0x40000123)],
                                msgCalls := [[encode (.mboxrd 0 0x7200 3), encode .cmddone]] }
    s.cfg.wf = true ∧ s.attached = true ∧ s.lock = none ∧ s.d0Confirmed = true ∧ s.coreRunning = true ∧ s.fw = [] ∧ s.registersPlain ∧
      s.imrhBusy = false ∧ s.cmdiBusy = false ∧ s.cmdoDone = false ∧ s.deferPending = false ∧
      s.ctx.inbox.off + s.ctx.inbox.size ≤ s.cfg.dspSize ∧ s.boxClear s.ctx.inbox ∧ HostRange 0x7200 3 ∧
      (0x40000123 : Word) &&& s.cfg.panicMask ≠ s.cfg.panicMagic ∧ (0x80000123 : Word) &&& s.cfg.panicMask ≠ s.cfg.panicMagic ∧
      ((0x40000123 : Word) &&& ~~~(s.cfg.cmdiBusy ||| s.cfg.cmdiDone)) ||| s.cfg.cmdiBusy = 0x80000123 := by
  unfold State.registersPlain State.pmApart HostRange State.boxClear; decide +kernel

/-- Work pending, an operation in progress, and neither. -/
theorem witness_DetachRule :
    let s := { State.reset with port := [.detach] }
    s.cfg.wf = true ∧ s.port = .detach :: [] ∧ s.attached = true ∧ { s with deferPending := true }.deferPending = true ∧
      (({ s with host := { s.host with op := some .run } } : State).ex .host).op ≠ none ∧ s.deferPending = false ∧
      ∀ a, (s.ex a).op = none :=
  ⟨by decide +kernel, rfl, rfl, rfl, by decide +kernel, rfl, by intro a; cases a <;> rfl⟩

theorem witness_CanonicalKept : Canonical State.reset ∧ see (step State.reset) (fun t => t.bus) = some [] :=
  ⟨⟨by decide, by decide, by decide, by intro a; cases a <;> decide⟩, by decide +kernel⟩

/-- An agent that owns the lock, before its last access and its release. -/
theorem witness_LockKept :
    let s := { open' with lock := some .host, port := [.micro .host 0], host := { open'.host with
      op := some .cmddone, todo := [.merge .dsp 0xFB028 2 0, .release, .ok, .idle] } }
    LockSound s ∧ see (step s) (fun t => (t.lock, t.host.todo)) = some (some .host, [.release, .ok, .idle]) :=
  ⟨by intro a; cases a <;> decide, by decide +kernel⟩

theorem witness_CanonicalUnique : Memory.wf [(3, 1), (7, 2)] ∧ Memory.read [(3, 1), (7, 2)] 7 = 2 := by decide

theorem witness_GrowsKept : see (step { State.reset with port := [.op .host (encode .run)] }) (fun t => t.bus.length) =
    some 4 := by decide +kernel

theorem witness_AccessesInRange : (as' .host).cfg.wf = true ∧
    see (exec .reset (as' .host)) (fun t => (newAccesses (as' .host) t).length) = some 5 := by decide +kernel

theorem witness_MicroStepsAgree :
    see (exec .cmddone (as' .host)) (fun t => ((t.ex .host).op, t.regs.cmdi)) = some (none, 0x40000000) ∧
    see (presentOnly .host (encode .cmddone) (as' .host)) (fun u => see (microN .host 8 u) (fun t => t.regs.cmdi)) =
      some (some 0x40000000) := by decide +kernel

end Sys2Proof.Tests
end

section
/-! PROOFS. Operations that wait at an `Acquire` (R17, R82), and the state at reset (R51, R270). -/

namespace Sys2Proof.Machine

/-! ## Accesses made, as forms -/

/-- The accesses between two states, from what their traces look like. -/
theorem newAccesses_of_access {s t : State} {l : List Access}
    (h : t.bus.map BusRec.access = s.bus.map BusRec.access ++ l) : newAccesses s t = l := by
  rw [newAccesses, List.map_drop, h, ← List.length_map (f := BusRec.access), List.drop_left]

theorem State.readStep_access (s : State) (a : Agent) (r : Region) (off : Nat) (sl : Slot) :
    (readStep a r off sl s).bus.map BusRec.access = s.bus.map BusRec.access ++ [.read r off] := by
  simp [readStep, BusRec.access]

theorem State.update32_access (s : State) (a : Agent) (r : Region) (off : Nat) (m v : Word) :
    (s.update32 a r off m v).bus.map BusRec.access = s.bus.map BusRec.access ++ updateAccess r off := by
  simp [State.update32_bus, BusRec.access, updateAccess]

theorem State.delay_access (s : State) (a : Agent) (ms : Nat) :
    (s.delay a ms).bus.map BusRec.access = s.bus.map BusRec.access ++ [.wait ms] := by
  simp [BusRec.access]

theorem State.byteUnit_access (s : State) (a : Agent) (r : Region) (off : Nat) (dst : Dest) (k : Nat) :
    (byteUnit a r off dst k s).bus.map BusRec.access = s.bus.map BusRec.access ++ [.readByte r (off + k)] := by
  cases dst <;> simp [byteUnit, BusRec.access]

/-- A bulk read in ascending order: one byte read after another (R76). -/
theorem State.bulkOut_access (s : State) (a : Agent) (r : Region) (off : Nat) (dst : Dest) (n : Nat) :
    (s.bulkOut a r off dst n).bus.map BusRec.access = s.bus.map BusRec.access ++ byteReads r off n := by
  refine unitsLoop_induct_zero
    (P := fun k t => t.bus.map BusRec.access = s.bus.map BusRec.access ++ byteReads r off k) ?_ ?_
  · simp [byteReads]
  · intro k t _ ih
    rw [State.byteUnit_access, ih]
    simp [byteReads, List.range_succ]

/-! ## Records that a bulk read keeps -/

theorem State.bulkOut_ex_op (s : State) (a : Agent) (r : Region) (off : Nat) (dst : Dest) (n : Nat) (b : Agent) :
    ((s.bulkOut a r off dst n).ex b).op = (s.ex b).op :=
  unitsLoop_keeps (fun t => (t.ex b).op)
    (fun k t => by
      cases dst with
      | host base => cases b <;> simp [byteUnit, State.ex]
      | buf base => by_cases h : b = a <;> simp [byteUnit, State.setLoc, h]) 0 n s

theorem State.readStep_ex_op (s : State) (a : Agent) (r : Region) (off : Nat) (sl : Slot) (b : Agent) :
    ((readStep a r off sl s).ex b).op = (s.ex b).op := by
  by_cases h : b = a <;> simp [readStep, State.setLoc, h]

/-! ## The number of a micro-step (R25) -/

theorem spanTo_append {c : Cfg} {l : Locals} {ms : List Micro} (h : ∀ m ∈ ms, m.closes = false) (ns : List Micro) :
    spanTo c l (ms ++ ns) = spanTo c l ms + spanTo c l ns := by
  induction ms with
  | nil => simp [spanTo]
  | cons m ms ih =>
    have hm : m.closes = false := h m (by simp)
    have hms := ih (fun x hx => h x (by simp [hx]))
    simpa [spanTo, hm, Nat.add_assoc] using hms

theorem spanTo_cons {c : Cfg} {l : Locals} {m : Micro} (h : m.closes = false) (ms : List Micro) :
    spanTo c l (m :: ms) = m.span c l + spanTo c l ms := by simp [spanTo, h]

theorem spanTo_update (c : Cfg) (l : Locals) (r : Region) (off : Nat) (m v : Word) :
    spanTo c l (update r off m v) = 2 := rfl

theorem spanTo_update_append (c : Cfg) (l : Locals) (r : Region) (off : Nat) (m v : Word) (ms : List Micro) :
    spanTo c l (update r off m v ++ ms) = 2 + spanTo c l ms := by
  rw [spanTo_append (by simp [update, Micro.closes]), spanTo_update]

theorem spanTo_updateStep_append (c : Cfg) (l : Locals) (x : StepDesc) (ms : List Micro) :
    spanTo c l (updateStep x ++ ms) = 2 + spanTo c l ms := spanTo_update_append ..

/-- No operation's own listing holds a closing entry: the runner adds it. -/
theorem listing_open (c : Cfg) (i : Instr) : ∀ m ∈ listing c i, m.closes = false := by
  have hall : (listing c i).all (fun m => !m.closes) = true := by
    cases i with
    | blkrd r off h n => by_cases hn : n.toNat = 0 <;> simp [listing, blkrdListing, bulkRead, hn, Micro.closes]
    | blkwr r off h n =>
      by_cases hg : n.toNat / 4 = 0 <;> by_cases ht : n.toNat % 4 = 0 <;>
        simp [listing, blkwrListing, bulkWrite, hg, ht, Micro.closes]
    | enterD0 => simp [listing, enterD0Listing, updateStep, pulseListing, update, Micro.closes]
    | _ => rfl
  simpa using hall

/-- An `Acquire` that stands in the listing itself has the number after the micro-steps before it. -/
theorem place_acquire {c : Cfg} {i : Instr} {pre post : List Micro} (h : listing c i = pre ++ .acquire :: post)
    (l : Locals) : place c l i (.acquire :: post ++ [.idle]) = 1 + spanTo c l pre := by
  have ho := listing_open c i
  rw [h] at ho
  have hpre : ∀ m ∈ pre, m.closes = false := fun m hm => ho m (by simp [hm])
  have hpost : ∀ m ∈ .acquire :: post, m.closes = false := fun m hm => ho m (List.mem_append_right _ hm)
  have hidle : spanTo c l [.idle] = 0 := rfl
  have hleft : spanLeft c l (.acquire :: post ++ [.idle]) = spanTo c l (.acquire :: post) := by
    rw [show spanLeft c l (.acquire :: post ++ [.idle]) = spanTo c l (.acquire :: post ++ [.idle]) from rfl,
      spanTo_append hpost, hidle, Nat.add_zero]
  rw [place, h, spanTo_append hpre, hleft]
  omega

/-- What a conditional guards holds no closing entry. -/
theorem guarded_open (c : Cfg) (k : Cond) : ∀ m ∈ guarded c k, m.closes = false := by
  have hall : (guarded c k).all (fun m => !m.closes) = true := by cases k <;> rfl
  simpa using hall

/-- A conditional stands for its test and for what it guards. -/
theorem span_given (c : Cfg) (l : Locals) (k : Cond) : (Micro.given k).span c l = 1 + spanTo c l (guarded c k) := by
  cases k <;> rfl

/-- An `Acquire` that a conditional of the listing guards has the number after the test and the micro-steps before both. -/
theorem place_guarded_acquire {c : Cfg} {i : Instr} {k : Cond} {pre post gpre gpost : List Micro}
    (h : listing c i = pre ++ .given k :: post) (hg : guarded c k = gpre ++ .acquire :: gpost) (l : Locals) :
    place c l i (.acquire :: gpost ++ post ++ [.idle]) = 2 + spanTo c l pre + spanTo c l gpre := by
  have ho := listing_open c i
  have hgo := guarded_open c k
  rw [h] at ho
  rw [hg] at hgo
  have hpre : ∀ m ∈ pre, m.closes = false := fun m hm => ho m (by simp [hm])
  have hgpre : ∀ m ∈ gpre, m.closes = false := fun m hm => hgo m (by simp [hm])
  have harm : ∀ m ∈ .acquire :: gpost, m.closes = false := fun m hm => hgo m (List.mem_append_right _ hm)
  have hpost : ∀ m ∈ post, m.closes = false := fun m hm => ho m (by simp [hm])
  have hidle : spanTo c l [.idle] = 0 := rfl
  have hleft : spanLeft c l (.acquire :: gpost ++ post ++ [.idle]) = spanTo c l (.acquire :: gpost) + spanTo c l post := by
    rw [show spanLeft c l (.acquire :: gpost ++ post ++ [.idle]) = spanTo c l (.acquire :: gpost ++ post ++ [.idle]) from rfl,
      List.append_assoc, spanTo_append harm, spanTo_append hpost, hidle, Nat.add_zero]
  rw [place, h, spanTo_append hpre, spanTo_cons rfl, span_given, hg, spanTo_append hgpre, hleft]
  omega

/-! ## Waiting for the lock (R17, R82) -/

/-- The presenting agent is one of those that R98 lets present the operation. -/
theorem Presentable.presenter_mem {s : State} {i : Instr} (h : Presentable s i) : s.presenter ∈ presenters i := by
  obtain ⟨-, -, -, hmem⟩ := h
  exact hmem

/-- While the lock has an owner, an agent that stands at an `Acquire` takes no micro-step. -/
theorem microStep_acquire_wait {t : State} {a b : Agent} {ms : List Micro} (h : (t.ex a).todo = .acquire :: ms)
    (hl : t.lock = some b) (pick : Nat) : microStep a pick t = .next t := by
  simp [microStep, h, unit, acquireStep, hl]

theorem runList_acquire_wait (d : Nat) (a : Agent) {b : Agent} {s : State} (hl : s.lock = some b) (ms : List Micro) :
    runList (entire d a) (.acquire :: ms) s = .blocked (.acquire :: ms) s :=
  runList_blocked (entire_acquire_wait d a b hl) ms

/-- An `Update32` that stands last. -/
theorem runList_update_last (d : Nat) (a : Agent) (r : Region) (off : Nat) (m v : Word) (s : State) :
    runList (entire d a) (update r off m v) s = .go (s.update32 a r off m v) := by
  simpa using runList_update d a r off m v [] s

/-- An operation whose listing comes to an entry that has to wait. -/
theorem perform_blocked {i : Instr} {ms rest : List Micro} {s u : State} (hp : portRefusal s s.presenter i = none)
    (h : runList (entire 8 s.presenter) ms (s.start s.presenter i []) = .blocked rest u) :
    perform i ms s = .next (u.advance s.presenter (rest ++ [.idle])) := by
  simp only [perform, hp, runAgent, runList, runFrom_append_blocked h [.idle]]

/-- An operation that comes to an `Acquire` of a lock with an owner: it stays in progress with its sequencer there, and its
agent's micro-steps change nothing. -/
theorem exec_waits {i : Instr} {rest : List Micro} {s u : State} {a b : Agent} (hp : Presentable s i)
    (hc : contractBreach s.cfg i = none) (ha : s.presenter = a)
    (h : runList (entire 8 a) (listing s.cfg i) (s.start a i []) = .blocked (.acquire :: rest) u)
    (ho : (u.ex a).op = some i) (hl : u.lock = some b) :
    ∃ t, exec i s = .next t ∧
      t = u.setEx a { u.ex a with
        todo := .acquire :: rest ++ [.idle], step := place u.cfg (u.loc a) i (.acquire :: rest ++ [.idle]) } ∧
      ∀ pick, microStep a pick t = .next t := by
  subst ha
  refine ⟨u.advance s.presenter (.acquire :: rest ++ [.idle]), ?_, State.advance_eq ho _, fun pick => ?_⟩
  · rw [exec_eq_perform]
    exact perform_blocked (portRefusal_eq_none hp hc) h
  · rw [State.advance_eq ho]
    exact microStep_acquire_wait (ms := rest ++ [.idle]) (by simp) (by simpa using hl) pick

/-- An operation whose listing runs up to an `Acquire` of its own and finds the lock with an owner. -/
theorem exec_waits_of_listing {i : Instr} {pre post : List Micro} {s u : State} {a b : Agent} (hp : Presentable s i)
    (hc : contractBreach s.cfg i = none) (ha : s.presenter = a) (hs : listing s.cfg i = pre ++ .acquire :: post)
    (h : runList (entire 8 a) pre (s.start a i []) = .go u) (hcfg : u.cfg = s.cfg)
    (ho : (u.ex a).op = some i) (hl : u.lock = some b) :
    ∃ t, exec i s = .next t ∧
      t = u.setEx a { u.ex a with todo := .acquire :: post ++ [.idle], step := 1 + spanTo s.cfg (u.loc a) pre } ∧
      ∀ pick, microStep a pick t = .next t := by
  rw [← place_acquire hs, ← hcfg]
  refine exec_waits hp hc ha ?_ ho hl
  rw [hs, runList_append h, runList_acquire_wait 8 a hl]

/-- An operation whose listing runs up to an `Acquire` that a conditional guards and finds the lock with an owner. -/
theorem exec_waits_of_guarded {i : Instr} {k : Cond} {pre post gpre gpost : List Micro} {s u v : State} {a b : Agent}
    (hp : Presentable s i) (hc : contractBreach s.cfg i = none) (ha : s.presenter = a)
    (hs : listing s.cfg i = pre ++ .given k :: post) (hg : guarded s.cfg k = gpre ++ .acquire :: gpost)
    (hpre : runList (entire 8 a) pre (s.start a i []) = .go u) (hk : k.holds u.cfg (u.loc a) = true)
    (hgpre : runList (entire 7 a) gpre u = .go v) (hcu : u.cfg = s.cfg) (hcv : v.cfg = s.cfg)
    (ho : (v.ex a).op = some i) (hl : v.lock = some b) :
    ∃ t, exec i s = .next t ∧
      t = v.setEx a { v.ex a with
        todo := .acquire :: gpost ++ post ++ [.idle], step := 2 + spanTo s.cfg (v.loc a) pre + spanTo s.cfg (v.loc a) gpre } ∧
      ∀ pick, microStep a pick t = .next t := by
  rw [← place_guarded_acquire hs hg, ← hcv]
  refine exec_waits (rest := gpost ++ post) hp hc ha ?_ ho hl
  have harm : entire 8 a (.given k) u = .blocked (.acquire :: gpost) v := by
    rw [entire_given_true 7 a hk, hcu, hg, runList_append hgpre, runList_acquire_wait 7 a hl]
  rw [hs, runList_append hpre, runList_blocked harm, List.cons_append]

/-! ## Flags after an update -/

/-- After an `Update32` of a plain register a flag inside the mask is the one of the value given. -/
theorem State.flagOf_update32_reg {s : State} (a : Agent) (g : DevReg) {m v f : Word} (hw : s.cfg.wf = true)
    (hr : s.registersPlain) (hf : f &&& ~~~m = 0) :
    flagOf ((s.update32 a .dsp (regOff s.cfg g) m v).regs.get g) f = flagOf v f := by
  obtain ⟨hacc, hpm⟩ := State.registersPlain_reg hr g
  rw [State.update32_reg s a g m v hw hacc hpm, Regs.get_set, if_pos rfl, flagOf_merged_inside hf]

/-- An `Update32` of a register keeps every other register, accessible or not. -/
theorem State.regs_update32_other {s : State} (a : Agent) {g g' : DevReg} (m v : Word) (hw : s.cfg.wf = true)
    (hne : g' ≠ g) : (s.update32 a .dsp (regOff s.cfg g) m v).regs.get g' = s.regs.get g' :=
  State.regs_get_update32 s a m v (by rw [regAt_regOff hw]; simpa using hne.symm)

/-! ## `IRQIMM` (R183) -/

/-- `IRQIMM` waits at I1, before any access. -/
theorem irqimm_waits {s : State} {b : Agent} (hl : s.lock = some b) (hp : Presentable s .irqimm) :
    ∃ t, exec .irqimm s = .next t ∧ t = s.start .irq .irqimm (irqimmListing s.cfg ++ [.idle]) ∧
      ∀ pick, microStep .irq pick t = .next t := by
  have hirq : s.presenter = .irq := by simpa [presenters] using hp.presenter_mem
  obtain ⟨t, he, ht, hwait⟩ := exec_waits_of_listing (pre := []) hp rfl hirq rfl (runList_nil _ _)
    (by simp) (by simp [State.start_ex]) (by simpa using hl)
  refine ⟨t, he, ?_, hwait⟩
  rw [ht]
  simp [State.start, spanTo, irqimmListing]

/-! ## `CMDDONE` (R195) -/

/-- `CMDDONE` waits at C2, with the message acknowledged and `IMRH` as before. -/
theorem cmddone_waits {s : State} {b : Agent} (hw : s.cfg.wf = true) (hl : s.lock = some b)
    (hp : Presentable s .cmddone) (hr : s.registersPlain) :
    ∃ t, exec .cmddone s = .next t ∧ (t.ex s.presenter).op = some .cmddone ∧ (t.ex s.presenter).step = 3 ∧
      newAccesses s t = updateAccess .dsp s.cfg.cmdiOff ∧ t.cmdiBusy = false ∧ t.regs.imrh = s.regs.imrh ∧
      t.lock = some b ∧ ∀ pick, microStep s.presenter pick t = .next t := by
  set s₁ := s.start s.presenter .cmddone []
  have hw₁ : s₁.cfg.wf = true := by simpa [s₁] using hw
  have hr₁ : s₁.registersPlain :=
    State.registersPlain_congr (by simp [s₁]) (by simp [s₁]) (by simp [s₁]) (by simp [s₁]) hr
  set u := s₁.update32 s.presenter .dsp s.cfg.cmdiOff (s.cfg.cmdiBusy ||| s.cfg.cmdiDone) s.cfg.cmdiDone
  have hbusy : u.cmdiBusy = false := by
    have hin : s.cfg.cmdiBusy &&& ~~~(s.cfg.cmdiBusy ||| s.cfg.cmdiDone) = 0 := by
      rw [BitVec.not_or, ← BitVec.and_assoc, BitVec.and_not_self]
      exact BitVec.zero_and
    have hflag := State.flagOf_update32_reg s.presenter .cmdi (v := s.cfg.cmdiDone) hw₁ hr₁ hin
    have hzero : flagOf s.cfg.cmdiDone s.cfg.cmdiBusy = false := by
      rw [flagOf, BitVec.and_comm, twoBits_disjoint (s.cfg.wf_cmdi hw)]
      rfl
    simpa [State.cmdiBusy, u, s₁, regOff, hzero] using hflag
  have himrh : u.regs.imrh = s.regs.imrh := by
    simpa [u, s₁, regOff] using State.regs_update32_other (s := s₁) s.presenter (g := .cmdi) (g' := .imrh)
      (s.cfg.cmdiBusy ||| s.cfg.cmdiDone) s.cfg.cmdiDone hw₁ (by decide)
  obtain ⟨t, he, ht, hwait⟩ := exec_waits_of_listing (u := u) hp rfl rfl (by rfl) (runList_update_last ..) (by simp [u, s₁])
    (by simp [u, s₁, State.start_ex]) (by simpa [u, s₁] using hl)
  refine ⟨t, he, ?_, ?_, newAccesses_of_access ?_, ?_, ?_, ?_, hwait⟩
  · simp [ht, u, s₁, State.start_ex]
  · simp only [ht, State.ex_setEx, if_pos, spanTo_update]
  · simp [ht, u, State.update32_access, s₁]
  · simpa [ht, State.cmdiBusy] using hbusy
  · simpa [ht] using himrh
  · simpa [ht, u, s₁] using hl

/-! ## `IRQDEFER` (R189) -/

/-- The reply part of the listing, with its `Acquire` (W3d) set apart. -/
theorem guarded_replyReady (c : Cfg) :
    guarded c .replyReady = ([.hdrRead, .emitReply, .call .reply] ++ update .dsp c.cmdoOff c.cmdoDone 0) ++
      .acquire :: (update .dsp c.imrhOff c.imrhDone 0 ++ [.release]) := by
  simp only [guarded, List.append_assoc, List.cons_append, List.nil_append]

/-- The state after W1 and W2 by agent `a`. -/
def State.cmdoTaken (s : State) (a : Agent) : State := readStep a .dsp s.cfg.cmdoOff .cmdo { s with deferPending := false }

theorem runList_cmdoTaken (d : Nat) (a : Agent) (s : State) :
    runList (entire d a) [.clearPending, .read .dsp s.cfg.cmdoOff .cmdo] s = .go (s.cmdoTaken a) := by
  simp [runList_cons, State.cmdoTaken]

theorem spanTo_cmdoTaken (c : Cfg) (l : Locals) (off : Nat) :
    spanTo c l [.clearPending, .read .dsp off .cmdo] = 2 := rfl

@[simp] theorem State.cmdoTaken_cfg (s : State) (a : Agent) : (s.cmdoTaken a).cfg = s.cfg := by simp [State.cmdoTaken]
@[simp] theorem State.cmdoTaken_ctx (s : State) (a : Agent) : (s.cmdoTaken a).ctx = s.ctx := by simp [State.cmdoTaken]
@[simp] theorem State.cmdoTaken_regs (s : State) (a : Agent) : (s.cmdoTaken a).regs = s.regs := by simp [State.cmdoTaken]
@[simp] theorem State.cmdoTaken_lock (s : State) (a : Agent) : (s.cmdoTaken a).lock = s.lock := by simp [State.cmdoTaken]
@[simp] theorem State.cmdoTaken_irqRet (s : State) (a : Agent) : (s.cmdoTaken a).irqRet = s.irqRet := by
  simp [State.cmdoTaken]
@[simp] theorem State.cmdoTaken_replyCalls (s : State) (a : Agent) : (s.cmdoTaken a).replyCalls = s.replyCalls := by
  simp [State.cmdoTaken]

theorem State.cmdoTaken_op (s : State) (a : Agent) : ((s.cmdoTaken a).ex a).op = (s.ex a).op := by
  rw [State.cmdoTaken, State.readStep_ex_op]
  cases a <;> rfl

theorem State.cmdoTaken_access (s : State) (a : Agent) :
    (s.cmdoTaken a).bus.map BusRec.access = s.bus.map BusRec.access ++ [.read .dsp s.cfg.cmdoOff] :=
  State.readStep_access ..

theorem State.cmdoTaken_registersPlain {s : State} (a : Agent) (hr : s.registersPlain) : (s.cmdoTaken a).registersPlain :=
  State.registersPlain_congr (by simp) (by simp) (by simp [State.cmdoTaken]) (by simp [State.cmdoTaken]) hr

/-- The word that W2 reads from a plain `CMDO`. -/
theorem State.cmdoTaken_cmdo {s : State} (a : Agent) (hw : s.cfg.wf = true) (hr : s.registersPlain) :
    ((s.cmdoTaken a).loc a).cmdo = s.regs.cmdo := by
  set s' : State := { s with deferPending := false }
  obtain ⟨hacc, hpm⟩ := State.registersPlain_reg (s := s') hr .cmdo
  have hisr : s'.isIsr .dsp (regOff s'.cfg .cmdo) = false := by simp [State.isIsr, regOff_ne_isr (c := s'.cfg) hw]
  have hread := State.read32_fst s' a hacc hisr
  rw [State.word_reg s' .cmdo hw hpm] at hread
  simpa [State.cmdoTaken, readStep, kept, Locals.setSlot, regOff] using hread

/-- The state after W3a, W3b and W3c by agent `a`, no reply consumer attached. -/
def State.replyAcked (s : State) (a : Agent) : State :=
  (emitReplyStep a (s.bulkOut a .dsp s.ctx.outbox.off (.buf 0) s.cfg.rhSize)).update32 a .dsp s.cfg.cmdoOff s.cfg.cmdoDone 0

theorem runList_replyAcked (d : Nat) (a : Agent) {s : State} (hc : s.replyCalls = [])
    (hb : RegionRange s .dsp s.ctx.outbox.off s.cfg.rhSize) :
    runList (entire (d + 2) a) ([.hdrRead, .emitReply, .call .reply] ++ update .dsp s.cfg.cmdoOff s.cfg.cmdoDone 0) s =
      .go (s.replyAcked a) := by
  have hread := entire_hdrRead d a (s := s) (by simpa [regionFits, RegionRange] using hb)
  have hcall := (entire_call_none (d + 2) a
    (s := emitReplyStep a (s.bulkOut a .dsp s.ctx.outbox.off (.buf 0) s.cfg.rhSize))).1 (by simpa [emitReplyStep] using hc)
  simp only [List.cons_append, List.nil_append]
  rw [runList_go hread, runList_go (entire_emitReply _ _ _), runList_go hcall, runList_update_last, State.replyAcked]

/-- The header's capture and its bytes, W3b, the call, and the two accesses of W3c (R25). -/
theorem spanTo_replyAcked (c : Cfg) (l : Locals) (off : Nat) (m : Word) :
    spanTo c l ([.hdrRead, .emitReply, .call .reply] ++ update .dsp off m 0) = 5 + c.rhSize := by
  have hsum : spanTo c l ([.hdrRead, .emitReply, .call .reply] ++ update .dsp off m 0) = (1 + c.rhSize) + 4 := rfl
  omega

@[simp] theorem State.replyAcked_cfg (s : State) (a : Agent) : (s.replyAcked a).cfg = s.cfg := by
  simp [State.replyAcked, emitReplyStep]
@[simp] theorem State.replyAcked_lock (s : State) (a : Agent) : (s.replyAcked a).lock = s.lock := by
  simp [State.replyAcked, emitReplyStep]
@[simp] theorem State.replyAcked_irqRet (s : State) (a : Agent) : (s.replyAcked a).irqRet = s.irqRet := by
  simp [State.replyAcked, emitReplyStep]

theorem State.replyAcked_op (s : State) (a : Agent) : ((s.replyAcked a).ex a).op = (s.ex a).op := by
  simp [State.replyAcked, emitReplyStep, State.bulkOut_ex_op]

theorem State.replyAcked_access (s : State) (a : Agent) :
    (s.replyAcked a).bus.map BusRec.access = s.bus.map BusRec.access ++
      (byteReads .dsp s.ctx.outbox.off s.cfg.rhSize ++ updateAccess .dsp s.cfg.cmdoOff) := by
  simp [State.replyAcked, State.update32_access, emitReplyStep, State.bulkOut_access]

/-- W3c puts DONE down. -/
theorem State.replyAcked_cmdoDone {s : State} (a : Agent) (hw : s.cfg.wf = true) (hr : s.registersPlain) :
    (s.replyAcked a).cmdoDone = false := by
  set e := emitReplyStep a (s.bulkOut a .dsp s.ctx.outbox.off (.buf 0) s.cfg.rhSize) with he
  have hcfg : e.cfg = s.cfg := by simp [he, emitReplyStep]
  have hre : e.registersPlain := State.registersPlain_congr hcfg (by simp [he, emitReplyStep])
    (by simp [he, emitReplyStep]) (by simp [he, emitReplyStep]) hr
  have hflag := State.flagOf_update32_reg a .cmdo (v := 0) (by rw [hcfg]; exact hw) hre (BitVec.and_not_self s.cfg.cmdoDone)
  rw [flagOf_zero, hcfg] at hflag
  rw [State.cmdoDone, State.replyAcked_cfg]
  exact hflag

/-- Up to W3d the mask register is untouched. -/
theorem State.replyAcked_imrh {s : State} (a : Agent) (hw : s.cfg.wf = true) : (s.replyAcked a).regs.imrh = s.regs.imrh := by
  set e := emitReplyStep a (s.bulkOut a .dsp s.ctx.outbox.off (.buf 0) s.cfg.rhSize) with he
  have hcfg : e.cfg = s.cfg := by simp [he, emitReplyStep]
  have hkeep := State.regs_update32_other (s := e) a (g := .cmdo) (g' := .imrh) s.cfg.cmdoDone 0
    (by rw [hcfg]; exact hw) (by decide)
  rw [hcfg] at hkeep
  exact hkeep.trans (by simp [he, emitReplyStep])

/-- `IRQDEFER` waits at W3d, with the reply delivered and acknowledged and `IMRH` as before. -/
theorem irqdefer_waits {s : State} {b : Agent} (hw : s.cfg.wf = true) (hl : s.lock = some b)
    (hp : Presentable s .irqdefer) (hr : s.registersPlain) (hdone : s.cmdoDone = true) (hcalls : s.replyCalls = [])
    (hbox : RegionRange s .dsp s.ctx.outbox.off s.cfg.rhSize) :
    ∃ t, exec .irqdefer s = .next t ∧ (t.ex .worker).op = some .irqdefer ∧ (t.ex .worker).step = 9 + s.cfg.rhSize ∧
      newAccesses s t = [.read .dsp s.cfg.cmdoOff] ++ byteReads .dsp s.ctx.outbox.off s.cfg.rhSize ++
        updateAccess .dsp s.cfg.cmdoOff ∧
      t.cmdoDone = false ∧ t.regs.imrh = s.regs.imrh ∧ t.irqRet = s.irqRet ∧ t.lock = some b ∧
      ∀ pick, microStep .worker pick t = .next t := by
  have hworker : s.presenter = .worker := by simpa [presenters] using hp.presenter_mem
  set s₁ := s.start .worker .irqdefer [] with hs₁
  have hcfg : s₁.cfg = s.cfg := by simp [hs₁]
  have hw₁ : s₁.cfg.wf = true := by rw [hcfg]; exact hw
  have hr₁ : s₁.registersPlain := State.registersPlain_congr hcfg (by simp [hs₁]) (by simp [hs₁]) (by simp [hs₁]) hr
  set u := s₁.cmdoTaken .worker with hu
  set v := u.replyAcked .worker with hv
  have hready : Cond.replyReady.holds u.cfg (u.loc .worker) = true := by
    rw [Cond.holds, hu, State.cmdoTaken_cmdo .worker hw₁ hr₁]
    simpa [hs₁, State.cmdoDone] using hdone
  have hcfgu : u.cfg = s.cfg := by simp [hu, hcfg]
  have htaken := runList_cmdoTaken 8 .worker s₁
  rw [hcfg] at htaken
  have hacked := runList_replyAcked 5 .worker (s := u) (by simpa [hu, hs₁] using hcalls)
    (by simpa [hu, hs₁, RegionRange] using hbox)
  rw [hcfgu] at hacked
  have hop : (v.ex .worker).op = some .irqdefer := by
    rw [hv, State.replyAcked_op, hu, State.cmdoTaken_op, hs₁]
    simp [State.start_ex]
  have hlock : v.lock = some b := by simpa [hv, hu, hs₁] using hl
  obtain ⟨t, he, ht, hwait⟩ := exec_waits_of_guarded (v := v) hp rfl hworker rfl (guarded_replyReady s.cfg) htaken hready
    hacked hcfgu (by simp [hv, hcfgu]) hop hlock
  refine ⟨t, he, ?_, ?_, newAccesses_of_access ?_, ?_, ?_, ?_, ?_, hwait⟩
  · simpa [ht] using hop
  · simp only [ht, State.ex_setEx, if_pos, spanTo_cmdoTaken, spanTo_replyAcked]
    omega
  · simp [ht, hv, State.replyAcked_access, hu, State.cmdoTaken_access, hs₁]
  · have hack : v.cmdoDone = false := State.replyAcked_cmdoDone .worker (by simpa [hu] using hw₁)
      (State.cmdoTaken_registersPlain .worker hr₁)
    simpa [ht, State.cmdoDone] using hack
  · simpa [ht, hv, hu, hs₁] using State.replyAcked_imrh .worker (s := u) (by simpa [hu] using hw₁)
  · simp [ht, hv, hu, hs₁]
  · simpa [ht] using hlock

/-! ## `ENTER_D0` (R131) -/

/-- `Update32(S)` of a step descriptor by agent `a`. -/
def State.updateAt (s : State) (a : Agent) (x : StepDesc) : State := s.update32 a x.rgn x.off x.mask x.val

theorem runList_updateStep (d : Nat) (a : Agent) (x : StepDesc) (ms : List Micro) (s : State) :
    runList (entire d a) (updateStep x ++ ms) s = runList (entire d a) ms (s.updateAt a x) := runList_update ..

@[simp] theorem State.updateAt_cfg (s : State) (a : Agent) (x : StepDesc) : (s.updateAt a x).cfg = s.cfg := by
  simp [State.updateAt]
@[simp] theorem State.updateAt_lock (s : State) (a : Agent) (x : StepDesc) : (s.updateAt a x).lock = s.lock := by
  simp [State.updateAt]
@[simp] theorem State.updateAt_pwr (s : State) (a : Agent) (x : StepDesc) : (s.updateAt a x).pwr = s.pwr := by
  simp [State.updateAt]
@[simp] theorem State.updateAt_pmhw (s : State) (a : Agent) (x : StepDesc) : (s.updateAt a x).pmhw = s.pmhw := by
  simp [State.updateAt]
@[simp] theorem State.updateAt_inaccessible (s : State) (a : Agent) (x : StepDesc) (r : Region) (y : Nat) :
    (s.updateAt a x).inaccessible r y = s.inaccessible r y := by simp [State.updateAt]
@[simp] theorem State.updateAt_op (s : State) (a : Agent) (x : StepDesc) (b : Agent) :
    ((s.updateAt a x).ex b).op = (s.ex b).op := by simp [State.updateAt]

theorem State.updateAt_access (s : State) (a : Agent) (x : StepDesc) :
    (s.updateAt a x).bus.map BusRec.access = s.bus.map BusRec.access ++ stepAccess x := State.update32_access ..

/-- The state after S1 to S3 of `RESET` (R132), or E8 to E10, by agent `a`. -/
def State.pulse (s : State) (a : Agent) : State :=
  ((s.update32 a .dsp s.cfg.csrOff (s.cfg.csrRst ||| s.cfg.csrStall) (s.cfg.csrRst ||| s.cfg.csrStall)).delay a
    tHold).update32 a .dsp s.cfg.csrOff (s.cfg.csrRst ||| s.cfg.csrStall) s.cfg.csrStall

theorem runList_pulse (d : Nat) (a : Agent) (ms : List Micro) (s : State) :
    runList (entire d a) (pulseListing s.cfg ++ ms) s = runList (entire d a) ms (s.pulse a) := by
  rw [pulseListing, List.append_assoc, List.append_assoc, runList_update, List.singleton_append,
    runList_go (entire_delay _ _ _ _), runList_update, State.pulse]

@[simp] theorem State.pulse_cfg (s : State) (a : Agent) : (s.pulse a).cfg = s.cfg := by simp [State.pulse]
@[simp] theorem State.pulse_lock (s : State) (a : Agent) : (s.pulse a).lock = s.lock := by simp [State.pulse]
@[simp] theorem State.pulse_pwr (s : State) (a : Agent) : (s.pulse a).pwr = s.pwr := by simp [State.pulse]
@[simp] theorem State.pulse_op (s : State) (a b : Agent) : ((s.pulse a).ex b).op = (s.ex b).op := by simp [State.pulse]

theorem State.pulse_access (s : State) (a : Agent) :
    (s.pulse a).bus.map BusRec.access = s.bus.map BusRec.access ++ resetAccesses s.cfg := by
  simp only [State.pulse, State.update32_access, State.delay_access, resetAccesses, tHold, List.append_assoc]

/-- The state after the read of E5 that finds D0, by agent `a`. -/
def State.confirmD0 (s : State) (a : Agent) : State :=
  { (s.read32 a s.cfg.pmSts.rgn s.cfg.pmSts.off).2 with d0Confirmed := true }

/-- What a poll finds where the power status field is accessible (R44). -/
theorem pollRead_fst {s : State} (a : Agent) (ha : s.inaccessible s.cfg.pmSts.rgn s.cfg.pmSts.off = false) :
    (pollRead a s).1 = s.pmhw &&& s.cfg.pmSts.mask := by
  have hpm : ∀ w, s.overlay s.cfg.pmSts.rgn s.cfg.pmSts.off w &&& s.cfg.pmSts.mask = s.pmhw &&& s.cfg.pmSts.mask := by
    intro w
    simp [State.overlay, State.isPm, merged_inside]
  rw [pollRead, State.read32, State.busRead, if_neg (by simp [ha])]
  split
  · exact hpm _
  · exact hpm _

/-- The poll loop ends at its first read where the power hardware reports D0 (R137). -/
theorem pollAll_inD0 {s : State} (a : Agent) (n : Nat) (hd : s.inD0 = true)
    (ha : s.inaccessible s.cfg.pmSts.rgn s.cfg.pmSts.off = false) : pollAll a (n + 1) s = .go (s.confirmD0 a) := by
  rw [pollAll, if_pos]
  · rfl
  · rw [pollRead_fst a ha]
    simpa [State.inD0] using hd

@[simp] theorem State.confirmD0_cfg (s : State) (a : Agent) : (s.confirmD0 a).cfg = s.cfg := by simp [State.confirmD0]
@[simp] theorem State.confirmD0_lock (s : State) (a : Agent) : (s.confirmD0 a).lock = s.lock := by simp [State.confirmD0]
@[simp] theorem State.confirmD0_pwr (s : State) (a : Agent) : (s.confirmD0 a).pwr = s.pwr := by simp [State.confirmD0]
@[simp] theorem State.confirmD0_ex (s : State) (a b : Agent) : (s.confirmD0 a).ex b = s.ex b := by
  rw [← State.read32_ex s a s.cfg.pmSts.rgn s.cfg.pmSts.off b]
  cases b <;> rfl

theorem State.confirmD0_access (s : State) (a : Agent) :
    (s.confirmD0 a).bus.map BusRec.access =
      s.bus.map BusRec.access ++ [.read s.cfg.pmSts.rgn s.cfg.pmSts.off] := by
  simp [State.confirmD0, BusRec.access]

/-- E1 to E3 and the assignment after them. -/
def requestListing (c : Cfg) : List Micro :=
  updateStep c.stGateOff ++ updateStep c.stPdOff ++ updateStep c.stD0Req ++ [.pwr .requested]

/-- E7 to E13. -/
def setupListing (c : Cfg) : List Micro :=
  updateStep c.stClkSel ++ pulseListing c ++ updateStep c.stCgPolicy ++ updateStep c.stPgDefault ++ updateStep c.stQuirkOff

/-- E14 after its `Acquire`, to the end. -/
def unmaskListing (c : Cfg) : List Micro :=
  update .dsp c.imrhOff (c.imrhDone ||| c.imrhBusy) 0 ++ update .dsp c.imrdOff (c.imrdDone ||| c.imrdBusy) 0 ++
    [.release, .write .dsp c.cmdoOff 0, .write .dsp c.cmdiOff 0, .write .dsp c.scr0Off 0, .write .dsp c.scr1Off 0,
     .pwr .ready, .ok]

theorem enterD0Listing_eq (c : Cfg) :
    enterD0Listing c = (requestListing c ++ .poll nPoll :: setupListing c) ++ .acquire :: unmaskListing c := by
  simp only [enterD0Listing, requestListing, setupListing, unmaskListing, List.append_assoc, List.cons_append,
    List.nil_append]

/-- Three updates and the assignment, the four micro-steps of E5 and E6, four updates and the five of E8 to E10 (R25). -/
theorem spanTo_enterD0 (c : Cfg) (l : Locals) :
    spanTo c l (requestListing c ++ .poll nPoll :: setupListing c) = 24 := by
  simp only [requestListing, setupListing, pulseListing, List.append_assoc, List.cons_append, List.nil_append]
  rw [spanTo_updateStep_append, spanTo_updateStep_append, spanTo_updateStep_append, spanTo_cons rfl, spanTo_cons rfl,
    spanTo_updateStep_append, spanTo_update_append, spanTo_cons rfl, spanTo_update_append, spanTo_updateStep_append,
    spanTo_updateStep_append, updateStep, spanTo_update]
  rfl

/-- The state after E1 to E3. -/
def State.requestD0 (s : State) (a : Agent) : State :=
  pwrStep (((s.updateAt a s.cfg.stGateOff).updateAt a s.cfg.stPdOff).updateAt a s.cfg.stD0Req) .requested

theorem runList_request (d : Nat) (a : Agent) (ms : List Micro) (s : State) :
    runList (entire d a) (requestListing s.cfg ++ ms) s = runList (entire d a) ms (s.requestD0 a) := by
  simp only [requestListing, List.append_assoc]
  rw [runList_updateStep, runList_updateStep, runList_updateStep, List.singleton_append, runList_go (entire_pwr _ _ _ _),
    State.requestD0]

@[simp] theorem State.requestD0_cfg (s : State) (a : Agent) : (s.requestD0 a).cfg = s.cfg := by simp [State.requestD0]
@[simp] theorem State.requestD0_lock (s : State) (a : Agent) : (s.requestD0 a).lock = s.lock := by simp [State.requestD0]
@[simp] theorem State.requestD0_pwr (s : State) (a : Agent) : (s.requestD0 a).pwr = .d0Transitioning := rfl
@[simp] theorem State.requestD0_op (s : State) (a b : Agent) : ((s.requestD0 a).ex b).op = (s.ex b).op := by
  simp [State.requestD0]
@[simp] theorem State.requestD0_inD0 (s : State) (a : Agent) : (s.requestD0 a).inD0 = s.inD0 := by
  simp [State.inD0, State.requestD0]

theorem State.requestD0_inaccessible (s : State) (a : Agent) (r : Region) (y : Nat) :
    (s.requestD0 a).inaccessible r y = s.inaccessible r y := by
  rw [show (s.requestD0 a).inaccessible r y = (((s.updateAt a s.cfg.stGateOff).updateAt a s.cfg.stPdOff).updateAt a
    s.cfg.stD0Req).inaccessible r y from rfl]
  simp

theorem State.requestD0_access (s : State) (a : Agent) :
    (s.requestD0 a).bus.map BusRec.access = s.bus.map BusRec.access ++ enterD0Request s.cfg := by
  simp [State.requestD0, State.updateAt_access, enterD0Request]

/-- The state after E7 to E13. -/
def State.setupD0 (s : State) (a : Agent) : State :=
  ((((s.updateAt a s.cfg.stClkSel).pulse a).updateAt a s.cfg.stCgPolicy).updateAt a s.cfg.stPgDefault).updateAt a
    s.cfg.stQuirkOff

theorem runList_setup (d : Nat) (a : Agent) (ms : List Micro) (s : State) :
    runList (entire d a) (setupListing s.cfg ++ ms) s = runList (entire d a) ms (s.setupD0 a) := by
  have hpulse := runList_pulse d a (ms := updateStep s.cfg.stCgPolicy ++ (updateStep s.cfg.stPgDefault ++
    (updateStep s.cfg.stQuirkOff ++ ms))) (s.updateAt a s.cfg.stClkSel)
  rw [State.updateAt_cfg] at hpulse
  simp only [setupListing, List.append_assoc]
  rw [runList_updateStep, hpulse, runList_updateStep, runList_updateStep, runList_updateStep, State.setupD0]

@[simp] theorem State.setupD0_cfg (s : State) (a : Agent) : (s.setupD0 a).cfg = s.cfg := by simp [State.setupD0]
@[simp] theorem State.setupD0_lock (s : State) (a : Agent) : (s.setupD0 a).lock = s.lock := by simp [State.setupD0]
@[simp] theorem State.setupD0_pwr (s : State) (a : Agent) : (s.setupD0 a).pwr = s.pwr := by simp [State.setupD0]
@[simp] theorem State.setupD0_op (s : State) (a b : Agent) : ((s.setupD0 a).ex b).op = (s.ex b).op := by
  simp [State.setupD0]

theorem State.setupD0_access (s : State) (a : Agent) :
    (s.setupD0 a).bus.map BusRec.access = s.bus.map BusRec.access ++ (stepAccess s.cfg.stClkSel ++ resetAccesses s.cfg ++
      stepAccess s.cfg.stCgPolicy ++ stepAccess s.cfg.stPgDefault ++ stepAccess s.cfg.stQuirkOff) := by
  simp [State.setupD0, State.updateAt_access, State.pulse_access]

/-- E1 to E13 in D0. -/
theorem runList_enterD0_to_acquire (d : Nat) (a : Agent) {s : State} (hd : s.inD0 = true)
    (ha : s.inaccessible s.cfg.pmSts.rgn s.cfg.pmSts.off = false) :
    runList (entire (d + 1) a) (requestListing s.cfg ++ .poll nPoll :: setupListing s.cfg) s =
      .go (((s.requestD0 a).confirmD0 a).setupD0 a) := by
  have hpoll : entire (d + 1) a (.poll nPoll) (s.requestD0 a) = .go ((s.requestD0 a).confirmD0 a) :=
    pollAll_inD0 a 9 (by simpa using hd) (by simpa [State.requestD0_inaccessible] using ha)
  have hsetup := runList_setup (d + 1) a [] ((s.requestD0 a).confirmD0 a)
  simp only [State.confirmD0_cfg, State.requestD0_cfg, List.append_nil, runList_nil] at hsetup
  rw [runList_request, runList_go hpoll, hsetup]

/-- `ENTER_D0` waits at E14, with E1 to E13 made. -/
theorem enterD0_waits {s : State} {b : Agent} (hl : s.lock = some b) (hp : Presentable s .enterD0) (hd : s.inD0 = true)
    (ha : s.inaccessible s.cfg.pmSts.rgn s.cfg.pmSts.off = false) :
    ∃ t, exec .enterD0 s = .next t ∧ (t.ex .host).op = some .enterD0 ∧ (t.ex .host).step = 25 ∧
      newAccesses s t = enterD0Request s.cfg ++ [.read s.cfg.pmSts.rgn s.cfg.pmSts.off] ++ stepAccess s.cfg.stClkSel ++
        resetAccesses s.cfg ++ stepAccess s.cfg.stCgPolicy ++ stepAccess s.cfg.stPgDefault ++
        stepAccess s.cfg.stQuirkOff ∧
      t.pwr = .d0Transitioning ∧ t.lock = some b ∧ ∀ pick, microStep .host pick t = .next t := by
  have hhost : s.presenter = .host := by simpa [presenters] using hp.presenter_mem
  set s₁ := s.start .host .enterD0 [] with hs₁
  have hcfg : s₁.cfg = s.cfg := by simp [hs₁]
  have hrun := runList_enterD0_to_acquire 7 .host (s := s₁) (by simpa [hs₁, State.inD0] using hd) (by simpa [hs₁] using ha)
  set u := ((s₁.requestD0 .host).confirmD0 .host).setupD0 .host with hu
  have hop : (u.ex .host).op = some .enterD0 := by simp [hu, hs₁, State.start_ex]
  have hlock : u.lock = some b := by simpa [hu, hs₁] using hl
  rw [hcfg] at hrun
  obtain ⟨t, he, ht, hwait⟩ := exec_waits_of_listing (i := .enterD0) (post := unmaskListing s.cfg) hp rfl hhost
    (enterD0Listing_eq s.cfg) hrun (by simp [hu, hcfg]) hop hlock
  refine ⟨t, he, ?_, ?_, newAccesses_of_access ?_, ?_, ?_, hwait⟩
  · simpa [ht] using hop
  · simp only [ht, State.ex_setEx, if_pos, spanTo_enterD0]
  · simp [ht, hu, State.setupD0_access, State.confirmD0_access, State.requestD0_access, hs₁]
  · simp [ht, hu]
  · simpa [ht] using hlock

/-! ## The state after attach (R51, R270) -/

/-- Attach leaves every memory empty, hence in the canonical form (log 5), under any configuration. -/
theorem canonical_attach (c : Cfg) : Canonical (State.attach c) := by
  have hnil : Memory.wf [] := by decide
  exact ⟨hnil, hnil, hnil, fun a => by cases a <;> exact hnil⟩

/-- Attach leaves the lock free and every agent idle, under any configuration. -/
theorem lockSound_attach (c : Cfg) : LockSound (State.attach c) := by
  intro a
  cases a <;> exact ⟨rfl, rfl, fun _ => rfl⟩

/-- `CFG_TEST` meets every clause of R13 (GK12). -/
theorem wf_test : Cfg.test.wf = true := by decide +kernel

/-! ## The obligations -/

/-- Settles O34: each of the four operations runs up to its first `Acquire`, whose number is one more than the micro-steps
before it, and there a micro-step is a wait. -/
theorem lockWait : Obligations.LockWait := by
  intro s b hw hl
  exact ⟨irqimm_waits hl, cmddone_waits hw hl, irqdefer_waits hw hl, fun hp hd ha _ => enterD0_waits hl hp hd ha⟩

/-- Settles O55: the two invariants hold after attach under any configuration, and `CFG_TEST` is well formed. -/
theorem canonicalReset : Obligations.CanonicalReset :=
  ⟨canonical_attach Cfg.test, lockSound_attach Cfg.test, wf_test⟩

end Sys2Proof.Machine
end

section
/-! PROOFS. What one step of the machine can do, said once: a property that each thing an input can set off keeps is kept by
every step (R50, R254, R259). -/

namespace Sys2Proof.Machine

/-- What has to be shown of a property for every step to keep it: one clause for each thing that a step can do. -/
structure StepKeeps (P : State → Prop) : Prop where
  port : ∀ s rest, P s → P { s with port := rest }
  presenter : ∀ s a, P s → P { s with presenter := a }
  lastTaken : ∀ s a, P s → P { s with lastTaken := a }
  detach : ∀ s, P s → P { s with attached := false }
  raise : ∀ s a k v, P s → P (s.raise a k v)
  move : ∀ s m, P s → P (s.move m)
  start : ∀ s a i, P s → (s.ex a).op = none → P (s.start a i (listing s.cfg i ++ [.idle]))
  exec : ∀ s t i, P s → (s.ex s.presenter).op = none → exec i s = .next t → P t
  resume : ∀ s t a, P s → (s.ex a).todo ≠ [] → runAgent a (s.ex a).todo s = .next t → P t
  micro : ∀ s t a pick, P s → microStep a pick s = .next t → P t

/-- A port that is open is that of an idle agent (U15). -/
theorem idle_of_portClosed {s : State} {a : Agent} (h : portClosed s a = none) : (s.ex a).op = none := by
  unfold portClosed at h
  by_contra ho
  rw [Option.isSome_iff_ne_none.2 ho] at h
  split at h <;> simp at h

/-- An agent that can move has something left to do. -/
theorem todo_of_canMove {s : State} {a : Agent} (h : canMove s a = true) : (s.ex a).todo ≠ [] := by
  intro e
  simp [canMove, e] at h

namespace StepKeeps

variable {P : State → Prop} {s t : State}

theorem presentRun (K : StepKeeps P) {a : Agent} {d : Desc} (hs : P s) (h : presentRun a d s = .next t) : P t := by
  unfold Machine.presentRun at h
  split at h
  · cases h
  · rename_i hc
    split at h
    · cases h; exact K.raise s a _ _ hs
    · exact K.exec _ t _ (K.presenter s a hs) (idle_of_portClosed hc) h

theorem presentOnly (K : StepKeeps P) {a : Agent} {d : Desc} (hs : P s) (h : presentOnly a d s = .next t) : P t := by
  unfold Machine.presentOnly at h
  split at h
  · cases h
  · rename_i hc
    split at h
    · cases h; exact K.raise s a _ _ hs
    · split at h
      · cases h
      · cases h; exact K.start s a _ hs (idle_of_portClosed hc)

theorem detachStep (K : StepKeeps P) (hs : P s) (h : detachStep s = .next t) : P t := by
  unfold Machine.detachStep at h
  split at h
  · cases h
  · split at h
    · cases h
    · cases h; exact K.detach s hs

/-- One input. -/
theorem take (K : StepKeeps P) {i : Input} (hs : P s) (h : take i s = .next t) : P t := by
  cases i with
  | op a d => exact K.presentRun hs h
  | begin a d => exact K.presentOnly hs h
  | micro a pick => exact K.micro s t a pick hs h
  | env m => cases h; exact K.move s m hs
  | detach => exact K.detachStep hs h

/-- What the block does when no input is left (R182, R187, R254). -/
theorem settle (K : StepKeeps P) (hs : P s) (h : settle s = .next t) : P t := by
  unfold Machine.settle at h
  split at h
  · rename_i hm; exact K.resume s t .irq hs (todo_of_canMove hm) h
  split at h
  · rename_i hm; exact K.resume s t .worker hs (todo_of_canMove hm) h
  split at h
  · rename_i hm; exact K.resume s t .host hs (todo_of_canMove hm) h
  split at h
  · rename_i hd
    have hi : s.irq.op = none := by simp_all [lineDue]
    exact K.exec _ t _ (K.lastTaken _ .irq (K.presenter s .irq hs)) hi h
  split at h
  · rename_i hd
    have hi : s.worker.op = none := by simp_all [workDue]
    exact K.exec _ t _ (K.lastTaken _ .worker (K.presenter s .worker hs)) hi h
  · cases h; exact hs

/-- One step. -/
theorem step (K : StepKeeps P) (hs : P s) (h : step s = .next t) : P t := by
  unfold Machine.step stepPort ifConfigured at h
  split at h
  · split at h
    · exact K.settle hs h
    · cases h
  · split at h
    · exact K.take (K.port s _ hs) h
    · cases h

end StepKeeps
end Sys2Proof.Machine
end

section
/-! PROOFS. What one micro-step can do to the state, said once: a property that each kind of effect keeps is kept by every
micro-step (R25). -/

namespace Sys2Proof.Machine

/-- The entries that neither take nor release the lock, and do not end an operation. -/
def Micro.plain : Micro → Bool
  | .acquire | .release | .idle => false
  | _ => true

/-- `t` differs from `s` in block-side registers other than the lock, in the events, in what the consumers still present and
in the record of the confirmation of D0, and in nothing else. -/
def BlockOnly (s t : State) : Prop :=
  t = { s with ctx := t.ctx, halt := t.halt, irqRet := t.irqRet, pwr := t.pwr, deferPending := t.deferPending,
               d0Confirmed := t.d0Confirmed, d0Requested := t.d0Requested, events := t.events,
               replyCalls := t.replyCalls, msgCalls := t.msgCalls }

theorem BlockOnly.pwrStep (s : State) (m : PwrMove) : BlockOnly s (pwrStep s m) := by
  cases m <;> simp only [Machine.pwrStep] <;> (try split) <;> rfl

/-- What has to be shown of a property for the micro-steps of agent `a` to keep it: one clause for each kind of effect. A
micro-step that writes the agent's record leaves what is left of the listing, keeps the agent in its operation, and keeps the
buffer or begins with an empty one. -/
structure EffectsKeep (a : Agent) (P : State → Prop) : Prop where
  read32 : ∀ s r off, P s → P (s.read32 a r off).2
  read8 : ∀ s r off, P s → P (s.read8 a r off).2
  draw : ∀ s, P s → P s.draw.2
  write32 : ∀ s r off v, P s → P (s.write32 a r off v)
  writeHost : ∀ s x b, P s → P { s with hm := Memory.write s.hm x b }
  writeBuf : ∀ s x b, P s → P (s.setLoc a { s.loc a with buf := Memory.write (s.loc a).buf x b })
  delay : ∀ s n, P s → P (s.delay a n)
  block : ∀ s t, BlockOnly s t → P s → P t
  record : ∀ s e, P s → e.todo = (s.ex a).todo → ((s.ex a).op ≠ none → e.op ≠ none) →
    (e.loc.buf = (s.loc a).buf ∨ e.loc.buf = []) → P (s.setEx a e)

section
variable {P : State → Prop} {Q : Micro → Prop}

theorem nextOk_orRefuse {b : Option Breach} {n : Next} (h : NextOk P Q n) : NextOk P Q (orRefuse b n) := by
  cases b with
  | none => exact h
  | some _ => trivial

theorem nextOk_to {rest : List Micro} {s : State} (h : P s) : NextOk P (fun _ => True) (.to rest s) :=
  ⟨h, fun _ _ => trivial⟩

theorem nextOk_unitStep (pick : Nat) (pend : List Span) {f : Nat → State → State} (left : List Span → Micro) {s : State}
    (hs : P s) (hf : ∀ k, P (f k s)) : NextOk P (fun _ => True) (unitStep pick pend f left s) := by
  unfold unitStep
  split
  · exact nextOk_to hs
  · exact nextOk_to (hf _)
  · exact nextOk_to (hf _)

end

namespace EffectsKeep

variable {a : Agent} {P : State → Prop} {s : State}

theorem setLoc (K : EffectsKeep a P) {l : Locals} (hl : l.buf = (s.loc a).buf) (hs : P s) : P (s.setLoc a l) :=
  K.record s _ hs rfl id (.inl hl)

theorem readStep (K : EffectsKeep a P) (r : Region) (off : Nat) (sl : Slot) (hs : P s) : P (readStep a r off sl s) :=
  K.setLoc (by cases sl <;> rfl) (K.read32 s r off hs)

theorem byteUnit (K : EffectsKeep a P) (r : Region) (off : Nat) (dst : Dest) (k : Nat) (hs : P s) :
    P (byteUnit a r off dst k s) := by
  have hr := K.read8 s r (off + k) hs
  cases dst with
  | host base => exact K.writeHost _ _ _ hr
  | buf base => exact K.writeBuf _ _ _ hr

theorem tailStep (K : EffectsKeep a P) (r : Region) (off h n : Nat) (hs : P s) : P (tailStep a r off h n s) := by
  unfold Machine.tailStep
  split
  · exact hs
  · exact K.write32 _ r off _ (K.draw s hs)

theorem raise (K : EffectsKeep a P) (k : Kind) (v : Word) (hs : P s) : P (s.raise a k v) :=
  K.block (s.result a k v) _ rfl (K.record s _ hs rfl id (.inl rfl))

theorem pollStep (K : EffectsKeep a P) (tries : Nat) (hs : P s) : NextOk P (fun _ => True) (pollStep a tries s) := by
  cases tries with
  | zero => exact nextOk_to hs
  | succ n =>
    have hr : P (pollRead a s).2 := K.read32 s _ _ hs
    simp only [Machine.pollStep]
    split
    · exact nextOk_to (K.block _ _ rfl hr)
    · exact nextOk_to hr

theorem callStep (K : EffectsKeep a P) (c : Consumer) (hs : P s) : NextOk P (fun _ => True) (callStep c s) := by
  unfold Machine.callStep
  split
  · split
    · exact nextOk_to (K.block s _ rfl hs)
    · trivial
  · exact nextOk_to (K.block s _ rfl hs)
  · exact nextOk_to hs
  · exact nextOk_to hs

theorem presentStep (K : EffectsKeep a P) (c : Consumer) (d : Desc) (hs : P s) :
    NextOk P (fun _ => True) (presentStep a c d s) := by
  unfold Machine.presentStep
  split
  · exact nextOk_to (K.raise _ _ hs)
  · split
    · exact nextOk_orRefuse (nextOk_to (K.record s _ hs rfl (fun _ => Option.some_ne_none _) (.inr rfl)))
    · trivial

theorem fwrBeginStep (K : EffectsKeep a P) (hs : P s) : NextOk P (fun _ => True) (fwrBeginStep a s) := by
  unfold Machine.fwrBeginStep
  split
  · trivial
  · exact nextOk_to (K.setLoc rfl (K.block s _ rfl hs))

/-- Every micro-step but those of the lock and the end of an operation. -/
theorem unit (K : EffectsKeep a P) (pick : Nat) {m : Micro} (hm : m.plain = true) (hs : P s) :
    NextOk P (fun _ => True) (unit a pick m s) := by
  cases m with
  | acquire | release | idle => cases hm
  | read r off sl => exact nextOk_to (K.readStep r off sl hs)
  | write _ _ _ | merge _ _ _ _ => exact nextOk_to (K.write32 s _ _ _ hs)
  | read64 r off =>
    simp only [Machine.unit, read64Step]
    split <;> exact nextOk_to (K.readStep _ _ _ hs)
  | write64 r off lo hi =>
    simp only [Machine.unit, write64Step]
    split <;> exact nextOk_to (K.write32 s _ _ _ hs)
  | copyIn r off h pend => exact nextOk_unitStep _ _ _ hs fun k => K.write32 s _ _ _ hs
  | copyOut r off dst pend => exact nextOk_unitStep _ _ _ hs fun k => K.byteUnit _ _ _ k hs
  | tail r off h n => exact nextOk_to (K.tailStep _ _ _ _ hs)
  | delay n | pollWait _ => exact nextOk_to (K.delay s _ hs)
  | pwr p => exact nextOk_to (K.block s _ (.pwrStep s p) hs)
  | poll n => exact K.pollStep n hs
  | raise k v => exact K.raise k v hs
  | boxWrite _ _ _ | boxRead _ _ _ | hdrRead | fwrRead | readBack _ | winRead _ | capSnap | capStack =>
    exact nextOk_orRefuse (nextOk_to hs)
  | header => exact nextOk_orRefuse (nextOk_to (K.setLoc rfl hs))
  | ok | result0 | result01 | replyResult => exact nextOk_to (K.record s _ hs rfl id (.inl rfl))
  | judge _ | setWork | capBegin _ => exact nextOk_to (K.setLoc rfl hs)
  | fwrExtdata => exact nextOk_to (K.setLoc rfl (K.block s _ rfl hs))
  | ret _ _ => exact nextOk_to (K.record s _ hs rfl (fun _ => Option.some_ne_none _) (.inr rfl))
  | wakeOrNone =>
    simp only [Machine.unit, wakeStep]
    split <;> exact nextOk_to (K.block s _ rfl hs)
  | call c => exact K.callStep c hs
  | present c d => exact K.presentStep c d hs
  | fwrBegin => exact K.fwrBeginStep hs
  | windows k n => cases n <;> exact nextOk_to hs
  | zeroBox =>
    simp only [Machine.unit, zeroBoxStep]
    split <;> exact nextOk_to hs
  | winDispatch | armEnd _ | given _ => exact nextOk_to hs
  | emit _ | ctx _ | clearPending | emitReply | emitMsg | handled | fwrOutbox | fwrInbox | fwrVersion | capEmit =>
    exact nextOk_to (K.block s _ rfl hs)

end EffectsKeep
end Sys2Proof.Machine
end

section
/-! PROOFS. Every step keeps the memories in the canonical form (log 5; R45, R49, R60). -/

namespace Sys2Proof.Machine

namespace Canonical

variable {s t : State}

/-! ## The rules of the state's operations -/

/-- The canonical form speaks of the two regions, host memory and the agents' buffers, and of nothing else. -/
theorem congr (hs : Canonical s) (hd : t.dspMem = s.dspMem) (hc : t.compMem = s.compMem) (hh : t.hm = s.hm)
    (hb : ∀ a, (t.loc a).buf = (s.loc a).buf) : Canonical t := by
  obtain ⟨h1, h2, h3, h4⟩ := hs
  exact ⟨hd ▸ h1, hc ▸ h2, hh ▸ h3, fun a => hb a ▸ h4 a⟩

theorem mem (hs : Canonical s) (r : Region) : Memory.wf (s.mem r) := by
  obtain ⟨h1, h2, -, -⟩ := hs
  cases r
  · exact h1
  · exact h2

theorem host (hs : Canonical s) : Memory.wf s.hm := by
  obtain ⟨-, -, h, -⟩ := hs
  exact h

theorem buf (hs : Canonical s) (a : Agent) : Memory.wf (s.loc a).buf := by
  obtain ⟨-, -, -, h⟩ := hs
  exact h a

theorem setEx (hs : Canonical s) (a : Agent) {e : Exec} (he : Memory.wf e.loc.buf) : Canonical (s.setEx a e) := by
  obtain ⟨h1, h2, h3, h4⟩ := hs
  refine ⟨by simpa using h1, by simpa using h2, by simpa using h3, fun b => ?_⟩
  rw [State.loc, State.ex_setEx]
  split
  · exact he
  · exact h4 b

theorem setLoc (hs : Canonical s) (a : Agent) {l : Locals} (hl : Memory.wf l.buf) : Canonical (s.setLoc a l) :=
  hs.setEx a hl

theorem setMem (hs : Canonical s) (r : Region) {m : Memory} (hm : Memory.wf m) : Canonical (s.setMem r m) := by
  obtain ⟨h1, h2, h3, h4⟩ := hs
  cases r
  · exact ⟨hm, h2, h3, h4⟩
  · exact ⟨h1, hm, h3, h4⟩

theorem setHost (hs : Canonical s) {m : Memory} (hm : Memory.wf m) : Canonical { s with hm := m } := by
  obtain ⟨h1, h2, -, h4⟩ := hs
  exact ⟨h1, h2, hm, h4⟩

theorem setReg (hs : Canonical s) (g : DevReg) (v : Word) : Canonical (s.setReg g v) := by
  cases g <;> exact hs

theorem store (hs : Canonical s) (r : Region) (off : Nat) (v : Word) : Canonical (s.store r off v) := by
  unfold State.store State.setStored
  split
  · exact hs
  · split
    · exact hs.setReg _ _
    · exact hs.setMem r (Memory.wf_writeWord (hs.mem r) off _)

theorem write32 (hs : Canonical s) (a : Agent) (r : Region) (off : Nat) (v : Word) : Canonical (s.write32 a r off v) := by
  have hw : Canonical (s.busWrite r off v) := by
    have hd : Canonical s.draw.2 := hs
    rw [State.busWrite_cases]
    split
    · split
      · exact hd.store r off v
      · exact hd
    · exact hs.store r off v
  exact hw

/-! ## The environment -/

theorem act (hs : Canonical s) (x : FwAct) : Canonical (s.act x) := by
  cases x with
  | poke off b => exact hs.store _ _ _
  | _ => exact hs.setReg _ _

theorem fwNext (hs : Canonical s) : Canonical s.fwNext := by
  unfold State.fwNext
  split
  · exact hs
  · rename_i x xs _
    have hx : Canonical { s with fw := xs } := hs
    split
    · exact hx.act x
    · exact hs

theorem fwRun (n : Nat) (hs : Canonical s) : Canonical (s.fwRun n) := by
  induction n generalizing s with
  | zero => exact hs
  | succ n ih => exact ih hs.fwNext

theorem effect (hs : Canonical s) (m : EnvMove) : Canonical (m.effect s) := by
  have hb : Canonical (s.fwBegin m) := hs
  cases m with
  | pwrReady | pwrBusy _ | gate _ => exact hs
  | start m => exact hs
  | fwFree r off v => exact hs.store r off v
  | next => exact hs.fwNext
  | _ => exact hb.fwRun _

theorem move (hs : Canonical s) (m : EnvMove) : Canonical (s.move m) := by
  unfold State.move
  split
  · exact hs.effect m
  · exact hs

theorem moves (hs : Canonical s) (ms : List EnvMove) : Canonical (s.moves ms) := by
  unfold State.moves
  induction ms generalizing s with
  | nil => exact hs
  | cons m ms ih => exact ih (hs.move m)

theorem delay (hs : Canonical s) (a : Agent) (n : Nat) : Canonical (s.delay a n) := by
  unfold State.delay State.delayMoves
  split
  · exact hs
  · rename_i ms rest _
    have hd : Canonical { ({ s with elapsed := s.elapsed + n } : State).record (.delay a n) with atDelay := rest } := hs
    exact hd.moves ms

/-! ## Micro-steps -/

/-- Every effect of a micro-step writes memories through the rules above. -/
theorem effectsKeep (a : Agent) : EffectsKeep a Canonical where
  read32 _ _ _ hs := hs.congr (by simp) (by simp) (by simp) (by simp)
  read8 _ _ _ hs := hs.congr (by simp) (by simp) (by simp) (by simp)
  draw _ hs := hs
  write32 _ r off v hs := hs.write32 a r off v
  writeHost _ _ _ hs := hs.setHost (Memory.wf_write hs.host _ _)
  writeBuf _ _ _ hs := hs.setLoc a (Memory.wf_write (hs.buf a) _ _)
  delay _ n hs := hs.delay a n
  block s t h hs := by rw [h]; exact hs
  record s e hs _ _ hb := hs.setEx a (hb.elim (fun h => h ▸ hs.buf a) (fun h => h ▸ Memory.wf_nil))

theorem unit (hs : Canonical s) (a : Agent) (pick : Nat) (m : Micro) :
    NextOk Canonical (fun _ => True) (unit a pick m s) := by
  cases hm : m.plain with
  | true => exact (effectsKeep a).unit pick hm hs
  | false =>
    cases m with
    | acquire =>
      simp only [Machine.unit, acquireStep]
      split
      · exact nextOk_to hs
      · trivial
    | release => exact nextOk_to hs
    | idle => exact nextOk_to (hs.setEx a Memory.wf_nil)
    | _ => cases hm

/-- The canonical form as a property that micro-steps keep, whatever the entries. -/
theorem keeps (a : Agent) : Keeps a Canonical (fun _ => True) where
  unit pick m _ _ hs _ := hs.unit a pick m
  group r _ _ _ _ _ hs _ _ := hs.write32 a r _ _
  byte r off dst _ k _ hs _ _ := (effectsKeep a).byteUnit r off dst k hs
  subIn _ _ _ _ _ _ _ := trivial
  subOut _ _ _ _ _ _ _ := trivial

/-! ## Steps -/

/-- What is left of a listing and where its sequencer stands is in no memory. -/
theorem reseq (hs : Canonical s) (a : Agent) (todo : List Micro) (n : Nat) :
    Canonical (s.setEx a { s.ex a with todo := todo, step := n }) := hs.setEx a (hs.buf a)

theorem advance (hs : Canonical s) (a : Agent) (todo : List Micro) : Canonical (s.advance a todo) := by
  cases ho : (s.ex a).op with
  | none => rwa [State.advance_idle ho]
  | some i =>
    rw [State.advance_eq ho]
    exact hs.reseq a todo _

theorem runAgent (hs : Canonical s) {a : Agent} {todo : List Micro} (h : runAgent a todo s = .next t) : Canonical t :=
  (keeps a).runAgent_ok (fun _ todo n hu _ => hu.reseq a todo n) todo s t hs (fun _ _ => trivial) h

theorem exec (hs : Canonical s) {i : Instr} (h : exec i s = .next t) : Canonical t := by
  rw [exec_eq_perform] at h
  exact (keeps s.presenter).perform_ok (fun _ todo n hu _ => hu.reseq s.presenter todo n)
    (hs.setEx s.presenter Memory.wf_nil) (fun _ _ => trivial) trivial h

theorem microStep (hs : Canonical s) {a : Agent} {pick : Nat} (h : microStep a pick s = .next t) : Canonical t := by
  unfold Machine.microStep at h
  split at h
  · cases h; exact hs
  · rename_i m ms _
    have hu := hs.unit a pick m
    split at h
    · rename_i e; rw [e] at hu; cases h; exact hu.1.advance a _
    · rename_i e; rw [e] at hu; cases h; exact Canonical.advance hu a _
    · cases h; exact hs
    · cases h

/-- The canonical form as a property that steps keep. -/
theorem stepKeeps : StepKeeps Canonical where
  port _ _ hs := hs
  presenter _ _ hs := hs
  lastTaken _ _ hs := hs
  detach _ hs := hs
  raise _ a _ _ hs := hs.setEx a (hs.buf a)
  move _ m hs := hs.move m
  start _ a _ hs _ := hs.setEx a Memory.wf_nil
  exec _ _ _ hs _ h := hs.exec h
  resume _ _ _ hs _ h := hs.runAgent h
  micro _ _ _ _ hs h := hs.microStep h

end Canonical

/-- Settles O54: a write puts a memory into the canonical form again, and nothing else in a step touches one. -/
theorem canonicalKept : Obligations.CanonicalKept := fun _ _ hs h => Canonical.stepKeeps.step hs h

end Sys2Proof.Machine
end

section
/-! PROOFS. A run of a listing as the micro-steps it is made of (R25, R250): what `entire`, a listing and an agent's entries
come to is reached by single micro-steps, one after another. -/

namespace Sys2Proof.Machine

/-- What is left of a listing when an error was raised: the next closing entry and what follows it (R17). -/
def toClose (ms : List Micro) : List Micro := ms.dropWhile (fun m => !m.closes)

/-- One micro-step, taken on what is left of a listing and a state. -/
inductive Goes (a : Agent) (pick : Nat) : List Micro × State → List Micro × State → Prop
  | next {m : Micro} {ms rest : List Micro} {s t : State} (h : unit a pick m s = .to rest t) :
      Goes a pick (m :: ms, s) (rest ++ ms, t)
  | raised {m : Micro} {ms : List Micro} {s t : State} (h : unit a pick m s = .raised t) :
      Goes a pick (m :: ms, s) (toClose ms, t)

/-- Some number of micro-steps, units of a copy taken in ascending order. -/
abbrev Reaches (a : Agent) : List Micro × State → List Micro × State → Prop := Relation.ReflTransGen (Goes a 0)

/-- What a run comes to is reached from `c` by micro-steps, where `ks` is left after the run. -/
def Flow.ReachedFrom (a : Agent) (c : List Micro × State) (ks : List Micro) : Flow → Prop
  | .go t => Reaches a c (ks, t)
  | .raised t => Reaches a c (toClose ks, t)
  | .blocked rest t => Reaches a c (rest ++ ks, t)
  | .refuse _ => True

variable {a : Agent}

theorem Flow.ReachedFrom.head {c c' : List Micro × State} {ks : List Micro} {w : Flow} (h : Reaches a c c')
    (hw : w.ReachedFrom a c' ks) : w.ReachedFrom a c ks := by
  cases w with
  | refuse _ => trivial
  | _ => exact h.trans hw

theorem toClose_cons_open {m : Micro} (h : m.closes = false) (ms : List Micro) : toClose (m :: ms) = toClose ms := by
  simp [toClose, h]

theorem toClose_cons_closing {m : Micro} (h : m.closes = true) (ms : List Micro) : toClose (m :: ms) = m :: ms := by
  simp [toClose, h]

/-- Entries in order, where each entry is made of micro-steps. -/
theorem runFrom_reached {f : Micro → State → Flow} (hf : ∀ m s ks, (f m s).ReachedFrom a (m :: ks, s) ks)
    (skip : Bool) (ms : List Micro) (s : State) (ks : List Micro) :
    (runFrom f skip ms s).ReachedFrom a (if skip then toClose (ms ++ ks) else ms ++ ks, s) ks := by
  induction ms generalizing skip s with
  | nil => cases skip <;> exact .refl
  | cons m ms ih =>
    by_cases hk : (skip && !m.closes) = true
    · obtain ⟨rfl, hm⟩ : skip = true ∧ m.closes = false := by simpa using hk
      rw [runFrom_raised_skip hm, List.cons_append, toClose_cons_open hm]
      exact ih true s
    · have hstart : (if skip then toClose (m :: ms ++ ks) else m :: ms ++ ks) = m :: (ms ++ ks) := by
        cases skip with
        | false => rfl
        | true => exact toClose_cons_closing (by simpa using hk) _
      have hm := hf m s (ms ++ ks)
      rw [hstart]
      simp only [runFrom, hk]
      cases e : f m s with
      | go t => rw [e] at hm; exact (ih false t).head hm
      | raised t => rw [e] at hm; exact (ih true t).head hm
      | blocked rest t => rw [e] at hm; simpa [Flow.ReachedFrom] using hm
      | refuse r => trivial

/-- The poll loop (R131 E5 and E6). -/
theorem pollAll_reached (n : Nat) (s : State) (ks : List Micro) :
    (pollAll a n s).ReachedFrom a (pollLoop n ++ ks, s) ks := by
  induction n generalizing s with
  | zero =>
    have hoff : Goes a 0 (.pwr .timedOut :: .raise .timeout 0 :: ks, s) (.raise .timeout 0 :: ks, pwrStep s .timedOut) :=
      .next (rest := []) rfl
    exact (Relation.ReflTransGen.single hoff).tail (.raised rfl)
  | succ n ih =>
    have hu : unit a 0 (.poll (n + 1)) s = pollStep a (n + 1) s := rfl
    simp only [pollStep] at hu
    simp only [pollAll]
    split at hu
    · rename_i h
      rw [if_pos h]
      exact .single (.next hu)
    · rename_i h
      rw [if_neg h]
      exact (ih _).head ((Relation.ReflTransGen.single (.next hu)).tail (.next rfl))

/-- The loop over the window elements (R212 F6). -/
theorem windowsAll_reached {f : Micro → State → Flow} (hf : ∀ m s ks, (f m s).ReachedFrom a (m :: ks, s) ks) (k n : Nat)
    (s : State) (ks : List Micro) : (windowsAll f k n s).ReachedFrom a (.windows k n :: ks, s) ks := by
  induction n generalizing k s with
  | zero => exact .single (.next (rest := []) rfl)
  | succ n ih =>
    have hstep : Reaches a (.windows k (n + 1) :: ks, s) (.winRead k :: .winDispatch :: .windows (k + 1) n :: ks, s) :=
      .single (.next (rest := [.winRead k, .winDispatch, .windows (k + 1) n]) rfl)
    have hrun := (runFrom_reached hf false [.winRead k, .winDispatch] s (.windows (k + 1) n :: ks)).head hstep
    simp only [windowsAll, runList]
    cases e : runFrom f false [.winRead k, .winDispatch] s with
    | go t => rw [e] at hrun; exact (ih (k + 1) t).head hrun
    | raised t => rw [e] at hrun; exact hrun
    | blocked rest t => rw [e] at hrun; simpa [Flow.ReachedFrom] using hrun
    | refuse r => trivial

/-! ## Copies -/

theorem spansLoop_cons (f : Nat → State → State) (p : Span) (ps : List Span) (s : State) :
    spansLoop f (p :: ps) s = spansLoop f ps (unitsLoop f p.base p.len s) := rfl

/-- Where no unit is left to take, the copy is done. -/
theorem spansLoop_of_takeUnit_none (f : Nat → State → State) {pend : List Span} (h : takeUnit 0 pend = none) (s : State) :
    spansLoop f pend s = s := by
  induction pend with
  | nil => rfl
  | cons p ps ih =>
    simp only [takeUnit] at h
    split at h
    · cases h
    · rename_i hp
      have hlen : p.len = 0 := by omega
      have hps : takeUnit 0 ps = none := by
        cases e : takeUnit 0 ps with
        | none => rfl
        | some x => simp [hlen, e] at h
      rw [spansLoop_cons, hlen, unitsLoop, ih hps]

/-- The first unit in ascending order, and then those that are left. -/
theorem spansLoop_of_takeUnit_some (f : Nat → State → State) {pend rest : List Span} {k : Nat}
    (h : takeUnit 0 pend = some (k, rest)) (s : State) :
    spansLoop f pend s = spansLoop f rest (f k s) ∧ units rest < units pend := by
  induction pend generalizing rest with
  | nil => cases h
  | cons p ps ih =>
    simp only [takeUnit] at h
    split at h
    · rename_i hp
      obtain ⟨n, hn⟩ : ∃ n, p.len = n + 1 := ⟨p.len - 1, by omega⟩
      simp only [hn, Option.some.injEq, Prod.mk.injEq] at h
      obtain ⟨rfl, rfl⟩ := h
      cases n with
      | zero => simp [spansLoop_cons, hn, unitsLoop, units]
      | succ n => simp [spansLoop_cons, hn, unitsLoop, units]
    · rename_i hp
      have hlen : p.len = 0 := by omega
      cases e : takeUnit 0 ps with
      | none => simp [hlen, e] at h
      | some x =>
        simp only [hlen, Nat.sub_zero, e, Option.some.injEq, Prod.mk.injEq] at h
        obtain ⟨rfl, rfl⟩ := h
        obtain ⟨hloop, hunits⟩ := ih e
        refine ⟨?_, by simpa [units] using hunits⟩
        rw [spansLoop_cons, spansLoop_cons, hlen]
        exact hloop

/-- A copy is its units, taken one by one. -/
theorem spansLoop_reached {f : Nat → State → State} {left : List Span → Micro}
    (hu : ∀ pend s, unit a 0 (left pend) s = unitStep 0 pend f left s) (pend : List Span) (s : State) (ks : List Micro) :
    Reaches a (left pend :: ks, s) (ks, spansLoop f pend s) := by
  induction hn : units pend using Nat.strong_induction_on generalizing pend s with
  | _ n ih =>
    have h := hu pend s
    simp only [unitStep, Nat.zero_mod] at h
    cases e : takeUnit 0 pend with
    | none =>
      rw [e] at h
      rw [spansLoop_of_takeUnit_none f e]
      exact .single (.next h)
    | some x =>
      obtain ⟨k, rest⟩ := x
      obtain ⟨hloop, hunits⟩ := spansLoop_of_takeUnit_some f e s
      rw [e] at h
      rw [hloop]
      cases rest with
      | nil => exact .single (.next h)
      | cons p ps => exact (ih _ (hn ▸ hunits) (p :: ps) _ rfl).head (.next h)

/-! ## Entries and listings -/

/-- An entry, all of it. -/
theorem entire_reached (d : Nat) (m : Micro) (s : State) (ks : List Micro) :
    (entire d a m s).ReachedFrom a (m :: ks, s) ks := by
  induction d generalizing m s ks with
  | zero =>
    simp only [entire]
    match e : unit a 0 m s with
    | .to [] _ => exact .single (.next e)
    | .to (_ :: _) _ => exact .single (.next e)
    | .raised _ => exact .single (.raised e)
    | .wait => exact .refl
    | .refuse _ => trivial
  | succ d ih =>
    have hunit : Flow.ReachedFrom a (m :: ks, s) ks (match unit a 0 m s with
        | .to rest t => runList (entire d a) rest t
        | .raised t => .raised t
        | .wait => .blocked [m] s
        | .refuse r => .refuse r) := by
      match e : unit a 0 m s with
      | .to rest t => exact (runFrom_reached ih false rest t ks).head (.single (.next e))
      | .raised _ => exact .single (.raised e)
      | .wait => exact .refl
      | .refuse _ => trivial
    cases m with
    | copyIn r off h pend => exact spansLoop_reached (fun _ _ => rfl) pend s ks
    | copyOut r off dst pend => exact spansLoop_reached (fun _ _ => rfl) pend s ks
    | poll n =>
      cases n with
      | zero => exact (pollAll_reached 0 s ks).head (.single (.next rfl))
      | succ n => exact pollAll_reached (n + 1) s ks
    | pollWait n => exact (pollAll_reached n _ ks).head (.single (.next rfl))
    | windows k n => exact windowsAll_reached ih k n s ks
    | _ => exact hunit

/-- An agent's entries, run to the end or to a wait: some number of micro-steps leads there. -/
theorem runAgent_reached {todo : List Micro} {s t : State} (h : runAgent a todo s = .next t) :
    ∃ ms u, Reaches a (todo, s) (ms, u) ∧ (ms = [] ∧ t = u ∨ t = u.advance a ms) := by
  have hrun := runFrom_reached (entire_reached 8) false todo s ([] : List Micro) (a := a)
  simp only [runAgent, runList] at h
  cases e : runFrom (entire 8 a) false todo s with
  | go u =>
    rw [e] at h hrun; cases h
    exact ⟨[], t, by simpa [Flow.ReachedFrom] using hrun, .inl ⟨rfl, rfl⟩⟩
  | raised u =>
    rw [e] at h hrun; cases h
    exact ⟨[], t, by simpa [Flow.ReachedFrom, toClose] using hrun, .inl ⟨rfl, rfl⟩⟩
  | blocked rest u =>
    rw [e] at h hrun; cases h
    exact ⟨rest, u, by simpa [Flow.ReachedFrom] using hrun, .inr rfl⟩
  | refuse r => rw [e] at h; cases h

end Sys2Proof.Machine
end

section
/-! PROOFS. Every step keeps the lock sound (R29, R82): what a micro-step does to the lock, to the agents' records and to what
is left of a listing. -/

namespace Sys2Proof.Machine

/-! ## The discipline of a listing -/

theorem lockOk_false_plain {m : Micro} (h : m.plain = true) (ms : List Micro) : lockOk false (m :: ms) = lockOk false ms := by
  cases m <;> first | rfl | cases h

theorem lockOk_true_cons {m : Micro} (h : m ≠ .release) (ms : List Micro) :
    lockOk true (m :: ms) = (m.quiet && lockOk true ms) := by
  cases m <;> first | rfl | exact absurd rfl h

theorem Micro.open_of_quiet {m : Micro} (h : m.quiet = true) : m.closes = false := by
  cases m <;> first | rfl | cases h

/-- After entries that leave the lock free, the rest stands as if it began there. -/
theorem lockOk_append {o : Bool} {ms : List Micro} (h : lockOk o ms = true) (ns : List Micro) :
    lockOk o (ms ++ ns) = lockOk false ns := by
  induction ms generalizing o with
  | nil => cases o with
    | false => rfl
    | true => cases h
  | cons m ms ih =>
    cases o with
    | false =>
      cases m with
      | acquire => exact ih (o := true) h
      | release => cases h
      | _ => exact ih (o := false) h
    | true =>
      by_cases hr : m = .release
      · subst hr; exact ih (o := false) h
      · rw [lockOk_true_cons hr, Bool.and_eq_true] at h
        rw [List.cons_append, lockOk_true_cons hr, h.1, Bool.true_and]
        exact ih h.2

/-- Before quiet entries the owner still has its release to do. -/
theorem lockOk_true_append {ms : List Micro} (h : ∀ m ∈ ms, m.quiet = true) (ns : List Micro) :
    lockOk true (ms ++ ns) = lockOk true ns := by
  induction ms with
  | nil => rfl
  | cons m ms ih =>
    have hm : m.quiet = true := h m (by simp)
    have hr : m ≠ .release := by rintro rfl; cases hm
    rw [List.cons_append, lockOk_true_cons hr, hm, Bool.true_and, ih (fun x hx => h x (by simp [hx]))]

/-- No closing entry stands between an `Acquire` and its `Release`: an error leaves a lock that is used as R82 says. -/
theorem lockOk_toClose {o : Bool} {ms : List Micro} (h : lockOk o ms = true) : lockOk false (toClose ms) = true := by
  induction ms generalizing o with
  | nil => rfl
  | cons m ms ih =>
    cases o with
    | false =>
      cases hm : m.closes with
      | true => rwa [toClose_cons_closing hm]
      | false =>
        rw [toClose_cons_open hm]
        cases m with
        | acquire => exact ih (o := true) h
        | release => cases h
        | _ => exact ih (o := false) h
    | true =>
      by_cases hr : m = .release
      · subst hr; exact ih (o := false) h
      · rw [lockOk_true_cons hr, Bool.and_eq_true] at h
        rw [toClose_cons_open (Micro.open_of_quiet h.1)]
        exact ih h.2

/-- Entries that an entry may stand for: they leave the lock free, and no operation ends in them. -/
def Tidy (ms : List Micro) : Prop := lockOk false ms = true ∧ .idle ∉ ms

theorem tidy_of_plain {ms : List Micro} (h : ms.all Micro.plain = true) : Tidy ms := by
  refine ⟨?_, fun hi => Bool.noConfusion (List.all_eq_true.1 h _ hi)⟩
  induction ms with
  | nil => rfl
  | cons m ms ih =>
    obtain ⟨hm, hms⟩ : m.plain = true ∧ ms.all Micro.plain = true := by simpa using h
    rw [lockOk_false_plain hm]
    exact ih hms

theorem tidy_of_open {ms : List Micro} (hl : lockOk false ms = true) (ho : ∀ m ∈ ms, m.closes = false) : Tidy ms :=
  ⟨hl, fun hi => Bool.noConfusion (ho _ hi)⟩

theorem Tidy.append {ms ns : List Micro} (hm : Tidy ms) (hn : Tidy ns) : Tidy (ms ++ ns) := by
  obtain ⟨hl, hi⟩ := hm
  obtain ⟨hl', hi'⟩ := hn
  exact ⟨by rw [lockOk_append hl, hl'], by simp [hi, hi']⟩

theorem tidy_bulkWrite (r : Region) (off h n : Nat) : Tidy (bulkWrite r off h n) := by
  unfold bulkWrite
  refine .append ?_ ?_
  · split <;> exact tidy_of_plain rfl
  · split <;> exact tidy_of_plain rfl

theorem tidy_bulkRead (r : Region) (off : Nat) (dst : Dest) (n : Nat) : Tidy (bulkRead r off dst n) := by
  unfold bulkRead
  split <;> exact tidy_of_plain rfl

theorem tidy_windowEffect (c : Cfg) (t : Word) (b : Box) : Tidy (windowEffect c t b) := by
  unfold windowEffect registerRegion
  split_ifs <;> exact tidy_of_plain rfl

theorem tidy_guarded (c : Cfg) (k : Cond) : Tidy (guarded c k) :=
  tidy_of_open (by cases k <;> rfl) (guarded_open c k)

/-- Every listing uses the lock as R82 says, and the end of the operation is not part of it (R25). -/
theorem tidy_listing (c : Cfg) (i : Instr) : Tidy (listing c i) := by
  refine tidy_of_open ?_ (listing_open c i)
  cases i with
  | blkrd r off h n => exact ((tidy_bulkRead _ _ _ _).append (tidy_of_plain rfl)).1
  | blkwr r off h n => exact ((tidy_bulkWrite _ _ _ _).append (tidy_of_plain rfl)).1
  | enterD0 => simp [listing, enterD0Listing, pulseListing, updateStep, update, lockOk, Micro.quiet]
  | _ => rfl

/-! ## What a micro-step leaves to be done -/

/-- The property of the entries that a micro-step leaves. -/
def Next.RestOk (R : List Micro → Prop) : Next → Prop
  | .to rest _ => R rest
  | .raised _ | .wait | .refuse _ => True

theorem restOk_orRefuse {R : List Micro → Prop} {b : Option Breach} {n : Next} (h : n.RestOk R) :
    (orRefuse b n).RestOk R := by
  cases b with
  | none => exact h
  | some _ => trivial

theorem restOk_unitStep {R : List Micro → Prop} (pick : Nat) (pend : List Span) (f : Nat → State → State)
    (left : List Span → Micro) (s : State) (h0 : R []) (h : ∀ p, R [left p]) : (unitStep pick pend f left s).RestOk R := by
  unfold unitStep
  split
  · exact h0
  · exact h0
  · exact h _

/-- What a micro-step goes on to uses the lock as R82 says, and ends no operation. -/
theorem unit_rest_tidy (a : Agent) (pick : Nat) (m : Micro) (s : State) : (unit a pick m s).RestOk Tidy := by
  have hnil : Tidy [] := tidy_of_plain rfl
  cases m with
  | copyIn r off h pend => exact restOk_unitStep _ _ _ _ _ hnil fun _ => tidy_of_plain rfl
  | copyOut r off dst pend => exact restOk_unitStep _ _ _ _ _ hnil fun _ => tidy_of_plain rfl
  | read64 r off => simp only [unit, read64Step]; split <;> exact tidy_of_plain rfl
  | write64 r off lo hi => simp only [unit, write64Step]; split <;> exact tidy_of_plain rfl
  | acquire =>
    simp only [unit, acquireStep]
    split
    · exact hnil
    · trivial
  | poll n =>
    cases n with
    | zero => exact tidy_of_plain rfl
    | succ n => simp only [unit, pollStep]; split <;> exact tidy_of_plain rfl
  | pollWait n => cases n <;> exact tidy_of_plain rfl
  | boxWrite _ _ _ => exact restOk_orRefuse (tidy_bulkWrite _ _ _ _)
  | boxRead _ _ _ | header | hdrRead | fwrRead | readBack _ | winRead _ | capSnap | capStack =>
    exact restOk_orRefuse (tidy_bulkRead _ _ _ _)
  | call c =>
    have hds (c' : Consumer) (ds : List Desc) : Tidy (ds.map (Micro.present c')) := tidy_of_plain (by simp [Micro.plain])
    simp only [unit, callStep]
    split
    · split
      · exact hds _ _
      · trivial
    · exact hds _ _
    · exact hnil
    · exact hnil
  | present c d =>
    simp only [unit, presentStep]
    split
    · exact hnil
    · split
      · exact restOk_orRefuse ((tidy_listing _ _).append (tidy_of_plain rfl))
      · trivial
  | fwrBegin =>
    simp only [unit, fwrBeginStep]
    split
    · trivial
    · exact hnil
  | windows k n => cases n <;> exact tidy_of_plain rfl
  | winDispatch => exact tidy_windowEffect _ _ _
  | zeroBox => simp only [unit, zeroBoxStep]; split <;> exact tidy_of_plain rfl
  | given k =>
    simp only [unit]
    split
    · exact tidy_guarded _ _
    · exact hnil
  | raise k v => trivial
  | _ => exact tidy_of_plain rfl

/-- A quiet entry goes on to quiet entries only. -/
theorem unit_rest_quiet {a : Agent} {pick : Nat} {m : Micro} (hm : m.quiet = true) (s : State) :
    (unit a pick m s).RestOk (fun rest => ∀ x ∈ rest, x.quiet = true) := by
  cases m with
  | read _ _ _ | merge _ _ _ _ | setWork => simp [unit, Next.RestOk]
  | given k =>
    cases k with
    | isrDone | isrBusy => simp only [unit, Next.RestOk]; split <;> simp [guarded, update, Micro.quiet]
    | _ => cases hm
  | _ => cases hm

/-! ## What a micro-step leaves of the records and of the lock -/

/-- From `s` to `t` the lock and the other agents' records are the same; agent `a` is still in an operation if it was, and
its record of what is left is not written. -/
def Steady (a : Agent) (s t : State) : Prop :=
  t.lock = s.lock ∧ (∀ b, b ≠ a → t.ex b = s.ex b) ∧ (t.ex a).todo = (s.ex a).todo ∧
    ((s.ex a).op ≠ none → (t.ex a).op ≠ none)

theorem Steady.refl (a : Agent) (s : State) : Steady a s s := ⟨rfl, fun _ _ => rfl, rfl, id⟩

theorem Steady.trans_ex {a : Agent} {s t u : State} (h : Steady a s t) (hl : u.lock = t.lock)
    (hx : ∀ b, u.ex b = t.ex b) : Steady a s u := by
  obtain ⟨hl', hx', ht, ho⟩ := h
  exact ⟨hl.trans hl', fun b hb => (hx b).trans (hx' b hb), by rw [hx, ht], by rw [hx]; exact ho⟩

theorem Steady.setEx {a : Agent} {s t : State} {e : Exec} (h : Steady a s t) (ht : e.todo = (t.ex a).todo)
    (ho : (t.ex a).op ≠ none → e.op ≠ none) : Steady a s (t.setEx a e) := by
  obtain ⟨hl, hx, ht', ho'⟩ := h
  refine ⟨by simpa using hl, fun b hb => ?_, ?_, fun h => ?_⟩
  · rw [State.ex_setEx, if_neg hb, hx b hb]
  · rw [State.ex_setEx, if_pos rfl, ht, ht']
  · rw [State.ex_setEx, if_pos rfl]
    exact ho (ho' h)

/-- Only `Acquire` and `Release` write the lock, only the end of an operation makes its agent idle, and a micro-step writes
no other agent's record. -/
theorem steady_effectsKeep (a : Agent) (s : State) : EffectsKeep a (Steady a s) where
  read32 _ _ _ h := h.trans_ex (by simp) (by simp)
  read8 _ _ _ h := h.trans_ex (by simp) (by simp)
  draw _ h := h
  write32 _ _ _ _ h := h.trans_ex (by simp) (by simp)
  writeHost _ _ _ h := h
  writeBuf _ _ _ h := h.setEx rfl id
  delay _ _ h := h.trans_ex (by simp) (by simp)
  block t u hu h := by rw [hu]; exact h
  record _ _ h ht ho _ := h.setEx ht ho

end Sys2Proof.Machine
end

section
/-! PROOFS. Every step keeps the lock sound (R29, R82): an agent's own entries, micro-step by micro-step, and then a step. -/

namespace Sys2Proof.Machine

/-! ## The end of an operation stands last -/

/-- Either the operation ends here, or something else comes first and the end is still to come. -/
theorem idleLast_cons_cases {m : Micro} {ms : List Micro} (h : idleLast (m :: ms) = true) :
    (m = .idle ∧ ms = []) ∨ (m ≠ .idle ∧ ms ≠ [] ∧ idleLast ms = true) := by
  cases ms with
  | nil => exact .inl ⟨by simpa [idleLast] using h, rfl⟩
  | cons n ns =>
    obtain ⟨hm, hns⟩ : m ≠ .idle ∧ idleLast (n :: ns) = true := by simpa [idleLast] using h
    exact .inr ⟨hm, by simp, hns⟩

theorem idleLast_append {rest ms : List Micro} (hr : .idle ∉ rest) (hn : ms ≠ []) (h : idleLast ms = true) :
    idleLast (rest ++ ms) = true := by
  induction rest with
  | nil => exact h
  | cons m rest ih =>
    obtain ⟨hm, hrest⟩ : Micro.idle ≠ m ∧ .idle ∉ rest := by simpa using hr
    obtain ⟨n, ns, hns⟩ := List.exists_cons_of_ne_nil (show rest ++ ms ≠ [] by simp [hn])
    have := ih hrest
    rw [List.cons_append, hns]
    rw [hns] at this
    simp [idleLast, hm.symm, this]

/-- An error leaves the end of the operation to come. -/
theorem idleLast_toClose {ms : List Micro} (hn : ms ≠ []) (h : idleLast ms = true) :
    toClose ms ≠ [] ∧ idleLast (toClose ms) = true := by
  induction ms with
  | nil => exact absurd rfl hn
  | cons m ms ih =>
    cases hm : m.closes with
    | true => rw [toClose_cons_closing hm]; exact ⟨hn, h⟩
    | false =>
      rw [toClose_cons_open hm]
      obtain ⟨rfl, -⟩ | ⟨-, hne, hl⟩ := idleLast_cons_cases h
      · cases hm
      · exact ih hne hl

/-! ## The sequencer -/

/-- Agent `a` is in an operation exactly as long as something is left of it, and its end stands last (R25). -/
structure SeqSound (a : Agent) (c : List Micro × State) : Prop where
  idleLast : idleLast c.1 = true
  done : c.1 = [] ↔ (c.2.ex a).op = none
  cleared : (c.2.ex a).op = none → (c.2.ex a).todo = []

theorem SeqSound.of_busy {a : Agent} {ms : List Micro} {s : State} (hl : Machine.idleLast ms = true) (hn : ms ≠ [])
    (ho : (s.ex a).op ≠ none) : SeqSound a (ms, s) :=
  ⟨hl, ⟨fun h => absurd h hn, fun h => absurd h ho⟩, fun h => absurd h ho⟩

theorem SeqSound.finish (a : Agent) (s : State) : SeqSound a ([], s.finish a) :=
  ⟨rfl, ⟨fun _ => by simp [State.finish_ex], fun _ => rfl⟩, fun _ => by simp [State.finish_ex]⟩

/-- An agent in an operation stays in it until its end. -/
theorem unit_busy {a : Agent} {pick : Nat} {m : Micro} {s : State} (hm : m ≠ .idle) (ho : (s.ex a).op ≠ none) :
    NextOk (fun t => (t.ex a).op ≠ none) (fun _ => True) (unit a pick m s) := by
  cases hp : m.plain with
  | true =>
    have h := (steady_effectsKeep a s).unit pick hp (.refl a s)
    cases e : unit a pick m s with
    | wait | refuse _ => trivial
    | raised t => rw [e] at h; exact h.2.2.2 ho
    | _ => rw [e] at h; exact nextOk_to (h.1.2.2.2 ho)
  | false =>
    cases m with
    | acquire =>
      simp only [unit, acquireStep]
      split
      · exact nextOk_to ho
      · trivial
    | release => exact nextOk_to ho
    | idle => exact absurd rfl hm
    | _ => cases hp

theorem SeqSound.goes {a : Agent} {pick : Nat} {c c' : List Micro × State} (h : SeqSound a c) (hg : Goes a pick c c') :
    SeqSound a c' := by
  cases hg with
  | @next m ms rest s t hu =>
    obtain ⟨rfl, rfl⟩ | ⟨hm, hn, hl⟩ := idleLast_cons_cases h.idleLast
    · cases hu
      exact .finish a s
    · have ho : (s.ex a).op ≠ none := fun e => nomatch h.done.2 e
      have hb := unit_busy (pick := pick) hm ho
      have ht := unit_rest_tidy a pick m s
      rw [hu] at hb ht
      exact .of_busy (idleLast_append ht.2 hn hl) (by simp [hn]) hb.1
  | @raised m ms s t hu =>
    obtain ⟨rfl, rfl⟩ | ⟨hm, hn, hl⟩ := idleLast_cons_cases h.idleLast
    · cases hu
    · have ho : (s.ex a).op ≠ none := fun e => nomatch h.done.2 e
      have hb := unit_busy (pick := pick) hm ho
      rw [hu] at hb
      obtain ⟨hn', hl'⟩ := idleLast_toClose hn hl
      exact .of_busy hl' hn' hb

/-! ## The lock -/

/-- The lock as agent `a`'s entries find it: they use it as R82 says, and the other agents' records and what they own are as
in `s₀`. -/
structure LockKeptBy (a : Agent) (s₀ : State) (c : List Micro × State) : Prop where
  own : lockOk (c.2.lock == some a) c.1 = true
  records : ∀ b, b ≠ a → c.2.ex b = s₀.ex b
  others : ∀ b, b ≠ a → (c.2.lock == some b) = (s₀.lock == some b)

/-- An entry that writes no lock leaves it to be used as before. -/
theorem lockOk_rest {o : Bool} {a : Agent} {pick : Nat} {m : Micro} {ms rest : List Micro} {s t : State}
    (hp : m.plain = true) (hu : unit a pick m s = .to rest t) (h : lockOk o (m :: ms) = true) :
    lockOk o (rest ++ ms) = true := by
  have ht := unit_rest_tidy a pick m s
  rw [hu] at ht
  cases o with
  | false => rwa [lockOk_append ht.1, ← lockOk_false_plain hp]
  | true =>
    rw [lockOk_true_cons (by rintro rfl; cases hp), Bool.and_eq_true] at h
    have hq := unit_rest_quiet (a := a) (pick := pick) h.1 s
    rw [hu] at hq
    rw [lockOk_true_append hq, h.2]

/-- A quiet entry raises nothing. -/
theorem unit_quiet_ne_raised {a : Agent} {pick : Nat} {m : Micro} {s t : State} (hm : m.quiet = true) :
    unit a pick m s ≠ .raised t := by
  cases m with
  | read _ _ _ | merge _ _ _ _ | setWork | given _ => exact fun h => nomatch h
  | _ => cases hm

/-- Neither the lock's entries nor the end of an operation raise anything. -/
theorem plain_of_raised {a : Agent} {pick : Nat} {m : Micro} {s t : State} (hu : unit a pick m s = .raised t) :
    m.plain = true := by
  cases m with
  | acquire => simp only [unit, acquireStep] at hu; split at hu <;> cases hu
  | release | idle => cases hu
  | _ => rfl

/-- An agent that raises an error does not own the lock. -/
theorem lockOk_of_raised {o : Bool} {a : Agent} {pick : Nat} {m : Micro} {ms : List Micro} {s t : State}
    (hp : m.plain = true) (hu : unit a pick m s = .raised t) (h : lockOk o (m :: ms) = true) :
    o = false ∧ lockOk false ms = true := by
  cases o with
  | false => exact ⟨rfl, by rwa [← lockOk_false_plain hp]⟩
  | true =>
    rw [lockOk_true_cons (by rintro rfl; cases hp), Bool.and_eq_true] at h
    exact absurd hu (unit_quiet_ne_raised h.1)

namespace LockKeptBy

variable {a : Agent} {s₀ s t : State} {m : Micro} {ms rest : List Micro}

/-- A micro-step that writes neither the lock nor another agent's record. -/
theorem of_steady (h : LockKeptBy a s₀ (m :: ms, s)) (hst : Steady a s t)
    (hown : lockOk (s.lock == some a) rest = true) : LockKeptBy a s₀ (rest, t) := by
  obtain ⟨hl, hx, -, -⟩ := hst
  refine ⟨?_, fun b hb => (hx b hb).trans (h.records b hb), fun b hb => ?_⟩
  · rw [hl]; exact hown
  · rw [hl]; exact h.others b hb

/-- `Acquire` of a free lock (R17). -/
theorem acquire (h : LockKeptBy a s₀ (.acquire :: ms, s)) (hfree : s.lock = none) :
    LockKeptBy a s₀ (ms, { s with lock := some a }) := by
  obtain ⟨hown, hrec, hoth⟩ := h
  refine ⟨?_, hrec, fun b hb => ?_⟩
  · rw [hfree] at hown
    simpa [lockOk] using hown
  · rw [← hoth b hb, hfree]
    simpa using hb.symm

/-- `Release` by the owner: no other agent comes to one (R29). -/
theorem release (h : LockKeptBy a s₀ (.release :: ms, s)) : LockKeptBy a s₀ (ms, { s with lock := none }) := by
  obtain ⟨hown, hrec, hoth⟩ := h
  have hmine : s.lock = some a := by
    cases ho : s.lock == some a with
    | true => simpa using ho
    | false => rw [ho] at hown; cases hown
  refine ⟨?_, hrec, fun b hb => ?_⟩
  · rw [hmine] at hown
    simpa [lockOk] using hown
  · rw [← hoth b hb, hmine]
    simpa using hb.symm

/-- The end of an operation, which its agent comes to without the lock. -/
theorem idle (h : LockKeptBy a s₀ (.idle :: ms, s)) : LockKeptBy a s₀ (ms, s.finish a) := by
  obtain ⟨hown, hrec, hoth⟩ := h
  have hlock : (s.finish a).lock = s.lock := by simp
  refine ⟨?_, fun b hb => ?_, fun b hb => ?_⟩
  · rw [hlock]
    cases ho : s.lock == some a with
    | true => rw [ho] at hown; cases hown
    | false => rw [ho] at hown; exact hown
  · rw [State.finish_ex, if_neg hb]; exact hrec b hb
  · rw [hlock]; exact hoth b hb

theorem goes {pick : Nat} {c c' : List Micro × State} (h : LockKeptBy a s₀ c) (hg : Goes a pick c c') :
    LockKeptBy a s₀ c' := by
  cases hg with
  | @next m ms rest s t hu =>
    cases hp : m.plain with
    | true =>
      have hst := (steady_effectsKeep a s).unit pick hp (.refl a s)
      rw [hu] at hst
      exact h.of_steady hst.1 (lockOk_rest hp hu h.own)
    | false =>
      cases m with
      | acquire =>
        simp only [unit, acquireStep] at hu
        split at hu
        · rename_i hfree; cases hu; exact h.acquire hfree
        · cases hu
      | release => cases hu; exact h.release
      | idle => cases hu; exact h.idle
      | _ => cases hp
  | @raised m ms s t hu =>
    have hp := plain_of_raised hu
    have hst := (steady_effectsKeep a s).unit pick hp (.refl a s)
    rw [hu] at hst
    obtain ⟨ho, hms⟩ := lockOk_of_raised hp hu h.own
    exact h.of_steady hst (ho ▸ lockOk_toClose hms)

end LockKeptBy

/-! ## From an agent's entries to the state -/

/-- An agent that stands soundly in its listing, and uses the lock as R82 says from a sound state on. -/
def Sound (a : Agent) (s₀ : State) (c : List Micro × State) : Prop := SeqSound a c ∧ LockKeptBy a s₀ c

theorem Sound.goes {a : Agent} {pick : Nat} {s₀ : State} {c c' : List Micro × State} (h : Sound a s₀ c)
    (hg : Goes a pick c c') : Sound a s₀ c' := ⟨h.1.goes hg, h.2.goes hg⟩

theorem Sound.reaches {a : Agent} {s₀ : State} {c c' : List Micro × State} (h : Sound a s₀ c) (hr : Reaches a c c') :
    Sound a s₀ c' := by
  induction hr with
  | refl => exact h
  | tail _ hg ih => exact ih.goes hg

/-- An agent in an operation, at what is recorded as left of it. -/
theorem LockSound.sound {s : State} (hs : LockSound s) {a : Agent} (hn : (s.ex a).todo ≠ []) :
    Sound a s ((s.ex a).todo, s) := by
  obtain ⟨hown, hlast, hdone⟩ := hs a
  exact ⟨.of_busy hlast hn fun ho => hn (hdone ho), hown, fun _ _ => rfl, fun _ _ => rfl⟩

/-- The agent's sequencer stands where its entries do, or it is idle: the state is sound. -/
theorem Sound.lockSound {a : Agent} {s₀ u t : State} {ms : List Micro} (hs : LockSound s₀) (h : Sound a s₀ (ms, u))
    (ht : ms = [] ∧ t = u ∨ t = u.advance a ms) : LockSound t := by
  obtain ⟨⟨hlast, hdone, hclear⟩, hown, hrec, hoth⟩ := h
  have hidle (ho : (u.ex a).op = none) : LockSound u := by
    intro b
    by_cases hb : b = a
    · subst hb
      have hms : ms = [] := hdone.2 ho
      rw [hclear ho]
      exact ⟨hms ▸ hown, rfl, fun _ => rfl⟩
    · rw [hoth b hb, hrec b hb]
      exact hs b
  cases ho : (u.ex a).op with
  | none =>
    obtain ⟨-, rfl⟩ | rfl := ht
    · exact hidle ho
    · rw [State.advance_idle ho]
      exact hidle ho
  | some i =>
    have hms : ms ≠ [] := fun e => by rw [hdone.1 e] at ho; cases ho
    obtain ⟨e, -⟩ | rfl := ht
    · exact absurd e hms
    · rw [State.advance_eq ho]
      intro b
      by_cases hb : b = a
      · subst hb
        rw [State.setEx_lock, State.ex_setEx, if_pos rfl]
        exact ⟨hown, hlast, fun e => by simp [ho] at e⟩
      · rw [State.setEx_lock, State.ex_setEx, if_neg hb, hoth b hb, hrec b hb]
        exact hs b

/-- A listing at its start (R25). -/
theorem LockSound.sound_start {s : State} (hs : LockSound s) {a : Agent} (ho : (s.ex a).op = none) (i : Instr)
    (todo : List Micro) : Sound a s (listing s.cfg i ++ [.idle], s.start a i todo) := by
  obtain ⟨hl, hi⟩ := tidy_listing s.cfg i
  obtain ⟨hfree, -, hdone⟩ := hs a
  have hnot : (s.lock == some a) = false := by
    cases h : s.lock == some a with
    | false => rfl
    | true => rw [h, hdone ho] at hfree; cases hfree
  refine ⟨.of_busy (idleLast_append hi (by simp) rfl) (by simp) (by simp [State.start_ex]), ?_, fun b hb => ?_, fun b hb => ?_⟩
  · rw [State.start_lock, hnot, lockOk_append hl]
    rfl
  · rw [State.start_ex, if_neg hb]
  · rw [State.start_lock]

theorem LockSound.runAgent {a : Agent} {todo : List Micro} {s₀ s t : State} (hs : LockSound s₀)
    (h : Sound a s₀ (todo, s)) (hr : runAgent a todo s = .next t) : LockSound t := by
  obtain ⟨ms, u, hreach, ht⟩ := runAgent_reached hr
  exact (h.reaches hreach).lockSound hs ht

theorem LockSound.exec {s t : State} {i : Instr} (hs : LockSound s) (ho : (s.ex s.presenter).op = none)
    (h : exec i s = .next t) : LockSound t := by
  rw [exec_eq_perform] at h
  unfold perform at h
  split at h
  · cases h
  · exact hs.runAgent (hs.sound_start ho i []) h

theorem LockSound.microStep {s t : State} {a : Agent} {pick : Nat} (hs : LockSound s)
    (h : microStep a pick s = .next t) : LockSound t := by
  unfold Machine.microStep at h
  split at h
  · cases h; exact hs
  · rename_i m ms htodo
    have hsound := hs.sound (a := a) (by simp [htodo])
    rw [htodo] at hsound
    split at h
    · rename_i hu; cases h
      exact (hsound.goes (.next hu)).lockSound hs (.inr rfl)
    · rename_i hu; cases h
      exact (hsound.goes (.raised hu)).lockSound hs (.inr rfl)
    · cases h; exact hs
    · cases h

/-- The lock and the records that tell who uses it are all that `LockSound` speaks of. -/
theorem LockSound.congr {s t : State} (hs : LockSound s) (hl : t.lock = s.lock)
    (hx : ∀ a, (t.ex a).todo = (s.ex a).todo ∧ (t.ex a).op = (s.ex a).op) : LockSound t := by
  intro a
  obtain ⟨htodo, hop⟩ := hx a
  rw [hl, htodo, hop]
  exact hs a

theorem LockSound.raise {s : State} (hs : LockSound s) (a : Agent) (k : Kind) (v : Word) : LockSound (s.raise a k v) := by
  refine hs.congr (by simp) fun b => ?_
  rw [State.raise_ex]
  split
  · rename_i h; subst h; exact ⟨rfl, rfl⟩
  · exact ⟨rfl, rfl⟩

theorem LockSound.start {s : State} (hs : LockSound s) {a : Agent} (ho : (s.ex a).op = none) (i : Instr) :
    LockSound (s.start a i (listing s.cfg i ++ [.idle])) := by
  have h := (hs.sound_start ho i (listing s.cfg i ++ [.idle])).lockSound hs (.inr rfl)
  refine h.congr ?_ fun b => ?_
  · rw [State.advance_eq (i := i) (by simp [State.start_ex])]
    simp
  · rw [State.advance_eq (i := i) (by simp [State.start_ex]), State.ex_setEx]
    split
    · rename_i h; subst h; simp [State.start_ex]
    · exact ⟨rfl, rfl⟩

/-- The soundness of the lock as a property that steps keep. -/
theorem LockSound.stepKeeps : StepKeeps LockSound where
  port _ _ hs := hs
  presenter _ _ hs := hs
  lastTaken _ _ hs := hs
  detach _ hs := hs
  raise _ a k v hs := hs.raise a k v
  move s m hs := hs.congr (by simp) fun a => by rw [(DeviceOnly.move s m).ex a]; exact ⟨rfl, rfl⟩
  start _ _ i hs ho := hs.start ho i
  exec _ _ _ hs ho h := hs.exec ho h
  resume _ _ _ hs hn h := hs.runAgent (hs.sound hn) h
  micro _ _ _ _ hs h := hs.microStep h

/-- Settles O57: micro-step by micro-step the owner keeps its release to do, and a run of a listing is made of micro-steps. -/
theorem lockKept : Obligations.LockKept := fun _ _ hs h => LockSound.stepKeeps.step hs h

end Sys2Proof.Machine
end

section
/-! PROOFS. An operation as a whole does what its micro-steps do one by one (R25, R78, R250): a micro-step does not look at
what is left of the listing nor at the sequencer's number, so the two runs differ in these alone. -/

namespace Sys2Proof.Machine

/-! ## The bus and the environment do not look at an agent's record -/

section
variable (s : State) (a : Agent) (e : Exec)

theorem State.draw_setEx : (s.setEx a e).draw = (s.draw.1, s.draw.2.setEx a e) := by cases a <;> rfl

theorem State.record_setEx (b : BusRec) : (s.setEx a e).record b = (s.record b).setEx a e := by cases a <;> rfl

theorem State.busRead_setEx (r : Region) (base x : Nat) :
    (s.setEx a e).busRead r base x = ((s.busRead r base x).1, (s.busRead r base x).2.setEx a e) := by
  unfold State.busRead
  rw [State.setEx_inaccessible, State.setEx_isIsr, State.setEx_word, State.draw_setEx, State.setEx_isrWord,
    State.overlay_congr (s := s) (by simp) (by simp)]
  split
  · rfl
  · split <;> rfl

theorem State.read32_setEx (b : Agent) (r : Region) (off : Nat) :
    (s.setEx a e).read32 b r off = ((s.read32 b r off).1, (s.read32 b r off).2.setEx a e) := by
  simp only [State.read32, State.busRead_setEx, State.record_setEx]

theorem State.read8_setEx (b : Agent) (r : Region) (x : Nat) :
    (s.setEx a e).read8 b r x = ((s.read8 b r x).1, (s.read8 b r x).2.setEx a e) := by
  simp only [State.read8, State.busRead_setEx, State.record_setEx]

theorem State.seen_setEx (r : Region) (off : Nat) : (s.setEx a e).seen r off = s.seen r off := by
  unfold State.seen
  rw [State.setEx_inaccessible, State.setEx_isIsr, State.setEx_word, State.draw_setEx, State.setEx_isrWord,
    State.overlay_congr (s := s) (by simp) (by simp)]

theorem State.setReg_setEx (g : DevReg) (v : Word) : (s.setEx a e).setReg g v = (s.setReg g v).setEx a e := by
  cases g <;> cases a <;> rfl

theorem State.store_setEx (r : Region) (off : Nat) (v : Word) :
    (s.setEx a e).store r off v = (s.store r off v).setEx a e := by
  unfold State.store State.setStored
  rw [State.setEx_isIsr, State.setEx_isPm, State.setEx_cfg, State.setEx_mem]
  split
  · rfl
  · split
    · exact s.setReg_setEx a e _ _
    · cases r <;> cases a <;> rfl

theorem State.write32_setEx (b : Agent) (r : Region) (off : Nat) (v : Word) :
    (s.setEx a e).write32 b r off v = (s.write32 b r off v).setEx a e := by
  simp only [State.write32, State.busWrite_cases, State.setEx_inaccessible, State.draw_setEx, State.store_setEx]
  split
  · split <;> rw [State.record_setEx]
  · rw [State.record_setEx]

theorem State.act_setEx (x : FwAct) : (s.setEx a e).act x = (s.act x).setEx a e := by
  cases x with
  | poke off b => simp only [State.act, State.pokeByte, State.setEx_stored, State.store_setEx]
  | cmdo w => exact s.setReg_setEx a e .cmdo w
  | cmdi w => exact s.setReg_setEx a e .cmdi w
  | ack =>
    simp only [State.act, State.setEx_regs, State.setEx_cfg]
    exact s.setReg_setEx a e .cmdi _
  | imrd v => exact s.setReg_setEx a e .imrd v

theorem State.fwNext_setEx : (s.setEx a e).fwNext = s.fwNext.setEx a e := by
  have hrun : (s.setEx a e).coreRunning = s.coreRunning := by cases a <;> rfl
  unfold State.fwNext
  rw [State.setEx_fw, hrun]
  split
  · rfl
  · rename_i x xs _
    have hfw : ({ s.setEx a e with fw := xs } : State) = ({ s with fw := xs } : State).setEx a e := by cases a <;> rfl
    rw [hfw, State.act_setEx]
    split <;> rfl

theorem State.fwRun_setEx (n : Nat) : State.fwRun n (s.setEx a e) = (State.fwRun n s).setEx a e := by
  induction n generalizing s with
  | zero => rfl
  | succ n ih => rw [State.fwRun, State.fwNext_setEx, ih]; rfl

theorem EnvMove.enabled_setEx (m : EnvMove) : m.enabled (s.setEx a e) = m.enabled s := by
  have hmay : (s.setEx a e).fwMayMove = s.fwMayMove := by cases a <;> rfl
  have hbusy : (s.setEx a e).cmdiBusy = s.cmdiBusy ∧ (s.setEx a e).cmdoBusy = s.cmdoBusy ∧
      (s.setEx a e).cmdiDone = s.cmdiDone := by cases a <;> exact ⟨rfl, rfl, rfl⟩
  obtain ⟨hib, hob, hid⟩ := hbusy
  induction m with
  | start m ih => simp only [EnvMove.enabled, ih]
  | _ => simp only [EnvMove.enabled, bytesFit, hmay, hib, hob, hid, State.setEx_cfg, State.setEx_ctx,
      State.setEx_d0Requested, State.setEx_readySent, State.setEx_replyBox]

/-- A move of the firmware, taken whole (R253). -/
theorem EnvMove.effect_ofFirmware {m : EnvMove} (h : m.ofFirmware = true) :
    m.effect s = State.fwRun (m.acts s).length (s.fwBegin m) := by
  cases m <;> first | rfl | cases h

theorem EnvMove.acts_setEx (m : EnvMove) : m.acts (s.setEx a e) = m.acts s := by
  cases m <;> simp only [EnvMove.acts, State.setEx_cfg, State.setEx_ctx, State.setEx_replyBox]

theorem State.fwBegin_setEx (m : EnvMove) : (s.setEx a e).fwBegin m = (s.fwBegin m).setEx a e := by
  simp only [State.fwBegin, EnvMove.acts_setEx]
  cases a <;> rfl

theorem EnvMove.effect_setEx (m : EnvMove) : m.effect (s.setEx a e) = (m.effect s).setEx a e := by
  cases hm : m.ofFirmware with
  | true =>
    rw [EnvMove.effect_ofFirmware _ hm, EnvMove.effect_ofFirmware _ hm, EnvMove.acts_setEx, State.fwBegin_setEx,
      State.fwRun_setEx]
  | false =>
    cases m with
    | pwrReady | pwrBusy _ | gate _ => cases a <;> rfl
    | fwFree r off v => exact s.store_setEx a e r off v
    | start m => exact s.fwBegin_setEx a e m
    | next => exact s.fwNext_setEx a e
    | _ => cases hm

theorem State.move_setEx (m : EnvMove) : (s.setEx a e).move m = (s.move m).setEx a e := by
  unfold State.move
  rw [EnvMove.enabled_setEx, EnvMove.effect_setEx]
  split <;> rfl

theorem State.moves_setEx (ms : List EnvMove) : (s.setEx a e).moves ms = (s.moves ms).setEx a e := by
  unfold State.moves
  induction ms generalizing s with
  | nil => rfl
  | cons m ms ih => rw [List.foldl_cons, State.move_setEx, ih]; rfl

theorem State.delay_setEx (b : Agent) (n : Nat) : (s.setEx a e).delay b n = (s.delay b n).setEx a e := by
  have hd : ({ s.setEx a e with elapsed := (s.setEx a e).elapsed + n } : State).record (.delay b n) =
      (({ s with elapsed := s.elapsed + n } : State).record (.delay b n)).setEx a e := by cases a <;> rfl
  unfold State.delay State.delayMoves
  rw [hd, State.setEx_atDelay]
  split
  · rfl
  · rename_i ms rest _
    rw [← State.moves_setEx]
    cases a <;> rfl

end

/-! ## The sequencer's place -/

/-- The state with another place of agent `a`'s sequencer: what is left of the listing and the number (R25). -/
def State.reseq (s : State) (a : Agent) (todo : List Micro) (n : Nat) : State :=
  s.setEx a { s.ex a with todo := todo, step := n }

/-- What a micro-step comes to, with another place of the sequencer. -/
def Next.reseq (a : Agent) (todo : List Micro) (n : Nat) : Next → Next
  | .to rest s => .to rest (s.reseq a todo n)
  | .raised s => .raised (s.reseq a todo n)
  | .wait => .wait
  | .refuse r => .refuse r

section
variable (s : State) (a : Agent) (todo : List Micro) (n : Nat)

@[simp] theorem State.reseq_cfg : (s.reseq a todo n).cfg = s.cfg := by simp [State.reseq]
@[simp] theorem State.reseq_ctx : (s.reseq a todo n).ctx = s.ctx := by simp [State.reseq]
@[simp] theorem State.reseq_hm : (s.reseq a todo n).hm = s.hm := by simp [State.reseq]
@[simp] theorem State.reseq_lock : (s.reseq a todo n).lock = s.lock := by simp [State.reseq]
@[simp] theorem State.reseq_loc : (s.reseq a todo n).loc a = s.loc a := by simp [State.reseq, State.loc]
@[simp] theorem State.reseq_ex : (s.reseq a todo n).ex a = { s.ex a with todo := todo, step := n } := by
  simp [State.reseq]

theorem State.reseq_setLoc (l : Locals) : (s.reseq a todo n).setLoc a l = (s.setLoc a l).reseq a todo n := by
  cases a <;> rfl

theorem State.reseq_write32 (r : Region) (off : Nat) (v : Word) :
    (s.reseq a todo n).write32 a r off v = (s.write32 a r off v).reseq a todo n := by
  simp [State.reseq, State.write32_setEx]

theorem State.reseq_read32 (r : Region) (off : Nat) :
    (s.reseq a todo n).read32 a r off = ((s.read32 a r off).1, (s.read32 a r off).2.reseq a todo n) := by
  simp [State.reseq, State.read32_setEx]

theorem State.reseq_read8 (r : Region) (x : Nat) :
    (s.reseq a todo n).read8 a r x = ((s.read8 a r x).1, (s.read8 a r x).2.reseq a todo n) := by
  simp [State.reseq, State.read8_setEx]

theorem State.reseq_draw : (s.reseq a todo n).draw = (s.draw.1, s.draw.2.reseq a todo n) := by
  simp [State.reseq, State.draw_setEx]

theorem State.reseq_delay (ms : Nat) : (s.reseq a todo n).delay a ms = (s.delay a ms).reseq a todo n := by
  simp [State.reseq, State.delay_setEx]

theorem State.reseq_emit (e : Event) : (s.reseq a todo n).emit e = (s.emit e).reseq a todo n := by cases a <;> rfl

theorem State.reseq_ctxStep (m : CtxMove) : ctxStep (s.reseq a todo n) m = (ctxStep s m).reseq a todo n := by
  cases a <;> rfl

theorem State.reseq_pwrStep (m : PwrMove) : pwrStep (s.reseq a todo n) m = (pwrStep s m).reseq a todo n := by
  have hp : (s.reseq a todo n).pwr = s.pwr := by simp [State.reseq]
  cases m with
  | requested | ready | timedOut => cases a <;> rfl
  | afterReset | afterRun => simp only [pwrStep, hp]; split <;> cases a <;> rfl

theorem State.reseq_raise (k : Kind) (v : Word) : (s.reseq a todo n).raise a k v = (s.raise a k v).reseq a todo n := by
  cases a <;> rfl

theorem State.reseq_nest (i : Instr) : (s.reseq a todo n).nest a i = (s.nest a i).reseq a todo n := by cases a <;> rfl

theorem State.reseq_readStep (r : Region) (off : Nat) (sl : Slot) :
    readStep a r off sl (s.reseq a todo n) = (readStep a r off sl s).reseq a todo n := by
  have hk : kept (s.reseq a todo n) a r off sl = kept s a r off sl := by
    cases sl with
    | isr => exact s.seen_setEx a _ r off
    | _ => simp only [kept, State.reseq_read32]
  simp only [readStep, hk, State.reseq_read32, State.reseq_loc, State.reseq_setLoc]

theorem State.reseq_byteUnit (r : Region) (off : Nat) (dst : Dest) (k : Nat) :
    byteUnit a r off dst k (s.reseq a todo n) = (byteUnit a r off dst k s).reseq a todo n := by
  cases dst with
  | host base =>
    simp only [byteUnit, State.reseq_read8, State.reseq_hm]
    cases a <;> rfl
  | buf base => simp only [byteUnit, State.reseq_read8, State.reseq_loc, State.reseq_setLoc]

theorem State.reseq_tailStep (r : Region) (off h k : Nat) :
    tailStep a r off h k (s.reseq a todo n) = (tailStep a r off h k s).reseq a todo n := by
  unfold tailStep
  rw [State.reseq_draw, State.reseq_hm, State.reseq_write32]
  split <;> rfl

theorem Next.reseq_to (rest : List Micro) : (Next.to rest s).reseq a todo n = .to rest (s.reseq a todo n) := rfl

theorem Next.reseq_orRefuse (b : Option Breach) (w : Next) :
    (orRefuse b w).reseq a todo n = orRefuse b (w.reseq a todo n) := by
  cases b <;> rfl

theorem Next.reseq_unitStep {pick : Nat} {pend : List Span} {f : Nat → State → State} {left : List Span → Micro}
    (hf : ∀ k, f k (s.reseq a todo n) = (f k s).reseq a todo n) :
    unitStep pick pend f left (s.reseq a todo n) = (unitStep pick pend f left s).reseq a todo n := by
  unfold unitStep
  split <;> simp only [hf, Next.reseq]

theorem State.reseq_pollStep (tries : Nat) :
    pollStep a tries (s.reseq a todo n) = (pollStep a tries s).reseq a todo n := by
  cases tries with
  | zero => rfl
  | succ k =>
    simp only [pollStep, pollRead, State.reseq_read32, State.reseq_cfg]
    by_cases hz : (s.read32 a s.cfg.pmSts.rgn s.cfg.pmSts.off).1 &&& s.cfg.pmSts.mask = 0
    · simp only [hz, if_true]
      cases a <;> rfl
    · simp only [hz, if_false]
      rfl

theorem State.reseq_callStep (c : Consumer) : callStep c (s.reseq a todo n) = (callStep c s).reseq a todo n := by
  have hr : (s.reseq a todo n).replyCalls = s.replyCalls := by simp [State.reseq]
  have hm : (s.reseq a todo n).msgCalls = s.msgCalls := by simp [State.reseq]
  unfold callStep
  rw [hr, hm]
  split
  · split
    · cases a <;> rfl
    · rfl
  · cases a <;> rfl
  · rfl
  · rfl

theorem State.reseq_presentStep (c : Consumer) (d : Desc) :
    presentStep a c d (s.reseq a todo n) = (presentStep a c d s).reseq a todo n := by
  unfold presentStep
  split
  · rw [State.reseq_raise]; rfl
  · split
    · rw [Next.reseq_orRefuse, State.reseq_nest, State.reseq_cfg, State.reseq_loc]
      rfl
    · rfl

/-- A micro-step other than the end of the operation neither looks at the sequencer's place nor writes it. -/
theorem unit_reseq (pick : Nat) {m : Micro} (hm : m ≠ .idle) :
    unit a pick m (s.reseq a todo n) = (unit a pick m s).reseq a todo n := by
  cases m with
  | idle => exact absurd rfl hm
  | read r off sl => simp only [unit, Next.reseq_to, State.reseq_readStep]
  | write r off v => simp only [unit, Next.reseq_to, State.reseq_write32]
  | merge r off k v => simp only [unit, Next.reseq_to, mergeStep, State.reseq_loc, State.reseq_write32]
  | read64 r off =>
    simp only [unit, read64Step, State.reseq_readStep]
    split <;> rfl
  | write64 r off lo hi =>
    simp only [unit, write64Step, State.reseq_write32]
    split <;> rfl
  | copyIn r off h pend =>
    exact Next.reseq_unitStep s a todo n fun k => by simp only [groupUnit, State.reseq_hm, State.reseq_write32]
  | copyOut r off dst pend => exact Next.reseq_unitStep s a todo n fun k => s.reseq_byteUnit a todo n r off dst k
  | tail r off h k => simp only [unit, Next.reseq_to, State.reseq_tailStep]
  | delay _ | pollWait _ => simp only [unit, Next.reseq_to, State.reseq_delay]
  | poll k => exact s.reseq_pollStep a todo n k
  | pwr p => simp only [unit, Next.reseq_to, State.reseq_pwrStep]
  | acquire =>
    simp only [unit, acquireStep, State.reseq_lock]
    split
    · cases a <;> rfl
    · rfl
  | raise k v => simp only [unit, Next.reseq, State.reseq_raise]
  | boxWrite _ _ _ | boxRead _ _ _ | hdrRead =>
    simp only [unit, boxWriteStep, boxReadStep, hdrReadStep, fetchStep, Next.reseq_orRefuse, State.reseq_cfg,
      State.reseq_ctx, Next.reseq_to]
  | fwrRead | readBack _ | winRead _ | capSnap | capStack =>
    simp only [unit, readBackStep, fetchStep, Next.reseq_orRefuse, State.reseq_cfg, State.reseq_loc, Next.reseq_to]
  | header =>
    simp only [unit, headerStep, Next.reseq_orRefuse, State.reseq_cfg, State.reseq_ctx, State.reseq_loc,
      State.reseq_setLoc, Next.reseq_to]
  | ok | result0 | result01 | replyResult | ret _ _ | emit _ | release | clearPending | handled | setWork =>
    cases a <;> rfl
  | judge x => simp only [unit, judgeStep, State.reseq_cfg, State.reseq_loc, State.reseq_setLoc, Next.reseq_to]
  | capBegin x =>
    simp only [unit, capBeginStep, State.reseq_cfg, State.reseq_ctx, State.reseq_loc, State.reseq_setLoc, Next.reseq_to]
  | fwrExtdata =>
    simp only [unit, fwrExtdataStep, State.reseq_cfg, State.reseq_loc, State.reseq_emit, State.reseq_setLoc, Next.reseq_to]
  | fwrBegin =>
    simp only [unit, fwrBeginStep, State.reseq_cfg, State.reseq_ctx, State.reseq_loc, State.reseq_ctxStep,
      State.reseq_setLoc]
    split <;> rfl
  | wakeOrNone =>
    simp only [unit, wakeStep, State.reseq_loc, Next.reseq_to]
    split <;> cases a <;> rfl
  | call c => exact s.reseq_callStep a todo n c
  | present c d => exact s.reseq_presentStep a todo n c d
  | windows k j => cases j <;> rfl
  | zeroBox =>
    simp only [unit, zeroBoxStep, State.reseq_ctx]
    split <;> rfl
  | emitReply | emitMsg | fwrVersion | capEmit =>
    simp only [unit, emitReplyStep, capEmitStep, State.reseq_cfg, State.reseq_loc, State.reseq_emit, Next.reseq_to]
  | ctx _ | fwrOutbox | fwrInbox =>
    simp only [unit, State.reseq_cfg, State.reseq_loc, State.reseq_ctxStep, Next.reseq_to]
  | winDispatch | given _ => simp only [unit, State.reseq_cfg, State.reseq_loc, Next.reseq_to]
  | armEnd _ => rfl

end
/-! ## Micro-steps of the machine -/

/-- The machine's state in a run of agent `a` that stands at `c`: the run's state with the sequencer at what is left, and
after the end of the operation the run's state itself. -/
def StandsAt (a : Agent) (u : State) (c : List Micro × State) : Prop :=
  (∃ n, u = c.2.reseq a c.1 n) ∧ ((c.2.ex a).op = none → u = c.2)

theorem State.advance_reseq {s : State} {a : Agent} (ho : (s.ex a).op ≠ none) (todo ms : List Micro) (n : Nat) :
    ∃ k, (s.reseq a todo n).advance a ms = s.reseq a ms k := by
  obtain ⟨i, hi⟩ := Option.ne_none_iff_exists'.1 ho
  refine ⟨place s.cfg (s.loc a) i ms, ?_⟩
  rw [State.advance_eq (i := i) (by simpa using hi)]
  simp [State.reseq, State.loc]

theorem State.finish_reseq (s : State) (a : Agent) (todo : List Micro) (n : Nat) :
    (s.reseq a todo n).finish a = s.finish a := by cases a <;> rfl

theorem StandsAt.of_busy {s : State} {a : Agent} (ho : (s.ex a).op ≠ none) (todo ms : List Micro) (n : Nat) :
    StandsAt a ((s.reseq a todo n).advance a ms) (ms, s) :=
  ⟨State.advance_reseq ho todo ms n, fun h => absurd h ho⟩

/-- A micro-step of a run is a micro-step of the machine. -/
theorem StandsAt.goes {a : Agent} {u : State} {c c' : List Micro × State} (h : StandsAt a u c) (hs : SeqSound a c)
    (hg : Goes a 0 c c') : ∃ u', microStep a 0 u = .next u' ∧ StandsAt a u' c' := by
  obtain ⟨⟨n, rfl⟩, -⟩ := h
  cases hg with
  | @next m ms rest s t hu =>
    obtain ⟨rfl, rfl⟩ | ⟨hm, -, -⟩ := idleLast_cons_cases hs.idleLast
    · cases hu
      refine ⟨s.finish a, ?_, ⟨0, by cases a <;> rfl⟩, fun _ => rfl⟩
      simp only [microStep, State.reseq_ex, unit, State.finish_reseq]
      rw [State.advance_idle (by simp [State.finish_ex])]
    · have hb := unit_busy (pick := 0) hm fun e => nomatch hs.done.2 e
      rw [hu] at hb
      refine ⟨_, ?_, .of_busy hb.1 (m :: ms) (rest ++ ms) n⟩
      simp only [microStep, State.reseq_ex, unit_reseq s a _ n 0 hm, hu, Next.reseq_to]
  | @raised m ms s t hu =>
    have hm : m ≠ .idle := by rintro rfl; cases hu
    have hb := unit_busy (pick := 0) hm fun e => nomatch hs.done.2 e
    rw [hu] at hb
    refine ⟨_, ?_, .of_busy hb (m :: ms) (toClose ms) n⟩
    simp only [microStep, State.reseq_ex, unit_reseq s a _ n 0 hm, hu, Next.reseq]
    rfl

/-- Micro-steps of a run are micro-steps of the machine. -/
theorem StandsAt.reaches {a : Agent} {c c' : List Micro × State} (hr : Reaches a c c') {u : State} (h : StandsAt a u c)
    (hs : SeqSound a c) : ∃ n u', microN a n u = .next u' ∧ StandsAt a u' c' := by
  induction hr using Relation.ReflTransGen.head_induction_on generalizing u with
  | refl => exact ⟨0, u, rfl, h⟩
  | head hg _ ih =>
    obtain ⟨v, hv, hstand⟩ := h.goes hs hg
    obtain ⟨n, u', hn, hu'⟩ := ih hstand (hs.goes hg)
    exact ⟨n + 1, u', by rw [microN, hv]; exact hn, hu'⟩

/-! ## The presentation -/

theorem descWord_descOf_1 (w0 w1 w2 w3 : Word) : descWord (descOf w0 w1 w2 w3) 1 = w1 := by
  unfold descWord descOf
  ext i hi
  simp only [BitVec.getElem_extractLsb', BitVec.getLsbD_append]
  simp [hi]

theorem descWord_descOf_2 (w0 w1 w2 w3 : Word) : descWord (descOf w0 w1 w2 w3) 2 = w2 := by
  unfold descWord descOf
  ext i hi
  simp only [BitVec.getElem_extractLsb', BitVec.getLsbD_append]
  rw [if_neg (by omega), if_neg (by omega), if_pos (by omega), show 32 * 2 + i - 32 - 32 = i by omega,
    BitVec.getLsbD_eq_getElem]

theorem descWord_descOf_3 (w0 w1 w2 w3 : Word) : descWord (descOf w0 w1 w2 w3) 3 = w3 := by
  unfold descWord descOf
  ext i hi
  simp only [BitVec.getElem_extractLsb', BitVec.getLsbD_append]
  rw [if_neg (by omega), if_neg (by omega), if_neg (by omega), show 32 * 3 + i - 32 - 32 - 32 = i by omega,
    BitVec.getLsbD_eq_getElem]

/-- The decoder reads every operation back from its descriptor (R91 to R94). -/
theorem decodeDesc_encode (i : Instr) : decodeDesc (encode i) = .ok i := by
  cases i with
  | read32 r _ | write32 r _ _ | read64 r _ | write64 r _ _ _ | blkrd r _ _ _ | blkwr r _ _ _ =>
    simp only [decodeDesc, encode, Laws.descWord_descOf_0, descWord_descOf_1, descWord_descOf_2, descWord_descOf_3]
    cases r <;> simp [decodeOpcode, Instr.opcode, regionBit, regionOf]
  | _ =>
    simp only [decodeDesc, encode, Laws.descWord_descOf_0, descWord_descOf_1, descWord_descOf_2, descWord_descOf_3]
    simp [decodeOpcode, Instr.opcode, plainOp]

/-- A port that takes an operation is open. -/
theorem portClosed_of_portRefusal {s : State} {a : Agent} {i : Instr} (h : portRefusal s a i = none) :
    portClosed s a = none := by
  unfold portRefusal at h
  unfold portClosed
  split at h
  · cases h
  split at h
  · cases h
  split at h
  · cases h
  · simp_all

/-- An operation that the port takes is presented as its listing, none of it done (R25). -/
theorem presentOnly_encode {s : State} {a : Agent} {i : Instr} (h : portRefusal s a i = none) :
    presentOnly a (encode i) s = .next (s.start a i (listing s.cfg i ++ [.idle])) := by
  simp only [presentOnly, portClosed_of_portRefusal h, decodeDesc_encode, h]

/-- What an operation comes to: its port takes it, and its listing's micro-steps lead there. -/
theorem exec_reached {i : Instr} {s t : State} (h : exec i s = .next t) :
    portRefusal s s.presenter i = none ∧ ∃ ms u,
      Reaches s.presenter (listing s.cfg i ++ [.idle], s.start s.presenter i []) (ms, u) ∧
        (ms = [] ∧ t = u ∨ t = u.advance s.presenter ms) := by
  rw [exec_eq_perform, perform] at h
  split at h
  · cases h
  · rename_i hp
    exact ⟨hp, runAgent_reached h⟩

/-- Where a run has ended its operation, the sequencer has nowhere to move on to. -/
theorem eq_of_ended {a : Agent} {u t : State} {ms : List Micro} (ht : ms = [] ∧ t = u ∨ t = u.advance a ms)
    (ho : (t.ex a).op = none) : t = u := by
  obtain ⟨-, rfl⟩ | rfl := ht
  · rfl
  · cases hu : (u.ex a).op with
    | none => exact State.advance_idle hu ms
    | some i => rw [State.advance_eq hu] at ho; simp [hu] at ho

/-- Settles O60: the operation's run is made of micro-steps, which the machine takes one by one from the presentation on. -/
theorem microStepsAgree : Obligations.MicroStepsAgree := by
  intro i s t h ho
  obtain ⟨hp, ms, u, hr, ht⟩ := exec_reached h
  obtain rfl := eq_of_ended ht ho
  obtain ⟨-, hi⟩ := tidy_listing s.cfg i
  have hbusy : ((s.start s.presenter i []).ex s.presenter).op ≠ none := by simp [State.start_ex]
  have hseq : SeqSound s.presenter (listing s.cfg i ++ [.idle], s.start s.presenter i []) :=
    .of_busy (idleLast_append hi (by simp) rfl) (by simp) hbusy
  have hstart : StandsAt s.presenter (s.start s.presenter i (listing s.cfg i ++ [.idle]))
      (listing s.cfg i ++ [.idle], s.start s.presenter i []) :=
    ⟨⟨1, by cases s.presenter <;> rfl⟩, fun h => absurd h hbusy⟩
  obtain ⟨n, u', hn, -, hu'⟩ := hstart.reaches hr hseq
  exact ⟨_, n, presentOnly_encode hp, by rw [hn, hu' ho]⟩

end Sys2Proof.Machine
end

section
/-! PROOFS. A word access from its presentation to its end (R111, R112), `ISR` (R32), the power status field (R44), a step that
runs a descriptor (R96, R98), and the state after attach (R51). -/

namespace Sys2Proof.Machine

/-! ## One word read, one word written -/

/-- A word access that is aligned and inside its region breaks no part of the caller's contract (R64, R66). -/
theorem contractBreach_word {c : Cfg} {r : Region} {off : Nat} (h : wordFits (c.regionSize r) off = true) {w : Word}
    (hw : w.toNat = off) (v : Word) :
    contractBreach c (.read32 r w) = none ∧ contractBreach c (.write32 r w v) = none := by
  subst hw
  obtain ⟨ha, hr⟩ : w.toNat % 4 = 0 ∧ w.toNat + 4 ≤ c.regionSize r := by simpa [wordFits] using h
  simp [contractBreach, Instr.breach, aligned, rangeBreach, regionFits, ha, hr]

/-- `READ32` (R111): one read, `RESULT0`, `OK`. -/
theorem exec_read32 {s : State} {r : Region} {off : Word} (hp : Presentable s (.read32 r off))
    (hc : contractBreach s.cfg (.read32 r off) = none) :
    exec (.read32 r off) s = .next (((result0Step s.presenter (readStep s.presenter r off.toNat .lo
      (s.start s.presenter (.read32 r off) []))).result s.presenter .ok 0).finish s.presenter) :=
  perform_go (portRefusal_eq_none hp hc) (by simp [read32Listing, runList_cons])

/-- The value that `READ32` returns is the one that the bus returns. -/
theorem read32_result0 {s t : State} {r : Region} {off : Word} (hp : Presentable s (.read32 r off))
    (hc : contractBreach s.cfg (.read32 r off) = none) (h : exec (.read32 r off) s = .next t) :
    (t.ex s.presenter).result0 = (s.busRead r off.toNat off.toNat).1 := by
  rw [exec_read32 hp hc] at h
  cases h
  simp [State.finish_ex, State.result_ex, result0Step, readStep, Locals.setSlot, kept, State.read32, State.start,
    State.busRead_setEx]

/-- `WRITE32` (R112): one write, `OK`. -/
theorem exec_write32 {s : State} {r : Region} {off v : Word} (hp : Presentable s (.write32 r off v))
    (hc : contractBreach s.cfg (.write32 r off v) = none) :
    exec (.write32 r off v) s = .next ((((s.start s.presenter (.write32 r off v) []).write32 s.presenter r off.toNat
      v).result s.presenter .ok 0).finish s.presenter) :=
  perform_go (portRefusal_eq_none hp hc) (by simp [write32Listing, runList_cons])

/-! ## `ISR` (R32) -/

/-- The bits of `ISR` other than the two mirrors are the drawn ones. -/
theorem State.isrWord_other (s : State) (d : Word) :
    s.isrWord d &&& ~~~(s.cfg.isrDone ||| s.cfg.isrBusy) = d &&& ~~~(s.cfg.isrDone ||| s.cfg.isrBusy) := by
  ext k hk
  simp only [State.isrWord, ← BitVec.getLsbD_eq_getElem, BitVec.getLsbD_and, BitVec.getLsbD_or, BitVec.getLsbD_not, hk]
  cases hd : s.cfg.isrDone.getLsbD k <;> cases hb : s.cfg.isrBusy.getLsbD k <;> cases s.cmdoDone <;> cases s.cmdiBusy <;>
    simp [hd, hb]

/-- An accessible `ISR` under no power status field reads as its mirrors over the next free value (R17, R32). -/
theorem State.busRead_isr {s : State} {off : Nat} (he : off = s.cfg.isrOff) (ha : s.inaccessible .dsp off = false)
    (hpm : s.isPm .dsp off = false) : (s.busRead .dsp off off).1 = s.isrWord (Config.draw s.draws) := by
  have hi : s.isIsr .dsp off = true := by simp [State.isIsr, he]
  simp [State.busRead, ha, hi, State.overlay, hpm, State.draw]

/-- A write to `ISR` leaves the trace and the agent's record, and nothing else (R32). -/
theorem sameAll_write32_isr {s t : State} {off v : Word} (hp : Presentable s (.write32 .dsp off v))
    (hc : contractBreach s.cfg (.write32 .dsp off v) = none) (he : off.toNat = s.cfg.isrOff)
    (ha : s.inaccessible .dsp off.toNat = false) (h : exec (.write32 .dsp off v) s = .next t) :
    SameAll s.presenter s t := by
  rw [exec_write32 hp hc] at h
  cases h
  have hst : (s.start s.presenter (.write32 .dsp off v) []).store .dsp off.toNat v =
      s.start s.presenter (.write32 .dsp off v) [] := State.store_isr _ _ _ _ (by simp [State.isIsr, he])
  rw [State.write32, State.busWrite_eq _ _ (by simpa using ha), hst]
  refine ⟨⟨?_, ?_, ?_, ?_, ?_, ?_⟩, ⟨?_, ?_⟩, fun r x => ?_, fun x => ?_, fun b hb => by simp [State.finish_ex, State.result_ex, State.start_ex, hb],
    ⟨?_, ?_, ?_, ?_, ?_, ?_, ?_, ?_, ?_⟩, ?_, ?_⟩
  all_goals simp

/-- Settles O16, by what the bus returns at `ISR` and what a write there stores. -/
theorem isrMirror : Obligations.IsrMirror := by
  intro s off v hw he ha hpm
  have hfits : wordFits (s.cfg.regionSize .dsp) off.toNat = true := s.cfg.wf_offsets_fit hw _ (he ▸ isrOff_mem s.cfg)
  obtain ⟨hcr, hcw⟩ := contractBreach_word hfits rfl v
  refine ⟨fun hp => ⟨_, exec_read32 hp hcr, ?_⟩, fun hp => ⟨_, exec_write32 hp hcw, ?_⟩⟩
  · rw [read32_result0 hp hcr (exec_read32 hp hcr), State.busRead_isr he ha hpm]
    obtain ⟨hdone, hbusy⟩ := flagOf_isrWord s hw (Config.draw s.draws)
    exact ⟨hdone, hbusy, s.isrWord_other _⟩
  · exact sameAll_write32_isr hp hcw he ha (exec_write32 hp hcw)

/-! ## The power status field (R44) -/

/-- At the power status field a word reads as the power hardware's value under the mask, and as `w` elsewhere. -/
theorem State.overlay_pm {s : State} {r : Region} {off : Nat} (h : s.isPm r off = true) (w : Word) :
    s.overlay r off w &&& s.cfg.pmSts.mask = s.pmhw &&& s.cfg.pmSts.mask ∧
      s.overlay r off w &&& ~~~s.cfg.pmSts.mask = w &&& ~~~s.cfg.pmSts.mask := by
  rw [State.overlay, if_pos h]
  exact ⟨merged_inside _ _ _, merged_outside _ _ _⟩

/-- A word at no register's offset is not `ISR`. -/
theorem State.isIsr_of_plain {s : State} {r : Region} {off : Nat} (h : r = .dsp → off ∉ s.cfg.offsets) :
    s.isIsr r off = false := by
  cases r with
  | comp => rfl
  | dsp =>
    have hne : off ≠ s.cfg.isrOff := fun e => h rfl (e ▸ isrOff_mem s.cfg)
    simpa [State.isIsr] using hne

/-- Settles O17: what is stored at the field is plain memory, and a read lays the power hardware's value over it. -/
theorem powerStatusField : Obligations.PowerStatusField := by
  intro s r off v hw ho hr ha hplain
  have hpm : s.isPm r off.toNat = true := by simp [State.isPm, ho, hr]
  have hisr := State.isIsr_of_plain hplain
  have hfits : wordFits (s.cfg.regionSize r) off.toNat = true := by rw [ho, hr]; exact s.cfg.wf_pm_fits hw
  obtain ⟨hcr, hcw⟩ := contractBreach_word hfits rfl v
  refine ⟨fun hp => ⟨_, exec_read32 hp hcr, ?_⟩, fun hp => ⟨_, exec_write32 hp hcw, by simp, ?_⟩⟩
  · rw [read32_result0 hp hcr (exec_read32 hp hcr), s.busRead_eq ha hisr]
    simp only [State.word, State.stored, regAt_none hplain]
    exact State.overlay_pm hpm _
  · rw [State.finish_word, State.result_word, State.word_write32_same _ _ _ (by simpa using ha) (by simpa using hisr),
      State.overlay_congr (s := s) (by simp) (by simp)]
    exact State.overlay_pm hpm _

/-! ## A step that runs a descriptor (R96, R98, R104) -/

/-- A descriptor is the one with its four words (R90). -/
theorem descOf_descWord (d : Desc) : descOf (descWord d 0) (descWord d 1) (descWord d 2) (descWord d 3) = d := by
  unfold descOf descWord
  ext k hk
  simp only [← BitVec.getLsbD_eq_getElem, BitVec.getLsbD_append, BitVec.getLsbD_extractLsb']
  split_ifs with h0 h1 h2
  · simp [h0]
  · simp [h1, show 32 + (k - 32) = k by omega]
  · simp [h2, show 64 + (k - 32 - 32) = k by omega]
  · simp [show k - 32 - 32 - 32 < 32 by omega, show 96 + (k - 32 - 32 - 32) = k by omega]

/-- The decoder on the sixteen bytes of a descriptor (R104). -/
theorem decode_descBytes (d : Desc) : decode (descBytes d) = (decodeDesc d).map (·, []) := by
  simp only [descBytes, wordBytes, List.cons_append, List.nil_append, decode, wordOf_wordByte, descOf_descWord]
  cases decodeDesc d <;> rfl

/-- A port with an idle agent, attached and not halted, is open (R99, R275, U15). -/
theorem portClosed_eq_none {s : State} {a : Agent} (hat : s.attached = true) (ho : (s.ex a).op = none)
    (hh : a = .host → s.halt = false) : portClosed s a = none := by
  have hhost : (a == .host && s.halt) = false := by
    cases a with
    | host => simp [hh rfl]
    | irq | worker => rfl
  simp [portClosed, hat, ho, hhost]

/-- Settles O4: the port is open, and the sixteen bytes decode as the descriptor they are laid out from. -/
theorem stepRunsDecoded : Obligations.StepRunsDecoded := by
  intro s a d i rest hw hport hat ho hh hd
  have hdec : decodeDesc d = .ok i := by
    rw [decode_descBytes] at hd
    cases e : decodeDesc d with
    | ok j => rw [e] at hd; cases hd; rfl
    | error _ => rw [e] at hd; cases hd
  have hopen : portClosed { s with port := rest } a = none := portClosed_eq_none hat ho hh
  simp only [step, stepPort, hport, ifConfigured, hw, if_true, take, presentRun, hopen, hdec]

/-! ## The state after attach (R51, R270) -/

/-- After attach every agent is idle, its result registers 0 (R51). -/
theorem ex_attach (c : Cfg) (a : Agent) : (State.attach c).ex a = Exec.atAttach := by cases a <;> rfl

/-- Settles O53: the values stand in `State.attach` and in the idle record that it gives every agent. -/
theorem attachValues : Obligations.AttachValues := by
  rintro c s rfl
  refine ⟨fun a => ?_, rfl, rfl, rfl, rfl, rfl, rfl, rfl, rfl, rfl, rfl, rfl, rfl⟩
  rw [ex_attach]
  exact ⟨rfl, rfl, rfl, rfl, rfl, rfl⟩

end Sys2Proof.Machine
end

section
/-! PROOFS. The caller's contract of the six access operations (R64, R66, R67), and that the canonical form of a memory (log 5)
is unique. -/

namespace Sys2Proof.Machine

/-! ## The caller's contract of the access operations (R64, R66, R67) -/

/-- What R64 and R66 ask of an access operation: aligned, inside its region, its buffer inside host memory. -/
def InContract (c : Cfg) : Instr → Prop
  | .read32 r off | .write32 r off _ => off.toNat % 4 = 0 ∧ off.toNat + 4 ≤ c.regionSize r
  | .read64 r off | .write64 r off _ _ => off.toNat % 4 = 0 ∧ off.toNat + 8 ≤ c.regionSize r
  | .blkrd r off haddr len => off.toNat + len.toNat ≤ c.regionSize r ∧ haddr.toNat + len.toNat ≤ 2 ^ 32
  | .blkwr r off haddr len =>
    off.toNat % 4 = 0 ∧ off.toNat + roundUp len.toNat ≤ c.regionSize r ∧ haddr.toNat + len.toNat ≤ 2 ^ 32
  | _ => True

/-- No check of the contract fails just where neither the operation's own words nor the region's size shows a breach. -/
theorem contractBreach_eq_none {c : Cfg} {i : Instr} :
    contractBreach c i = none ↔ i.breach = none ∧ rangeBreach c i = none := by
  unfold contractBreach
  cases i.breach <;> simp

/-- An operation that passes the checks before its first micro-step keeps the contract. -/
theorem inContract_of_contractBreach {c : Cfg} {i : Instr} (h : contractBreach c i = none) : InContract c i := by
  obtain ⟨hwords, hrange⟩ := contractBreach_eq_none.1 h
  cases i with
  | read32 r off | write32 r off _ | read64 r off | write64 r off _ _ =>
    exact ⟨by simpa [Instr.breach, aligned] using hwords, by simpa [rangeBreach, regionFits] using hrange⟩
  | blkrd r off haddr len =>
    exact ⟨by simpa [rangeBreach, regionFits] using hrange, by simpa [Instr.breach, hostFits] using hwords⟩
  | blkwr r off haddr len =>
    have hfits : off.toNat + roundUp len.toNat ≤ c.regionSize r := by simpa [rangeBreach, regionFits] using hrange
    cases ha : aligned off with
    | false => simp [Instr.breach, ha] at hwords
    | true => exact ⟨by simpa [aligned] using ha, hfits, by simpa [Instr.breach, ha, hostFits] using hwords⟩
  | _ => trivial

/-- A breach of the contract is refused before anything is done (R67, R110 (b)). -/
theorem exec_breach {s : State} {i : Instr} {b : Breach} (hp : Presentable s i) (hb : contractBreach s.cfg i = some b) :
    exec i s = .refused (.contract b) := by
  obtain ⟨hat, hidle, hhalt, hmem⟩ := hp
  have hopen : (s.presenter == .host && s.halt) = false := by
    cases e : s.presenter with
    | host => simp [hhalt e]
    | irq | worker => rfl
  have hport : portRefusal s s.presenter i = some (.contract b) := by
    simp [portRefusal, hat, hidle, hopen, hmem, hb, refusalOf]
  rw [exec_eq_perform, perform, hport]

theorem exec_refused_of_not_inContract {s : State} {i : Instr} (hp : Presentable s i) (h : ¬InContract s.cfg i) :
    ∃ b, exec i s = .refused (.contract b) := by
  cases hb : contractBreach s.cfg i with
  | none => exact absurd (inContract_of_contractBreach hb) h
  | some b => exact ⟨b, exec_breach hp hb⟩

/-- Settles O15: what each clause says of its operation is that the contract is not kept. -/
theorem accessRefused : Obligations.AccessRefused := fun _ _ _ _ _ _ _ =>
  ⟨exec_refused_of_not_inContract, exec_refused_of_not_inContract, exec_refused_of_not_inContract,
    exec_refused_of_not_inContract, exec_refused_of_not_inContract, exec_refused_of_not_inContract⟩

/-! ## Canonical memories (log 5) -/

theorem Memory.wf_cons {c : Host.Cell} {m : Memory} :
    Memory.wf (c :: m) ↔ ((∀ d ∈ m, c.1 < d.1) ∧ c.2 ≠ unwritten) ∧ Memory.wf m := by
  simp only [Memory.wf, List.pairwise_cons, List.forall_mem_cons]
  tauto

/-- An address below every listed one reads as unwritten. -/
theorem Memory.read_below {m : Memory} {x : Nat} (h : ∀ d ∈ m, x < d.1) : Memory.read m x = unwritten := by
  induction m with
  | nil => rfl
  | cons d m ih =>
    rw [Memory.read, if_neg (Nat.ne_of_gt (h d (by simp)))]
    exact ih fun e he => h e (by simp [he])

/-- The first listed address of a canonical memory is not below that of one that reads alike. -/
theorem Memory.head_le {c d : Host.Cell} {m n : Memory} (hm : Memory.wf (c :: m)) (hn : Memory.wf (d :: n))
    (h : Memory.read (c :: m) c.1 = Memory.read (d :: n) c.1) : d.1 ≤ c.1 := by
  obtain ⟨⟨-, hc⟩, -⟩ := Memory.wf_cons.1 hm
  obtain ⟨⟨hd, -⟩, -⟩ := Memory.wf_cons.1 hn
  by_contra hlt
  refine hc ?_
  rw [show c.2 = Memory.read (c :: m) c.1 by simp [Memory.read], h]
  refine Memory.read_below fun e he => ?_
  rcases List.mem_cons.1 he with rfl | he
  · omega
  · have := hd e he
    omega

/-- Canonical memories that read alike list the same cells. -/
theorem Memory.ext_of_wf {m n : Memory} (hm : Memory.wf m) (hn : Memory.wf n)
    (h : ∀ x, Memory.read m x = Memory.read n x) : m = n := by
  induction m generalizing n with
  | nil =>
    cases n with
    | nil => rfl
    | cons d n =>
      obtain ⟨⟨-, hd⟩, -⟩ := Memory.wf_cons.1 hn
      exact absurd (by simpa [Memory.read] using (h d.1).symm) hd
  | cons c m ih =>
    cases n with
    | nil =>
      obtain ⟨⟨-, hc⟩, -⟩ := Memory.wf_cons.1 hm
      exact absurd (by simpa [Memory.read] using h c.1) hc
    | cons d n =>
      have haddr : c.1 = d.1 := Nat.le_antisymm (Memory.head_le hn hm (h d.1).symm) (Memory.head_le hm hn (h c.1))
      have hbyte : c.2 = d.2 := by simpa [Memory.read, haddr] using h d.1
      obtain ⟨⟨hlow, -⟩, hm'⟩ := Memory.wf_cons.1 hm
      obtain ⟨⟨hlow', -⟩, hn'⟩ := Memory.wf_cons.1 hn
      rw [Prod.ext haddr hbyte, ih hm' hn' fun x => ?_]
      by_cases hx : x = d.1
      · rw [hx, Memory.read_below hlow', Memory.read_below (haddr ▸ hlow)]
      · simpa [Memory.read, haddr, Ne.symm hx] using h x

/-- Settles O56, by induction over the two lists, whose first cells have to be the same. -/
theorem canonicalUnique : Obligations.CanonicalUnique := fun _ _ hm hn h => Memory.ext_of_wf hm hn h

end Sys2Proof.Machine
end

section
/-! PROOFS. Every access of every operation is aligned and inside its region (R64 to R67): which accesses an entry may make, that
the entries an entry stands for make no other, and that a micro-step makes those of its entry. -/

namespace Sys2Proof.Machine

/-! ## Entries whose accesses are in range -/

/-- The accesses that an entry makes itself, not those of the entries it goes on to, are aligned and inside their region. -/
def Micro.inRange (c : Cfg) : Micro → Prop
  | .read r off _ | .write r off _ | .merge r off _ _ | .tail r off _ _ => wordFits (c.regionSize r) off = true
  | .read64 r off | .write64 r off _ _ =>
    wordFits (c.regionSize r) off = true ∧ wordFits (c.regionSize r) (off + 4) = true
  | .copyIn r off _ pend => ∀ k, inSpans k pend → wordFits (c.regionSize r) (off + 4 * k) = true
  | .copyOut r off _ pend => ∀ k, inSpans k pend → off + k + 1 ≤ c.regionSize r
  | _ => True

/-- Every entry of a list is in range. -/
def InRange (c : Cfg) (ms : List Micro) : Prop := ∀ m ∈ ms, m.inRange c

theorem wordFits_iff {size off : Nat} : wordFits size off = true ↔ off % 4 = 0 ∧ off + 4 ≤ size := by simp [wordFits]

section
variable {c : Cfg} {m : Micro} {ms ns : List Micro}

theorem inRange_nil : InRange c [] := fun _ h => nomatch h

theorem inRange_cons (hm : m.inRange c) (hms : InRange c ms) : InRange c (m :: ms) := List.forall_mem_cons.2 ⟨hm, hms⟩

theorem inRange_single (hm : m.inRange c) : InRange c [m] := inRange_cons hm inRange_nil

theorem InRange.append (hm : InRange c ms) (hn : InRange c ns) : InRange c (ms ++ ns) := by
  intro x hx
  rcases List.mem_append.1 hx with hx | hx
  · exact hm x hx
  · exact hn x hx

theorem inRange_update {r : Region} {off : Nat} (h : wordFits (c.regionSize r) off = true) (m v : Word) :
    InRange c (update r off m v) := inRange_cons h (inRange_single h)

/-- A bulk read inside its region (R66, R76). -/
theorem inRange_bulkRead {r : Region} {off n : Nat} (dst : Dest) (h : off + n ≤ c.regionSize r) :
    InRange c (bulkRead r off dst n) := by
  unfold bulkRead
  split
  · exact inRange_nil
  · refine inRange_single ?_
    rintro k ⟨p, hp, -, hk⟩
    obtain rfl := List.mem_singleton.1 hp
    simp only [Nat.zero_add] at hk
    omega

/-- A bulk write whose rounded length is inside its region (R66, R116). -/
theorem inRange_bulkWrite {r : Region} {off n : Nat} (haddr : Nat) (ha : off % 4 = 0)
    (h : off + roundUp n ≤ c.regionSize r) : InRange c (bulkWrite r off haddr n) := by
  unfold roundUp at h
  refine .append ?_ ?_
  · split
    · exact inRange_nil
    · refine inRange_single ?_
      rintro k ⟨p, hp, -, hk⟩
      obtain rfl := List.mem_singleton.1 hp
      simp only [Nat.zero_add] at hk
      exact wordFits_iff.2 (by omega)
  · split
    · exact inRange_nil
    · exact inRange_single (wordFits_iff.2 (by omega))

end

/-! ## Listings -/

section
variable {c : Cfg} (hw : c.wf = true)
include hw

theorem wordFits_reg (g : DevReg) : wordFits (c.regionSize .dsp) (regOff c g) = true :=
  c.wf_offsets_fit hw _ (regOff_mem c g)

theorem inRange_updateReg (g : DevReg) (m v : Word) : InRange c (update .dsp (regOff c g) m v) :=
  inRange_update (wordFits_reg hw g) m v

/-- A step descriptor's target is a whole word of its region (R13 (a)). -/
theorem inRange_updateStep {d : StepDesc} (hd : d ∈ c.stepDescs) : InRange c (updateStep d) := by
  have hok := c.wf_stepDescs hw d hd
  simp only [Cfg.stepOk, Bool.and_eq_true] at hok
  exact inRange_update hok.2 _ _

theorem inRange_pulse : InRange c (pulseListing c) :=
  .append (.append (inRange_updateReg hw .csr _ _) (inRange_single trivial)) (inRange_updateReg hw .csr _ _)

theorem inRange_enterD0 : InRange c (enterD0Listing c) := by
  have hstep {d : StepDesc} (hd : d ∈ c.stepDescs) := inRange_updateStep hw hd
  have hreg (g : DevReg) : (Micro.write .dsp (regOff c g) 0).inRange c := wordFits_reg hw g
  have hrequest : InRange c (requestListing c) :=
    .append (.append (.append (hstep (by simp [Cfg.stepDescs])) (hstep (by simp [Cfg.stepDescs])))
      (hstep (by simp [Cfg.stepDescs]))) (inRange_single trivial)
  have hsetup : InRange c (setupListing c) :=
    .append (.append (.append (.append (hstep (by simp [Cfg.stepDescs])) (inRange_pulse hw))
      (hstep (by simp [Cfg.stepDescs]))) (hstep (by simp [Cfg.stepDescs]))) (hstep (by simp [Cfg.stepDescs]))
  have hunmask : InRange c (unmaskListing c) :=
    .append (.append (inRange_updateReg hw .imrh _ _) (inRange_updateReg hw .imrd _ _))
      (inRange_cons trivial (inRange_cons (hreg .cmdo) (inRange_cons (hreg .cmdi) (inRange_cons (hreg .scr0)
        (inRange_cons (hreg .scr1) (inRange_cons trivial (inRange_single trivial)))))))
  rw [enterD0Listing_eq]
  exact .append (.append hrequest (inRange_cons trivial hsetup)) (inRange_cons trivial hunmask)

/-- What a conditional guards is in range. -/
theorem inRange_guarded (k : Cond) : InRange c (guarded c k) := by
  cases k with
  | isrDone | isrBusy => exact .append (inRange_updateReg hw .imrh _ _) (inRange_single trivial)
  | replyReady =>
    exact .append (.append (.append (.append
      (inRange_cons trivial (inRange_cons trivial (inRange_single trivial))) (inRange_updateReg hw .cmdo _ _))
      (inRange_single trivial)) (inRange_updateReg hw .imrh _ _)) (inRange_single trivial)
  | panic | message => simp [InRange, guarded, captureListing, Micro.inRange]

/-- The listing of an operation that keeps the contract is in range. -/
theorem inRange_listing {i : Instr} (hi : InContract c i) : InRange c (listing c i) := by
  cases i with
  | read32 r off | write32 r off _ => exact inRange_cons (wordFits_iff.2 hi) (by simp [InRange, Micro.inRange])
  | read64 r off | write64 r off _ _ =>
    obtain ⟨ha, hr⟩ := hi
    exact inRange_cons ⟨wordFits_iff.2 (by omega), wordFits_iff.2 (by omega)⟩ (by simp [InRange, Micro.inRange])
  | blkrd r off haddr len =>
    obtain ⟨hr, -⟩ := hi
    exact .append (inRange_bulkRead _ hr) (inRange_single trivial)
  | blkwr r off haddr len =>
    obtain ⟨ha, hr, -⟩ := hi
    exact .append (inRange_bulkWrite _ ha hr) (inRange_single trivial)
  | enterD0 => exact inRange_enterD0 hw
  | reset => exact .append (inRange_pulse hw) (inRange_cons trivial (inRange_single trivial))
  | run =>
    exact .append (.append (inRange_updateReg hw .dmamode _ _) (inRange_updateReg hw .csr _ _))
      (inRange_cons trivial (inRange_single trivial))
  | sendmsg haddr size =>
    exact .append (.append (inRange_single trivial) (inRange_updateReg hw .cmdo _ _)) (inRange_single trivial)
  | irqimm =>
    have hisr : wordFits (c.regionSize .dsp) c.isrOff = true := c.wf_offsets_fit hw _ (isrOff_mem c)
    exact inRange_cons trivial (inRange_cons hisr (by simp [InRange, Micro.inRange]))
  | irqdefer =>
    exact inRange_cons trivial (inRange_cons (wordFits_reg hw .cmdo) (inRange_cons trivial
      (inRange_cons (wordFits_reg hw .cmdi) (by simp [InRange, Micro.inRange]))))
  | cmddone =>
    exact .append (.append (.append (inRange_updateReg hw .cmdi _ _) (inRange_single trivial))
      (inRange_updateReg hw .imrh _ _)) (inRange_cons trivial (inRange_single trivial))
  | mboxwr _ _ _ | mboxrd _ _ _ | getreply _ _ | fwready | paniccap _ _ _ =>
    simp [InRange, listing, mboxwrListing, mboxrdListing, getreplyListing, fwreadyListing, paniccapListing,
      captureListing, Micro.inRange]

end

/-! ## What a micro-step goes on to -/

theorem inRange_windowEffect (c : Cfg) (t : Word) (b : Box) : InRange c (windowEffect c t b) := by
  unfold windowEffect registerRegion
  split_ifs <;> simp [InRange, Micro.inRange]

/-- The check of a box (R160 (b)) holds the region's range with it. -/
theorem fits_of_boxReadBreach {c : Cfg} {x : Box} {b n : Nat} (h : boxReadBreach c x b n = none) :
    x.off + b + n ≤ c.dspSize := by
  unfold boxReadBreach regionFits at h
  split at h
  · cases h
  · split at h
    · rename_i hfits
      exact of_decide_eq_true hfits
    · cases h

theorem fits_of_boxWriteBreach {c : Cfg} {x : Box} {b n : Nat} (h : boxWriteBreach c x b n = none) :
    (x.off + b) % 4 = 0 ∧ x.off + b + roundUp n ≤ c.dspSize := by
  unfold boxWriteBreach at h
  split at h
  · cases h
  · rename_i ha
    exact ⟨not_not.1 ha, fits_of_boxReadBreach h⟩

/-- A check that passes is all that stands before the entries it guards. -/
theorem restOk_orRefuse_of_passes {R : List Micro → Prop} {b : Option Breach} {rest : List Micro} {s : State}
    (h : b = none → R rest) : (orRefuse b (.to rest s)).RestOk R := by
  cases b with
  | none => exact h rfl
  | some _ => trivial

theorem restOk_fetchStep (s : State) (off at' n : Nat) : (fetchStep s.cfg off at' n s).RestOk (InRange s.cfg) := by
  refine restOk_orRefuse_of_passes fun h => inRange_bulkRead _ ?_
  split at h
  · rename_i hfits
    exact of_decide_eq_true hfits
  · cases h

/-- The units that are left of a copy are some of those that were to be made. -/
theorem restOk_unitStep_of_subset {R : List Micro → Prop} (pick : Nat) (pend : List Span) (f : Nat → State → State)
    (left : List Span → Micro) (s : State) (h0 : R [])
    (h : ∀ p, (∀ k, inSpans k p → inSpans k pend) → R [left p]) : (unitStep pick pend f left s).RestOk R := by
  unfold unitStep
  split
  · exact h0
  · exact h0
  · rename_i k rest _ e
    exact h _ (takeUnit_inSpans e).2

/-- What an entry in range goes on to is in range, the operations that a consumer presents with it. -/
theorem unit_rest_inRange {s : State} (hw : s.cfg.wf = true) (a : Agent) (pick : Nat) {m : Micro} (hm : m.inRange s.cfg) :
    (unit a pick m s).RestOk (InRange s.cfg) := by
  have hnil : InRange s.cfg [] := inRange_nil
  cases m with
  | copyIn r off h pend =>
    exact restOk_unitStep_of_subset _ _ _ _ _ hnil fun p hp => inRange_single fun k hk => hm k (hp k hk)
  | copyOut r off dst pend =>
    exact restOk_unitStep_of_subset _ _ _ _ _ hnil fun p hp => inRange_single fun k hk => hm k (hp k hk)
  | read64 r off =>
    obtain ⟨hlo, hhi⟩ := hm
    simp only [unit, read64Step]
    split
    · exact inRange_single hhi
    · exact inRange_single hlo
  | write64 r off lo hi =>
    obtain ⟨hlo, hhi⟩ := hm
    simp only [unit, write64Step]
    split
    · exact inRange_single hhi
    · exact inRange_single hlo
  | acquire =>
    simp only [unit, acquireStep]
    split
    · exact hnil
    · trivial
  | poll n =>
    cases n with
    | zero => exact inRange_cons trivial (inRange_single trivial)
    | succ n => simp only [unit, pollStep]; split <;> simp [Next.RestOk, InRange, Micro.inRange]
  | pollWait n => cases n <;> simp [unit, Next.RestOk, pollLoop, InRange, Micro.inRange]
  | boxWrite b h n =>
    refine restOk_orRefuse_of_passes fun hb => ?_
    obtain ⟨ha, hr⟩ := fits_of_boxWriteBreach hb
    exact inRange_bulkWrite _ ha hr
  | boxRead b h n => exact restOk_orRefuse_of_passes fun hb => inRange_bulkRead _ (fits_of_boxReadBreach hb)
  | header => exact restOk_orRefuse_of_passes fun hb => inRange_bulkRead _ (fits_of_boxReadBreach hb)
  | readBack h =>
    refine restOk_orRefuse_of_passes fun hb => inRange_bulkRead _ ?_
    unfold readBackBreach at hb
    split at hb
    · cases hb
    · rename_i hbox
      exact fits_of_boxReadBreach hbox
  | hdrRead | fwrRead | winRead _ | capSnap | capStack => exact restOk_fetchStep s _ _ _
  | call c =>
    have hds (c' : Consumer) (ds : List Desc) : InRange s.cfg (ds.map (Micro.present c')) := by
      simp [InRange, Micro.inRange]
    simp only [unit, callStep]
    split
    · split
      · exact hds _ _
      · trivial
    · exact hds _ _
    · exact hnil
    · exact hnil
  | present c d =>
    simp only [unit, presentStep]
    split
    · exact hnil
    · split
      · exact restOk_orRefuse_of_passes fun hb =>
          .append (inRange_listing hw (inContract_of_contractBreach hb)) (inRange_single trivial)
      · trivial
  | fwrBegin =>
    simp only [unit, fwrBeginStep]
    split
    · trivial
    · exact hnil
  | fwrExtdata => exact inRange_single trivial
  | windows k n =>
    cases n with
    | zero => exact hnil
    | succ n => exact inRange_cons trivial (inRange_cons trivial (inRange_single trivial))
  | winDispatch => exact inRange_windowEffect _ _ _
  | zeroBox =>
    simp only [unit, zeroBoxStep]
    split
    · exact inRange_cons trivial (inRange_single trivial)
    · exact hnil
  | given k =>
    simp only [unit]
    split
    · exact inRange_guarded hw k
    · exact hnil
  | raise k v => trivial
  | _ => exact hnil

/-! ## The accesses that a micro-step makes -/

/-- From `s` to `t` the configuration is the same, and every access made since is aligned and inside its region. -/
def AllowedSince (s t : State) : Prop :=
  t.cfg = s.cfg ∧ ∃ l : List BusRec, t.bus = s.bus ++ l ∧ ∀ b ∈ l, b.access.allowed s.cfg

namespace AllowedSince

variable {s t u : State} {a : Agent}

theorem refl (s : State) : AllowedSince s s := ⟨rfl, [], by simp, by simp⟩

theorem cfg (h : AllowedSince s t) : t.cfg = s.cfg := by
  obtain ⟨hcfg, -⟩ := h
  exact hcfg

theorem congr (h : AllowedSince s t) (hc : u.cfg = t.cfg) (hb : u.bus = t.bus) : AllowedSince s u := by
  obtain ⟨hcfg, hbus⟩ := h
  exact ⟨hc.trans hcfg, by rwa [hb]⟩

/-- One more access. -/
theorem snoc (h : AllowedSince s t) {b : BusRec} (hc : u.cfg = t.cfg) (hb : u.bus = t.bus ++ [b])
    (hallowed : b.access.allowed s.cfg) : AllowedSince s u := by
  obtain ⟨hcfg, l, hl, hall⟩ := h
  refine ⟨hc.trans hcfg, l ++ [b], by rw [hb, hl, List.append_assoc], fun x hx => ?_⟩
  rcases List.mem_append.1 hx with hx | hx
  · exact hall x hx
  · rwa [List.mem_singleton.1 hx]

theorem setEx (h : AllowedSince s t) (e : Exec) : AllowedSince s (t.setEx a e) := h.congr (by simp) (by simp)

theorem setLoc (h : AllowedSince s t) (l : Locals) : AllowedSince s (t.setLoc a l) := h.setEx _

theorem read32 (h : AllowedSince s t) {r : Region} {off : Nat} (hfits : wordFits (s.cfg.regionSize r) off = true) :
    AllowedSince s (t.read32 a r off).2 := h.snoc (by simp) (State.read32_bus ..) (wordFits_iff.1 hfits)

theorem readStep (h : AllowedSince s t) {r : Region} {off : Nat} (hfits : wordFits (s.cfg.regionSize r) off = true)
    (sl : Slot) : AllowedSince s (readStep a r off sl t) := (h.read32 hfits).setLoc _

theorem write32 (h : AllowedSince s t) {r : Region} {off : Nat} (hfits : wordFits (s.cfg.regionSize r) off = true)
    (v : Word) : AllowedSince s (t.write32 a r off v) := h.snoc (by simp) (State.write32_bus ..) (wordFits_iff.1 hfits)

theorem tailStep (h : AllowedSince s t) {r : Region} {off : Nat} (hfits : wordFits (s.cfg.regionSize r) off = true)
    (haddr n : Nat) : AllowedSince s (tailStep a r off haddr n t) := by
  unfold Machine.tailStep
  split
  · exact h
  · exact AllowedSince.write32 (t := t.draw.2) (h.congr rfl rfl) hfits _

theorem byteUnit (h : AllowedSince s t) {r : Region} {off k : Nat} (hr : off + k + 1 ≤ s.cfg.regionSize r) (dst : Dest) :
    AllowedSince s (byteUnit a r off dst k t) := by
  have hread : AllowedSince s (t.read8 a r (off + k)).2 := h.snoc (by simp) (State.read8_bus ..) hr
  cases dst with
  | host base => exact hread.congr rfl rfl
  | buf base => exact hread.setLoc _

theorem delay (h : AllowedSince s t) (n : Nat) : AllowedSince s (t.delay a n) :=
  h.snoc (by simp) (State.delay_bus ..) trivial

theorem raise (h : AllowedSince s t) (k : Kind) (v : Word) : AllowedSince s (t.raise a k v) := h.congr (by simp) (by simp)

/-- What changes only block-side registers makes no access. -/
theorem block (h : AllowedSince s t) (hu : BlockOnly t u) : AllowedSince s u := by
  rw [hu]
  exact h.congr rfl rfl

theorem pollStep (h : AllowedSince s t) (hw : s.cfg.wf = true) (tries : Nat) :
    NextOk (AllowedSince s) (fun _ => True) (pollStep a tries t) := by
  cases tries with
  | zero => exact nextOk_to h
  | succ n =>
    have hpm : wordFits (s.cfg.regionSize t.cfg.pmSts.rgn) t.cfg.pmSts.off = true := by
      rw [h.cfg]
      exact s.cfg.wf_pm_fits hw
    have hread : AllowedSince s (pollRead a t).2 := h.read32 hpm
    simp only [Machine.pollStep]
    split
    · exact nextOk_to (hread.congr rfl rfl)
    · exact nextOk_to hread

theorem callStep (h : AllowedSince s t) (c : Consumer) : NextOk (AllowedSince s) (fun _ => True) (callStep c t) := by
  unfold Machine.callStep
  split
  · split
    · exact nextOk_to (h.congr rfl rfl)
    · trivial
  · exact nextOk_to (h.congr rfl rfl)
  · exact nextOk_to h
  · exact nextOk_to h

theorem presentStep (h : AllowedSince s t) (c : Consumer) (d : Desc) :
    NextOk (AllowedSince s) (fun _ => True) (presentStep a c d t) := by
  unfold Machine.presentStep
  split
  · exact nextOk_to (h.raise _ _)
  · split
    · exact nextOk_orRefuse (nextOk_to (h.setEx _))
    · trivial

theorem fwrBeginStep (h : AllowedSince s t) : NextOk (AllowedSince s) (fun _ => True) (fwrBeginStep a t) := by
  unfold Machine.fwrBeginStep
  split
  · trivial
  · exact nextOk_to (AllowedSince.setLoc (t := ctxStep t .fwrDone) (h.congr rfl rfl) _)

/-- A micro-step of an entry in range that is no copy. -/
theorem unit (h : AllowedSince s t) (hw : s.cfg.wf = true) (pick : Nat) {m : Micro} (hspecial : m.special = false)
    (hm : m.inRange s.cfg) : NextOk (AllowedSince s) (fun _ => True) (unit a pick m t) := by
  cases m with
  | copyIn _ _ _ _ | copyOut _ _ _ _ => cases hspecial
  | read r off sl => exact nextOk_to (h.readStep hm sl)
  | write _ _ _ | merge _ _ _ _ => exact nextOk_to (h.write32 hm _)
  | read64 r off =>
    obtain ⟨hlo, hhi⟩ := hm
    simp only [Machine.unit, read64Step]
    split
    · exact nextOk_to (h.readStep hlo _)
    · exact nextOk_to (h.readStep hhi _)
  | write64 r off lo hi =>
    obtain ⟨hlo, hhi⟩ := hm
    simp only [Machine.unit, write64Step]
    split
    · exact nextOk_to (h.write32 hlo _)
    · exact nextOk_to (h.write32 hhi _)
  | tail r off haddr n => exact nextOk_to (h.tailStep hm _ _)
  | delay _ | pollWait _ => exact nextOk_to (h.delay _)
  | acquire =>
    simp only [Machine.unit, acquireStep]
    split
    · exact nextOk_to (h.congr rfl rfl)
    · trivial
  | poll n => exact h.pollStep hw n
  | pwr p => exact nextOk_to (h.block (.pwrStep t p))
  | raise k v => exact h.raise k v
  | boxWrite _ _ _ | boxRead _ _ _ | hdrRead | fwrRead | readBack _ | winRead _ | capSnap | capStack =>
    exact nextOk_orRefuse (nextOk_to h)
  | header => exact nextOk_orRefuse (nextOk_to (h.setLoc _))
  | ok | result0 | result01 | replyResult | judge _ | setWork | capBegin _ | ret _ _ | idle => exact nextOk_to (h.setEx _)
  | fwrExtdata => exact nextOk_to (AllowedSince.setLoc (t := t.emit _) (h.congr rfl rfl) _)
  | wakeOrNone =>
    simp only [Machine.unit, wakeStep]
    split <;> exact nextOk_to (h.congr rfl rfl)
  | call c => exact h.callStep c
  | present c d => exact h.presentStep c d
  | fwrBegin => exact h.fwrBeginStep
  | windows k n => cases n <;> exact nextOk_to h
  | zeroBox =>
    simp only [Machine.unit, zeroBoxStep]
    split <;> exact nextOk_to h
  | winDispatch | armEnd _ | given _ => exact nextOk_to h
  | release | emit _ | ctx _ | clearPending | emitReply | emitMsg | handled | fwrOutbox | fwrInbox | fwrVersion | capEmit =>
    exact nextOk_to (h.congr rfl rfl)

end AllowedSince

/-! ## Operations -/

/-- The state and the entries that a micro-step leaves, shown apart. -/
theorem nextOk_of_rest {P : State → Prop} {Q : Micro → Prop} :
    ∀ {n : Next}, NextOk P (fun _ => True) n → n.RestOk (fun ms => ∀ m ∈ ms, Q m) → NextOk P Q n
  | .to _ _, ⟨hs, _⟩, hrest => ⟨hs, hrest⟩
  | .raised _, hs, _ => hs
  | .wait, _, _ | .refuse _, _, _ => trivial

/-- Entries in range make accesses that are allowed, and go on to entries in range. -/
theorem AllowedSince.keeps {s : State} (hw : s.cfg.wf = true) (a : Agent) :
    Keeps a (AllowedSince s) (Micro.inRange s.cfg) where
  unit pick m t hspecial h hm := by
    refine nextOk_of_rest (h.unit hw pick hspecial hm) ?_
    have hcfg := h.cfg
    have hrest := unit_rest_inRange (hcfg ▸ hw) a pick (hcfg ▸ hm)
    rwa [hcfg] at hrest
  group r off haddr pend k t h hm hk := h.write32 (hm k hk) _
  byte r off dst pend k t h hm hk := h.byteUnit (hm k hk) dst
  subIn _ _ _ _ _ hm hsub k hk := hm k (hsub k hk)
  subOut _ _ _ _ _ hm hsub k hk := hm k (hsub k hk)

/-- An operation that ends passed the checks before its first micro-step. -/
theorem contractBreach_of_exec {i : Instr} {s t : State} (h : exec i s = .next t) : contractBreach s.cfg i = none := by
  obtain ⟨hport, -⟩ := exec_reached h
  unfold portRefusal at hport
  split_ifs at hport
  cases hb : contractBreach s.cfg i with
  | none => rfl
  | some b => simp [hb, refusalOf] at hport

theorem AllowedSince.exec {i : Instr} {s t : State} (hw : s.cfg.wf = true) (h : exec i s = .next t) :
    AllowedSince s t := by
  have hlisting := inRange_listing hw (inContract_of_contractBreach (contractBreach_of_exec h))
  rw [exec_eq_perform] at h
  exact (AllowedSince.keeps hw s.presenter).perform_ok (fun _ _ _ hu _ => hu.setEx _) ((AllowedSince.refl s).setEx _)
    hlisting trivial h

/-- Settles O59: entry by entry, the checks before each copy, box access and presented operation keep its accesses in range. -/
theorem accessesInRange : Obligations.AccessesInRange := by
  intro i s t hw h x hx
  obtain ⟨-, l, hbus, hall⟩ := AllowedSince.exec hw h
  rw [newAccesses_of_append hbus] at hx
  obtain ⟨b, hb, rfl⟩ := List.mem_map.1 hx
  exact hall b hb

end Sys2Proof.Machine
end

section
/-! PROOFS. A host operation taken micro-step by micro-step with a firmware write between its accesses: the lost update (R83) and
the torn read (R75). -/

namespace Sys2Proof.Machine

/-! ## Steps that take the next input -/

/-- The state with other inputs still to come. -/
def State.setPort (s : State) (p : List Input) : State := { s with port := p }

section
variable (s : State) (p : List Input)

@[simp] theorem State.setPort_port : (s.setPort p).port = p := rfl
@[simp] theorem State.setPort_cfg : (s.setPort p).cfg = s.cfg := rfl
@[simp] theorem State.setPort_regs : (s.setPort p).regs = s.regs := rfl
@[simp] theorem State.setPort_mem (r : Region) : (s.setPort p).mem r = s.mem r := rfl
@[simp] theorem State.setPort_ex (a : Agent) : (s.setPort p).ex a = s.ex a := rfl
@[simp] theorem State.setPort_loc (a : Agent) : (s.setPort p).loc a = s.loc a := rfl
@[simp] theorem State.setPort_inaccessible (r : Region) (x : Nat) :
    (s.setPort p).inaccessible r x = s.inaccessible r x := rfl
@[simp] theorem State.setPort_isIsr (r : Region) (x : Nat) : (s.setPort p).isIsr r x = s.isIsr r x := rfl
@[simp] theorem State.setPort_isPm (r : Region) (x : Nat) : (s.setPort p).isPm r x = s.isPm r x := rfl
@[simp] theorem State.setPort_word (r : Region) (x : Nat) : (s.setPort p).word r x = s.word r x := rfl

variable {s} {p}

theorem State.setPort_reseq (s : State) (p : List Input) (a : Agent) (ms : List Micro) (n : Nat) :
    (s.reseq a ms n).setPort p = (s.setPort p).reseq a ms n := by cases a <;> rfl

theorem stepN_succ {n : Nat} {t : State} (h : step s = .next t) : stepN (n + 1) s = stepN n t := by rw [stepN, h]

@[simp] theorem State.reseq_port (a : Agent) (ms : List Micro) (n : Nat) : (s.reseq a ms n).port = s.port := by
  simp [State.reseq]
@[simp] theorem State.reseq_regs (a : Agent) (ms : List Micro) (n : Nat) : (s.reseq a ms n).regs = s.regs := by
  simp [State.reseq]
@[simp] theorem State.reseq_mem (a : Agent) (ms : List Micro) (n : Nat) (r : Region) :
    (s.reseq a ms n).mem r = s.mem r := by simp [State.reseq]

/-- A step takes the next input (R250, R259). -/
theorem step_input {i : Input} {rest : List Input} (hw : s.cfg.wf = true) (hp : s.port = i :: rest) :
    step s = take i (s.setPort rest) := by
  simp only [step, stepPort, hp, ifConfigured, hw, if_true, State.setPort]

/-- A presentation that the port takes: the sequencer stands at the first entry (R25). -/
theorem step_begin {a : Agent} {i : Instr} {rest : List Input} (hw : s.cfg.wf = true)
    (hp : s.port = .begin a (encode i) :: rest) (hport : portRefusal s a i = none) :
    step s = .next (((s.setPort rest).start a i []).reseq a (listing s.cfg i ++ [.idle]) 1) := by
  rw [step_input hw hp, take, presentOnly_encode (s := s.setPort rest) hport]
  simp [State.start, State.reseq]

/-- A micro-step of an operation that goes on. -/
theorem step_micro {a : Agent} {pick n : Nat} {m : Micro} {ms rest : List Micro} {ps : List Input} {t : State}
    (hw : s.cfg.wf = true) (hp : s.port = .micro a pick :: ps) (hm : m ≠ .idle)
    (hu : unit a pick m (s.setPort ps) = .to rest t) (ho : (s.ex a).op ≠ none) :
    ∃ k, step (s.reseq a (m :: ms) n) = .next (t.reseq a (rest ++ ms) k) := by
  have hbusy := unit_busy (pick := pick) (s := s.setPort ps) hm ho
  rw [hu] at hbusy
  obtain ⟨hop, -⟩ := hbusy
  obtain ⟨k, hk⟩ := State.advance_reseq hop (m :: ms) (rest ++ ms) n
  refine ⟨k, ?_⟩
  rw [step_input (by simpa using hw) (by simpa using hp), State.setPort_reseq, take]
  simp only [microStep, State.reseq_ex, unit_reseq _ a _ n pick hm, hu, Next.reseq_to, hk]

/-- The last micro-step of an operation. -/
theorem step_micro_idle {a : Agent} {pick n : Nat} {ps : List Input} (hw : s.cfg.wf = true)
    (hp : s.port = .micro a pick :: ps) : step (s.reseq a [.idle] n) = .next ((s.setPort ps).finish a) := by
  rw [step_input (by simpa using hw) (by simpa using hp), State.setPort_reseq, take]
  simp only [microStep, State.reseq_ex, unit, State.finish_reseq]
  rw [State.advance_idle (by simp [State.finish_ex])]

/-- A word written by a free firmware while agent `a` is inside an operation (R253). -/
theorem step_fwFree {a : Agent} {n : Nat} {ms : List Micro} {ps : List Input} {r : Region} {off : Nat} {v : Word}
    (hw : s.cfg.wf = true) (hp : s.port = .env (.fwFree r off v) :: ps) (hf : wordFits (s.cfg.regionSize r) off = true) :
    step (s.reseq a ms n) = .next (((s.setPort ps).store r off v).reseq a ms n) := by
  have hmove : (s.setPort ps).move (.fwFree r off v) = (s.setPort ps).store r off v :=
    if_pos (by simpa [EnvMove.enabled] using hf)
  have hstand : ((s.setPort ps).reseq a ms n).move (.fwFree r off v) = ((s.setPort ps).store r off v).reseq a ms n := by
    rw [State.reseq, State.move_setEx, hmove, State.reseq, State.store_ex]
  rw [step_input (by simpa using hw) (by simpa using hp), State.setPort_reseq]
  exact congrArg _ hstand

end

/-! ## What a listing keeps of a word read -/

/-- An accessible word other than `ISR` is kept as it reads, in whichever local word. -/
theorem State.readStep_loc {s : State} (a : Agent) {r : Region} {off : Nat} (ha : s.inaccessible r off = false)
    (hi : s.isIsr r off = false) (sl : Slot) :
    (readStep a r off sl s).loc a = (s.loc a).setSlot (s.word r off) sl := by
  have hkept : kept s a r off sl = s.word r off := by
    cases sl with
    | isr => simp [kept, State.seen, ha, hi]
    | _ => exact s.read32_fst a ha hi
  simp [readStep, hkept]

/-! ## The first read of a host operation, and a word written after it -/

theorem portRefusal_host {s : State} {i : Instr} (hat : s.attached = true) (ho : (s.ex .host).op = none)
    (hh : s.halt = false) (hmem : .host ∈ presenters i) (hc : contractBreach s.cfg i = none) :
    portRefusal s .host i = none :=
  portRefusal_eq_none (s := { s with presenter := .host }) ⟨hat, ho, fun _ => hh, hmem⟩ hc

/-- From `s` to `u` the host has begun operation `i` and read the word at `off` of region `r` into `sl`; `ps` is still to come. -/
structure HasRead (i : Instr) (r : Region) (off : Nat) (sl : Slot) (ps : List Input) (s u : State) : Prop where
  cfg : u.cfg = s.cfg
  port : u.port = ps
  regs : u.regs = s.regs
  mem : ∀ g, u.mem g = s.mem g
  inaccessible : ∀ g x, u.inaccessible g x = s.inaccessible g x
  op : (u.ex .host).op = some i
  loc : u.loc .host = ({} : Locals).setSlot (s.word r off) sl

/-- What the machine's state holds after the presentation and the read, the next input taken each time. -/
theorem hasRead {s : State} {i : Instr} {r : Region} {off : Nat} (ha : s.inaccessible r off = false)
    (hi : s.isIsr r off = false) (sl : Slot) (p q ps : List Input) :
    HasRead i r off sl ps s
      ((readStep .host r off sl (((s.setPort p).start .host i []).setPort q)).setPort ps) where
  cfg := by simp
  port := rfl
  regs := by simp
  mem := by simp
  inaccessible := by simp
  op := by simp [State.readStep_ex_op, State.start_ex]
  loc := by
    rw [State.setPort_loc, State.readStep_loc .host (by simpa using ha) (by simpa using hi)]
    simp [State.loc, State.start_ex]

/-- The host begins an operation and reads the first word of it, and then a free firmware writes a word. -/
theorem stepN_hasRead {s : State} {i : Instr} {pick : Nat} {m : Micro} {ms rest : List Micro} {r : Region} {off off' : Nat}
    {sl : Slot} {v : Word} {ps : List Input} (hw : s.cfg.wf = true) (hport : portRefusal s .host i = none)
    (hms : listing s.cfg i ++ [.idle] = m :: ms) (hm : m ≠ .idle)
    (hu : ∀ t, unit .host pick m t = .to rest (readStep .host r off sl t)) (ha : s.inaccessible r off = false)
    (hi : s.isIsr r off = false) (hf : wordFits (s.cfg.regionSize r) off' = true)
    (hp : s.port = .begin .host (encode i) :: .micro .host pick :: .env (.fwFree r off' v) :: ps) :
    ∃ u k, HasRead i r off sl ps s u ∧
      ∀ n, stepN (n + 3) s = stepN n ((u.store r off' v).reseq .host (rest ++ ms) k) := by
  have hbegin := step_begin hw hp hport
  rw [hms] at hbegin
  set s₁ := (s.setPort (.micro .host pick :: .env (.fwFree r off' v) :: ps)).start .host i [] with hs₁
  have hs₁port : s₁.port = .micro .host pick :: .env (.fwFree r off' v) :: ps := by simp [hs₁]
  obtain ⟨k, hread⟩ := step_micro (n := 1) (ms := ms) (by simpa [hs₁] using hw) hs₁port hm (hu _)
    (by simp [hs₁, State.start_ex])
  refine ⟨_, k, hasRead ha hi sl (.micro .host pick :: .env (.fwFree r off' v) :: ps) (.env (.fwFree r off' v) :: ps)
    ps, fun n => ?_⟩
  rw [stepN_succ hbegin, stepN_succ hread,
    stepN_succ (step_fwFree (r := r) (off := off') (v := v) (ps := ps) (by simpa [hs₁] using hw) (by simp)
      (by simpa [hs₁] using hf))]

/-! ## The lost update (R83, R195) -/

/-- The write half of an `Update32` of a register that is accessible and free of the power status field. -/
theorem State.mergeStep_reg (s : State) (a : Agent) (g : DevReg) (m v : Word) (hw : s.cfg.wf = true)
    (ha : s.inaccessible .dsp (regOff s.cfg g) = false) (hp : s.isPm .dsp (regOff s.cfg g) = false) :
    (mergeStep a .dsp (regOff s.cfg g) m v s).regs = s.regs.set g (merged (s.loc a).old m v) ∧
      ∀ r, (mergeStep a .dsp (regOff s.cfg g) m v s).mem r = s.mem r := by
  simp [mergeStep, s.write32_reg a g _ hw ha hp]

/-- Between its read and its write the firmware writes the register of an `Update32`: what is written is made of the word read
before, and the firmware's word is gone. -/
theorem mergeStep_after_fwFree {i : Instr} {g : DevReg} {ps : List Input} {s u : State} (m val v : Word)
    (hw : s.cfg.wf = true) (hplain : s.registersPlain) (hu : HasRead i .dsp (regOff s.cfg g) .old ps s u) :
    let t := mergeStep .host .dsp (regOff s.cfg g) m val ((u.store .dsp (regOff s.cfg g) v).setPort [])
    (∀ g', t.regs.get g' = if g' = g then merged (s.regs.get g) m val else s.regs.get g') ∧ ∀ r, t.mem r = s.mem r := by
  obtain ⟨hacc, hpm⟩ := State.registersPlain_reg hplain g
  have hwu : u.cfg.wf = true := hu.cfg ▸ hw
  have hpmu : u.isPm .dsp (regOff s.cfg g) = false := by rwa [State.isPm_congr hu.cfg]
  have hold : (u.loc .host).old = s.regs.get g := by
    rw [hu.loc]
    exact s.word_reg g hw hpm
  have hwritten := u.store_reg g v hwu (by rwa [hu.cfg])
  obtain ⟨hregs, hmem⟩ := State.mergeStep_reg ((u.setReg g v).setPort []) .host g m val (by simpa using hwu)
    (by simpa [hu.inaccessible, hu.cfg] using hacc) (by simpa [hu.cfg] using hpmu)
  simp only [State.setPort_cfg, State.setReg_cfg, hu.cfg] at hregs hmem hwritten
  simp only [hwritten]
  refine ⟨fun g' => ?_, fun r => by simp [hmem, hu.mem]⟩
  rw [hregs]
  by_cases hg : g' = g <;> simp [hg, hold, hu.regs]

/-- Settles O46: what `Update32` writes is made of the word read before the firmware wrote. -/
theorem lostUpdate : Obligations.LostUpdate := by
  intro s v hw hat ho hh hplain hp
  obtain ⟨hacc, hpm⟩ := State.registersPlain_reg hplain .cmdi
  have hisr : s.isIsr .dsp (regOff s.cfg .cmdi) = false := by simp [State.isIsr, regOff_ne_isr hw .cmdi]
  obtain ⟨u, k, hu, hsteps⟩ := stepN_hasRead (rest := []) hw
    (portRefusal_host (i := .cmddone) hat ho hh (by simp [presenters]) rfl) rfl (by simp) (fun _ => rfl) hacc hisr
    (wordFits_reg hw .cmdi) hp
  set w := u.store .dsp s.cfg.cmdiOff v with hws
  set m := s.cfg.cmdiBusy ||| s.cfg.cmdiDone with hm
  obtain ⟨k', hlast⟩ := step_micro (s := w) (a := .host) (pick := 0) (n := k)
    (m := .merge .dsp s.cfg.cmdiOff m s.cfg.cmdiDone) (ps := [])
    (by simpa [hws, hu.cfg] using hw) (by simp [hws, hu.port]) (by simp) rfl (by simp [hws, hu.op])
  set t := mergeStep .host .dsp s.cfg.cmdiOff m s.cfg.cmdiDone (w.setPort []) with ht
  obtain ⟨hregs, hmem⟩ : (∀ g, t.regs.get g = if g = .cmdi then merged s.regs.cmdi m s.cfg.cmdiDone else s.regs.get g) ∧
    ∀ r, t.mem r = s.mem r := mergeStep_after_fwFree (g := .cmdi) m s.cfg.cmdiDone v hw hplain hu
  have hdone : s.cfg.cmdiDone &&& m = s.cfg.cmdiDone := by
    ext j hj
    cases h : s.cfg.cmdiDone[j] <;> simp [hm, h]
  refine ⟨_, (hsteps 1).trans (stepN_succ hlast), ?_, ?_, fun g hg => ?_, fun r x => ?_⟩
  · have hcmdi : t.regs.cmdi = merged s.regs.cmdi m s.cfg.cmdiDone := hregs .cmdi
    rw [State.reseq_regs, hcmdi, merged, hdone]
  · simp [ht, hws, hu.op]
  · rw [State.reseq_regs, hregs, if_neg hg]
  · rw [State.reseq_mem, hmem]

/-! ## The torn read (R75, R287) -/

/-- A plain word reads as the word written to it. -/
theorem State.word_store_plain {s : State} {r : Region} {off : Nat} (h : s.plainWord r off) (v : Word) :
    (s.store r off v).word r off = v := by
  obtain ⟨-, hreg, hpm⟩ := h
  rw [s.word_store_same r off v (State.isIsr_of_plain hreg), State.overlay, if_neg (by simp [hpm])]

@[simp] theorem State.result01Step_cfg (s : State) (a : Agent) : (result01Step a s).cfg = s.cfg := by simp [result01Step]
@[simp] theorem State.result01Step_port (s : State) (a : Agent) : (result01Step a s).port = s.port := by
  simp [result01Step]
@[simp] theorem State.result01Step_ex (s : State) (a : Agent) :
    (result01Step a s).ex a = { s.ex a with result0 := (s.loc a).lo, result1 := (s.loc a).hi } := by simp [result01Step]

/-- The end of `READ64` after its two reads (R113). -/
theorem stepN_read64_end {s : State} {k : Nat} (hw : s.cfg.wf = true)
    (hp : s.port = [.micro .host 0, .micro .host 0, .micro .host 0]) (ho : (s.ex .host).op ≠ none) :
    ∃ t, stepN 3 (s.reseq .host [.result01, .ok, .idle] k) = .next t ∧ Ended .host .ok 0 t ∧
      (t.ex .host).result0 = (s.loc .host).lo ∧ (t.ex .host).result1 = (s.loc .host).hi := by
  obtain ⟨k₁, h₁⟩ := step_micro (n := k) (m := .result01) (ms := [.ok, .idle]) hw hp (by simp) rfl ho
  set u := result01Step .host (s.setPort [.micro .host 0, .micro .host 0]) with hu
  obtain ⟨k₂, h₂⟩ := step_micro (s := u) (a := .host) (pick := 0) (n := k₁) (m := .ok) (ms := [.idle])
    (ps := [.micro .host 0]) (by simpa [hu] using hw) (by simp [hu]) (by simp) rfl
    (by simpa [hu] using ho)
  set w := (u.setPort [.micro .host 0]).result .host .ok 0 with hwr
  have h₃ := step_micro_idle (s := w) (a := .host) (pick := 0) (n := k₂) (ps := [])
    (by simpa [hwr, hu] using hw) (by simp [hwr])
  refine ⟨_, by rw [stepN_succ h₁]; exact (stepN_succ h₂).trans (stepN_succ h₃), ?_, ?_, ?_⟩
  · simp [Ended, State.finish_ex, hwr, State.result_ex]
  · simp [State.finish_ex, hwr, State.result_ex, hu]
  · simp [State.finish_ex, hwr, State.result_ex, hu]

/-- `READ64` that reads the word at `o₁` first, a firmware write to the word at `o₂`, and then the read of that word. -/
theorem stepN_read64_torn {s : State} {r : Region} {off v : Word} {pick o₁ o₂ : Nat} {sl₁ sl₂ : Slot}
    (hw : s.cfg.wf = true) (hport : portRefusal s .host (.read64 r off) = none)
    (hu : ∀ t, unit .host pick (.read64 r off.toNat) t = .to [.read r o₂ sl₂] (readStep .host r o₁ sl₁ t))
    (h₁ : s.plainWord r o₁) (h₂ : s.plainWord r o₂) (hf : wordFits (s.cfg.regionSize r) o₂ = true)
    (hp : s.port = [.begin .host (encode (.read64 r off)), .micro .host pick, .env (.fwFree r o₂ v),
      .micro .host 0, .micro .host 0, .micro .host 0, .micro .host 0]) :
    ∃ t, stepN 7 s = .next t ∧ Ended .host .ok 0 t ∧
      (t.ex .host).result0 = ((({} : Locals).setSlot (s.word r o₁) sl₁).setSlot v sl₂).lo ∧
      (t.ex .host).result1 = ((({} : Locals).setSlot (s.word r o₁) sl₁).setSlot v sl₂).hi := by
  obtain ⟨hacc₁, hreg₁, -⟩ := h₁
  obtain ⟨u, k, hread, hsteps⟩ := stepN_hasRead hw hport rfl (by simp) hu hacc₁ (State.isIsr_of_plain hreg₁) hf hp
  have hplain : u.plainWord r o₂ := by
    simpa only [State.plainWord, hread.inaccessible, hread.cfg, State.isPm_congr hread.cfg] using h₂
  have hword := State.word_store_plain hplain v
  obtain ⟨hacc₂, hreg₂, -⟩ := hplain
  set w := u.store r o₂ v with hwst
  obtain ⟨k', hsecond⟩ := step_micro (s := w) (a := .host) (pick := 0) (n := k) (m := .read r o₂ sl₂)
    (ms := [.result01, .ok, .idle]) (ps := [.micro .host 0, .micro .host 0, .micro .host 0])
    (by simpa [hwst, hread.cfg] using hw) (by simp [hwst, hread.port]) (by simp) rfl (by simp [hwst, hread.op])
  set x := readStep .host r o₂ sl₂ (w.setPort [.micro .host 0, .micro .host 0, .micro .host 0]) with hx
  have hloc : x.loc .host = (({} : Locals).setSlot (s.word r o₁) sl₁).setSlot v sl₂ := by
    rw [hx, State.readStep_loc .host (by simpa [hwst] using hacc₂) (by simpa [hwst] using State.isIsr_of_plain hreg₂),
      State.setPort_word, hword, State.setPort_loc, hwst, State.store_loc, hread.loc]
  rw [← hloc]
  obtain ⟨t, hend, hended, hresults⟩ := stepN_read64_end (s := x) (k := k') (by simpa [hx, hwst, hread.cfg] using hw)
    (by simp [hx]) (by simp [hx, hwst, State.readStep_ex_op, hread.op])
  exact ⟨t, (hsteps 4).trans ((stepN_succ hsecond).trans hend), hended, hresults⟩

/-- Settles O47: an even `pick` reads the low word first and an odd one the high word; the other is read after the write. -/
theorem tornRead64 : Obligations.TornRead64 := by
  intro s r off v pick hw hat ho hh ha hr hlo hhi hp
  have hr' : off.toNat + 8 ≤ s.cfg.regionSize r := hr
  have hc : contractBreach s.cfg (.read64 r off) = none := by
    simp [contractBreach, Instr.breach, aligned, rangeBreach, regionFits, ha, hr']
  have hport := portRefusal_host hat ho hh (by simp [presenters]) hc
  by_cases hpick : pick % 2 = 0
  · have hfits : wordFits (s.cfg.regionSize r) (off.toNat + 4) = true := wordFits_iff.2 (by omega)
    simp only [hpick, if_true] at hp ⊢
    exact stepN_read64_torn (sl₁ := .lo) (sl₂ := .hi) hw hport (fun t => by simp [unit, read64Step, hpick]) hlo hhi
      hfits hp
  · have hfits : wordFits (s.cfg.regionSize r) off.toNat = true := wordFits_iff.2 (by omega)
    simp only [hpick, if_false] at hp ⊢
    exact stepN_read64_torn (sl₁ := .hi) (sl₂ := .lo) hw hport (fun t => by simp [unit, read64Step, hpick]) hhi hlo
      hfits hp

end Sys2Proof.Machine
end

section
/-! PROOFS. Descriptors: decoding gives back what encoding laid out (R90 to R94, R104), which descriptors are legal (R96), what an
illegal one does (R97), who may present which operation (R98), and the halted host port (R99). -/

namespace Sys2Proof.Machine

/-! ## Decode and encode (R90 to R94, R104) -/

/-- The decoder reads the sixteen bytes of a descriptor and leaves what follows them (R104). -/
theorem decode_descBytes_append (d : Desc) (rest : List Byte) :
    decode (descBytes d ++ rest) = (decodeDesc d).map (·, rest) := by
  simp only [descBytes, wordBytes, List.cons_append, List.nil_append, decode, wordOf_wordByte, descOf_descWord]
  cases decodeDesc d <;> rfl

/-- Settles O2: the bytes are those of a descriptor, and the descriptor is read back word by word. -/
theorem decodeEncode : Obligations.DecodeEncode := by
  intro i rest
  rw [encodeBytes, decode_descBytes_append, decodeDesc_encode]
  rfl

theorem decode_of_encodeBytes {i : Instr} {bs : List Byte} (h : encodeBytes i = bs) : decode bs = .ok (i, []) := by
  rw [← h, ← List.append_nil (encodeBytes i)]
  exact decodeEncode i []

/-- Settles O1: each of the six is the encoding of its operation. -/
theorem decodeKnownWords : Obligations.DecodeKnownWords :=
  ⟨decode_of_encodeBytes (by decide), decode_of_encodeBytes (by decide), decode_of_encodeBytes (by decide),
    decode_of_encodeBytes (by decide), decode_of_encodeBytes (by decide), decode_of_encodeBytes (by decide)⟩

/-! ## Legal descriptors (R96) -/

/-- The codes of the six access operations (R93). -/
def accessCodes : List (BitVec 8) := [0x01, 0x02, 0x03, 0x04, 0x05, 0x06]

/-- The eighteen codes (R93). -/
def opCodes : List (BitVec 8) :=
  [0x01, 0x02, 0x03, 0x04, 0x05, 0x06, 0x10, 0x11, 0x12, 0x20, 0x21, 0x22, 0x23, 0x30, 0x31, 0x32, 0x40, 0x41]

theorem opcode_mem (i : Instr) : i.opcode.setWidth 8 ∈ opCodes := by
  cases i <;> (simp only [Instr.opcode]; decide)

/-- An operation without a region operand is decoded only from a word whose `W0[8]` is clear (R96). -/
theorem plainOp_eq_ok {w : Word} {i j : Instr} : plainOp w j = .ok i ↔ w.getLsbD 8 = false ∧ j = i := by
  unfold plainOp
  split <;> simp_all

/-- The word of which the decoder makes `i`: `W0[7:0]` is the code of `i`, `W0[8]` the region of `i` (R91, R93, R96). -/
theorem decodeOpcode_inv {w off a b : Word} {i : Instr} (h : decodeOpcode w off a b = .ok i) :
    i.opcode = (w.extractLsb' 0 8).setWidth 32 ∧ descWord (encode i) 0 = i.opcode ||| regionBit (regionOf w) ∧
      (w.getLsbD 8 = true → i.opcode.setWidth 8 ∈ accessCodes) := by
  rw [← BitVec.ofNat_toNat]
  unfold decodeOpcode at h
  split at h
  iterate 6
    next hcode =>
      cases h
      refine ⟨by rw [hcode]; rfl, Laws.descWord_descOf_0 _ _ _ _, fun _ => ?_⟩
      simp only [Instr.opcode]
      decide
  iterate 12
    next hcode =>
      obtain ⟨hbit, rfl⟩ := plainOp_eq_ok.1 h
      refine ⟨by rw [hcode]; rfl, ?_, fun hset => by rw [hbit] at hset; cases hset⟩
      simp only [encode, Laws.descWord_descOf_0, regionOf, hbit, Bool.false_eq_true, if_false, regionBit,
        BitVec.ofNat_eq_ofNat, BitVec.or_zero]
  cases h

/-- Which words the decoder makes an operation of, `W0[31:9]` aside (R96 (2), (3)). -/
theorem decodeOpcode_ok_iff (w off a b : Word) :
    (∃ i, decodeOpcode w off a b = .ok i) ↔
      w.extractLsb' 0 8 ∈ opCodes ∧ (w.getLsbD 8 = true → w.extractLsb' 0 8 ∈ accessCodes) := by
  constructor
  · rintro ⟨i, h⟩
    obtain ⟨hcode, -, hregion⟩ := decodeOpcode_inv h
    have hlow : i.opcode.setWidth 8 = w.extractLsb' 0 8 := by rw [hcode]; simp
    exact hlow ▸ ⟨opcode_mem i, hregion⟩
  · rintro ⟨hcode, hregion⟩
    generalize hc : w.extractLsb' 0 8 = c at hcode hregion
    cases hbit : w.getLsbD 8 with
    | true =>
      have hacc := hregion hbit
      simp only [accessCodes, List.mem_cons, List.not_mem_nil, or_false] at hacc
      rcases hacc with rfl | rfl | rfl | rfl | rfl | rfl <;> simp [decodeOpcode, hc]
    | false =>
      have hplain (i : Instr) : plainOp w i = .ok i := plainOp_eq_ok.2 ⟨hbit, rfl⟩
      simp only [opCodes, List.mem_cons, List.not_mem_nil, or_false] at hcode
      rcases hcode with rfl | rfl | rfl | rfl | rfl | rfl | rfl | rfl | rfl | rfl | rfl | rfl | rfl | rfl | rfl | rfl | rfl |
        rfl <;> simp [decodeOpcode, hplain, hc]

/-! ### The first word, bit by bit (R91) -/

theorem getLsbD_regionBit (r : Region) (k : Nat) : (regionBit r).getLsbD k = (decide (r = .comp) && decide (k = 8)) := by
  cases r with
  | dsp => simp [regionBit]
  | comp =>
    rw [show regionBit .comp = BitVec.twoPow 32 8 from rfl, BitVec.getLsbD_twoPow]
    simp [eq_comm]

theorem and_255_eq_code (w : Word) : w &&& 0xFF = (w.extractLsb' 0 8).setWidth 32 := by
  apply BitVec.eq_of_toNat_eq
  rw [BitVec.toNat_and, show (0xFF : Word).toNat = 2 ^ 8 - 1 from rfl, Nat.and_two_pow_sub_one_eq_mod]
  simp
  omega

/-- A word with `W0[31:9] = 0` is its code with its region bit. -/
theorem code_or_regionBit {w : Word} (h : w.extractLsb' 9 23 = 0) :
    (w.extractLsb' 0 8).setWidth 32 ||| regionBit (regionOf w) = w := by
  ext k hk
  simp only [← BitVec.getLsbD_eq_getElem, BitVec.getLsbD_or, getLsbD_regionBit, BitVec.getLsbD_setWidth,
    BitVec.getLsbD_extractLsb', hk, regionOf]
  rcases lt_trichotomy k 8 with hlt | rfl | hgt
  · simp [hlt, hlt.ne]
  · cases w.getLsbD 8 <;> simp
  · have hres : (w.extractLsb' 9 23).getLsbD (k - 9) = false := by rw [h]; simp
    rw [BitVec.getLsbD_extractLsb', show 9 + (k - 9) = k by omega] at hres
    simpa [show ¬k < 8 by omega, hgt.ne', show k - 9 < 23 by omega] using hres

theorem decodeDesc_eq_ok {d : Desc} {i : Instr} :
    decodeDesc d = .ok i ↔ (descWord d 0).extractLsb' 9 23 = 0 ∧
      decodeOpcode (descWord d 0) (descWord d 1) (descWord d 2) (descWord d 3) = .ok i := by
  unfold decodeDesc
  split <;> simp_all

theorem decodeDesc_ok_iff (d : Desc) :
    (∃ i, decodeDesc d = .ok i) ↔ (descWord d 0).extractLsb' 9 23 = 0 ∧ (descWord d 0).extractLsb' 0 8 ∈ opCodes ∧
      ((descWord d 0).getLsbD 8 = true → (descWord d 0).extractLsb' 0 8 ∈ accessCodes) := by
  simp only [decodeDesc_eq_ok, exists_and_left, decodeOpcode_ok_iff]

/-- Settles O3: legality is a condition on `W0`, and so are the code and the region. -/
theorem legalDescriptors : Obligations.LegalDescriptors := by
  intro d
  refine ⟨decodeDesc_ok_iff d, fun i h => ?_, fun d' hd => by rw [decodeDesc_ok_iff, decodeDesc_ok_iff, hd]⟩
  obtain ⟨hres, hop⟩ := decodeDesc_eq_ok.1 h
  obtain ⟨hcode, hword, -⟩ := decodeOpcode_inv hop
  exact ⟨by rw [hcode, and_255_eq_code], by rw [hword, hcode, code_or_regionBit hres]⟩

/-! ## The command port (R97 to R99) -/

/-- An open port asks whether the agent may present the operation, then for the caller's contract (R98, R67). -/
theorem portRefusal_of_open {s : State} {a : Agent} (h : portClosed s a = none) (i : Instr) :
    portRefusal s a i = if a ∈ presenters i then refusalOf (contractBreach s.cfg i) else some .notPermitted := by
  unfold portClosed at h
  split_ifs at h with hdet hbusy hhalt
  simp [portRefusal, hdet, hbusy, hhalt]

/-- R98, agent by agent. -/
theorem mem_presenters_iff (a : Agent) (i : Instr) :
    a ∈ presenters i ↔ match a with
      | .irq => i = .irqimm
      | .worker => i = .irqdefer ∨ (∃ h e, i = .getreply h e) ∨ (∃ b h n, i = .mboxrd b h n) ∨
          (∃ r o h n, i = .blkrd r o h n) ∨ i = .cmddone ∨ i = .fwready ∨ ∃ o c m, i = .paniccap o c m
      | .host => i ≠ .irqimm ∧ i ≠ .irqdefer := by
  cases a with
  | host => cases i <;> simp [presenters]
  | irq => cases i <;> simp [presenters]
  | worker => cases i <;> simp [presenters]

/-- Settles O6: the port is open, so that what is left to say is who may present what. -/
theorem wrongAgentRefused : Obligations.WrongAgentRefused := by
  intro s i may hat ho hh hmay
  have hmem := hmay.trans (mem_presenters_iff s.presenter i).symm
  have hport := portRefusal_of_open (portClosed_eq_none hat ho hh) i
  rw [hmem]
  constructor
  · intro hnot
    rw [if_neg hnot] at hport
    rw [exec_eq_perform, perform, hport]
  · intro h
    rw [if_pos h] at hport
    rw [hport]
    cases contractBreach s.cfg i with
    | none => exact .inl rfl
    | some b => exact .inr ⟨b, rfl⟩

/-- An open port raises an illegal descriptor, presented whole or not: the operation never begins (R97). -/
theorem take_illegal {s : State} {a : Agent} {d : Desc} {e : DecodeError} (hopen : portClosed s a = none)
    (hd : decodeDesc d = .error e) {i : Input} (hi : i = .op a d ∨ i = .begin a d) :
    take i s = .next (s.raise a .illegalOp (descWord d 0)) := by
  rcases hi with rfl | rfl
  · simp only [take, presentRun, hopen, hd]
  · simp only [take, presentOnly, hopen, hd]

/-- What `ILLEGAL_OP` writes: code 6, the descriptor's `W0`, and the halt that a fatal kind sets (R231, R239). -/
theorem State.raise_illegalOp (s : State) (a : Agent) (w : Word) :
    s.raise a .illegalOp w = { s.setEx a { s.ex a with status := 6, errval := w } with halt := true } := by
  simp [State.raise, State.result, Kind.code, Kind.fatal]

/-- Settles O5: the open port raises the descriptor, and raising writes what the statement lists. -/
theorem illegalDescriptor : Obligations.IllegalDescriptor := by
  intro s a d e rest hw hport hat ho hh hd
  obtain ⟨i, hi, hinput⟩ : ∃ i, (i = .op a d ∨ i = .begin a d) ∧ s.port = i :: rest :=
    hport.elim (⟨_, .inl rfl, ·⟩) (⟨_, .inr rfl, ·⟩)
  have hopen : portClosed (s.setPort rest) a = none := portClosed_eq_none hat ho hh
  refine ⟨(s.setPort rest).raise a .illegalOp (descWord d 0), ?_, ?_, ?_, ?_, ?_⟩
  · rw [step_input hw hinput, take_illegal hopen hd hi]
  · simp [State.raise_ex, Kind.code]
  · simp [State.raise_ex]
  · simp [Kind.fatal]
  · rw [State.raise_illegalOp]
    cases a <;> rfl

/-- The halt closes the host's port (R99). -/
theorem portClosed_of_halt {s : State} (hat : s.attached = true) (ho : (s.ex .host).op = none) (hh : s.halt = true) :
    portClosed s .host = some .halted := by
  simp [portClosed, hat, ho, hh]

/-- Settles O7: the halt closes the host's port before the descriptor is decoded, and no other agent's port. -/
theorem haltClosesHostPort : Obligations.HaltClosesHostPort := by
  intro s a d rest hw hport hat ho hhalt
  constructor
  · rintro rfl
    have hclosed : portClosed (s.setPort rest) .host = some .halted := portClosed_of_halt hat ho hhalt
    rw [step_input hw hport]
    simp only [take, presentRun, hclosed]
  · intro ha i hd
    exact stepRunsDecoded s a d i rest hw hport hat ho (fun h => absurd h ha) (by rw [decode_descBytes, hd]; rfl)

end Sys2Proof.Machine
end

section
/-! PROOFS. What no step undoes (R99, R21, R24, R46, R48 (d), R275): the rule of each operation of the state, every micro-step,
and then a step. -/

namespace Sys2Proof.Machine

namespace Grows

variable {s t u : State}

theorem refl (s : State) : Grows s s := by simp [Grows]

theorem trans (h : Grows s t) (h' : Grows t u) : Grows s u := by
  obtain ⟨hcfg, hhalt, hfwr, hexc, hdiag, hevents, hbus, htime, hatt⟩ := h
  obtain ⟨hcfg', hhalt', hfwr', hexc', hdiag', hevents', hbus', htime', hatt'⟩ := h'
  exact ⟨hcfg'.trans hcfg, hhalt' ∘ hhalt, hfwr' ∘ hfwr, hexc' ∘ hexc, hdiag.trans hdiag', hevents.trans hevents',
    hbus.trans hbus', htime.trans htime', hatt' ∘ hatt⟩

/-! ## The rules of the state's operations -/

theorem setEx (s : State) (a : Agent) (e : Exec) : Grows s (s.setEx a e) := by cases a <;> exact refl s

theorem setLoc (s : State) (a : Agent) (l : Locals) : Grows s (s.setLoc a l) := setEx s a _

/-- An operation ends with an error: `SEQ.halt` may be set, and is not cleared (R239). -/
theorem raise (s : State) (a : Agent) (k : Kind) (v : Word) : Grows s (s.raise a k v) := by
  simp +contextual [Grows, State.raise_halt]

/-- One more event (R46). -/
theorem emit (s : State) (e : Event) : Grows s (s.emit e) := by simp [Grows]

/-- An assignment to a context register sets a flag, appends to `CTX.DIAG`, or leaves all three as they are (R21, R24). -/
theorem ctxStep (s : State) (m : CtxMove) : Grows s (ctxStep s m) := by cases m <;> simp [Grows, Ctx.apply]

theorem pwrStep (s : State) (m : PwrMove) : Grows s (pwrStep s m) := by simp [Grows]

theorem read32 (s : State) (a : Agent) (r : Region) (off : Nat) : Grows s (s.read32 a r off).2 := by
  simp [Grows, State.read32_bus]

theorem read8 (s : State) (a : Agent) (r : Region) (x : Nat) : Grows s (s.read8 a r x).2 := by
  simp [Grows, State.read8_bus]

theorem write32 (s : State) (a : Agent) (r : Region) (off : Nat) (v : Word) : Grows s (s.write32 a r off v) := by
  simp [Grows]

/-- Time runs on, whatever the environment does meanwhile (R17, R48 (d)). -/
theorem delay (s : State) (a : Agent) (n : Nat) : Grows s (s.delay a n) := by simp [Grows]

theorem move (s : State) (m : EnvMove) : Grows s (s.move m) := by simp [Grows]

/-- A detach clears `attached` and nothing sets it again (R275). -/
theorem detach (s : State) : Grows s { s with attached := false } := by simp [Grows]

/-! ## Micro-steps -/

theorem readStep (s : State) (a : Agent) (r : Region) (off : Nat) (sl : Slot) : Grows s (readStep a r off sl s) :=
  (read32 s a r off).trans (setLoc _ a _)

theorem byteUnit (s : State) (a : Agent) (r : Region) (off : Nat) (dst : Dest) (k : Nat) :
    Grows s (byteUnit a r off dst k s) := by
  cases dst with
  | host base => exact read8 s a r (off + k)
  | buf base => exact (read8 s a r (off + k)).trans (setLoc _ a _)

theorem tailStep (s : State) (a : Agent) (r : Region) (off haddr n : Nat) : Grows s (tailStep a r off haddr n s) := by
  unfold Machine.tailStep
  split
  · exact refl s
  · exact write32 s.draw.2 a r off _

theorem pollStep (s : State) (a : Agent) (tries : Nat) : NextOk (Grows s) (fun _ => True) (pollStep a tries s) := by
  cases tries with
  | zero => exact nextOk_to (refl s)
  | succ n =>
    have hread : Grows s (pollRead a s).2 := read32 s a _ _
    simp only [Machine.pollStep]
    split
    · exact nextOk_to hread
    · exact nextOk_to hread

theorem callStep (s : State) (c : Consumer) : NextOk (Grows s) (fun _ => True) (callStep c s) := by
  unfold Machine.callStep
  split
  · split
    · exact nextOk_to (refl s)
    · trivial
  · exact nextOk_to (refl s)
  · exact nextOk_to (refl s)
  · exact nextOk_to (refl s)

theorem presentStep (s : State) (a : Agent) (c : Consumer) (d : Desc) :
    NextOk (Grows s) (fun _ => True) (presentStep a c d s) := by
  unfold Machine.presentStep
  split
  · exact nextOk_to (raise s a _ _)
  · split
    · exact nextOk_orRefuse (nextOk_to (setEx s a _))
    · trivial

theorem fwrBeginStep (s : State) (a : Agent) : NextOk (Grows s) (fun _ => True) (fwrBeginStep a s) := by
  unfold Machine.fwrBeginStep
  split
  · trivial
  · exact nextOk_to ((ctxStep s .fwrDone).trans (setLoc _ a _))

/-- Every micro-step, whatever its entry. -/
theorem unit (s : State) (a : Agent) (pick : Nat) (m : Micro) : NextOk (Grows s) (fun _ => True) (unit a pick m s) := by
  cases m with
  | read r off sl => exact nextOk_to (readStep s a r off sl)
  | write _ _ _ | merge _ _ _ _ => exact nextOk_to (write32 s a _ _ _)
  | read64 r off =>
    simp only [Machine.unit, read64Step]
    split <;> exact nextOk_to (readStep s a _ _ _)
  | write64 r off lo hi =>
    simp only [Machine.unit, write64Step]
    split <;> exact nextOk_to (write32 s a _ _ _)
  | copyIn r off haddr pend => exact nextOk_unitStep pick pend _ (refl s) fun k => write32 s a _ _ _
  | copyOut r off dst pend => exact nextOk_unitStep pick pend _ (refl s) fun k => byteUnit s a r off dst k
  | tail r off haddr n => exact nextOk_to (tailStep s a r off haddr n)
  | delay _ | pollWait _ => exact nextOk_to (delay s a _)
  | acquire =>
    simp only [Machine.unit, acquireStep]
    split
    · exact nextOk_to (refl s)
    · trivial
  | pwr p => exact nextOk_to (pwrStep s p)
  | poll n => exact pollStep s a n
  | raise k v => exact raise s a k v
  | ctx m => exact nextOk_to (ctxStep s m)
  | fwrOutbox | fwrInbox => exact nextOk_to (ctxStep s _)
  | emit _ | emitReply | emitMsg | fwrVersion | capEmit => exact nextOk_to (emit s _)
  | fwrExtdata => exact nextOk_to ((emit s _).trans (setLoc _ a _))
  | boxWrite _ _ _ | boxRead _ _ _ | hdrRead | fwrRead | readBack _ | winRead _ | capSnap | capStack =>
    exact nextOk_orRefuse (nextOk_to (refl s))
  | header => exact nextOk_orRefuse (nextOk_to (setLoc s a _))
  | ok | result0 | result01 | replyResult | judge _ | setWork | capBegin _ | ret _ _ | idle => exact nextOk_to (setEx s a _)
  | wakeOrNone =>
    simp only [Machine.unit, wakeStep]
    split <;> exact nextOk_to (refl s)
  | call c => exact callStep s c
  | present c d => exact presentStep s a c d
  | fwrBegin => exact fwrBeginStep s a
  | windows k n => cases n <;> exact nextOk_to (refl s)
  | zeroBox =>
    simp only [Machine.unit, zeroBoxStep]
    split <;> exact nextOk_to (refl s)
  | release | clearPending | handled | winDispatch | armEnd _ | given _ => exact nextOk_to (refl s)

/-! ## Steps -/

/-- What has grown since `s` goes on growing. -/
theorem nextOk_trans (h : Grows s t) :
    ∀ {n : Next}, NextOk (Grows t) (fun _ => True) n → NextOk (Grows s) (fun _ => True) n
  | .to _ _, ⟨hn, hrest⟩ => ⟨h.trans hn, hrest⟩
  | .raised _, hn => h.trans hn
  | .wait, _ | .refuse _, _ => trivial

/-- Growth since `s` as a property that micro-steps keep, whatever the entries. -/
theorem keeps (s : State) (a : Agent) : Keeps a (Grows s) (fun _ => True) where
  unit pick m t _ h _ := h.nextOk_trans (unit t a pick m)
  group r _ _ _ _ t h _ _ := h.trans (write32 t a r _ _)
  byte r off dst _ k t h _ _ := h.trans (byteUnit t a r off dst k)
  subIn _ _ _ _ _ _ _ := trivial
  subOut _ _ _ _ _ _ _ := trivial

theorem advance (s : State) (a : Agent) (todo : List Micro) : Grows s (s.advance a todo) := by
  cases ho : (s.ex a).op with
  | none => rw [State.advance_idle ho]; exact refl s
  | some i => rw [State.advance_eq ho]; exact setEx s a _

theorem runAgent {a : Agent} {todo : List Micro} (h : runAgent a todo s = .next t) : Grows s t :=
  (keeps s a).runAgent_ok (fun u _ _ hu _ => hu.trans (setEx u a _)) todo s t (refl s) (fun _ _ => trivial) h

theorem exec {i : Instr} (h : exec i s = .next t) : Grows s t := by
  rw [exec_eq_perform] at h
  exact (keeps s s.presenter).perform_ok (fun u _ _ hu _ => hu.trans (setEx u s.presenter _)) (setEx s s.presenter _)
    (fun _ _ => trivial) trivial h

theorem microStep {a : Agent} {pick : Nat} (h : microStep a pick s = .next t) : Grows s t := by
  unfold Machine.microStep at h
  split at h
  · cases h; exact refl s
  · rename_i m ms _
    have hunit := unit s a pick m
    split at h
    · rename_i e; rw [e] at hunit; obtain ⟨hu, -⟩ := hunit; cases h; exact hu.trans (advance _ a _)
    · rename_i e; rw [e] at hunit; cases h; exact Grows.trans hunit (advance _ a _)
    · cases h; exact refl s
    · cases h

/-- Growth since `s` as a property that steps keep. -/
theorem stepKeeps (s : State) : StepKeeps (Grows s) where
  port _ _ h := h
  presenter _ _ h := h
  lastTaken _ _ h := h
  detach t h := h.trans (detach t)
  raise t a k v h := h.trans (raise t a k v)
  move t m h := h.trans (move t m)
  start t a _ h _ := h.trans (setEx t a _)
  exec _ _ _ h _ he := h.trans (exec he)
  resume _ _ _ h _ hr := h.trans (runAgent hr)
  micro _ _ _ _ h hm := h.trans (microStep hm)

end Grows

/-- Settles O58: every operation of the state only adds to what `Grows` speaks of, and a step is made of these. -/
theorem growsKept : Obligations.GrowsKept := fun s _ h => (Grows.stepKeeps s).step (Grows.refl s) h

end Sys2Proof.Machine
end

section
/-! PROOFS. The six access operations from their presentation to their end (R111 to R118): each acts on the state and then on its
agent's record, and what it leaves unchanged is what its accesses leave unchanged. -/

namespace Sys2Proof.Machine

/-! ## From the presentation to the end -/

/-- The record of an agent whose operation `i` has begun (R25), with its local variables new. -/
def Exec.begun (e : Exec) (i : Instr) : Exec := { e with op := some i, step := 1, todo := [], loc := {} }

/-- The record of an agent whose operation has ended with `OK` (R25, R26); `RESULT0` and `RESULT1` stay. -/
def Exec.ended (e : Exec) : Exec :=
  { e with op := none, step := 0, todo := [], loc := {}, status := Kind.ok.code, errval := 0 }

/-- The six access operations have the codes 1 to 6 (R93); one that keeps its contract passes the checks before its first
micro-step (R110 (b)). -/
theorem contractBreach_of_inContract {c : Cfg} {i : Instr} (hi : i.opcode ≤ 6) (h : InContract c i) :
    contractBreach c i = none := by
  cases i with
  | read32 r off | write32 r off _ | read64 r off | write64 r off _ _ =>
    obtain ⟨haligned, hfits⟩ := h
    simp [contractBreach, Instr.breach, aligned, rangeBreach, regionFits, haligned, hfits]
  | blkrd r off haddr len =>
    obtain ⟨hfits, hhost⟩ := h
    have hbuffer : hostFits haddr len = true := decide_eq_true hhost
    simp [contractBreach, Instr.breach, rangeBreach, regionFits, hfits, hbuffer]
  | blkwr r off haddr len =>
    obtain ⟨haligned, hfits, hhost⟩ := h
    have hbuffer : hostFits haddr len = true := decide_eq_true hhost
    simp [contractBreach, Instr.breach, aligned, rangeBreach, regionFits, haligned, hfits, hbuffer]
  | _ => exact absurd hi (by simp [Instr.opcode])

/-- An access operation whose entries before the closing `OK` leave the state `u` and the record `e`. -/
theorem exec_access {s u : State} {i : Instr} {ms : List Micro} {e : Exec} (hp : Presentable s i)
    (hi : i.opcode ≤ 6) (hc : InContract s.cfg i) (hl : listing s.cfg i = ms ++ [.ok])
    (hrun : runList (entire 8 s.presenter) ms (s.start s.presenter i []) = .go (u.setEx s.presenter e)) :
    exec i s = .next (u.setEx s.presenter e.ended) := by
  have hok : runList (entire 8 s.presenter) (ms ++ [.ok]) (s.start s.presenter i []) =
      .go ((u.setEx s.presenter e).result s.presenter .ok 0) := by
    rw [runList_append hrun, runList_go (entire_ok ..), runList_nil]
  rw [exec_eq_perform, hl, perform_go (portRefusal_eq_none hp (contractBreach_of_inContract hi hc)) hok]
  simp [State.finish, State.result, Exec.ended]

/-- The same, where those entries leave the record as the operation's beginning has it. -/
theorem exec_access_quiet {s u : State} {i : Instr} {ms : List Micro} (hp : Presentable s i) (hi : i.opcode ≤ 6)
    (hc : InContract s.cfg i) (hl : listing s.cfg i = ms ++ [.ok])
    (hrun : ∀ e, runList (entire 8 s.presenter) ms (s.setEx s.presenter e) = .go (u.setEx s.presenter e)) :
    exec i s = .next (u.setEx s.presenter (s.ex s.presenter).ended) :=
  exec_access (e := (s.ex s.presenter).begun i) hp hi hc hl (hrun _)

/-- `READ32` (R111): one read, whose value is `RESULT0`. -/
theorem exec_read32_eq {s : State} {r : Region} {off : Word} (hp : Presentable s (.read32 r off))
    (hc : InContract s.cfg (.read32 r off)) :
    exec (.read32 r off) s = .next ((s.read32 s.presenter r off.toNat).2.setEx s.presenter
      { (s.ex s.presenter).ended with result0 := (s.read32 s.presenter r off.toNat).1 }) :=
  exec_access (ms := [.read r off.toNat .lo, .result0])
    (e := { (s.ex s.presenter).begun (.read32 r off) with
      loc := { lo := (s.read32 s.presenter r off.toNat).1 }
      result0 := (s.read32 s.presenter r off.toNat).1 })
    hp (by decide : (1 : Word) ≤ 6) hc rfl
    (by simp [runList_cons, State.start, readStep, State.read32_setEx, State.setLoc, State.loc, result0Step, kept,
      Locals.setSlot, Exec.begun])

/-- `WRITE32` (R112): one write. -/
theorem exec_write32_eq {s : State} {r : Region} {off v : Word} (hp : Presentable s (.write32 r off v))
    (hc : InContract s.cfg (.write32 r off v)) :
    exec (.write32 r off v) s =
      .next ((s.write32 s.presenter r off.toNat v).setEx s.presenter (s.ex s.presenter).ended) :=
  exec_access_quiet (ms := [.write r off.toNat v]) hp (by decide : (2 : Word) ≤ 6) hc rfl fun e => by
    rw [runList_go (entire_write ..), runList_nil, State.write32_setEx]

/-- The state after the two reads of `READ64`, low word first (R113). -/
def State.readTwo (s : State) (a : Agent) (r : Region) (off : Nat) : State :=
  ((s.read32 a r off).2.read32 a r (off + 4)).2

/-- `READ64` (R113): two reads, whose values are `RESULT0` and `RESULT1`. -/
theorem exec_read64_eq {s : State} {r : Region} {off : Word} (hp : Presentable s (.read64 r off))
    (hc : InContract s.cfg (.read64 r off)) :
    exec (.read64 r off) s = .next ((s.readTwo s.presenter r off.toNat).setEx s.presenter
      { (s.ex s.presenter).ended with
        result0 := (s.read32 s.presenter r off.toNat).1
        result1 := ((s.read32 s.presenter r off.toNat).2.read32 s.presenter r (off.toNat + 4)).1 }) :=
  exec_access (ms := [.read64 r off.toNat, .result01])
    (e := { (s.ex s.presenter).begun (.read64 r off) with
      loc := { lo := (s.read32 s.presenter r off.toNat).1
               hi := ((s.read32 s.presenter r off.toNat).2.read32 s.presenter r (off.toNat + 4)).1 }
      result0 := (s.read32 s.presenter r off.toNat).1
      result1 := ((s.read32 s.presenter r off.toNat).2.read32 s.presenter r (off.toNat + 4)).1 })
    hp (by decide : (3 : Word) ≤ 6) hc rfl
    (by simp [runList_cons, State.start, readStep, State.read32_setEx, State.setLoc, State.loc, result01Step, kept,
      Locals.setSlot, State.readTwo, Exec.begun])

/-- `WRITE64` (R114): two writes, low word first. -/
theorem exec_write64_eq {s : State} {r : Region} {off lo hi : Word} (hp : Presentable s (.write64 r off lo hi))
    (hc : InContract s.cfg (.write64 r off lo hi)) :
    exec (.write64 r off lo hi) s =
      .next (((s.write32 s.presenter r off.toNat lo).write32 s.presenter r (off.toNat + 4) hi).setEx s.presenter
        (s.ex s.presenter).ended) :=
  exec_access_quiet (ms := [.write64 r off.toNat lo hi]) hp (by decide : (4 : Word) ≤ 6) hc rfl fun e => by
    rw [runList_go (entire_write64 ..), runList_nil, State.write32_setEx, State.write32_setEx]

/-- Units that do not look at an agent's record, one after another. -/
theorem unitsLoop_setEx {f : Nat → State → State} {a : Agent} {e : Exec}
    (h : ∀ k t, f k (t.setEx a e) = (f k t).setEx a e) (b n : Nat) (s : State) :
    unitsLoop f b n (s.setEx a e) = (unitsLoop f b n s).setEx a e := by
  induction n generalizing b s with
  | zero => rfl
  | succ n ih => rw [unitsLoop, h, ih, unitsLoop]

theorem State.bulkOut_host_setEx (s : State) (a b : Agent) (e : Exec) (r : Region) (off base n : Nat) :
    (s.setEx a e).bulkOut b r off (.host base) n = (s.bulkOut b r off (.host base) n).setEx a e :=
  unitsLoop_setEx (fun k t => by simp only [byteUnit, State.read8_setEx]; cases a <;> rfl) 0 n s

theorem State.bulkIn_setEx (s : State) (a b : Agent) (e : Exec) (r : Region) (off h n : Nat) :
    (s.setEx a e).bulkIn b r off h n = (s.bulkIn b r off h n).setEx a e := by
  have hgroups := unitsLoop_setEx (f := groupUnit b r off h) (a := a) (e := e)
    (fun k t => by simp only [groupUnit, State.write32_setEx, State.setEx_hm]) 0 (n / 4) s
  unfold State.bulkIn tailStep
  rw [hgroups, State.draw_setEx, State.write32_setEx, State.setEx_hm]
  split <;> rfl

/-- `BLKRD` (R115): the bytes in ascending order. -/
theorem exec_blkrd_eq {s : State} {r : Region} {off haddr len : Word} (hp : Presentable s (.blkrd r off haddr len))
    (hc : InContract s.cfg (.blkrd r off haddr len)) :
    exec (.blkrd r off haddr len) s = .next ((s.bulkOut s.presenter r off.toNat (.host haddr.toNat) len.toNat).setEx
      s.presenter (s.ex s.presenter).ended) :=
  exec_access_quiet (ms := bulkRead r off.toNat (.host haddr.toNat) len.toNat) hp (by decide : (5 : Word) ≤ 6) hc rfl
    fun e => by rw [← List.append_nil (bulkRead ..), runList_bulkRead, runList_nil, State.bulkOut_host_setEx]

/-- `BLKWR` (R116): the full groups in ascending order, then the padded tail. -/
theorem exec_blkwr_eq {s : State} {r : Region} {off haddr len : Word} (hp : Presentable s (.blkwr r off haddr len))
    (hc : InContract s.cfg (.blkwr r off haddr len)) :
    exec (.blkwr r off haddr len) s = .next ((s.bulkIn s.presenter r off.toNat haddr.toNat len.toNat).setEx s.presenter
      (s.ex s.presenter).ended) :=
  exec_access_quiet (ms := bulkWrite r off.toNat haddr.toNat len.toNat) hp (by decide : (6 : Word) ≤ 6) hc rfl
    fun e => by rw [← List.append_nil (bulkWrite ..), runList_bulkWrite, runList_nil, State.bulkIn_setEx]

/-! ## How an operation ends: its agent's record -/

@[simp] theorem State.setEx_byteAt (s : State) (a : Agent) (e : Exec) (r : Region) (x : Nat) :
    (s.setEx a e).byteAt r x = s.byteAt r x := State.byteAt_congr (by simp) r x

theorem ended_setEx (u : State) (a : Agent) (e : Exec) : Ended a .ok 0 (u.setEx a e.ended) := by
  simp [Ended, Exec.ended]

theorem sameResults_setEx_ended (s u : State) (a : Agent) : SameResults a s (u.setEx a (s.ex a).ended) := by
  simp [SameResults, Exec.ended]

section
variable {a : Agent} {s u : State} {e : Exec}

@[simp] theorem sameBlock_setEx : SameBlock s (u.setEx a e) ↔ SameBlock s u := by simp [SameBlock]
@[simp] theorem sameDevice_setEx : SameDevice s (u.setEx a e) ↔ SameDevice s u := by simp [SameDevice]
@[simp] theorem sameRegions_setEx : SameRegions s (u.setEx a e) ↔ SameRegions s u := by simp [SameRegions]
@[simp] theorem sameHost_setEx : SameHost s (u.setEx a e) ↔ SameHost s u := by simp [SameHost]
@[simp] theorem sameSetting_setEx : SameSetting s (u.setEx a e) ↔ SameSetting s u := by simp [SameSetting]
@[simp] theorem silent_setEx : Silent s (u.setEx a e) ↔ Silent s u := by simp [Silent]

@[simp] theorem sameOthers_setEx : SameOthers a s (u.setEx a e) ↔ SameOthers a s u :=
  forall₂_congr fun b hb => by rw [State.ex_setEx, if_neg hb]

end

theorem SameAll.setEx {a : Agent} {s u : State} (h : SameAll a s u) (e : Exec) : SameAll a s (u.setEx a e) := by
  simpa [SameAll] using h

theorem SameButHost.setEx {a : Agent} {base n : Nat} {s u : State} (h : SameButHost a base n s u) (e : Exec) :
    SameButHost a base n s (u.setEx a e) := by
  simpa only [SameButHost, sameBlock_setEx, sameDevice_setEx, sameRegions_setEx, State.setEx_hm, sameOthers_setEx,
    sameSetting_setEx, silent_setEx] using h

theorem SameButRange.setEx {a : Agent} {r : Region} {off n : Nat} {s u : State} (h : SameButRange a r off n s u)
    (e : Exec) : SameButRange a r off n s (u.setEx a e) := by
  simpa only [SameButRange, sameBlock_setEx, State.setEx_pmhw, State.setEx_regs, State.setEx_mem, State.setEx_byteAt,
    sameHost_setEx, sameOthers_setEx, sameSetting_setEx, silent_setEx] using h

/-! ## Frames of the accesses -/

/-- A read changes nothing but the trace and the drawn-value counter (R69, R110 (d)). -/
theorem sameAll_read32 (s : State) (a b : Agent) (r : Region) (off : Nat) : SameAll a s (s.read32 b r off).2 := by
  simp [SameAll, SameBlock, SameDevice, SameRegions, SameHost, SameOthers, SameSetting, Silent]

theorem sameAll_readTwo (s : State) (a b : Agent) (r : Region) (off : Nat) : SameAll a s (s.readTwo b r off) := by
  simp [State.readTwo, SameAll, SameBlock, SameDevice, SameRegions, SameHost, SameOthers, SameSetting, Silent]

/-- A bulk read into host memory changes no host byte beyond its destination (R115). -/
theorem sameButHost_bulkOut (s : State) (a b : Agent) (r : Region) (off base n : Nat) :
    SameButHost a base n s (s.bulkOut b r off (.host base) n) := by
  obtain ⟨hbeyond, -⟩ := s.bulkOut_host_hm b r off base n
  refine ⟨?_, ?_, ?_, hbeyond, ?_, ?_, ?_⟩
  all_goals simp [SameBlock, SameDevice, SameRegions, SameOthers, SameSetting, Silent]

/-- A write changes nothing but what lies in its word (R112). -/
theorem sameButRange_write32 (s : State) (a b : Agent) (r : Region) {off : Nat} (v : Word) (ho : off % 4 = 0) :
    SameButRange a r off 4 s (s.write32 b r off v) := by
  have hother : ∀ g, ¬(r = .dsp ∧ off ≤ regOff s.cfg g ∧ regOff s.cfg g < off + 4) → regAt s.cfg r off ≠ some g := by
    intro g hg e
    obtain ⟨hr, hoff⟩ := regAt_some e
    exact hg ⟨hr, by omega, by omega⟩
  refine ⟨?_, ?_, fun g hg => s.regs_get_write32 b v (hother g hg), fun r' x hx => s.read_mem_write32 b v hx,
    fun r' x hx => s.byteAt_write32_other b v ho hx, ?_, ?_, ?_, ?_⟩
  all_goals simp [SameBlock, SameHost, SameOthers, SameSetting, Silent]

/-- A bulk write changes nothing but what lies in its rounded range (R116, R118). -/
theorem sameButRange_bulkIn (s : State) (a b : Agent) (r : Region) {off : Nat} (h n : Nat) (ho : off % 4 = 0) :
    SameButRange a r off (roundUp n) s (s.bulkIn b r off h n) := by
  refine ⟨?_, ?_, fun g hg => s.regs_get_bulkIn b h n hg, fun r' x hx => s.read_mem_bulkIn b h n hx,
    fun r' x hx => s.bulkIn_byteAt_other b h n ho hx, ?_, ?_, ?_, ?_⟩
  all_goals simp [SameBlock, SameHost, SameOthers, SameSetting, Silent]

/-- What is kept outside a range is kept outside a larger one. -/
theorem SameButRange.mono {a : Agent} {r : Region} {off off' n n' : Nat} {s t : State} (h : SameButRange a r off n s t)
    (hlow : off' ≤ off) (hhigh : off + n ≤ off' + n') : SameButRange a r off' n' s t := by
  obtain ⟨hblock, hpm, hregs, hmem, hbytes, hrest⟩ := h
  exact ⟨hblock, hpm, fun g hg => hregs g fun ⟨hr, h₁, h₂⟩ => hg ⟨hr, by omega, by omega⟩,
    fun r' x hx => hmem r' x fun ⟨hr, h₁, h₂⟩ => hx ⟨hr, by omega, by omega⟩,
    fun r' x hx => hbytes r' x fun ⟨hr, h₁, h₂⟩ => hx ⟨hr, by omega, by omega⟩, hrest⟩

theorem SameBlock.trans {s t u : State} (h : SameBlock s t) (h' : SameBlock t u) : SameBlock s u := by
  simp_all [SameBlock]

theorem SameSetting.trans {s t u : State} (h : SameSetting s t) (h' : SameSetting t u) : SameSetting s u := by
  simp_all [SameSetting]

theorem SameButRange.trans {a : Agent} {r : Region} {off n : Nat} {s t u : State} (h : SameButRange a r off n s t)
    (h' : SameButRange a r off n t u) : SameButRange a r off n s u := by
  obtain ⟨hblock, hpm, hregs, hmem, hbytes, hhost, hothers, hsetting, hevents, htime⟩ := h
  obtain ⟨hblock', hpm', hregs', hmem', hbytes', hhost', hothers', hsetting', hevents', htime'⟩ := h'
  have hcfg : t.cfg = s.cfg := hsetting.1
  rw [hcfg] at hregs'
  exact ⟨hblock.trans hblock', hpm'.trans hpm, fun g hg => (hregs' g hg).trans (hregs g hg),
    fun r' x hx => (hmem' r' x hx).trans (hmem r' x hx), fun r' x hx => (hbytes' r' x hx).trans (hbytes r' x hx),
    fun x => (hhost' x).trans (hhost x), fun b hb => (hothers' b hb).trans (hothers b hb), hsetting.trans hsetting',
    hevents'.trans hevents, htime'.trans htime⟩

/-! ## Words read and written -/

/-- The bytes of a plain word are those of plain memory (R30, R45). -/
theorem State.word_plain {s : State} {r : Region} {off : Nat} (h : s.plainWord r off) :
    s.word r off = Memory.readWord (s.mem r) off := by
  obtain ⟨-, hreg, hpm⟩ := h
  simp [State.word, State.overlay, hpm, State.stored, regAt_none hreg]

/-- What a write leaves in the bytes of a plain word (R112). -/
theorem State.read_mem_write32_plain {s : State} (a : Agent) {r : Region} {off i : Nat} (h : s.plainWord r off) (v : Word)
    (hi : i < 4) : Memory.read ((s.write32 a r off v).mem r) (off + i) = wordByte v i := by
  obtain ⟨hacc, hreg, hpm⟩ := h
  simp [State.write32, s.busWrite_eq v hacc, s.store_plain v hreg hpm, Memory.read_writeWord, hi]

@[simp] theorem State.write32_plainWord (s : State) (a : Agent) (r : Region) (off : Nat) (v : Word) (r' : Region) (x : Nat) :
    (s.write32 a r off v).plainWord r' x ↔ s.plainWord r' x := by simp [State.plainWord]

/-- What a write leaves in the register at its offset (R112, R30). -/
theorem State.regs_get_write32_same {s : State} (a : Agent) {off : Nat} {g : DevReg} (v : Word) (hw : s.cfg.wf = true)
    (ho : off = regOff s.cfg g) (ha : s.inaccessible .dsp off = false) (hpm : s.isPm .dsp off = false) :
    (s.write32 a .dsp off v).regs.get g = v := by
  subst ho
  simp [s.write32_reg a g v hw ha hpm]

/-- A write at an offset of R11 stores to a register, or nothing at `ISR`, and leaves plain memory (R30, R32). -/
theorem State.mem_store_offset {s : State} {off : Nat} (v : Word) (hw : s.cfg.wf = true) (ho : off ∈ s.cfg.offsets)
    (r : Region) : (s.store .dsp off v).mem r = s.mem r := by
  by_cases hisr : off = s.cfg.isrOff
  · rw [s.store_isr .dsp off v (by simp [State.isIsr, hisr])]
  · obtain ⟨g, rfl⟩ : ∃ g, regOff s.cfg g = off := by
      have hreg : off ∈ allRegs.map (regOff s.cfg) := by
        simp only [Cfg.offsets, List.mem_cons] at ho
        simp only [allRegs, List.map_cons, regOff, List.mem_cons]
        tauto
      obtain ⟨g, -, hg⟩ := List.mem_map.1 hreg
      exact ⟨g, hg⟩
    exact s.mem_store_of_some v (regAt_regOff hw g) r

theorem State.mem_write32_offset {s : State} (a : Agent) {off : Nat} (v : Word) (hw : s.cfg.wf = true)
    (ho : off ∈ s.cfg.offsets) (r : Region) : (s.write32 a .dsp off v).mem r = s.mem r := by
  rw [State.write32, State.busWrite_cases, State.record_mem]
  split
  · split
    · rw [State.mem_store_offset (s := s.draw.2) v (by simpa using hw) (by simpa using ho), State.draw_mem]
    · rw [State.draw_mem]
  · rw [State.mem_store_offset v hw ho]

/-! ## The obligations on words -/

/-- Settles O8, by the one read that `READ32` makes. -/
theorem read32Result : Obligations.Read32Result := by
  intro s r off hw hp ho hfits
  refine ⟨_, exec_read32_eq hp ⟨ho, hfits⟩, ended_setEx (e := { s.ex s.presenter with result0 := _ }) .., ?_, ?_, ?_, ?_,
    (sameAll_read32 ..).setEx _⟩
  · simp [Exec.ended]
  · intro hacc hisr
    simpa using s.read32_fst s.presenter hacc hisr
  · intro hplain i hi
    have ⟨hacc, hreg, _⟩ := hplain
    simp [s.read32_fst s.presenter hacc (State.isIsr_of_plain hreg), State.word_plain hplain,
      Memory.wordByte_readWord _ _ _ hi]
  · rintro g rfl hg hacc hpm
    have hisr : s.isIsr .dsp off.toNat = false := by simp [State.isIsr, hg, regOff_ne_isr hw g]
    rw [State.ex_setEx, if_pos rfl, s.read32_fst s.presenter hacc hisr, hg, s.word_reg g hw (hg ▸ hpm)]

/-- Settles O9, by the one write that `WRITE32` makes. -/
theorem write32Result : Obligations.Write32Result := by
  intro s r off v hw hp ho hfits
  refine ⟨_, exec_write32_eq hp ⟨ho, hfits⟩, ended_setEx .., sameResults_setEx_ended .., ?_, ?_, ?_,
    (sameButRange_write32 s s.presenter s.presenter r v ho).setEx _⟩
  · intro hplain i hi
    simpa using State.read_mem_write32_plain s.presenter hplain v hi
  · rintro g rfl hg hacc hpm
    simpa using State.regs_get_write32_same s.presenter v hw hg hacc hpm
  · rintro rfl hoffset r' x
    rw [State.setEx_mem, State.mem_write32_offset s.presenter v hw hoffset]

/-- Settles O10, by the two reads that `READ64` makes, the first of which leaves the second's word as it was. -/
theorem read64Result : Obligations.Read64Result := by
  intro s r off hw hp ho hfits
  refine ⟨_, exec_read64_eq hp ⟨ho, hfits⟩, ended_setEx (e := { s.ex s.presenter with result0 := _, result1 := _ }) ..,
    ?_, ?_, (sameAll_readTwo ..).setEx _⟩
  · intro hacc hisr
    simpa using s.read32_fst s.presenter hacc hisr
  · intro hacc hisr
    simpa using (s.read32 s.presenter r off.toNat).2.read32_fst s.presenter (off := off.toNat + 4) (r := r)
      (by simpa using hacc) (by simpa using hisr)

/-- Settles O11, by the two writes that `WRITE64` makes, neither of which changes the other's word. -/
theorem write64Result : Obligations.Write64Result := by
  intro s r off lo hi hw hp ho hfits
  set low := s.write32 s.presenter r off.toNat lo with hlow
  have hframe : SameButRange s.presenter r off.toNat 8 s (low.write32 s.presenter r (off.toNat + 4) hi) :=
    ((sameButRange_write32 s _ _ r lo ho).mono (by omega) (by omega)).trans
      ((sameButRange_write32 low _ _ r hi (by omega)).mono (by omega) (by omega))
  refine ⟨_, exec_write64_eq hp ⟨ho, hfits⟩, ended_setEx .., sameResults_setEx_ended .., ?_, ?_, ?_, ?_, hframe.setEx _⟩
  · intro hplain i hi'
    rw [State.setEx_mem, State.read_mem_write32 _ _ _ (by omega), State.read_mem_write32_plain _ hplain _ hi']
  · intro hplain i hi'
    rw [State.setEx_mem, State.read_mem_write32_plain _ (by simpa using hplain) _ hi']
  · rintro g rfl hg hacc hpm
    have hother : regAt low.cfg .dsp (off.toNat + 4) ≠ some g := fun e => by
      obtain ⟨-, hg'⟩ := regAt_some e
      simp only [hlow, State.write32_cfg] at hg'
      omega
    rw [State.setEx_regs, State.regs_get_write32 _ _ _ hother, State.regs_get_write32_same _ _ hw hg hacc hpm]
  · rintro g rfl hg hacc hpm
    rw [State.setEx_regs, State.regs_get_write32_same (s := low) _ _ (by simpa [hlow] using hw) (by simpa [hlow] using hg)
      (by simpa [hlow] using hacc) (by simpa [hlow] using hpm)]

/-! ## Bulk reads -/

/-- Settles O12, by what the byte reads of `BLKRD` leave in host memory. -/
theorem blkrdResult : Obligations.BlkrdResult := by
  intro s r off haddr len hp hfits hhost
  refine ⟨_, exec_blkrd_eq hp ⟨hfits, hhost⟩, ended_setEx .., sameResults_setEx_ended .., ?_,
    (sameButHost_bulkOut ..).setEx _⟩
  obtain ⟨-, hcopied⟩ := s.bulkOut_host_hm s.presenter r off.toNat haddr.toNat len.toNat
  simpa using hcopied

/-! ## Bulk writes: the accesses and the pad -/

/-- A bulk write's accesses: the full groups in ascending order, then the tail (R116). -/
theorem State.bulkIn_access (s : State) (a : Agent) (r : Region) (off h n : Nat) :
    (s.bulkIn a r off h n).bus.map BusRec.access = s.bus.map BusRec.access ++ wordWrites r off (roundUp n / 4) := by
  have hgroups : (unitsLoop (groupUnit a r off h) 0 (n / 4) s).bus.map BusRec.access =
      s.bus.map BusRec.access ++ wordWrites r off (n / 4) := by
    refine unitsLoop_induct_zero
      (P := fun k t => t.bus.map BusRec.access = s.bus.map BusRec.access ++ wordWrites r off k) (by simp [wordWrites]) ?_
    intro k t _ ih
    simp [groupUnit, BusRec.access, ih, wordWrites, List.range_succ]
  unfold State.bulkIn tailStep
  split
  · rename_i h0
    rw [hgroups, show roundUp n / 4 = n / 4 by unfold roundUp; omega]
  · rename_i h0
    rw [show roundUp n / 4 = n / 4 + 1 by unfold roundUp; omega]
    simp [BusRec.access, hgroups, wordWrites, List.range_succ]

/-- A write draws one free value where its word is inaccessible, and none elsewhere (U6). -/
theorem State.write32_draws (s : State) (a : Agent) (r : Region) (off : Nat) (v : Word) :
    (s.write32 a r off v).draws = if s.inaccessible r off then s.draws + 1 else s.draws := by
  rw [State.write32, State.busWrite_cases]
  split
  · split <;> simp [State.draw]
  · simp

/-- The tail of a bulk write draws its pad (R116). -/
theorem State.bulkIn_draws_lt (s : State) (a : Agent) (r : Region) (off h : Nat) {n : Nat} (hn : n % 4 ≠ 0) :
    s.draws < (s.bulkIn a r off h n).draws := by
  have hgroups : s.draws ≤ (unitsLoop (groupUnit a r off h) 0 (n / 4) s).draws := by
    refine unitsLoop_keep (P := fun t => s.draws ≤ t.draws) (fun k t _ _ ht => ?_) le_rfl
    rw [groupUnit, State.write32_draws]
    split <;> omega
  have hdraw : (unitsLoop (groupUnit a r off h) 0 (n / 4) s).draw.2.draws =
      (unitsLoop (groupUnit a r off h) 0 (n / 4) s).draws + 1 := rfl
  rw [State.bulkIn, tailStep, if_neg hn, State.write32_draws, hdraw]
  split <;> omega

theorem tailBytes_byte_above (m : Memory) (h n i : Nat) (hi : n ≤ i) (h4 : i < 4) : wordByte (tailBytes m h n) i = 0 := by
  rw [tailBytes, wordByte_wordOf _ _ _ _ _ h4]
  obtain rfl | rfl | rfl | rfl : i = 0 ∨ i = 1 ∨ i = 2 ∨ i = 3 := by omega
  all_goals simp [Nat.not_lt.2 hi]

/-- The bytes of the padded tail word above the payload are those of the pad (R116). -/
theorem tailWord_pad (m : Memory) (h n j : Nat) (pad : Word) (hj : j + n < 4) :
    wordByte (tailWord m h n pad) (n + j) = wordByte pad j := by
  have hzero := tailBytes_byte_above m h n (n + j) (by omega) (by omega)
  ext k hk
  have hbit : (tailBytes m h n).getLsbD (8 * (n + j) + k) = false := by
    simpa [wordByte, hk] using congrArg (BitVec.getLsbD · k) hzero
  simp only [wordByte, tailWord, ← BitVec.getLsbD_eq_getElem, BitVec.getLsbD_extractLsb', BitVec.getLsbD_or,
    BitVec.getLsbD_shiftLeft, hbit, hk]
  simp [show 8 * (n + j) + k < 32 by omega, show ¬ 8 * (n + j) + k < 8 * n by omega,
    show 8 * (n + j) + k - 8 * n = 8 * j + k by omega]

/-- The bytes between the data of a bulk write and the next multiple of 4 hold the free value drawn last (R116). -/
theorem State.bulkIn_byteAt_pad (s : State) (a : Agent) {r : Region} {off : Nat} (h : Nat) {n j : Nat} (ho : off % 4 = 0)
    (hn : n % 4 ≠ 0) (ha : s.inaccessible r (off + 4 * (n / 4)) = false) (hi : s.isIsr r (off + 4 * (n / 4)) = false)
    (hp : s.isPm r (off + 4 * (n / 4)) = false) (hj : j + n % 4 < 4) :
    (s.bulkIn a r off h n).byteAt r (off + n + j) =
      wordByte (Config.draw ((s.bulkIn a r off h n).draws - 1)) j := by
  rw [State.byteAt, show off + n + j - (off + n + j) % 4 = off + 4 * (n / 4) by omega,
    show (off + n + j) % 4 = n % 4 + j by omega, State.bulkIn, tailStep, if_neg hn]
  set t := unitsLoop (groupUnit a r off h) 0 (n / 4) s
  have hat : t.inaccessible r (off + 4 * (n / 4)) = false :=
    (unitsLoop_keeps (·.inaccessible r (off + 4 * (n / 4))) (by simp) 0 _ s).trans ha
  have hit : t.isIsr r (off + 4 * (n / 4)) = false :=
    (unitsLoop_keeps (·.isIsr r (off + 4 * (n / 4))) (by simp) 0 _ s).trans hi
  have hpt : t.isPm r (off + 4 * (n / 4)) = false :=
    (unitsLoop_keeps (·.isPm r (off + 4 * (n / 4))) (by simp) 0 _ s).trans hp
  rw [State.word_write32_same _ _ _ (by simpa using hat) (by simpa using hit), State.overlay,
    if_neg (by simp [hpt]), tailWord_pad _ _ _ _ _ hj, State.write32_draws, if_neg (by simp [hat])]
  rfl

/-- Settles O13, by the word writes of `BLKWR`: the full groups and the padded tail. -/
theorem blkwrResult : Obligations.BlkwrResult := by
  intro s r off haddr len hp ho hfits hhost
  refine ⟨_, exec_blkwr_eq hp ⟨ho, hfits, hhost⟩, ended_setEx .., sameResults_setEx_ended .., ?_, ?_, ?_,
    (sameButRange_bulkIn s _ _ r _ _ ho).setEx _⟩
  · intro i hi hacc hisr hpm
    simpa using s.bulkIn_byteAt_payload s.presenter haddr.toNat len.toNat i ho hi hacc hisr hpm
  · exact newAccesses_of_access (by simpa using s.bulkIn_access s.presenter r off.toNat haddr.toNat len.toNat)
  · rintro w rfl hn
    refine ⟨by simpa using s.bulkIn_draws_lt s.presenter r off.toNat haddr.toNat hn, fun hacc hisr hpm j hj => ?_⟩
    simpa using s.bulkIn_byteAt_pad s.presenter haddr.toNat ho hn hacc hisr hpm hj

/-! ## The round trip (R117) -/

/-- Settles O14: the bytes that `BLKRD` finds are the payload that `BLKWR` has left. -/
theorem blockRoundTrip : Obligations.BlockRoundTrip := by
  intro s r off a b len hp ho hfits hsrc hdst hplain
  have hlen : len.toNat ≤ roundUp len.toNat := by unfold roundUp; omega
  set t := (s.bulkIn s.presenter r off.toNat a.toNat len.toNat).setEx s.presenter (s.ex s.presenter).ended with ht
  have hpres : t.presenter = s.presenter := by simp [ht]
  have hread : Presentable t (.blkrd r off b len) := by
    obtain ⟨hat, -, hhalt, hmem⟩ := hp
    have hhost : s.presenter = .host := by simpa [presenters] using hmem
    exact ⟨by simpa [ht] using hat, by simp [ht, Exec.ended], by simpa [ht] using hhalt, by simp [hpres, hhost, presenters]⟩
  have hrange : off.toNat + len.toNat ≤ t.cfg.regionSize r := by
    have : off.toNat + roundUp len.toNat ≤ s.cfg.regionSize r := hfits
    simp only [ht, State.setEx_cfg, State.bulkIn_cfg]
    omega
  refine ⟨t, _, exec_blkwr_eq hp ⟨ho, hfits, hsrc⟩, exec_blkrd_eq hread ⟨hrange, hdst⟩, fun i hi => ?_⟩
  obtain ⟨hacc, hisr, hpm⟩ := hplain (off.toNat + i) (by omega) (by omega)
  obtain ⟨-, hcopied⟩ := t.bulkOut_host_hm t.presenter r off.toNat b.toNat len.toNat
  have hword : off.toNat + i - i % 4 = off.toNat + i - (off.toNat + i) % 4 := by omega
  obtain ⟨hacc', -, -⟩ := hplain (off.toNat + i - i % 4) (by omega) (by omega)
  calc Memory.read _ (b.toNat + i)
      = t.byteAt r (off.toNat + i) := by
        rw [State.setEx_hm, hcopied i hi (by simpa [ht] using hacc) (by simpa [ht, State.isIsrByte] using hisr)]
    _ = Memory.read s.hm (a.toNat + i) := by
        rw [ht, State.setEx_byteAt, s.bulkIn_byteAt_payload s.presenter a.toNat len.toNat i ho hi hacc'
          (hword ▸ hisr) (hword ▸ hpm)]

end Sys2Proof.Machine
end

section
/-! PROOFS. `RESET` and `RUN` (R132 to R134, R138, R139): what the operations of the power controller leave unchanged, how one of
them ends, and what each does to `CSR` and `DMAMODE`. -/

namespace Sys2Proof.Machine

/-! ## The frame of the power controller's operations -/

/-- What no entry of the power controller's listings writes while the environment makes no move: the power hardware's value, the
block-side registers but for `PWR.state` and the lock, the events, host memory, the other agents' records, the setting and the
result registers `RESULT0` and `RESULT1` of agent `a`. -/
def PowerFrame (a : Agent) (s t : State) : Prop :=
  t.pmhw = s.pmhw ∧ t.ctx = s.ctx ∧ t.deferPending = s.deferPending ∧ t.irqRet = s.irqRet ∧ t.events = s.events ∧
    SameHost s t ∧ SameOthers a s t ∧ SameSetting s t ∧ SameResults a s t

namespace PowerFrame

variable {a : Agent} {s t u : State}

theorem refl (a : Agent) (s : State) : PowerFrame a s s := by
  simp [PowerFrame, SameHost, SameOthers, SameSetting, SameResults]

theorem trans (h : PowerFrame a s t) (h' : PowerFrame a t u) : PowerFrame a s u := by
  obtain ⟨hp, hc, hd, hi, he, hh, ho, hs, h0, h1⟩ := h
  obtain ⟨hp', hc', hd', hi', he', hh', ho', hs', h0', h1'⟩ := h'
  exact ⟨hp'.trans hp, hc'.trans hc, hd'.trans hd, hi'.trans hi, he'.trans he, fun x => (hh' x).trans (hh x),
    fun b hb => (ho' b hb).trans (ho b hb), hs.trans hs', h0'.trans h0, h1'.trans h1⟩

/-- Nothing is scheduled for the delays afterwards where nothing was before. -/
theorem quiet (h : PowerFrame a s t) (hq : s.atDelay = []) : t.atDelay = [] := by
  obtain ⟨-, -, -, -, -, -, -, ⟨-, -, -, -, -, -, -, hd, -⟩, -⟩ := h
  rw [hd, hq]

theorem start (s : State) (a : Agent) (i : Instr) (ms : List Micro) : PowerFrame a s (s.start a i ms) := by
  simp +contextual [PowerFrame, SameHost, SameOthers, SameSetting, SameResults, State.start_ex]

theorem read32 (s : State) (a : Agent) (r : Region) (off : Nat) : PowerFrame a s (s.read32 a r off).2 := by
  simp [PowerFrame, SameHost, SameOthers, SameSetting, SameResults]

theorem write32 (s : State) (a : Agent) (r : Region) (off : Nat) (v : Word) : PowerFrame a s (s.write32 a r off v) := by
  simp [PowerFrame, SameHost, SameOthers, SameSetting, SameResults]

theorem update32 (s : State) (a : Agent) (r : Region) (off : Nat) (m v : Word) :
    PowerFrame a s (s.update32 a r off m v) := by
  simp +contextual [PowerFrame, SameHost, SameOthers, SameSetting, SameResults, State.update32_ex]

theorem pwrStep (s : State) (a : Agent) (m : PwrMove) : PowerFrame a s (pwrStep s m) := by
  simp [PowerFrame, SameHost, SameOthers, SameSetting, SameResults]

/-- A delay in which the environment makes no move. -/
theorem delay (s : State) (a : Agent) (n : Nat) (hq : s.atDelay = []) : PowerFrame a s (s.delay a n) := by
  rw [s.delay_quiet a n hq]
  exact refl a s

end PowerFrame

/-! ## The end of an operation that raises nothing -/

/-- `OK`, then idle (R25, R26). -/
def State.endOk (s : State) (a : Agent) : State := (s.result a .ok 0).finish a

theorem ended_endOk (s : State) (a : Agent) : Ended a .ok 0 (s.endOk a) := by
  simp [Ended, State.endOk, State.finish_ex, State.result]

theorem PowerFrame.endOk (s : State) (a : Agent) : PowerFrame a s (s.endOk a) := by
  simp +contextual [PowerFrame, SameHost, SameOthers, SameSetting, SameResults, State.endOk, State.finish_ex, State.result]

section
variable (s : State) (a : Agent)

@[simp] theorem State.endOk_cfg : (s.endOk a).cfg = s.cfg := by simp [State.endOk]
@[simp] theorem State.endOk_regs : (s.endOk a).regs = s.regs := by simp [State.endOk]
@[simp] theorem State.endOk_pmhw : (s.endOk a).pmhw = s.pmhw := by simp [State.endOk]
@[simp] theorem State.endOk_pwr : (s.endOk a).pwr = s.pwr := by simp [State.endOk]
@[simp] theorem State.endOk_lock : (s.endOk a).lock = s.lock := by simp [State.endOk]
@[simp] theorem State.endOk_halt : (s.endOk a).halt = s.halt := by simp [State.endOk]
@[simp] theorem State.endOk_elapsed : (s.endOk a).elapsed = s.elapsed := by simp [State.endOk]
@[simp] theorem State.endOk_bus : (s.endOk a).bus = s.bus := by simp [State.endOk]
@[simp] theorem State.endOk_mem (r : Region) : (s.endOk a).mem r = s.mem r := by simp [State.endOk]
@[simp] theorem State.endOk_word (r : Region) (x : Nat) : (s.endOk a).word r x = s.word r x := by simp [State.endOk]
@[simp] theorem State.endOk_inaccessible (r : Region) (x : Nat) : (s.endOk a).inaccessible r x = s.inaccessible r x := by
  simp [State.endOk]

end

/-- An operation without a contract of its own whose entries before the closing `OK` run to their end. -/
theorem exec_endOk {s u : State} {i : Instr} {ms : List Micro} {a : Agent} (hp : Presentable s i) (ha : s.presenter = a)
    (hc : contractBreach s.cfg i = none) (hl : listing s.cfg i = ms ++ [.ok])
    (hrun : runList (entire 8 a) ms (s.start a i []) = .go u) : exec i s = .next (u.endOk a) := by
  subst ha
  rw [exec_eq_perform, hl, perform_go (portRefusal_eq_none hp hc) (t := u.result s.presenter .ok 0)]
  · rfl
  · rw [runList_append hrun, runList_go (entire_ok ..), runList_nil]

/-! ## Accessible registers -/

/-- The registers can be accessed exactly from the moment at which D0 has been confirmed (R282). -/
theorem State.inaccessible_offset {s : State} {o : Nat} (hw : s.cfg.wf = true) (ho : o ∈ s.cfg.offsets) :
    s.inaccessible .dsp o = !s.d0Confirmed := by
  simp [State.inaccessible, State.isGated, State.exempt, s.cfg.wf_off_aligned hw ho, ho]

theorem State.inaccessible_reg {s : State} (g : DevReg) (hw : s.cfg.wf = true) :
    s.inaccessible .dsp (regOff s.cfg g) = !s.d0Confirmed := State.inaccessible_offset hw (regOff_mem s.cfg g)

/-! ## `CSR` under S1 to S3 -/

/-- The flags of a `CSR` into which S3 has merged `CSR.STALL` (R132). -/
theorem flags_of_released {c : Cfg} (hw : c.wf = true) (old : Word) :
    flagOf (merged old (c.csrRst ||| c.csrStall) c.csrStall) c.csrRst = false ∧
      flagOf (merged old (c.csrRst ||| c.csrStall) c.csrStall) c.csrStall = true := by
  have hbits := c.wf_csr hw
  have hinside (f g : Word) : f &&& ~~~(f ||| g) = 0 := by ext; simp +contextual
  constructor
  · rw [flagOf_merged_inside (hinside _ _), flagOf, BitVec.and_comm, twoBits_disjoint hbits]
    rfl
  · rw [flagOf_merged_inside (by rw [BitVec.or_comm]; exact hinside _ _), flagOf_self (twoBits_snd hbits)]

section
variable {s : State} (a : Agent)

@[simp] theorem State.pulse_halt : (s.pulse a).halt = s.halt := by simp [State.pulse]
@[simp] theorem State.pulse_d0Confirmed : (s.pulse a).d0Confirmed = s.d0Confirmed := by simp [State.pulse]
@[simp] theorem State.pulse_elapsed : (s.pulse a).elapsed = s.elapsed + 10 := by simp [State.pulse, tHold]

theorem PowerFrame.pulse (hq : s.atDelay = []) : PowerFrame a s (s.pulse a) :=
  (PowerFrame.update32 ..).trans ((PowerFrame.delay _ a _ (by simpa using hq)).trans (PowerFrame.update32 ..))

/-- With D0 confirmed S3 reaches `CSR`, whatever it holds after the delay. -/
theorem State.csr_pulse (hw : s.cfg.wf = true) (hd : s.d0Confirmed = true) (hpm : s.isPm .dsp s.cfg.csrOff = false) :
    ∃ old, (s.pulse a).regs.csr = merged old (s.cfg.csrRst ||| s.cfg.csrStall) s.cfg.csrStall := by
  set u := (s.update32 a .dsp s.cfg.csrOff (s.cfg.csrRst ||| s.cfg.csrStall) (s.cfg.csrRst ||| s.cfg.csrStall)).delay a
    tHold with hu
  have hcfg : u.cfg = s.cfg := by simp [hu]
  have hwu : u.cfg.wf = true := hcfg ▸ hw
  have hacc : u.inaccessible .dsp (regOff u.cfg .csr) = false := by
    rw [State.inaccessible_reg _ hwu]
    simpa [hu] using hd
  have hpmu : u.isPm .dsp (regOff u.cfg .csr) = false := by rw [State.isPm_congr hcfg, hcfg]; exact hpm
  have hset := u.update32_reg a .csr (s.cfg.csrRst ||| s.cfg.csrStall) s.cfg.csrStall hwu hacc hpmu
  rw [hcfg] at hset
  exact ⟨u.regs.csr, congrArg Regs.csr hset⟩

/-- With no move of the environment in between, S1 to S3 merge `CSR.STALL` into the `CSR` found. -/
theorem State.csr_pulse_quiet (hw : s.cfg.wf = true) (hd : s.d0Confirmed = true) (hpm : s.isPm .dsp s.cfg.csrOff = false)
    (hq : s.atDelay = []) :
    (s.pulse a).regs.csr = merged s.regs.csr (s.cfg.csrRst ||| s.cfg.csrStall) s.cfg.csrStall := by
  set m := s.cfg.csrRst ||| s.cfg.csrStall with hm
  have hacc (t : State) (hc : t.cfg = s.cfg) (hdt : t.d0Confirmed = true) :
      t.inaccessible .dsp (regOff t.cfg .csr) = false := by rw [State.inaccessible_reg _ (hc ▸ hw), hdt]; rfl
  have hfirst : (s.update32 a .dsp s.cfg.csrOff m m).regs.csr = merged s.regs.csr m m :=
    congrArg Regs.csr (s.update32_reg a .csr m m hw (hacc s rfl hd) hpm)
  set u := (s.update32 a .dsp s.cfg.csrOff m m).delay a tHold with hu
  have hcfg : u.cfg = s.cfg := by simp [hu]
  have hregs : u.regs = (s.update32 a .dsp s.cfg.csrOff m m).regs := by
    rw [hu, State.delay_quiet _ a tHold (by simpa using hq)]
  have hset := u.update32_reg a .csr m s.cfg.csrStall (hcfg ▸ hw) (hacc u hcfg (by simpa [hu] using hd))
    (by rw [State.isPm_congr hcfg, hcfg]; exact hpm)
  rw [hcfg] at hset
  calc (s.pulse a).regs.csr = merged u.regs.csr m s.cfg.csrStall := congrArg Regs.csr hset
    _ = merged s.regs.csr m s.cfg.csrStall := by rw [hregs, hfirst, merged_merged]

/-- S1 to S3 keep every register but `CSR`. -/
theorem State.regs_get_pulse {g : DevReg} (hw : s.cfg.wf = true) (hg : g ≠ .csr) (hq : s.atDelay = []) :
    (s.pulse a).regs.get g = s.regs.get g := by
  have hat : regAt s.cfg .dsp s.cfg.csrOff ≠ some g := by
    rw [show s.cfg.csrOff = regOff s.cfg .csr from rfl, regAt_regOff hw]
    simpa using hg.symm
  rw [State.pulse, State.regs_get_update32 _ _ _ _ (by simpa using hat), State.delay_quiet _ _ _ (by simpa using hq),
    State.regs_get_update32 _ _ _ _ hat]

/-- S1 to S3 keep plain memory. -/
theorem State.mem_pulse (hw : s.cfg.wf = true) (hq : s.atDelay = []) (r : Region) : (s.pulse a).mem r = s.mem r := by
  have hkeep (t : State) (m v : Word) (hc : t.cfg = s.cfg) : (t.update32 a .dsp s.cfg.csrOff m v).mem r = t.mem r := by
    rw [← hc]
    exact t.mem_update32_reg a .csr m v (hc ▸ hw) r
  rw [State.pulse, hkeep _ _ _ (by simp), State.delay_quiet _ _ _ (by simpa using hq)]
  exact hkeep s _ _ rfl

end

/-! ## `RESET` (R132) -/

theorem Presentable.host_of_reset {s : State} (hp : Presentable s .reset) : s.presenter = .host := by
  simpa [presenters] using hp.presenter_mem

theorem exec_reset_eq {s : State} (hp : Presentable s .reset) :
    exec .reset s = .next ((pwrStep ((s.start .host .reset []).pulse .host) .afterReset).endOk .host) := by
  refine exec_endOk (ms := pulseListing s.cfg ++ [.pwr .afterReset]) hp hp.host_of_reset rfl (by simp [listing, resetListing]) ?_
  have hrun := runList_pulse 8 .host [.pwr .afterReset] (s.start .host .reset [])
  rw [State.start_cfg] at hrun
  rw [hrun, runList_go (entire_pwr ..), runList_nil]

/-- S4 (R134). -/
theorem pwrStep_afterReset_pwr (s : State) :
    (pwrStep s .afterReset).pwr = if s.pwr = .offD3 then .offD3 else .stalledReady := by
  simp only [pwrStep]
  split
  · assumption
  · rfl

/-- Settles O23: S3 merges `CSR.STALL` into whatever `CSR` holds after the delay. -/
theorem resetLaw : Obligations.ResetLaw := by
  intro s hw hp
  refine ⟨_, exec_reset_eq hp, ended_endOk .., by simp, by simp [pwrStep_afterReset_pwr], fun hd hpm => ?_⟩
  obtain ⟨old, hcsr⟩ := State.csr_pulse (s := s.start .host .reset []) .host (by simpa using hw) (by simpa using hd)
    (by simpa using hpm)
  simpa [State.csrRst, State.csrStall, hcsr] using flags_of_released hw old

/-- Settles O24: with no move of the environment S1 to S3 touch `CSR` and nothing else. -/
theorem resetResult : Obligations.ResetResult := by
  intro s hw hp hq
  set s₁ := s.start .host .reset [] with hs₁
  have hcfg : s₁.cfg = s.cfg := by simp [hs₁]
  have hq₁ : s₁.atDelay = [] := by simpa [hs₁] using hq
  have hw₁ : s₁.cfg.wf = true := hcfg ▸ hw
  have hframe : PowerFrame .host s ((pwrStep (s₁.pulse .host) .afterReset).endOk .host) :=
    (PowerFrame.start ..).trans ((PowerFrame.pulse .host hq₁).trans ((PowerFrame.pwrStep ..).trans (.endOk ..)))
  obtain ⟨hpmhw, hctx, hdefer, hirq, hevents, hhost, hothers, hsetting, hresults⟩ := hframe
  refine ⟨(pwrStep (s₁.pulse .host) .afterReset).endOk .host, exec_reset_eq hp, ended_endOk .., hresults,
    fun hacc hpm => ?_, ?_, ?_, newAccesses_of_access ?_,
    ⟨hpmhw, fun g hg => ?_, fun r x => ?_, hhost, hothers, hsetting⟩, hctx, hdefer, ?_, ?_, hirq, hevents⟩
  · have hd : s.d0Confirmed = true := by
      simpa using (State.inaccessible_reg .csr hw).symm.trans hacc
    simpa [hs₁] using State.csr_pulse_quiet (s := s₁) .host hw₁ (by simpa [hs₁] using hd) (by simpa [hs₁] using hpm) hq₁
  · simp [pwrStep_afterReset_pwr, hs₁]
  · simp [hs₁]
  · simp [State.pulse_access, hs₁]
  · rw [State.endOk_regs, State.pwrStep_regs, State.regs_get_pulse .host hw₁ (by simpa using hg) hq₁, hs₁, State.start_regs]
  · rw [State.endOk_mem, State.pwrStep_mem, State.mem_pulse .host hw₁ hq₁, hs₁, State.start_mem]
  · simp [hs₁]
  · simp [hs₁]

/-! ## `RUN` (R133) -/

/-- The state after G1 and G2 of `RUN`. -/
def State.runCore (s : State) (a : Agent) : State :=
  (s.update32 a .dsp s.cfg.dmamodeOff s.cfg.dmamodeOpp 0).update32 a .dsp s.cfg.csrOff s.cfg.csrStall 0

theorem Presentable.host_of_run {s : State} (hp : Presentable s .run) : s.presenter = .host := by
  simpa [presenters] using hp.presenter_mem

theorem exec_run_eq {s : State} (hp : Presentable s .run) :
    exec .run s = .next ((pwrStep ((s.start .host .run []).runCore .host) .afterRun).endOk .host) := by
  refine exec_endOk (ms := update .dsp s.cfg.dmamodeOff s.cfg.dmamodeOpp 0 ++
    (update .dsp s.cfg.csrOff s.cfg.csrStall 0 ++ [.pwr .afterRun])) hp hp.host_of_run rfl (by simp [listing, runListing]) ?_
  rw [runList_update, runList_update, runList_go (entire_pwr ..), runList_nil]
  simp [State.runCore]

/-- G3 (R134). -/
theorem pwrStep_afterRun_pwr (s : State) :
    (pwrStep s .afterRun).pwr = if s.pwr = .stalledReady then .running else s.pwr := by
  simp only [pwrStep]
  split <;> rfl

theorem merged_zero_val (old mask : Word) : merged old mask 0 = old &&& ~~~mask := by simp [merged]

section
variable {s : State} (a : Agent)

@[simp] theorem State.runCore_cfg : (s.runCore a).cfg = s.cfg := by simp [State.runCore]

theorem PowerFrame.runCore : PowerFrame a s (s.runCore a) := (PowerFrame.update32 ..).trans (PowerFrame.update32 ..)

theorem State.runCore_access : (s.runCore a).bus.map BusRec.access =
    s.bus.map BusRec.access ++ (updateAccess .dsp s.cfg.dmamodeOff ++ updateAccess .dsp s.cfg.csrOff) := by
  simp [State.runCore, State.update32_access]

/-- G1 and G2 where the registers can be accessed: the DMA mode field, then the stall bit. -/
theorem State.runCore_regs (hw : s.cfg.wf = true) (hr : s.registersPlain) :
    (s.runCore a).regs =
      { s.regs with dmamode := s.regs.dmamode &&& ~~~s.cfg.dmamodeOpp, csr := s.regs.csr &&& ~~~s.cfg.csrStall } := by
  set u := s.update32 a .dsp s.cfg.dmamodeOff s.cfg.dmamodeOpp 0 with hu
  have hcfg : u.cfg = s.cfg := by simp [hu]
  have hru : u.registersPlain := State.registersPlain_congr hcfg (by simp [hu]) (by simp [hu]) (by simp [hu]) hr
  obtain ⟨hacc, hpm⟩ := State.registersPlain_reg hr .dmamode
  obtain ⟨hacc', hpm'⟩ := State.registersPlain_reg hru .csr
  have hfirst := s.update32_reg a .dmamode s.cfg.dmamodeOpp 0 hw hacc hpm
  have hsecond := u.update32_reg a .csr s.cfg.csrStall 0 (hcfg ▸ hw) hacc' hpm'
  rw [hcfg] at hsecond
  simp only [regOff] at hfirst hsecond
  rw [State.runCore, ← hu, hsecond, hu, hfirst, merged_zero_val, merged_zero_val]
  rfl

/-- G1 and G2 keep every other register, accessible or not. -/
theorem State.regs_get_runCore {g : DevReg} (hw : s.cfg.wf = true) (hg : g ∉ [DevReg.dmamode, .csr]) :
    (s.runCore a).regs.get g = s.regs.get g := by
  simp only [List.mem_cons, List.not_mem_nil, or_false, not_or] at hg
  obtain ⟨hdma, hcsr⟩ := hg
  have hfirst := State.regs_update32_other (s := s) a s.cfg.dmamodeOpp 0 hw hdma
  have hsecond := State.regs_update32_other (s := s.update32 a .dsp s.cfg.dmamodeOff s.cfg.dmamodeOpp 0) a
    s.cfg.csrStall 0 (by simpa using hw) hcsr
  rw [State.update32_cfg] at hsecond
  exact hsecond.trans hfirst

/-- G1 and G2 keep plain memory. -/
theorem State.mem_runCore (hw : s.cfg.wf = true) (r : Region) : (s.runCore a).mem r = s.mem r := by
  have hfirst := s.mem_update32_reg a .dmamode s.cfg.dmamodeOpp 0 hw r
  have hsecond := (s.update32 a .dsp s.cfg.dmamodeOff s.cfg.dmamodeOpp 0).mem_update32_reg a .csr s.cfg.csrStall 0
    (by simpa using hw) r
  rw [State.update32_cfg] at hsecond
  exact hsecond.trans hfirst

end

/-- Clearing `CSR.STALL` keeps `CSR.RST` (R13 (c), R292). -/
theorem flags_of_unstalled {c : Cfg} (hw : c.wf = true) (old : Word) :
    flagOf (old &&& ~~~c.csrStall) c.csrStall = false ∧ flagOf (old &&& ~~~c.csrStall) c.csrRst = flagOf old c.csrRst := by
  rw [← merged_zero_val]
  exact ⟨by rw [flagOf_merged_inside (by simp), flagOf_zero], flagOf_merged_outside (twoBits_disjoint (c.wf_csr hw))⟩

/-- Settles O25: G1 and G2 are two updates of accessible registers, or writes that may be lost; G3 asks for `PWR.state` only. -/
theorem runResult : Obligations.RunResult := by
  intro s hw hp
  set s₁ := s.start .host .run [] with hs₁
  have hcfg : s₁.cfg = s.cfg := by simp [hs₁]
  have hw₁ : s₁.cfg.wf = true := hcfg ▸ hw
  have hframe : PowerFrame .host s ((pwrStep (s₁.runCore .host) .afterRun).endOk .host) :=
    (PowerFrame.start ..).trans ((PowerFrame.runCore .host).trans ((PowerFrame.pwrStep ..).trans (.endOk ..)))
  obtain ⟨hpmhw, hctx, hdefer, hirq, hevents, hhost, hothers, hsetting, hresults⟩ := hframe
  refine ⟨(pwrStep (s₁.runCore .host) .afterRun).endOk .host, exec_run_eq hp, ended_endOk .., hresults,
    fun hr => ?_, ?_, newAccesses_of_access ?_,
    ⟨hpmhw, fun g hg => ?_, fun r x => ?_, hhost, hothers, hsetting⟩, ⟨hevents, ?_⟩, hctx, hdefer, ?_, ?_, hirq⟩
  · have hr₁ : s₁.registersPlain := State.registersPlain_congr hcfg (by simp [hs₁]) (by simp [hs₁]) (by simp [hs₁]) hr
    obtain ⟨hstall, hrst⟩ := flags_of_unstalled hw s.regs.csr
    have hregs := State.runCore_regs .host hw₁ hr₁
    rw [hcfg, show s₁.regs = s.regs from State.start_regs ..] at hregs
    simp +contextual [State.csrStall, State.csrRst, State.coreRunning, hregs, hcfg, hstall, hrst]
  · simp [pwrStep_afterRun_pwr, State.runCore, hs₁]
  · simp [State.runCore_access, hs₁]
  · rw [State.endOk_regs, State.pwrStep_regs, State.regs_get_runCore .host hw₁ hg, hs₁, State.start_regs]
  · rw [State.endOk_mem, State.pwrStep_mem, State.mem_runCore .host hw₁, hs₁, State.start_mem]
  · simp [State.runCore, hs₁]
  · simp [State.runCore, hs₁]
  · simp [State.runCore, hs₁]

end Sys2Proof.Machine
end

section
/-! PROOFS. Which operations write `PWR.state`, the context registers, `DEFER.pending` and `IRQRET` (R134, R21, R26 to R28): which
entries of a listing can, micro-step by micro-step, and from there which operations. -/

namespace Sys2Proof.Machine

/-! ## The parts of the block and what writes them -/

/-- The parts of the block-side registers that different operations write: `PWR.state`, the context registers, the pair of
`DEFER.pending` and `IRQRET`, and the three context registers that nothing writes (R21, R26 to R28). -/
inductive BlockPart where
  | power | context | deferral | handles

/-- The part is the same in both states. -/
def SamePart (s t : State) : BlockPart → Prop
  | .power => t.pwr = s.pwr
  | .context => t.ctx = s.ctx
  | .deferral => t.deferPending = s.deferPending ∧ t.irqRet = s.irqRet
  | .handles => t.ctx.bar0 = s.ctx.bar0 ∧ t.ctx.bar1 = s.ctx.bar1 ∧ t.ctx.irqLine = s.ctx.irqLine

/-- The entry may write the part, or go on to an entry that may. -/
def Micro.writes : BlockPart → Micro → Bool
  | .power, .pwr _ | .power, .poll _ | .power, .pollWait _ => true
  | .context, .ctx _ | .context, .fwrBegin | .context, .fwrOutbox | .context, .fwrInbox | .context, .fwrExtdata
  | .context, .windows _ _ | .context, .winDispatch | .context, .call _ | .context, .present _ _
  | .context, .given .replyReady | .context, .given .message => true
  | .deferral, .wakeOrNone | .deferral, .clearPending | .deferral, .handled => true
  | _, _ => false

/-- The operation may write the part. -/
def instrWrites : BlockPart → Instr → Bool
  | .power, .enterD0 | .power, .reset | .power, .run => true
  | .context, .fwready | .context, .irqdefer => true
  | .deferral, .irqimm | .deferral, .irqdefer => true
  | _, _ => false

/-- None of the entries may write the part. -/
def Spares (p : BlockPart) (ms : List Micro) : Prop := ∀ m ∈ ms, m.writes p = false

theorem spares_of_all {p : BlockPart} {ms : List Micro} (h : ms.all (fun m => !m.writes p) = true) : Spares p ms := by
  simpa [Spares] using h

theorem Spares.append {p : BlockPart} {ms ns : List Micro} (hm : Spares p ms) (hn : Spares p ns) : Spares p (ms ++ ns) :=
  List.forall_mem_append.2 ⟨hm, hn⟩

/-! ## Listings -/

theorem spares_bulkRead (p : BlockPart) (r : Region) (off : Nat) (dst : Dest) (n : Nat) : Spares p (bulkRead r off dst n) := by
  unfold bulkRead
  split <;> exact spares_of_all (by cases p <;> rfl)

theorem spares_bulkWrite (p : BlockPart) (r : Region) (off h n : Nat) : Spares p (bulkWrite r off h n) := by
  unfold bulkWrite
  refine Spares.append ?_ ?_ <;> split <;> exact spares_of_all (by cases p <;> rfl)

/-- What a conditional that may not write the part guards. -/
theorem spares_guarded {p : BlockPart} {k : Cond} (h : (Micro.given k).writes p = false) (c : Cfg) : Spares p (guarded c k) := by
  refine spares_of_all ?_
  cases p with
  | context => cases k with
    | replyReady | message => cases h
    | isrDone | isrBusy | panic => rfl
  | power | deferral | handles => cases k <;> rfl

/-- The listing of an operation that may not write the part. -/
theorem spares_listing {p : BlockPart} {i : Instr} (h : instrWrites p i = false) (c : Cfg) : Spares p (listing c i) := by
  cases i with
  | blkrd r off haddr n => exact (spares_bulkRead _ _ _ _ _).append (spares_of_all (by cases p <;> rfl))
  | blkwr r off haddr n => exact (spares_bulkWrite _ _ _ _ _).append (spares_of_all (by cases p <;> rfl))
  | enterD0 => cases p with
    | power => cases h
    | context | deferral | handles =>
      exact spares_of_all (by simp [listing, enterD0Listing, updateStep, pulseListing, update, Micro.writes])
  | reset | run => cases p with
    | power => cases h
    | context | deferral | handles => exact spares_of_all rfl
  | fwready => cases p with
    | context => cases h
    | power | deferral | handles => exact spares_of_all rfl
  | irqimm => cases p with
    | deferral => cases h
    | power | context | handles => exact spares_of_all rfl
  | irqdefer => cases p with
    | context | deferral => cases h
    | power | handles => exact spares_of_all rfl
  | _ => exact spares_of_all (by cases p <;> rfl)

/-- Of what a consumer may present, only `FWREADY` writes one of the parts (R190, R193, R252). -/
theorem writes_of_callPermits {p : BlockPart} {k : Consumer} {i : Instr} (hp : p ≠ .context) (h : callPermits k i = true) :
    instrWrites p i = false := by
  cases p with
  | context => exact absurd rfl hp
  | power | deferral | handles => cases i with
    | enterD0 | reset | run | irqimm | irqdefer => cases k <;> cases h
    | _ => rfl

theorem spares_windowEffect {p : BlockPart} (hp : p ≠ .context) (c : Cfg) (t : Word) (b : Box) :
    Spares p (windowEffect c t b) := by
  unfold windowEffect registerRegion
  cases p with
  | context => exact absurd rfl hp
  | power | deferral | handles => split_ifs <;> exact spares_of_all rfl

/-! ## What a micro-step goes on to -/

theorem unit_rest_spares {p : BlockPart} (a : Agent) (pick : Nat) {m : Micro} (hm : m.writes p = false) (s : State) :
    (unit a pick m s).RestOk (Spares p) := by
  have hnil : Spares p [] := fun _ hx => nomatch hx
  cases m with
  | copyIn r off h pend => exact restOk_unitStep _ _ _ _ _ hnil fun _ => spares_of_all (by cases p <;> rfl)
  | copyOut r off dst pend => exact restOk_unitStep _ _ _ _ _ hnil fun _ => spares_of_all (by cases p <;> rfl)
  | read64 r off => simp only [unit, read64Step]; split <;> exact spares_of_all (by cases p <;> rfl)
  | write64 r off lo hi => simp only [unit, write64Step]; split <;> exact spares_of_all (by cases p <;> rfl)
  | acquire =>
    simp only [unit, acquireStep]
    split
    · exact hnil
    · trivial
  | poll n => cases p with
    | power => cases hm
    | context | deferral | handles =>
      cases n with
      | zero => exact spares_of_all rfl
      | succ n => simp only [unit, pollStep]; split <;> exact spares_of_all rfl
  | pollWait n => cases p with
    | power => cases hm
    | context | deferral | handles => cases n <;> exact spares_of_all rfl
  | boxWrite _ _ _ => exact restOk_orRefuse (spares_bulkWrite _ _ _ _ _)
  | boxRead _ _ _ | header | hdrRead | fwrRead | readBack _ | winRead _ | capSnap | capStack =>
    exact restOk_orRefuse (spares_bulkRead _ _ _ _ _)
  | call c => cases p with
    | context => cases hm
    | power | deferral | handles =>
      have hds (c' : Consumer) (ds : List Desc) {q : BlockPart} (hq : ∀ d, (Micro.present c' d).writes q = false) :
          Spares q (ds.map (Micro.present c')) := spares_of_all (by simp [hq])
      simp only [unit, callStep]
      split
      · split
        · exact hds _ _ fun _ => rfl
        · trivial
      · exact hds _ _ fun _ => rfl
      · exact hnil
      · exact hnil
  | present c d =>
    have hp : p ≠ .context := by rintro rfl; cases hm
    simp only [unit, presentStep]
    split
    · exact hnil
    · split
      · rename_i hpermits
        exact restOk_orRefuse
          ((spares_listing (writes_of_callPermits hp hpermits) _).append (spares_of_all (by cases p <;> rfl)))
      · trivial
  | fwrBegin =>
    simp only [unit, fwrBeginStep]
    split
    · trivial
    · exact hnil
  | windows k n => cases p with
    | context => cases hm
    | power | deferral | handles =>
      cases n with
      | zero => exact hnil
      | succ n => exact spares_of_all rfl
  | fwrExtdata => cases p with
    | context => cases hm
    | power | deferral | handles => exact spares_of_all rfl
  | winDispatch => exact spares_windowEffect (by rintro rfl; cases hm) _ _ _
  | zeroBox => simp only [unit, zeroBoxStep]; split <;> exact spares_of_all (by cases p <;> rfl)
  | given k =>
    simp only [unit]
    split
    · exact spares_guarded hm _
    · exact hnil
  | raise k v => trivial
  | _ => exact hnil

/-! ## What a micro-step writes -/

section
variable {p : BlockPart} {s t u : State}

theorem SamePart.refl (p : BlockPart) (s : State) : SamePart s s p := by cases p <;> simp [SamePart]

theorem SamePart.trans (h : SamePart s t p) (h' : SamePart t u p) : SamePart s u p := by
  cases p with
  | power | context => exact Eq.trans h' h
  | deferral =>
    obtain ⟨hd, hi⟩ := h
    obtain ⟨hd', hi'⟩ := h'
    exact ⟨hd'.trans hd, hi'.trans hi⟩
  | handles =>
    obtain ⟨h0, h1, hl⟩ := h
    obtain ⟨h0', h1', hl'⟩ := h'
    exact ⟨h0'.trans h0, h1'.trans h1, hl'.trans hl⟩

/-- Every part is the same where the four registers are. -/
theorem samePart_of_kept (h : t.pwr = s.pwr ∧ t.ctx = s.ctx ∧ t.deferPending = s.deferPending ∧ t.irqRet = s.irqRet) :
    SamePart s t p := by
  obtain ⟨hp, hc, hd, hi⟩ := h
  cases p <;> simp [SamePart, hp, hc, hd, hi]

theorem samePart_setEx (a : Agent) (e : Exec) : SamePart s (s.setEx a e) p := samePart_of_kept (by simp)

theorem samePart_setLoc (a : Agent) (l : Locals) : SamePart s (s.setLoc a l) p := samePart_of_kept (by simp)

/-- An assignment to a context register writes none of the three handles (R21). -/
theorem samePart_ctxStep (hp : p ≠ .context) (m : CtxMove) : SamePart s (ctxStep s m) p := by
  cases p with
  | context => exact absurd rfl hp
  | power | deferral => simp [SamePart]
  | handles => cases m <;> simp [SamePart, Ctx.apply]

theorem samePart_pwrStep (hp : p ≠ .power) (m : PwrMove) : SamePart s (pwrStep s m) p := by
  cases p with
  | power => exact absurd rfl hp
  | context | deferral | handles => simp [SamePart]

/-- A write of `DEFER.pending` and `IRQRET` only. -/
theorem samePart_of_deferral (hp : p ≠ .deferral) (hpwr : t.pwr = s.pwr) (hctx : t.ctx = s.ctx) : SamePart s t p := by
  cases p with
  | deferral => exact absurd rfl hp
  | power | context | handles => simp [SamePart, hpwr, hctx]

/-- A micro-step of an entry that may not write the part. -/
theorem unit_samePart (s : State) (a : Agent) (pick : Nat) {m : Micro} (hm : m.writes p = false) :
    NextOk (SamePart s · p) (fun _ => True) (unit a pick m s) := by
  have hwrite (r : Region) (off : Nat) (v : Word) : SamePart s (s.write32 a r off v) p := samePart_of_kept (by simp)
  have hread (r : Region) (off : Nat) (sl : Slot) : SamePart s (readStep a r off sl s) p := samePart_of_kept (by simp)
  have hbyte (r : Region) (off : Nat) (dst : Dest) (k : Nat) : SamePart s (byteUnit a r off dst k s) p :=
    samePart_of_kept (by simp)
  cases m with
  | read r off sl => exact nextOk_to (hread r off sl)
  | write _ _ _ | merge _ _ _ _ => exact nextOk_to (hwrite _ _ _)
  | read64 r off =>
    simp only [unit, read64Step]
    split <;> exact nextOk_to (hread _ _ _)
  | write64 r off lo hi =>
    simp only [unit, write64Step]
    split <;> exact nextOk_to (hwrite _ _ _)
  | copyIn r off h pend => exact nextOk_unitStep pick pend _ (.refl p s) fun k => hwrite _ _ _
  | copyOut r off dst pend => exact nextOk_unitStep pick pend _ (.refl p s) fun k => hbyte _ _ _ k
  | tail _ _ _ _ | delay _ | pollWait _ => exact nextOk_to (samePart_of_kept (by simp))
  | raise k v => exact samePart_of_kept (t := s.raise a k v) (by simp)
  | acquire =>
    simp only [unit, acquireStep]
    split
    · exact nextOk_to (samePart_of_kept ⟨rfl, rfl, rfl, rfl⟩)
    · trivial
  | pwr q => exact nextOk_to (samePart_pwrStep (by rintro rfl; cases hm) q)
  | poll n =>
    cases n with
    | zero => exact nextOk_to (.refl p s)
    | succ n =>
      have hpoll : (pollRead a s).2.pwr = s.pwr ∧ (pollRead a s).2.ctx = s.ctx ∧
          (pollRead a s).2.deferPending = s.deferPending ∧ (pollRead a s).2.irqRet = s.irqRet := by simp [pollRead]
      simp only [unit, pollStep]
      split <;> exact nextOk_to (samePart_of_kept hpoll)
  | ctx q => exact nextOk_to (samePart_ctxStep (by rintro rfl; cases hm) q)
  | fwrOutbox | fwrInbox => exact nextOk_to (samePart_ctxStep (by rintro rfl; cases hm) _)
  | fwrBegin =>
    simp only [unit, fwrBeginStep]
    split
    · trivial
    · exact nextOk_to ((samePart_ctxStep (by rintro rfl; cases hm) _).trans (samePart_setLoc a _))
  | boxWrite _ _ _ | boxRead _ _ _ | hdrRead | fwrRead | readBack _ | winRead _ | capSnap | capStack =>
    exact nextOk_orRefuse (nextOk_to (.refl p s))
  | header => exact nextOk_orRefuse (nextOk_to (samePart_setLoc a _))
  | ok | result0 | result01 | replyResult | ret _ _ | idle => exact nextOk_to (samePart_setEx a _)
  | judge _ | setWork | capBegin _ => exact nextOk_to (samePart_setLoc a _)
  | wakeOrNone =>
    have hp : p ≠ .deferral := by rintro rfl; cases hm
    simp only [unit, wakeStep]
    split <;> exact nextOk_to (samePart_of_deferral hp rfl rfl)
  | clearPending | handled => exact nextOk_to (samePart_of_deferral (by rintro rfl; cases hm) rfl rfl)
  | fwrExtdata => exact nextOk_to (samePart_of_kept (by simp))
  | call c =>
    have hcalls (rs ms : List (List Desc)) : SamePart s { s with replyCalls := rs, msgCalls := ms } p :=
      samePart_of_kept ⟨rfl, rfl, rfl, rfl⟩
    simp only [unit, callStep]
    split
    · split
      · exact nextOk_to (hcalls _ s.msgCalls)
      · trivial
    · exact nextOk_to (hcalls s.replyCalls _)
    · exact nextOk_to (.refl p s)
    · exact nextOk_to (.refl p s)
  | present c d =>
    simp only [unit, presentStep]
    split
    · exact nextOk_to (samePart_of_kept (by simp))
    · split
      · exact nextOk_orRefuse (nextOk_to (samePart_setEx a _))
      · trivial
  | windows k n => cases n <;> exact nextOk_to (.refl p s)
  | zeroBox =>
    simp only [unit, zeroBoxStep]
    split <;> exact nextOk_to (.refl p s)
  | winDispatch | armEnd _ | given _ => exact nextOk_to (.refl p s)
  | release | emit _ | emitReply | emitMsg | fwrVersion | capEmit =>
    exact nextOk_to (samePart_of_kept ⟨rfl, rfl, rfl, rfl⟩)

end

/-! ## Operations -/

theorem nextOk_samePart_trans {p : BlockPart} {s t : State} (h : SamePart s t p) :
    ∀ {n : Next}, NextOk (SamePart t · p) (fun _ => True) n → NextOk (SamePart s · p) (fun _ => True) n
  | .to _ _, ⟨hn, hrest⟩ => ⟨h.trans hn, hrest⟩
  | .raised _, hn => h.trans hn
  | .wait, _ | .refuse _, _ => trivial

/-- Entries that may not write the part keep it, and go on to such entries. -/
theorem samePart_keeps (p : BlockPart) (s : State) (a : Agent) : Keeps a (SamePart s · p) (fun m => m.writes p = false) where
  unit pick m t _ h hm := nextOk_of_rest (nextOk_samePart_trans h (unit_samePart t a pick hm)) (unit_rest_spares a pick hm t)
  group r _ _ _ _ t h _ _ := h.trans (samePart_of_kept (by simp))
  byte r off dst _ k t h _ _ := h.trans (samePart_of_kept (by simp))
  subIn _ _ _ _ _ _ _ := by cases p <;> rfl
  subOut _ _ _ _ _ _ _ := by cases p <;> rfl

/-- An operation that may not write the part keeps it. -/
theorem exec_samePart {p : BlockPart} {i : Instr} {s t : State} (hi : instrWrites p i = false) (h : exec i s = .next t) :
    SamePart s t p := by
  rw [exec_eq_perform] at h
  exact (samePart_keeps p s s.presenter).perform_ok (fun _ _ _ hu _ => hu.trans (samePart_setEx _ _)) (samePart_setEx _ _)
    (spares_listing hi s.cfg) (by cases p <;> rfl) h

/-- Settles O26: each part is kept by every operation whose listing has no entry that may write it. -/
theorem onlyWriters : Obligations.OnlyWriters := by
  intro i s t h
  refine ⟨fun hd0 hreset hrun => exec_samePart (p := .power) ?_ h, fun hready hdefer => exec_samePart (p := .context) ?_ h,
    fun himm hdefer => exec_samePart (p := .deferral) ?_ h, exec_samePart (p := .handles) ?_ h⟩
  · cases i with
    | enterD0 | reset | run => contradiction
    | _ => rfl
  · cases i with
    | fwready | irqdefer => contradiction
    | _ => rfl
  · cases i with
    | irqimm | irqdefer => contradiction
    | _ => rfl
  · rfl

end Sys2Proof.Machine
end

section
/-! PROOFS. Runs of `Update32` on step descriptors (R16, R131): what a run leaves unchanged, which bits of a word it keeps and
which it sets. -/

namespace Sys2Proof.Machine

/-! ## Bits of a word under an update -/

/-- A bit of a word with the power status field over it (R44). -/
theorem State.getLsbD_overlay (s : State) (r : Region) (off : Nat) (w : Word) (i : Nat) :
    (s.overlay r off w).getLsbD i =
      if s.isPm r off = true ∧ s.cfg.pmSts.mask.getLsbD i = true then s.pmhw.getLsbD i else w.getLsbD i := by
  unfold State.overlay
  by_cases h : s.isPm r off = true <;> simp [h, getLsbD_merged]

/-- An update at `ISR` stores nothing (R32). -/
theorem State.word_update32_isr {s : State} (a : Agent) {r : Region} {off : Nat} (m v : Word) (hi : s.isIsr r off = true) :
    (s.update32 a r off m v).word r off = s.word r off := by
  have hstore (t : State) (w : Word) (ht : t.isIsr r off = true) : (t.store r off w).word r off = t.word r off := by
    rw [t.store_isr r off w ht]
  rw [State.update32_eq, State.write32, State.busWrite_cases, State.record_word]
  split
  · split
    · rw [hstore _ _ (by simpa using hi)]
      simp
    · simp
  · rw [hstore _ _ (by simpa using hi)]
    simp

/-- A bit of an accessible word that the mask leaves out. -/
theorem State.getLsbD_update32_outside {s : State} (a : Agent) {r : Region} {off i : Nat} {m : Word} (v : Word)
    (ha : s.inaccessible r off = false) (hm : m.getLsbD i = false) :
    ((s.update32 a r off m v).word r off).getLsbD i = (s.word r off).getLsbD i := by
  cases hi : s.isIsr r off with
  | true => rw [State.word_update32_isr a m v hi]
  | false =>
    rw [s.word_update32_same a m v ha hi, State.getLsbD_overlay, getLsbD_merged, hm]
    simp only [Bool.false_eq_true, if_false]
    split
    · rename_i hpm
      rw [State.word, State.getLsbD_overlay, if_pos hpm]
    · rfl

/-- A bit of any word: kept where the update is elsewhere, or leaves the bit out of an accessible word. -/
theorem State.getLsbD_update32_kept {s : State} (a : Agent) {r r' : Region} {off x i : Nat} {m : Word} (v : Word)
    (ho : off % 4 = 0) (hx : x % 4 = 0)
    (h : r = r' → off = x → s.inaccessible r' x = false ∧ m.getLsbD i = false) :
    ((s.update32 a r off m v).word r' x).getLsbD i = (s.word r' x).getLsbD i := by
  by_cases hsame : r = r' ∧ off = x
  · obtain ⟨rfl, rfl⟩ := hsame
    obtain ⟨ha, hm⟩ := h rfl rfl
    exact State.getLsbD_update32_outside a v ha hm
  · rw [s.word_update32_other a m v ho hx (fun e => hsame ⟨e.1.symm, e.2.symm⟩)]

/-- A bit that the mask takes in, of an accessible word other than `ISR`, outside the power status field. -/
theorem State.getLsbD_update32_inside {s : State} (a : Agent) {r : Region} {off i : Nat} {m : Word} (v : Word)
    (ha : s.inaccessible r off = false) (hi : s.isIsr r off = false)
    (hpm : s.isPm r off = true → s.cfg.pmSts.mask.getLsbD i = false) (hm : m.getLsbD i = true) :
    ((s.update32 a r off m v).word r off).getLsbD i = v.getLsbD i := by
  have hfield : ¬(s.isPm r off = true ∧ s.cfg.pmSts.mask.getLsbD i = true) := fun ⟨h, h'⟩ => by simp [hpm h] at h'
  rw [s.word_update32_same a m v ha hi, State.getLsbD_overlay, if_neg hfield, getLsbD_merged, if_pos hm]

/-! ## Runs of updates -/

/-- The step descriptors are performed one after another by agent `a`. -/
def State.updatesAt (s : State) (a : Agent) (ds : List StepDesc) : State := ds.foldl (fun t d => t.updateAt a d) s

section
variable {s : State} (a : Agent) {ds : List StepDesc}

/-- What an update keeps a run of updates keeps. -/
theorem State.updatesAt_keeps {β : Type} (f : State → β) (ds : List StepDesc)
    (h : ∀ t, ∀ d ∈ ds, f (t.updateAt a d) = f t) : f (s.updatesAt a ds) = f s := by
  unfold State.updatesAt
  induction ds generalizing s with
  | nil => rfl
  | cons d ds ih => exact (ih fun t e he => h t e (by simp [he])).trans (h s d (by simp))

@[simp] theorem State.updatesAt_cfg : (s.updatesAt a ds).cfg = s.cfg := State.updatesAt_keeps a (·.cfg) ds (by simp)
@[simp] theorem State.updatesAt_lock : (s.updatesAt a ds).lock = s.lock := State.updatesAt_keeps a (·.lock) ds (by simp)
@[simp] theorem State.updatesAt_halt : (s.updatesAt a ds).halt = s.halt :=
  State.updatesAt_keeps a (·.halt) ds (by simp [State.updateAt])
@[simp] theorem State.updatesAt_pmhw : (s.updatesAt a ds).pmhw = s.pmhw := State.updatesAt_keeps a (·.pmhw) ds (by simp)
@[simp] theorem State.updatesAt_atDelay : (s.updatesAt a ds).atDelay = s.atDelay :=
  State.updatesAt_keeps a (·.atDelay) ds (by simp [State.updateAt])
@[simp] theorem State.updatesAt_elapsed : (s.updatesAt a ds).elapsed = s.elapsed :=
  State.updatesAt_keeps a (·.elapsed) ds (by simp [State.updateAt])
@[simp] theorem State.updatesAt_d0Confirmed : (s.updatesAt a ds).d0Confirmed = s.d0Confirmed :=
  State.updatesAt_keeps a (·.d0Confirmed) ds (by simp [State.updateAt])
@[simp] theorem State.updatesAt_inaccessible (r : Region) (x : Nat) :
    (s.updatesAt a ds).inaccessible r x = s.inaccessible r x := State.updatesAt_keeps a (·.inaccessible r x) ds (by simp)
@[simp] theorem State.updatesAt_isPm (r : Region) (x : Nat) : (s.updatesAt a ds).isPm r x = s.isPm r x :=
  State.updatesAt_keeps a (·.isPm r x) ds (by simp [State.updateAt])

theorem PowerFrame.updatesAt (s : State) (a : Agent) (ds : List StepDesc) : PowerFrame a s (s.updatesAt a ds) := by
  unfold State.updatesAt
  induction ds generalizing s with
  | nil => exact .refl a s
  | cons d ds ih => exact (PowerFrame.update32 s a d.rgn d.off d.mask d.val).trans (ih _)

/-- A register that no descriptor of the run targets. -/
theorem State.regs_get_updatesAt {g : DevReg} (h : ∀ d ∈ ds, regAt s.cfg d.rgn d.off ≠ some g) :
    (s.updatesAt a ds).regs.get g = s.regs.get g := by
  unfold State.updatesAt
  induction ds generalizing s with
  | nil => rfl
  | cons d ds ih =>
    exact (ih fun e he => by rw [State.updateAt_cfg]; exact h e (by simp [he])).trans
      (s.regs_get_update32 a d.mask d.val (h d (by simp)))

/-- A plain byte that no descriptor of the run targets. -/
theorem State.read_mem_updatesAt {r : Region} {x : Nat} (h : ∀ d ∈ ds, OffTarget d r x) :
    Memory.read ((s.updatesAt a ds).mem r) x = Memory.read (s.mem r) x :=
  State.updatesAt_keeps a (fun t => Memory.read (t.mem r) x) ds fun t d hd =>
    t.read_mem_update32 a d.mask d.val fun ⟨hr, hx⟩ => h d hd ⟨hr.symm, hx⟩

/-- A bit that each descriptor of the run leaves out of an accessible word, or that is in another word. -/
theorem State.getLsbD_updatesAt_kept {r : Region} {x i : Nat} (hal : ∀ d ∈ ds, d.off % 4 = 0) (hx : x % 4 = 0)
    (h : ∀ d ∈ ds, d.rgn = r → d.off = x → s.inaccessible r x = false ∧ d.mask.getLsbD i = false) :
    ((s.updatesAt a ds).word r x).getLsbD i = (s.word r x).getLsbD i := by
  unfold State.updatesAt
  induction ds generalizing s with
  | nil => rfl
  | cons d ds ih =>
    exact (ih (fun e he => hal e (by simp [he])) fun e he => by
      rw [State.updateAt_inaccessible]; exact h e (by simp [he])).trans
      (State.getLsbD_update32_kept a d.val (hal d (by simp)) hx (h d (by simp)))

/-- A bit of a descriptor's field, which no later descriptor of the run writes. -/
theorem State.getLsbD_updatesAt_field {k i : Nat} {d : StepDesc} (hd : ds[k]? = some d) (hal : ∀ d ∈ ds, d.off % 4 = 0)
    (ha : s.inaccessible d.rgn d.off = false) (hi : s.isIsr d.rgn d.off = false)
    (hpm : s.isPm d.rgn d.off = true → s.cfg.pmSts.mask.getLsbD i = false) (hm : d.mask.getLsbD i = true)
    (hlater : ∀ j e, k < j → ds[j]? = some e → e.rgn = d.rgn → e.off = d.off → e.mask.getLsbD i = false) :
    ((s.updatesAt a ds).word d.rgn d.off).getLsbD i = d.val.getLsbD i := by
  induction ds generalizing s k with
  | nil => simp at hd
  | cons e ds ih =>
    have hal' : ∀ d ∈ ds, d.off % 4 = 0 := fun f hf => hal f (by simp [hf])
    cases k with
    | zero =>
      obtain rfl : e = d := by simpa using hd
      have hkept := State.getLsbD_updatesAt_kept (s := s.updateAt a e) (i := i) a hal' (hal e (by simp)) fun f hf hr hx => by
        obtain ⟨j, hj⟩ := List.mem_iff_getElem?.1 hf
        exact ⟨by rw [State.updateAt_inaccessible]; exact ha, hlater (j + 1) f (by omega) (by simpa using hj) hr hx⟩
      exact hkept.trans (State.getLsbD_update32_inside a e.val ha hi hpm hm)
    | succ k =>
      exact ih (s := s.updateAt a e) (by simpa using hd) hal' (by simpa using ha) (by simpa [State.updateAt] using hi)
        (by simpa [State.updateAt] using hpm)
        fun j f hj hf => hlater (j + 1) f (by omega) (by simpa using hf)

end

/-- R13 (a): the target of a step descriptor is a word. -/
theorem stepDesc_aligned {c : Cfg} {d : StepDesc} (hw : c.wf = true) (hd : d ∈ c.stepDescs) : d.off % 4 = 0 := by
  have hok := c.wf_stepDescs hw d hd
  simp only [Cfg.stepOk, Bool.and_eq_true] at hok
  exact (wordFits_iff.1 hok.2).1

end Sys2Proof.Machine
end

section
/-! PROOFS. The poll loop of `ENTER_D0` (R131 E5 and E6, R137): what a poll finds whatever the power hardware does in the delays, and
how the loop ends. -/

namespace Sys2Proof.Machine

/-! ## The power hardware's moves (R253) -/

/-- The firmware's accesses change neither the power hardware's value nor what is gated. -/
theorem State.act_power (s : State) (x : FwAct) : (s.act x).pmhw = s.pmhw ∧ (s.act x).gated = s.gated := by
  cases x with
  | poke off b => simp [State.act, State.pokeByte]
  | cmdo w | cmdi w | ack | imrd v => simp [State.act]

theorem State.fwNext_power (s : State) : s.fwNext.pmhw = s.pmhw ∧ s.fwNext.gated = s.gated := by
  unfold State.fwNext
  split
  · exact ⟨rfl, rfl⟩
  · split
    · exact State.act_power _ _
    · exact ⟨rfl, rfl⟩

theorem State.fwRun_power (n : Nat) (s : State) : (s.fwRun n).pmhw = s.pmhw ∧ (s.fwRun n).gated = s.gated := by
  induction n generalizing s with
  | zero => exact ⟨rfl, rfl⟩
  | succ n ih =>
    obtain ⟨hp, hg⟩ := ih s.fwNext
    obtain ⟨hp', hg'⟩ := s.fwNext_power
    exact ⟨hp.trans hp', hg.trans hg'⟩

/-- The firmware's moves, and the beginning of one. -/
theorem State.move_firmware_power (s : State) {m : EnvMove} (hm : m.ofFirmware = true) :
    (s.move m).pmhw = s.pmhw ∧ (s.move m).gated = s.gated := by
  unfold State.move
  split
  · rw [EnvMove.effect_ofFirmware s hm]
    exact State.fwRun_power _ (s.fwBegin m)
  · exact ⟨rfl, rfl⟩

theorem State.move_start_power (s : State) (m : EnvMove) :
    (s.move (.start m)).pmhw = s.pmhw ∧ (s.move (.start m)).gated = s.gated := by
  unfold State.move
  split <;> exact ⟨rfl, rfl⟩

theorem State.move_fwFree_power (s : State) (r : Region) (off : Nat) (v : Word) :
    (s.move (.fwFree r off v)).pmhw = s.pmhw ∧ (s.move (.fwFree r off v)).gated = s.gated := by
  unfold State.move
  split
  · exact ⟨State.store_pmhw s r off v, State.store_gated s r off v⟩
  · exact ⟨rfl, rfl⟩

/-- Once the request has been made, one move does to the power hardware's value what R253 says. -/
theorem State.move_pmhw {s : State} (m : EnvMove) (hr : s.d0Requested = true) :
    (s.move m).pmhw = powerMove s.cfg s.pmhw m := by
  cases m with
  | pwrReady =>
    have henabled : EnvMove.pwrReady.enabled s = true := hr
    rw [State.move, if_pos henabled]
    rfl
  | pwrBusy v =>
    have henabled : (EnvMove.pwrBusy v).enabled s = true ↔ v &&& s.cfg.pmSts.mask ≠ 0 := bne_iff_ne
    simp only [State.move, henabled, powerMove, ite_not]
    split <;> rfl
  | gate g => rfl
  | fwFree r off v => exact (s.move_fwFree_power r off v).1
  | start m => exact (s.move_start_power m).1
  | next => exact s.fwNext_power.1
  | _ => exact (s.move_firmware_power rfl).1

/-- Only the move that gates parts of the device writes what is gated. -/
theorem State.move_gated (s : State) {m : EnvMove} (hm : ∀ g, m ≠ .gate g) : (s.move m).gated = s.gated := by
  cases m with
  | gate g => exact absurd rfl (hm g)
  | pwrReady | pwrBusy v =>
    unfold State.move
    split <;> rfl
  | fwFree r off v => exact (s.move_fwFree_power r off v).2
  | start m => exact (s.move_start_power m).2
  | next => exact s.fwNext_power.2
  | _ => exact (s.move_firmware_power rfl).2

theorem State.moves_pmhw {s : State} (ms : List EnvMove) (hr : s.d0Requested = true) :
    (s.moves ms).pmhw = ms.foldl (powerMove s.cfg) s.pmhw := by
  induction ms generalizing s with
  | nil => rfl
  | cons m ms ih =>
    have h := ih (s := s.move m) (by simpa using hr)
    rw [State.move_cfg, State.move_pmhw m hr] at h
    exact h

theorem State.moves_gated {s : State} {ms : List EnvMove} (hm : ∀ m ∈ ms, ∀ g, m ≠ .gate g) :
    (s.moves ms).gated = s.gated := by
  induction ms generalizing s with
  | nil => rfl
  | cons m ms ih =>
    exact (ih (s := s.move m) fun x hx => hm x (by simp [hx])).trans (s.move_gated (hm m (by simp)))

/-! ## One poll that finds the field not 0 -/

/-- The read of E5 and the delay after it, by agent `a`. -/
def State.failedPoll (s : State) (a : Agent) : State := (pollRead a s).2.delay a tPoll

section
variable (s : State) (a : Agent)

@[simp] theorem State.failedPoll_cfg : (s.failedPoll a).cfg = s.cfg := by simp [State.failedPoll, pollRead]
@[simp] theorem State.failedPoll_ctx : (s.failedPoll a).ctx = s.ctx := by simp [State.failedPoll, pollRead]
@[simp] theorem State.failedPoll_lock : (s.failedPoll a).lock = s.lock := by simp [State.failedPoll, pollRead]
@[simp] theorem State.failedPoll_halt : (s.failedPoll a).halt = s.halt := by simp [State.failedPoll, pollRead]
@[simp] theorem State.failedPoll_d0Requested : (s.failedPoll a).d0Requested = s.d0Requested := by
  simp [State.failedPoll, pollRead]
@[simp] theorem State.failedPoll_d0Confirmed : (s.failedPoll a).d0Confirmed = s.d0Confirmed := by
  simp [State.failedPoll, pollRead]
@[simp] theorem State.failedPoll_elapsed : (s.failedPoll a).elapsed = s.elapsed + 20 := by
  simp [State.failedPoll, pollRead, tPoll]

theorem State.failedPoll_access : (s.failedPoll a).bus.map BusRec.access =
    s.bus.map BusRec.access ++ [.read s.cfg.pmSts.rgn s.cfg.pmSts.off, .wait 20] := by
  simp [State.failedPoll, pollRead, BusRec.access, tPoll]

/-- A delay uses up one entry of the schedule. -/
theorem State.delay_schedule (n : Nat) : (s.delay a n).atDelay = s.atDelay.tail := by
  unfold State.delay State.delayMoves
  cases s.atDelay <;> simp [State.record]

@[simp] theorem State.failedPoll_atDelay : (s.failedPoll a).atDelay = s.atDelay.tail := by
  simp [State.failedPoll, State.delay_schedule, pollRead]

variable {s a}

/-- What poll `j` after a failed one finds is what poll `j + 1` was to find. -/
theorem State.failedPoll_statusAt (hr : s.d0Requested = true) (j : Nat) :
    (s.failedPoll a).statusAt j = s.statusAt (j + 1) := by
  have hpm : (s.failedPoll a).pmhw = (s.atDelay.take 1).flatten.foldl (powerMove s.cfg) s.pmhw := by
    unfold State.failedPoll State.delay State.delayMoves pollRead
    cases h : s.atDelay with
    | nil => simp [State.record, h]
    | cons ms rest =>
      simp only [State.record, State.read32_atDelay, h]
      rw [State.moves_pmhw ms (by simpa using hr)]
      simp
  have hsplit : s.atDelay.take (j + 1) = s.atDelay.take 1 ++ s.atDelay.tail.take j := by
    cases s.atDelay <;> simp
  simp only [State.statusAt, State.failedPoll_cfg, State.failedPoll_atDelay, hpm, hsplit, List.flatten_append,
    List.foldl_append]

/-! ## The loop -/

/-- The request has been made, and the power status field can be read and will stay so: it lies in the companion region, or no
move of the schedule gates parts of the device (U6). -/
def State.Pollable (s : State) : Prop :=
  s.d0Requested = true ∧ s.inaccessible s.cfg.pmSts.rgn s.cfg.pmSts.off = false ∧
    (s.cfg.pmSts.rgn = .comp ∨ ∀ ms ∈ s.atDelay, ∀ m ∈ ms, ∀ g, m ≠ .gate g)

/-- Where no move gates anything a failed poll keeps what is gated. -/
theorem State.failedPoll_gated (hm : ∀ ms ∈ s.atDelay, ∀ m ∈ ms, ∀ g, m ≠ .gate g) : (s.failedPoll a).gated = s.gated := by
  unfold State.failedPoll State.delay State.delayMoves pollRead
  cases h : s.atDelay with
  | nil => simp [State.record, h]
  | cons ms rest =>
    simp only [State.record, State.read32_atDelay, h]
    rw [State.moves_gated (hm ms (by simp [h]))]
    simp

theorem State.Pollable.failedPoll (h : s.Pollable) : (s.failedPoll a).Pollable := by
  obtain ⟨hr, hacc, hquiet⟩ := h
  refine ⟨by simpa using hr, ?_, ?_⟩
  · rcases hquiet with hcomp | hgate
    · simp [State.inaccessible, hcomp]
    · rw [State.inaccessible_congr (s := s) (by simp) (by simp) (State.failedPoll_gated hgate) (by simp)]
      simpa using hacc
  · rcases hquiet with hcomp | hgate
    · exact .inl (by simpa using hcomp)
    · exact .inr fun ms hms => hgate ms (List.mem_of_mem_tail (by simpa using hms))

/-- The state after `n` polls that find the field not 0. -/
def State.polled (a : Agent) : Nat → State → State
  | 0, s => s
  | n + 1, s => State.polled a n (s.failedPoll a)

/-- What a failed poll keeps any number of them keep. -/
theorem State.polled_keeps {β : Type} (f : State → β) (h : ∀ t : State, f (t.failedPoll a) = f t) (n : Nat) (s : State) :
    f (s.polled a n) = f s := by
  induction n generalizing s with
  | zero => rfl
  | succ n ih => exact (ih _).trans (h s)

@[simp] theorem State.polled_cfg (n : Nat) : (s.polled a n).cfg = s.cfg := State.polled_keeps (·.cfg) (by simp) n s
@[simp] theorem State.polled_lock (n : Nat) : (s.polled a n).lock = s.lock := State.polled_keeps (·.lock) (by simp) n s
@[simp] theorem State.polled_halt (n : Nat) : (s.polled a n).halt = s.halt := State.polled_keeps (·.halt) (by simp) n s

@[simp] theorem State.polled_elapsed (n : Nat) : (s.polled a n).elapsed = s.elapsed + 20 * n := by
  induction n generalizing s with
  | zero => rfl
  | succ n ih => rw [State.polled, ih, State.failedPoll_elapsed]; omega

theorem State.polled_access (n : Nat) :
    (s.polled a n).bus.map BusRec.access = s.bus.map BusRec.access ++ failedPolls s.cfg n := by
  induction n generalizing s with
  | zero => simp [State.polled, failedPolls]
  | succ n ih =>
    rw [State.polled, ih, State.failedPoll_access]
    simp [failedPolls, List.replicate_succ]

/-- The loop goes on as long as the polls find the field not 0. -/
theorem pollAll_polled (h : s.Pollable) {k : Nat} (hbusy : ∀ j < k, s.statusAt j ≠ 0) (n : Nat) :
    pollAll a (k + n) s = pollAll a n (s.polled a k) ∧ (s.polled a k).Pollable ∧
      (s.polled a k).statusAt 0 = s.statusAt k := by
  induction k generalizing s with
  | zero => simpa [State.polled] using h
  | succ k ih =>
    have hnext : (s.failedPoll a).Pollable := h.failedPoll
    obtain ⟨hr, hacc, -⟩ := h
    have hread : (pollRead a s).1 ≠ 0 := by
      rw [pollRead_fst a hacc]
      simpa [State.statusAt] using hbusy 0 (by omega)
    obtain ⟨hrun, hp, hstatus⟩ := ih (s := s.failedPoll a) hnext fun j hj => by
      rw [State.failedPoll_statusAt hr]; exact hbusy (j + 1) (by omega)
    refine ⟨?_, hp, hstatus.trans (State.failedPoll_statusAt hr k)⟩
    rw [show k + 1 + n = k + n + 1 by omega, pollAll, if_neg hread]
    exact hrun

/-- The loop ends well at the first poll that finds 0 (R137). -/
theorem pollAll_ready (h : s.Pollable) {k n : Nat} (hk : k < n) (hbusy : ∀ j < k, s.statusAt j ≠ 0)
    (hready : s.statusAt k = 0) : pollAll a n s = .go ((s.polled a k).confirmD0 a) := by
  obtain ⟨m, rfl⟩ : ∃ m, n = k + (m + 1) := ⟨n - k - 1, by omega⟩
  obtain ⟨hrun, ⟨-, hacc, -⟩, hstatus⟩ := pollAll_polled (a := a) h hbusy (m + 1)
  rw [hrun]
  refine pollAll_inD0 a m ?_ hacc
  simpa [State.statusAt, State.inD0] using hstatus.trans hready

/-- The loop fails when every poll finds the field not 0 (R131 E6). -/
theorem pollAll_timeout (h : s.Pollable) {n : Nat} (hbusy : ∀ j < n, s.statusAt j ≠ 0) :
    pollAll a n s = .raised ((pwrStep (s.polled a n) .timedOut).raise a .timeout 0) := by
  obtain ⟨hrun, -⟩ := pollAll_polled (a := a) h hbusy 0
  exact hrun

end

/-! ## Polls in which nothing moves -/

/-- `t` differs from `s` in the trace, the time and the free-value counter, and in nothing else. -/
def TraceOnly (s t : State) : Prop := t = { s with bus := t.bus, draws := t.draws, elapsed := t.elapsed }

section
variable {s t u : State}

theorem TraceOnly.eq (h : TraceOnly s t) : t = { s with bus := t.bus, draws := t.draws, elapsed := t.elapsed } := h

theorem TraceOnly.trans (h : TraceOnly s t) (h' : TraceOnly t u) : TraceOnly s u := by
  unfold TraceOnly at *
  exact h'.trans (by rw [h])

theorem TraceOnly.read32 (s : State) (a : Agent) (r : Region) (off : Nat) : TraceOnly s (s.read32 a r off).2 := by
  unfold State.read32 State.busRead
  split <;> (try split) <;> rfl

theorem TraceOnly.polled (a : Agent) (n : Nat) (hq : s.atDelay = []) : TraceOnly s (s.polled a n) := by
  induction n generalizing s with
  | zero => rfl
  | succ n ih =>
    have hread : TraceOnly s (pollRead a s).2 := .read32 ..
    have hpoll : TraceOnly (pollRead a s).2 (s.failedPoll a) := by
      rw [State.failedPoll, State.delay_quiet _ a tPoll (by simpa [pollRead] using hq)]
      rfl
    exact (hread.trans hpoll).trans (ih (by simp [hq]))

theorem TraceOnly.powerFrame (h : TraceOnly s t) (a : Agent) : PowerFrame a s t := by
  rw [h.eq]
  exact .refl a s

theorem TraceOnly.regs (h : TraceOnly s t) : t.regs = s.regs := by rw [h.eq]
theorem TraceOnly.mem (h : TraceOnly s t) (r : Region) : t.mem r = s.mem r := by rw [h.eq]; cases r <;> rfl
theorem TraceOnly.word (h : TraceOnly s t) (r : Region) (x : Nat) : t.word r x = s.word r x := by
  rw [h.eq]
  exact State.word_congr rfl rfl (fun r' => by cases r' <;> rfl) rfl r x

end

/-- With no move of the environment every poll finds what the first one finds. -/
theorem State.statusAt_quiet {s : State} (hq : s.atDelay = []) (j : Nat) : s.statusAt j = s.pmhw &&& s.cfg.pmSts.mask := by
  simp [State.statusAt, hq]

end Sys2Proof.Machine
end

section
/-! PROOFS. The parts of `ENTER_D0` (R131): the request (E1 to E3), the confirmation (E5), the set-up of the core (E7 to E13), the
unmasking and the clearing of the command registers (E14 to E16), each with what it writes and what it keeps; then the whole
operation, from its presentation to its end. -/

namespace Sys2Proof.Machine

/-! ## E1 to E3: the request -/

/-- The step descriptors of E1 to E3. -/
abbrev requestSteps (c : Cfg) : List StepDesc := [c.stGateOff, c.stPdOff, c.stD0Req]

/-- The step descriptors of E11 to E13. -/
abbrev policySteps (c : Cfg) : List StepDesc := [c.stCgPolicy, c.stPgDefault, c.stQuirkOff]

theorem requestSteps_aligned {c : Cfg} (hw : c.wf = true) : ∀ d ∈ requestSteps c, d.off % 4 = 0 := fun d hd =>
  stepDesc_aligned hw (by simp only [List.mem_cons, List.not_mem_nil, or_false, Cfg.stepDescs] at hd ⊢; tauto)

theorem policySteps_aligned {c : Cfg} (hw : c.wf = true) : ∀ d ∈ policySteps c, d.off % 4 = 0 := fun d hd =>
  stepDesc_aligned hw (by simp only [List.mem_cons, List.not_mem_nil, or_false, Cfg.stepDescs] at hd ⊢; tauto)

section
variable {s : State} (a : Agent)

theorem State.requestD0_eq (s : State) (a : Agent) :
    s.requestD0 a = pwrStep (s.updatesAt a (requestSteps s.cfg)) .requested := rfl

@[simp] theorem State.requestD0_halt : (s.requestD0 a).halt = s.halt := by simp [State.requestD0_eq]
@[simp] theorem State.requestD0_atDelay : (s.requestD0 a).atDelay = s.atDelay := by simp [State.requestD0_eq]
@[simp] theorem State.requestD0_elapsed : (s.requestD0 a).elapsed = s.elapsed := by simp [State.requestD0_eq]
@[simp] theorem State.requestD0_pmhw : (s.requestD0 a).pmhw = s.pmhw := by simp [State.requestD0_eq]
@[simp] theorem State.requestD0_d0Requested : (s.requestD0 a).d0Requested = true := rfl
@[simp] theorem State.requestD0_word (r : Region) (x : Nat) :
    (s.requestD0 a).word r x = (s.updatesAt a (requestSteps s.cfg)).word r x := by simp [State.requestD0_eq]
@[simp] theorem State.requestD0_mem (r : Region) :
    (s.requestD0 a).mem r = (s.updatesAt a (requestSteps s.cfg)).mem r := by simp [State.requestD0_eq]
@[simp] theorem State.requestD0_regs : (s.requestD0 a).regs = (s.updatesAt a (requestSteps s.cfg)).regs := by
  simp [State.requestD0_eq]

theorem PowerFrame.requestD0 : PowerFrame a s (s.requestD0 a) :=
  (PowerFrame.updatesAt s a (requestSteps s.cfg)).trans (.pwrStep ..)

/-! ## E5: the confirmation -/

@[simp] theorem State.confirmD0_halt : (s.confirmD0 a).halt = s.halt := by simp [State.confirmD0]
@[simp] theorem State.confirmD0_elapsed : (s.confirmD0 a).elapsed = s.elapsed := by simp [State.confirmD0]
@[simp] theorem State.confirmD0_regs : (s.confirmD0 a).regs = s.regs := by simp [State.confirmD0]
@[simp] theorem State.confirmD0_d0Confirmed : (s.confirmD0 a).d0Confirmed = true := rfl
@[simp] theorem State.confirmD0_mem (r : Region) : (s.confirmD0 a).mem r = s.mem r := by
  rw [← State.read32_mem s a s.cfg.pmSts.rgn s.cfg.pmSts.off r]
  cases r <;> rfl
@[simp] theorem State.confirmD0_word (r : Region) (x : Nat) : (s.confirmD0 a).word r x = s.word r x :=
  State.word_congr (by simp) (by simp) (by simp) (by simp [State.confirmD0]) r x

theorem PowerFrame.confirmD0 : PowerFrame a s (s.confirmD0 a) := by
  simp [PowerFrame, SameHost, SameOthers, SameSetting, SameResults, State.confirmD0_ex]
  simp [State.confirmD0]

/-! ## E7 to E13: the core -/

theorem State.setupD0_eq (s : State) (a : Agent) :
    s.setupD0 a = ((s.updateAt a s.cfg.stClkSel).pulse a).updatesAt a (policySteps s.cfg) := rfl

@[simp] theorem State.setupD0_halt : (s.setupD0 a).halt = s.halt := by simp [State.setupD0_eq, State.updateAt]
@[simp] theorem State.setupD0_elapsed : (s.setupD0 a).elapsed = s.elapsed + 10 := by
  simp [State.setupD0_eq, State.updateAt]
@[simp] theorem State.setupD0_d0Confirmed : (s.setupD0 a).d0Confirmed = s.d0Confirmed := by
  simp [State.setupD0_eq, State.updateAt]

theorem PowerFrame.setupD0 (hq : s.atDelay = []) : PowerFrame a s (s.setupD0 a) := by
  have hclock : PowerFrame a s (s.updateAt a s.cfg.stClkSel) := .update32 ..
  rw [State.setupD0_eq]
  exact hclock.trans ((PowerFrame.pulse a (hclock.quiet hq)).trans (.updatesAt ..))

/-- A flag of `CSR` that the descriptors leave out. -/
theorem State.flagOf_csr_updatesAt {ds : List StepDesc} {f : Word} (hw : s.cfg.wf = true) (hd : s.d0Confirmed = true)
    (hpm : s.isPm .dsp s.cfg.csrOff = false)
    (hf : ∀ d ∈ ds, d.rgn = .dsp → d.off = s.cfg.csrOff → f &&& d.mask = 0) :
    flagOf (s.updatesAt a ds).regs.csr f = flagOf s.regs.csr f := by
  unfold State.updatesAt
  induction ds generalizing s with
  | nil => rfl
  | cons d ds ih =>
    have hrest := ih (s := s.updateAt a d) (by simpa using hw) (by simpa [State.updateAt] using hd)
      (by simpa [State.updateAt] using hpm) fun e he => by rw [State.updateAt_cfg]; exact hf e (by simp [he])
    refine hrest.trans ?_
    by_cases htarget : d.rgn = .dsp ∧ d.off = s.cfg.csrOff
    · obtain ⟨hr, ho⟩ := htarget
      have hacc : s.inaccessible .dsp (regOff s.cfg .csr) = false := by rw [State.inaccessible_reg _ hw, hd]; rfl
      have hset := s.update32_reg a .csr d.mask d.val hw hacc hpm
      rw [State.updateAt, hr, ho, show s.cfg.csrOff = regOff s.cfg .csr from rfl, hset]
      exact flagOf_merged_outside (hf d (by simp) hr ho)
    · have hat : regAt s.cfg d.rgn d.off ≠ some .csr := fun h => htarget ⟨(regAt_some h).1, (regAt_some h).2.symm⟩
      rw [State.updateAt]
      exact congrArg (flagOf · f) (s.regs_get_update32 a d.mask d.val hat)

/-- A mask that two fields leave out leaves out each of the fields. -/
theorem and_eq_zero_of_or {f g m : Word} (h : m &&& (f ||| g) = 0) : f &&& m = 0 ∧ g &&& m = 0 := by
  rw [BitVec.and_or_distrib_left] at h
  obtain ⟨hf, hg⟩ := BitVec.or_eq_zero_iff.1 h
  exact ⟨by rw [BitVec.and_comm]; exact hf, by rw [BitVec.and_comm]; exact hg⟩

/-- E7 to E13 leave the core out of reset and stalled, whatever the environment does in the delay (R136). -/
theorem State.setupD0_csr (hw : s.cfg.wf = true) (hd : s.d0Confirmed = true) (hpm : s.isPm .dsp s.cfg.csrOff = false)
    (hclear : StepsClear s.cfg) : (s.setupD0 a).csrRst = false ∧ (s.setupD0 a).csrStall = true := by
  set u := (s.updateAt a s.cfg.stClkSel).pulse a with hu
  have hcfg : u.cfg = s.cfg := by simp [hu]
  have hkept (f : Word) (hf : ∀ d ∈ policySteps s.cfg, d.rgn = .dsp → d.off = s.cfg.csrOff → f &&& d.mask = 0) :
      flagOf (s.setupD0 a).regs.csr f = flagOf u.regs.csr f := by
    rw [State.setupD0_eq, ← hu]
    exact State.flagOf_csr_updatesAt a (hcfg ▸ hw) (by simpa [hu, State.updateAt] using hd)
      (by rw [State.isPm_congr hcfg, hcfg]; exact hpm) (by rw [hcfg]; exact hf)
  obtain ⟨old, hcsr⟩ := State.csr_pulse (s := s.updateAt a s.cfg.stClkSel) a (by simpa using hw)
    (by simpa [State.updateAt] using hd) (by simpa [State.updateAt] using hpm)
  rw [State.updateAt_cfg] at hcsr
  rw [State.csrRst, State.csrStall, State.setupD0_cfg, hkept _ fun d hd hr ho => (and_eq_zero_of_or (hclear d hd hr ho)).1,
    hkept _ fun d hd hr ho => (and_eq_zero_of_or (hclear d hd hr ho)).2, hu, hcsr]
  exact flags_of_released hw old

/-- A bit that S1 to S3 leave out, or that is in another word. -/
theorem State.getLsbD_pulse_kept {r : Region} {x i : Nat} (hw : s.cfg.wf = true) (hd : s.d0Confirmed = true)
    (hq : s.atDelay = []) (hx : x % 4 = 0)
    (h : r = .dsp → x = s.cfg.csrOff → (s.cfg.csrRst ||| s.cfg.csrStall).getLsbD i = false) :
    ((s.pulse a).word r x).getLsbD i = (s.word r x).getLsbD i := by
  have hal : s.cfg.csrOff % 4 = 0 := s.cfg.wf_off_aligned hw (regOff_mem s.cfg .csr)
  have hupdate (t : State) (v : Word) (hc : t.cfg = s.cfg) (hdt : t.d0Confirmed = true) :
      ((t.update32 a .dsp s.cfg.csrOff (s.cfg.csrRst ||| s.cfg.csrStall) v).word r x).getLsbD i = (t.word r x).getLsbD i := by
    refine State.getLsbD_update32_kept a v hal hx fun hr ho => ⟨?_, h hr.symm ho.symm⟩
    rw [← hr, ← ho, ← hc, show t.cfg.csrOff = regOff t.cfg .csr from rfl, State.inaccessible_reg _ (hc ▸ hw), hdt]
    rfl
  have hdelay (t : State) (ht : t.atDelay = []) : (t.delay a tHold).word r x = t.word r x := by
    rw [t.delay_quiet a tHold ht]
    exact State.word_congr rfl rfl (fun r' => by cases r' <;> rfl) rfl r x
  rw [State.pulse, hupdate _ _ (by simp) (by simpa using hd), hdelay _ (by simpa using hq), hupdate s _ rfl hd]

/-- A bit that E8, E10 and the descriptors of E11 to E13 leave out, or that is in another word. -/
theorem State.getLsbD_policy_kept {r : Region} {x i : Nat} (hw : s.cfg.wf = true) (hd : s.d0Confirmed = true)
    (hq : s.atDelay = []) (hx : x % 4 = 0)
    (hcsr : r = .dsp → x = s.cfg.csrOff → (s.cfg.csrRst ||| s.cfg.csrStall).getLsbD i = false)
    (h : ∀ d ∈ policySteps s.cfg, d.rgn = r → d.off = x → s.inaccessible r x = false ∧ d.mask.getLsbD i = false) :
    (((s.pulse a).updatesAt a (policySteps s.cfg)).word r x).getLsbD i = (s.word r x).getLsbD i := by
  have hacc : (s.pulse a).inaccessible r x = s.inaccessible r x := by
    obtain ⟨-, hctx, -, -, -, -, -, ⟨hcfg, -, hgated, -⟩, -⟩ := PowerFrame.pulse a hq
    exact State.inaccessible_congr hcfg hctx hgated (by simp) r x
  rw [State.getLsbD_updatesAt_kept a (policySteps_aligned hw) hx (by rw [hacc]; exact h),
    State.getLsbD_pulse_kept a hw hd hq hx hcsr]

/-- A bit that E7 to E13 leave out, or that is in another word. -/
theorem State.getLsbD_setupD0_kept {r : Region} {x i : Nat} (hw : s.cfg.wf = true) (hd : s.d0Confirmed = true)
    (hq : s.atDelay = []) (hx : x % 4 = 0)
    (hcsr : r = .dsp → x = s.cfg.csrOff → (s.cfg.csrRst ||| s.cfg.csrStall).getLsbD i = false)
    (h : ∀ d ∈ [s.cfg.stClkSel, s.cfg.stCgPolicy, s.cfg.stPgDefault, s.cfg.stQuirkOff], d.rgn = r → d.off = x →
      s.inaccessible r x = false ∧ d.mask.getLsbD i = false) :
    ((s.setupD0 a).word r x).getLsbD i = (s.word r x).getLsbD i := by
  have hclock : ((s.updateAt a s.cfg.stClkSel).word r x).getLsbD i = (s.word r x).getLsbD i :=
    State.getLsbD_update32_kept a _ (stepDesc_aligned hw (by simp [Cfg.stepDescs])) hx (h s.cfg.stClkSel (by simp))
  have hpolicy := State.getLsbD_policy_kept (s := s.updateAt a s.cfg.stClkSel) (r := r) (x := x) (i := i) a
    (by simpa using hw) (by simpa [State.updateAt] using hd) (by simpa [State.updateAt] using hq) hx (by simpa using hcsr)
    (fun d hm => by
      rw [State.updateAt_cfg] at hm
      rw [State.updateAt_inaccessible]
      exact h d (List.mem_cons_of_mem _ hm))
  rw [State.updateAt_cfg] at hpolicy
  exact hpolicy.trans hclock

/-- A plain byte that no descriptor of E7 and E11 to E13 targets. -/
theorem State.read_mem_setupD0 {r : Region} {x : Nat} (hw : s.cfg.wf = true) (hq : s.atDelay = [])
    (h : ∀ d ∈ [s.cfg.stClkSel, s.cfg.stCgPolicy, s.cfg.stPgDefault, s.cfg.stQuirkOff], OffTarget d r x) :
    Memory.read ((s.setupD0 a).mem r) x = Memory.read (s.mem r) x := by
  have hclock : Memory.read ((s.updateAt a s.cfg.stClkSel).mem r) x = Memory.read (s.mem r) x :=
    s.read_mem_update32 a _ _ fun ⟨hr, hx⟩ => h s.cfg.stClkSel (by simp) ⟨hr.symm, hx⟩
  rw [State.setupD0_eq, State.read_mem_updatesAt a fun d hd => h d (List.mem_cons_of_mem _ hd),
    State.mem_pulse a (by simpa using hw) (by simpa [State.updateAt] using hq), hclock]

end

/-! ## Registers, written one by one -/

/-- `Write32` of register `g` by agent `a`. -/
def State.writeReg (s : State) (a : Agent) (g : DevReg) (v : Word) : State := s.write32 a .dsp (regOff s.cfg g) v

/-- `Update32` of register `g` by agent `a`. -/
def State.updateReg (s : State) (a : Agent) (g : DevReg) (m v : Word) : State := s.update32 a .dsp (regOff s.cfg g) m v

section
variable {s : State} {a : Agent} {g : DevReg} {m v : Word}

@[simp] theorem State.writeReg_cfg : (s.writeReg a g v).cfg = s.cfg := by simp [State.writeReg]
@[simp] theorem State.writeReg_halt : (s.writeReg a g v).halt = s.halt := by simp [State.writeReg]
@[simp] theorem State.writeReg_lock : (s.writeReg a g v).lock = s.lock := by simp [State.writeReg]
@[simp] theorem State.writeReg_elapsed : (s.writeReg a g v).elapsed = s.elapsed := by simp [State.writeReg]
@[simp] theorem State.writeReg_d0Confirmed : (s.writeReg a g v).d0Confirmed = s.d0Confirmed := by simp [State.writeReg]
@[simp] theorem State.updateReg_cfg : (s.updateReg a g m v).cfg = s.cfg := by simp [State.updateReg]
@[simp] theorem State.updateReg_halt : (s.updateReg a g m v).halt = s.halt := by simp [State.updateReg]
@[simp] theorem State.updateReg_elapsed : (s.updateReg a g m v).elapsed = s.elapsed := by simp [State.updateReg]
@[simp] theorem State.updateReg_d0Confirmed : (s.updateReg a g m v).d0Confirmed = s.d0Confirmed := by simp [State.updateReg]

theorem State.writeReg_access :
    (s.writeReg a g v).bus.map BusRec.access = s.bus.map BusRec.access ++ [.write .dsp (regOff s.cfg g)] := by
  simp [State.writeReg, BusRec.access]

theorem State.updateReg_access :
    (s.updateReg a g m v).bus.map BusRec.access = s.bus.map BusRec.access ++ updateAccess .dsp (regOff s.cfg g) :=
  State.update32_access ..

theorem PowerFrame.writeReg : PowerFrame a s (s.writeReg a g v) := .write32 ..
theorem PowerFrame.updateReg : PowerFrame a s (s.updateReg a g m v) := .update32 ..

theorem State.mem_writeReg (hw : s.cfg.wf = true) (r : Region) : (s.writeReg a g v).mem r = s.mem r :=
  State.mem_write32_offset a v hw (regOff_mem s.cfg g) r

theorem State.mem_updateReg (hw : s.cfg.wf = true) (r : Region) : (s.updateReg a g m v).mem r = s.mem r :=
  s.mem_update32_reg a g m v hw r

theorem State.registersPlain.writeReg (hr : s.registersPlain) : (s.writeReg a g v).registersPlain :=
  State.registersPlain_congr (by simp) (by simp [State.writeReg]) (by simp [State.writeReg]) (by simp) hr

theorem State.registersPlain.updateReg (hr : s.registersPlain) : (s.updateReg a g m v).registersPlain :=
  State.registersPlain_congr (by simp) (by simp [State.updateReg]) (by simp [State.updateReg]) (by simp) hr

theorem State.writeReg_regs (hw : s.cfg.wf = true) (hr : s.registersPlain) : (s.writeReg a g v).regs = s.regs.set g v := by
  obtain ⟨hacc, hpm⟩ := State.registersPlain_reg hr g
  rw [State.writeReg, s.write32_reg a g v hw hacc hpm]
  cases g <;> rfl

theorem State.updateReg_regs (hw : s.cfg.wf = true) (hr : s.registersPlain) :
    (s.updateReg a g m v).regs = s.regs.set g (merged (s.regs.get g) m v) := by
  obtain ⟨hacc, hpm⟩ := State.registersPlain_reg hr g
  exact s.update32_reg a g m v hw hacc hpm

end

/-! ## E14 to E16: the mask registers, the command registers and the scratch registers -/

/-- The state after E14, whose updates the lock encloses. -/
def State.unmaskD0 (s : State) (a : Agent) : State :=
  { (({ s with lock := some a } : State).updateReg a .imrh (s.cfg.imrhDone ||| s.cfg.imrhBusy) 0).updateReg a .imrd
      (s.cfg.imrdDone ||| s.cfg.imrdBusy) 0 with lock := none }

/-- The state after E15. -/
def State.clearD0 (s : State) (a : Agent) : State :=
  (((s.writeReg a .cmdo 0).writeReg a .cmdi 0).writeReg a .scr0 0).writeReg a .scr1 0

/-- The state after E16. -/
def State.readyD0 (s : State) (a : Agent) : State := pwrStep ((s.unmaskD0 a).clearD0 a) .ready

section
variable {s : State} (a : Agent)

@[simp] theorem State.unmaskD0_cfg : (s.unmaskD0 a).cfg = s.cfg := by simp [State.unmaskD0]
@[simp] theorem State.clearD0_cfg : (s.clearD0 a).cfg = s.cfg := by simp [State.clearD0]
@[simp] theorem State.readyD0_cfg : (s.readyD0 a).cfg = s.cfg := by simp [State.readyD0]
@[simp] theorem State.readyD0_pwr : (s.readyD0 a).pwr = .stalledReady := rfl
@[simp] theorem State.readyD0_lock : (s.readyD0 a).lock = none := by simp [State.readyD0, State.clearD0, State.unmaskD0]
@[simp] theorem State.readyD0_halt : (s.readyD0 a).halt = s.halt := by simp [State.readyD0, State.clearD0, State.unmaskD0]
@[simp] theorem State.readyD0_elapsed : (s.readyD0 a).elapsed = s.elapsed := by
  simp [State.readyD0, State.clearD0, State.unmaskD0]
@[simp] theorem State.readyD0_d0Confirmed : (s.readyD0 a).d0Confirmed = s.d0Confirmed := by
  rw [show (s.readyD0 a).d0Confirmed = ((s.unmaskD0 a).clearD0 a).d0Confirmed from rfl]
  simp [State.clearD0, State.unmaskD0]

theorem State.readyD0_access : (s.readyD0 a).bus.map BusRec.access = s.bus.map BusRec.access ++
    (updateAccess .dsp s.cfg.imrhOff ++ updateAccess .dsp s.cfg.imrdOff ++
      [.write .dsp s.cfg.cmdoOff, .write .dsp s.cfg.cmdiOff, .write .dsp s.cfg.scr0Off, .write .dsp s.cfg.scr1Off]) := by
  simp [State.readyD0, State.clearD0, State.unmaskD0, State.writeReg_access, State.updateReg_access, regOff]

theorem PowerFrame.setLock (s : State) (l : Option Agent) : PowerFrame a s { s with lock := l } := .refl a s

theorem PowerFrame.readyD0 : PowerFrame a s (s.readyD0 a) := by
  have hunmask : PowerFrame a s (s.unmaskD0 a) :=
    (PowerFrame.setLock a s (some a)).trans (PowerFrame.updateReg.trans (PowerFrame.updateReg.trans (.setLock a _ none)))
  have hclear (t : State) : PowerFrame a t (t.clearD0 a) :=
    PowerFrame.writeReg.trans (PowerFrame.writeReg.trans (PowerFrame.writeReg.trans .writeReg))
  exact hunmask.trans ((hclear _).trans (.pwrStep ..))

/-- E14 to E16 touch registers only. -/
theorem State.readyD0_mem (hw : s.cfg.wf = true) (r : Region) : (s.readyD0 a).mem r = s.mem r := by
  have hunmask : (s.unmaskD0 a).mem r = s.mem r := by
    have h := State.mem_updateReg (s := ({ s with lock := some a } : State).updateReg a .imrh
      (s.cfg.imrhDone ||| s.cfg.imrhBusy) 0) (a := a) (g := .imrd) (m := s.cfg.imrdDone ||| s.cfg.imrdBusy) (v := 0)
      (by simpa using hw) r
    rw [State.mem_updateReg (s := { s with lock := some a }) hw] at h
    cases r <;> exact h
  rw [State.readyD0, State.pwrStep_mem, State.clearD0, State.mem_writeReg (by simpa using hw),
    State.mem_writeReg (by simpa using hw), State.mem_writeReg (by simpa using hw), State.mem_writeReg (by simpa using hw),
    hunmask]

/-- E14 to E16 where the registers can be accessed: both sources unmasked on both sides, the command and scratch registers 0. -/
theorem State.readyD0_regs (hw : s.cfg.wf = true) (hr : s.registersPlain) :
    (s.readyD0 a).regs =
      { s.regs with
        imrh := merged s.regs.imrh (s.cfg.imrhDone ||| s.cfg.imrhBusy) 0
        imrd := merged s.regs.imrd (s.cfg.imrdDone ||| s.cfg.imrdBusy) 0
        cmdo := 0, cmdi := 0, scr0 := 0, scr1 := 0 } := by
  have hlock : ({ s with lock := some a } : State).registersPlain := hr
  set u := ({ s with lock := some a } : State).updateReg a .imrh (s.cfg.imrhDone ||| s.cfg.imrhBusy) 0 with hu
  set w := u.updateReg a .imrd (s.cfg.imrdDone ||| s.cfg.imrdBusy) 0 with hw'
  have hru : u.registersPlain := hlock.updateReg
  have hunmask : (s.unmaskD0 a).regs = w.regs := rfl
  have hrw : (s.unmaskD0 a).registersPlain := hru.updateReg
  rw [State.readyD0, State.pwrStep_regs, State.clearD0,
    State.writeReg_regs (by simpa using hw) hrw.writeReg.writeReg.writeReg,
    State.writeReg_regs (by simpa using hw) hrw.writeReg.writeReg, State.writeReg_regs (by simpa using hw) hrw.writeReg,
    State.writeReg_regs (by simpa using hw) hrw, hunmask, hw', State.updateReg_regs (by simpa [hu] using hw) hru, hu,
    State.updateReg_regs (s := { s with lock := some a }) hw hlock]
  rfl

/-- A bit that E14 and E15 leave out, or that is in another word. -/
theorem State.getLsbD_readyD0_kept {r : Region} {x i : Nat} (hw : s.cfg.wf = true) (hr : s.registersPlain) (hi : i < 32)
    (h : ∀ g, r = .dsp → x = regOff s.cfg g → (enterD0Mask s.cfg g).getLsbD i = false) :
    ((s.readyD0 a).word r x).getLsbD i = (s.word r x).getLsbD i := by
  have hcfg : (s.readyD0 a).cfg = s.cfg := State.readyD0_cfg a
  obtain ⟨hpm, -⟩ := PowerFrame.readyD0 (s := s) a
  rw [State.word, State.word, State.overlay_congr hcfg hpm, State.getLsbD_overlay, State.getLsbD_overlay]
  suffices hstored : ((s.readyD0 a).stored r x).getLsbD i = (s.stored r x).getLsbD i by rw [hstored]
  simp only [State.stored, hcfg]
  cases hat : regAt s.cfg r x with
  | none => simp only [State.readyD0_mem a hw]
  | some g =>
    obtain ⟨rfl, rfl⟩ := regAt_some hat
    have hmask := h g rfl rfl
    cases g with
    | csr | dmamode => simp [State.readyD0_regs a hw hr]
    | imrh | imrd =>
      rw [State.readyD0_regs a hw hr]
      exact (getLsbD_merged ..).trans (if_neg (Bool.eq_false_iff.1 hmask))
    | cmdo | cmdi | scr0 | scr1 => exact absurd hmask (by rw [enterD0Mask, BitVec.getLsbD_allOnes]; simp [hi])

theorem runList_unmask (d : Nat) (hl : s.lock = none) :
    runList (entire d a) (.acquire :: unmaskListing s.cfg) s = .go ((s.readyD0 a).result a .ok 0) := by
  rw [runList_go (entire_acquire d a hl), unmaskListing, List.append_assoc, runList_update, runList_update]
  simp only [runList_cons, entire_release, entire_write, entire_pwr, entire_ok, runList_nil]
  simp [State.readyD0, State.clearD0, State.unmaskD0, State.writeReg, State.updateReg, regOff]

end

/-! ## The whole operation -/

theorem Presentable.host_of_enterD0 {s : State} (hp : Presentable s .enterD0) : s.presenter = .host := by
  simpa [presenters] using hp.presenter_mem

/-- The state in which the poll loop begins. -/
def State.requested (s : State) : State := (s.start .host .enterD0 []).requestD0 .host

/-- The state at the end, from the state `u` in which the poll loop has confirmed D0. -/
def State.broughtUp (u : State) : State := ((u.setupD0 .host).readyD0 .host).endOk .host

/-- `ENTER_D0` where the poll loop confirms D0 and the lock is free. -/
theorem exec_enterD0_go {s u : State} (hp : Presentable s .enterD0) (hpoll : pollAll .host nPoll s.requested = .go u)
    (hcfg : u.cfg = s.cfg) (hlock : u.lock = none) : exec .enterD0 s = .next u.broughtUp := by
  have hhost := hp.host_of_enterD0
  have hrequest := runList_request 8 .host (.poll nPoll :: setupListing s.cfg) (s.start .host .enterD0 [])
  have hsetup := runList_setup 8 .host [] u
  have hunmask := runList_unmask (s := u.setupD0 .host) .host 8 (by simpa using hlock)
  rw [State.start_cfg] at hrequest
  rw [hcfg, List.append_nil, runList_nil] at hsetup
  rw [State.setupD0_cfg, hcfg] at hunmask
  have hrun : runList (entire 8 .host) (listing s.cfg .enterD0) (s.start .host .enterD0 []) =
      .go (((u.setupD0 .host).readyD0 .host).result .host .ok 0) := by
    rw [listing, enterD0Listing_eq, runList_append (s' := u.setupD0 .host), hunmask]
    rw [hrequest, runList_go (s' := u) hpoll, hsetup]
  rw [← hhost] at hrun
  rw [exec_eq_perform, perform_go (portRefusal_eq_none hp rfl) hrun, hhost]
  rfl

/-- `ENTER_D0` where the poll loop fails (R131 E6): the entries after it are not performed. -/
theorem exec_enterD0_raised {s u : State} (hp : Presentable s .enterD0)
    (hpoll : pollAll .host nPoll s.requested = .raised u) : exec .enterD0 s = .next (u.finish .host) := by
  have hhost := hp.host_of_enterD0
  have hlisting : listing s.cfg .enterD0 =
      requestListing s.cfg ++ (.poll nPoll :: (setupListing s.cfg ++ .acquire :: unmaskListing s.cfg)) := by
    rw [listing, enterD0Listing_eq, List.append_assoc, List.cons_append]
  have hopen : ∀ m ∈ setupListing s.cfg ++ .acquire :: unmaskListing s.cfg, m.closes = false := fun m hm =>
    listing_open s.cfg .enterD0 m (by rw [hlisting]; exact List.mem_append_right _ (List.mem_cons_of_mem _ hm))
  have hrequest := runList_request 8 .host (.poll nPoll :: (setupListing s.cfg ++ .acquire :: unmaskListing s.cfg))
    (s.start .host .enterD0 [])
  rw [State.start_cfg] at hrequest
  have hrun : runList (entire 8 .host) (listing s.cfg .enterD0) (s.start .host .enterD0 []) = .raised u := by
    have hskip := runFrom_raised_append (f := entire 8 .host) hopen [] u
    rw [List.append_nil] at hskip
    rw [hlisting, hrequest, runList_raised (s' := u) hpoll, hskip]
    rfl
  rw [← hhost] at hrun
  rw [exec_eq_perform, perform_raised (portRefusal_eq_none hp rfl) hrun, hhost]

end Sys2Proof.Machine
end

section
/-! PROOFS. `ENTER_D0` (R131, R136, R137): where the status field reads 0 at once, under every schedule of the power hardware, and
where the device never reports ready. -/

namespace Sys2Proof.Machine

/-! ## Accessibility and the plain registers -/

/-- The power controller's operations change what can be accessed only by confirming D0 (R282). -/
theorem PowerFrame.inaccessible {a : Agent} {s t : State} (h : PowerFrame a s t) (hd : t.d0Confirmed = s.d0Confirmed)
    (r : Region) (x : Nat) : t.inaccessible r x = s.inaccessible r x := by
  obtain ⟨-, hctx, -, -, -, -, -, ⟨hcfg, -, hgated, -⟩, -⟩ := h
  exact State.inaccessible_congr hcfg hctx hgated hd r x

/-- With D0 confirmed the registers are plain, if the power status field is not laid over one. -/
theorem State.registersPlain_of_confirmed {s : State} (hw : s.cfg.wf = true) (hd : s.d0Confirmed = true)
    (hpm : s.pmApart) : s.registersPlain :=
  ⟨fun o ho => by rw [State.inaccessible_offset hw ho, hd]; rfl, hpm⟩

/-- With D0 confirmed and nothing gated everything can be accessed. -/
theorem State.inaccessible_ungated {s : State} (hd : s.d0Confirmed = true) (hg : s.gated = []) (r : Region) (x : Nat) :
    s.inaccessible r x = false := by
  simp [State.inaccessible, State.isGated, hd, hg]

/-! ## The request, and the first poll where it finds 0 -/

section
variable {s : State}

@[simp] theorem State.requested_cfg : s.requested.cfg = s.cfg := by simp [State.requested, State.requestD0_eq]
@[simp] theorem State.requested_atDelay : s.requested.atDelay = s.atDelay := by simp [State.requested]
@[simp] theorem State.requested_pmhw : s.requested.pmhw = s.pmhw := by simp [State.requested]
@[simp] theorem State.requested_halt : s.requested.halt = s.halt := by simp [State.requested]
@[simp] theorem State.requested_lock : s.requested.lock = s.lock := by simp [State.requested, State.requestD0_eq]
@[simp] theorem State.requested_elapsed : s.requested.elapsed = s.elapsed := by simp [State.requested]
@[simp] theorem State.requested_d0Confirmed : s.requested.d0Confirmed = s.d0Confirmed := by
  rw [← State.start_d0Confirmed s .host .enterD0 [],
    ← State.updatesAt_d0Confirmed (s := s.start .host .enterD0 []) .host (ds := requestSteps s.cfg)]
  rfl

theorem State.requested_access :
    s.requested.bus.map BusRec.access = s.bus.map BusRec.access ++ enterD0Request s.cfg := by
  simp [State.requested, State.requestD0_access]

theorem PowerFrame.requested : PowerFrame .host s s.requested := (PowerFrame.start ..).trans (.requestD0 .host)

theorem State.requested_inaccessible (r : Region) (x : Nat) : s.requested.inaccessible r x = s.inaccessible r x :=
  PowerFrame.requested.inaccessible (by simp) r x

/-- A register that no target of E1 to E3 is. -/
theorem State.requested_regs_get {g : DevReg} (h : ∀ d ∈ requestSteps s.cfg, d.rgn = .dsp → d.off ≠ regOff s.cfg g) :
    s.requested.regs.get g = s.regs.get g := by
  rw [State.requested, State.requestD0_regs, State.start_cfg, State.regs_get_updatesAt, State.start_regs]
  intro d hd hat
  obtain ⟨hr, ho⟩ := regAt_some hat
  exact h d hd hr (by simpa using ho.symm)

/-- A plain byte that no target of E1 to E3 has. -/
theorem State.read_mem_requested {r : Region} {x : Nat} (h : ∀ d ∈ requestSteps s.cfg, OffTarget d r x) :
    Memory.read (s.requested.mem r) x = Memory.read (s.mem r) x := by
  rw [State.requested, State.requestD0_mem, State.start_cfg, State.read_mem_updatesAt .host h, State.start_mem]

/-- A bit that E1 to E3 leave out of an accessible word, or that is in another word. -/
theorem State.getLsbD_requested_kept {r : Region} {x i : Nat} (hw : s.cfg.wf = true) (hx : x % 4 = 0)
    (h : ∀ d ∈ requestSteps s.cfg, d.rgn = r → d.off = x → s.inaccessible r x = false ∧ d.mask.getLsbD i = false) :
    (s.requested.word r x).getLsbD i = (s.word r x).getLsbD i := by
  rw [State.requested, State.requestD0_word, State.start_cfg,
    State.getLsbD_updatesAt_kept .host (requestSteps_aligned hw) hx (by simpa using h), State.start_word]

/-- A bit of the field of a target of E1 to E3, which no later one of the three writes. -/
theorem State.getLsbD_requested_field {k i : Nat} {d : StepDesc} (hw : s.cfg.wf = true) (hd : (requestSteps s.cfg)[k]? = some d)
    (ha : s.inaccessible d.rgn d.off = false) (hi : s.isIsr d.rgn d.off = false)
    (hpm : s.isPm d.rgn d.off = true → s.cfg.pmSts.mask.getLsbD i = false) (hm : d.mask.getLsbD i = true)
    (hlater : ∀ j e, k < j → (requestSteps s.cfg)[j]? = some e → e.rgn = d.rgn → e.off = d.off → e.mask.getLsbD i = false) :
    (s.requested.word d.rgn d.off).getLsbD i = d.val.getLsbD i := by
  rw [State.requested, State.requestD0_word, State.start_cfg]
  exact State.getLsbD_updatesAt_field .host hd (requestSteps_aligned hw) (by simpa using ha) (by simpa using hi)
    (by simpa using hpm) hm hlater

/-- The state after E5 where the first poll finds 0. -/
def State.confirmed (s : State) : State := s.requested.confirmD0 .host

@[simp] theorem State.confirmed_cfg : s.confirmed.cfg = s.cfg := by simp [State.confirmed]
@[simp] theorem State.confirmed_halt : s.confirmed.halt = s.halt := by simp [State.confirmed]
@[simp] theorem State.confirmed_elapsed : s.confirmed.elapsed = s.elapsed := by simp [State.confirmed]
@[simp] theorem State.confirmed_d0Confirmed : s.confirmed.d0Confirmed = true := rfl
@[simp] theorem State.confirmed_mem (r : Region) : s.confirmed.mem r = s.requested.mem r := by simp [State.confirmed]
@[simp] theorem State.confirmed_word (r : Region) (x : Nat) : s.confirmed.word r x = s.requested.word r x := by
  simp [State.confirmed]

theorem PowerFrame.confirmed : PowerFrame .host s s.confirmed := PowerFrame.requested.trans (.confirmD0 .host)

theorem State.confirmed_registersPlain (hw : s.cfg.wf = true) (hpm : s.pmApart) : s.confirmed.registersPlain :=
  State.registersPlain_of_confirmed (by simpa using hw) rfl (by rw [State.pmApart, State.confirmed_cfg]; exact hpm)

/-- `ENTER_D0` where the first poll finds 0 and the lock is free. -/
theorem exec_enterD0_inD0 (hp : Presentable s .enterD0) (hl : s.lock = none)
    (hacc : s.inaccessible s.cfg.pmSts.rgn s.cfg.pmSts.off = false) (hd : s.inD0 = true) :
    exec .enterD0 s = .next s.confirmed.broughtUp := by
  refine exec_enterD0_go hp (pollAll_inD0 (s := s.requested) .host 9 (by simpa [State.inD0] using hd) ?_) (by simp) ?_
  · rw [State.requested_inaccessible, State.requested_cfg]
    exact hacc
  · simpa [State.confirmed, State.confirmD0] using hl

end

/-! ## E7 to E16, and the end -/

section
variable {u : State}

@[simp] theorem State.broughtUp_cfg : u.broughtUp.cfg = u.cfg := by simp [State.broughtUp]
@[simp] theorem State.broughtUp_pwr : u.broughtUp.pwr = .stalledReady := by simp [State.broughtUp]
@[simp] theorem State.broughtUp_lock : u.broughtUp.lock = none := by simp [State.broughtUp]
@[simp] theorem State.broughtUp_halt : u.broughtUp.halt = u.halt := by simp [State.broughtUp]
@[simp] theorem State.broughtUp_elapsed : u.broughtUp.elapsed = u.elapsed + 10 := by simp [State.broughtUp]
@[simp] theorem State.broughtUp_d0Confirmed : u.broughtUp.d0Confirmed = u.d0Confirmed := by
  simp [State.broughtUp, State.endOk]

theorem State.broughtUp_access : u.broughtUp.bus.map BusRec.access = u.bus.map BusRec.access ++ enterD0Setup u.cfg := by
  simp [State.broughtUp, State.readyD0_access, State.setupD0_access, enterD0Setup]

theorem PowerFrame.broughtUp (hq : u.atDelay = []) : PowerFrame .host u u.broughtUp :=
  (PowerFrame.setupD0 .host hq).trans ((PowerFrame.readyD0 .host).trans (.endOk ..))

/-- E7 to E13 leave the registers plain. -/
theorem State.setupD0_registersPlain (hw : u.cfg.wf = true) (hd : u.d0Confirmed = true) (hpm : u.pmApart) :
    (u.setupD0 .host).registersPlain :=
  State.registersPlain_of_confirmed (by simpa using hw) (by simpa using hd)
    (by rw [State.pmApart, State.setupD0_cfg]; exact hpm)

/-- The flags and words that R136 lists. -/
theorem State.broughtUp_flags (hw : u.cfg.wf = true) (hd : u.d0Confirmed = true) (hpm : u.pmApart)
    (hclear : StepsClear u.cfg) :
    u.broughtUp.csrRst = false ∧ u.broughtUp.csrStall = true ∧ u.broughtUp.imrhDone = false ∧ u.broughtUp.imrhBusy = false ∧
      flagOf u.broughtUp.regs.imrd u.cfg.imrdDone = false ∧ flagOf u.broughtUp.regs.imrd u.cfg.imrdBusy = false ∧
      u.broughtUp.regs.cmdo = 0 ∧ u.broughtUp.regs.cmdi = 0 ∧ u.broughtUp.regs.scr0 = 0 ∧ u.broughtUp.regs.scr1 = 0 ∧
      u.broughtUp.irqLine = false := by
  have hregs := State.readyD0_regs (s := u.setupD0 .host) .host (by simpa using hw) (State.setupD0_registersPlain hw hd hpm)
  rw [State.setupD0_cfg, ← State.endOk_regs _ .host, show ((u.setupD0 .host).readyD0 .host).endOk .host = u.broughtUp from rfl]
    at hregs
  obtain ⟨-, hpmCsr⟩ := State.registersPlain_reg (State.registersPlain_of_confirmed hw hd hpm) .csr
  obtain ⟨hrst, hstall⟩ := State.setupD0_csr .host hw hd hpmCsr hclear
  rw [State.csrRst, State.setupD0_cfg] at hrst
  rw [State.csrStall, State.setupD0_cfg] at hstall
  have hunmasked (old f g : Word) : flagOf (merged old (f ||| g) 0) f = false ∧ flagOf (merged old (f ||| g) 0) g = false :=
    ⟨by rw [flagOf_merged_inside (by ext; simp +contextual), flagOf_zero],
      by rw [flagOf_merged_inside (by ext; simp +contextual), flagOf_zero]⟩
  have hhd : u.broughtUp.imrhDone = false := by
    rw [State.imrhDone, State.broughtUp_cfg, hregs]
    exact (hunmasked ..).1
  have hhb : u.broughtUp.imrhBusy = false := by
    rw [State.imrhBusy, State.broughtUp_cfg, hregs]
    exact (hunmasked ..).2
  have hcmdo : u.broughtUp.cmdoDone = false := by rw [State.cmdoDone, hregs]; exact flagOf_zero _
  have hcmdi : u.broughtUp.cmdiBusy = false := by rw [State.cmdiBusy, hregs]; exact flagOf_zero _
  refine ⟨?_, ?_, hhd, hhb, ?_, ?_, ?_, ?_, ?_, ?_, by simp [State.irqLine, hcmdo, hcmdi]⟩
  · rw [State.csrRst, State.broughtUp_cfg, hregs]
    exact hrst
  · rw [State.csrStall, State.broughtUp_cfg, hregs]
    exact hstall
  · rw [hregs]
    exact (hunmasked ..).1
  · rw [hregs]
    exact (hunmasked ..).2
  all_goals rw [hregs]

/-- A plain byte that no descriptor of E7 to E13 targets. -/
theorem State.read_mem_broughtUp {r : Region} {x : Nat} (hw : u.cfg.wf = true) (hq : u.atDelay = [])
    (h : ∀ d ∈ [u.cfg.stClkSel, u.cfg.stCgPolicy, u.cfg.stPgDefault, u.cfg.stQuirkOff], OffTarget d r x) :
    Memory.read (u.broughtUp.mem r) x = Memory.read (u.mem r) x := by
  rw [State.broughtUp, State.endOk_mem, State.readyD0_mem .host (by simpa using hw), State.read_mem_setupD0 .host hw hq h]

/-- A bit that E14 and E15 leave out after E7 to E13. -/
theorem State.getLsbD_broughtUp_setup {r : Region} {x i : Nat} (hw : u.cfg.wf = true) (hd : u.d0Confirmed = true)
    (hpm : u.pmApart) (hi : i < 32)
    (hown : ∀ g, r = .dsp → x = regOff u.cfg g → (enterD0Mask u.cfg g).getLsbD i = false) :
    (u.broughtUp.word r x).getLsbD i = ((u.setupD0 .host).word r x).getLsbD i := by
  rw [State.broughtUp, State.endOk_word]
  exact State.getLsbD_readyD0_kept .host (by simpa using hw) (State.setupD0_registersPlain hw hd hpm) hi
    (by simpa using hown)

/-- A bit that E7 to E15 leave out, or that is in another word. -/
theorem State.getLsbD_broughtUp_kept {r : Region} {x i : Nat} (hw : u.cfg.wf = true) (hd : u.d0Confirmed = true)
    (hpm : u.pmApart) (hq : u.atDelay = []) (hx : x % 4 = 0) (hi : i < 32)
    (hown : ∀ g, r = .dsp → x = regOff u.cfg g → (enterD0Mask u.cfg g).getLsbD i = false)
    (h : ∀ d ∈ [u.cfg.stClkSel, u.cfg.stCgPolicy, u.cfg.stPgDefault, u.cfg.stQuirkOff], d.rgn = r → d.off = x →
      u.inaccessible r x = false ∧ d.mask.getLsbD i = false) :
    (u.broughtUp.word r x).getLsbD i = (u.word r x).getLsbD i :=
  (State.getLsbD_broughtUp_setup hw hd hpm hi hown).trans
    (State.getLsbD_setupD0_kept .host hw hd hq hx (fun hr ho => hown .csr hr ho) h)

end

/-! ## The status field reads 0 at once (R136) -/

theorem mem_stepDescs_of_request {c : Cfg} {d : StepDesc} (h : d ∈ requestSteps c) : d ∈ c.stepDescs := by
  simp only [List.mem_cons, List.not_mem_nil, or_false, Cfg.stepDescs] at h ⊢
  tauto

theorem mem_stepDescs_of_setup {c : Cfg} {d : StepDesc} (h : d ∈ [c.stClkSel, c.stCgPolicy, c.stPgDefault, c.stQuirkOff]) :
    d ∈ c.stepDescs := by
  simp only [List.mem_cons, List.not_mem_nil, or_false, Cfg.stepDescs] at h ⊢
  tauto

/-- Settles O19: the request is written as far as it is accessible, the poll confirms D0, and from then on the registers are
accessible, so E7 to E15 reach them. -/
theorem enterD0FromGated : Obligations.EnterD0FromGated := by
  intro s hw hp hl hq hpm hacc hd hclear
  set u := s.confirmed with hu
  have hcfg : u.cfg = s.cfg := State.confirmed_cfg
  have hwu : u.cfg.wf = true := hcfg ▸ hw
  have hdu : u.d0Confirmed = true := rfl
  have hpmu : u.pmApart := (State.confirmed_registersPlain hw hpm).2
  have hqu : u.atDelay = [] := PowerFrame.confirmed.quiet hq
  obtain ⟨hpmhw, hctx, hdefer, hirq, hevents, hhost, hothers, hsetting, hresults⟩ :
      PowerFrame .host s u.broughtUp := PowerFrame.confirmed.trans (.broughtUp hqu)
  obtain ⟨hrst, hstall, hhd, hhb, hdd, hdb, hcmdo, hcmdi, hscr0, hscr1, hline⟩ :=
    State.broughtUp_flags hwu hdu hpmu (hcfg ▸ hclear)
  rw [hcfg] at hdd hdb
  refine ⟨u.broughtUp, exec_enterD0_inD0 hp hl hacc hd, ended_endOk .., hresults, fun o ho => ?_, hrst, hstall, hhd, hhb, hdd,
    hdb, hcmdo, hcmdi, hscr0, hscr1, hline, State.broughtUp_pwr, State.broughtUp_lock, by simp [hu],
    fun r x i hx hi hown hsteps hrequest hsetup => ?_, fun r x hoff => ?_, hpmhw, hctx, hdefer, by simp [hu], hirq, hevents,
    hhost, hothers, hsetting⟩
  · rw [State.inaccessible_offset (by simpa using hwu) (by simpa [hcfg] using ho), State.broughtUp_d0Confirmed, hdu]
    rfl
  · have hup : (u.broughtUp.word r x).getLsbD i = (u.word r x).getLsbD i := by
      refine State.getLsbD_broughtUp_kept hwu hdu hpmu hqu hx hi (hcfg ▸ hown) ?_
      rw [hcfg]
      intro d hm hr ho
      exact ⟨((PowerFrame.broughtUp hqu).inaccessible State.broughtUp_d0Confirmed r x).symm.trans (hsetup d hm hr ho),
        hsteps d (mem_stepDescs_of_setup hm) hr ho⟩
    rw [hup, hu, State.confirmed_word]
    exact State.getLsbD_requested_kept hw hx fun d hm hr ho =>
      ⟨hrequest d hm hr ho, hsteps d (mem_stepDescs_of_request hm) hr ho⟩
  · rw [State.read_mem_broughtUp hwu hqu fun d hm => hoff d (mem_stepDescs_of_setup (hcfg ▸ hm)), hu, State.confirmed_mem]
    exact State.read_mem_requested fun d hm => hoff d (mem_stepDescs_of_request hm)

/-- Settles O18: with nothing gated every target is accessible when it is written, so O19 keeps every bit outside the masks. -/
theorem enterD0Success : Obligations.EnterD0Success := by
  intro s hw hp hl hg hq hd hpm hread hclear
  obtain ⟨hrequest, hacc⟩ := hread
  obtain ⟨t, hrun, hended, hresults, hregs, hrst, hstall, hhd, hhb, hdd, hdb, hcmdo, hcmdi, hscr0, hscr1, hline, hpwr, hlock,
    htime, hbits, hmem, hpmhw, hctx, hdefer, hhalt, hirq, hevents, hhost, hothers, hsetting⟩ :=
    enterD0FromGated s hw hp hl hq hpm hacc hd hclear
  have ⟨hcfg, _, hgated, _⟩ := hsetting
  have hdt : t.d0Confirmed = true := by
    have hcsr := hregs s.cfg.csrOff (by simp [Cfg.offsets])
    rw [State.inaccessible_offset (hcfg ▸ hw) (by simp [hcfg, Cfg.offsets])] at hcsr
    simpa using hcsr
  refine ⟨t, hrun, hended, hresults, hrst, hstall, hhd, hhb, hdd, hdb, hcmdo, hcmdi, hscr0, hscr1, hline, hpwr, hlock, htime,
    fun r x i hx hi hown hsteps => ?_, hmem, hpmhw, hctx, hdefer, hhalt, hirq, hevents, hhost, hothers, hsetting⟩
  exact hbits r x i hx hi hown hsteps (fun d hm hr ho => by rw [← hr, ← ho]; exact hrequest d hm)
    fun _ _ _ _ => State.inaccessible_ungated hdt (hgated.trans hg) r x

end Sys2Proof.Machine
end

section
/-! PROOFS. `ENTER_D0`, continued (R131, R135 to R137): the targets of the step descriptors, the poll loop under every schedule of
the power hardware, and the device that never reports ready. -/

namespace Sys2Proof.Machine

/-! ## The targets after E7 to E13 -/

section
variable {u : State}

/-- The place of each group of step descriptors among the seven. -/
theorem stepDescs_request {c : Cfg} {j : Nat} {d : StepDesc} (h : (requestSteps c)[j]? = some d) :
    c.stepDescs[j]? = some d := by
  obtain ⟨hj, -⟩ := List.getElem?_eq_some_iff.1 h
  rw [show c.stepDescs = requestSteps c ++ (c.stClkSel :: policySteps c) from rfl, List.getElem?_append_left hj, h]

/-- The first three of the seven are those of E1 to E3. -/
theorem request_stepDescs {c : Cfg} {j : Nat} {d : StepDesc} (hj : j < 3) (h : c.stepDescs[j]? = some d) :
    (requestSteps c)[j]? = some d := by
  rwa [show c.stepDescs = requestSteps c ++ (c.stClkSel :: policySteps c) from rfl, List.getElem?_append_left (by exact hj)] at h

theorem stepDescs_setup (c : Cfg) (j : Nat) :
    c.stepDescs[j + 3]? = [c.stClkSel, c.stCgPolicy, c.stPgDefault, c.stQuirkOff][j]? := rfl

theorem stepDescs_policy (c : Cfg) (j : Nat) : c.stepDescs[j + 4]? = (policySteps c)[j]? := rfl

/-- A bit of the field of E7's target, which neither E8 and E10 nor a later descriptor writes. -/
theorem State.getLsbD_setupD0_clock {i : Nat} (hw : u.cfg.wf = true) (hd : u.d0Confirmed = true) (hq : u.atDelay = [])
    (hacc : u.inaccessible u.cfg.stClkSel.rgn u.cfg.stClkSel.off = false)
    (hi : u.isIsr u.cfg.stClkSel.rgn u.cfg.stClkSel.off = false)
    (hpm : u.isPm u.cfg.stClkSel.rgn u.cfg.stClkSel.off = true → u.cfg.pmSts.mask.getLsbD i = false)
    (hm : u.cfg.stClkSel.mask.getLsbD i = true)
    (hcsr : u.cfg.stClkSel.rgn = .dsp → u.cfg.stClkSel.off = u.cfg.csrOff →
      (u.cfg.csrRst ||| u.cfg.csrStall).getLsbD i = false)
    (hlater : ∀ e ∈ policySteps u.cfg, e.rgn = u.cfg.stClkSel.rgn → e.off = u.cfg.stClkSel.off → e.mask.getLsbD i = false) :
    ((u.setupD0 .host).word u.cfg.stClkSel.rgn u.cfg.stClkSel.off).getLsbD i = u.cfg.stClkSel.val.getLsbD i := by
  have hkept := State.getLsbD_policy_kept (s := u.updateAt .host u.cfg.stClkSel) (r := u.cfg.stClkSel.rgn)
    (x := u.cfg.stClkSel.off) (i := i) .host (by simpa using hw) (by simpa [State.updateAt] using hd)
    (by simpa [State.updateAt] using hq) (stepDesc_aligned hw (by simp [Cfg.stepDescs])) (by simpa using hcsr)
    (fun e hm' hr ho => ⟨by rw [State.updateAt_inaccessible]; exact hacc,
      hlater e (by rw [State.updateAt_cfg] at hm'; exact hm') hr ho⟩)
  rw [State.updateAt_cfg] at hkept
  exact hkept.trans (State.getLsbD_update32_inside .host u.cfg.stClkSel.val hacc hi hpm hm)

/-- A bit of the field of a target of E11 to E13, which no later one of the three writes. -/
theorem State.getLsbD_setupD0_policy {k i : Nat} {d : StepDesc} (hw : u.cfg.wf = true) (hq : u.atDelay = [])
    (hd : (policySteps u.cfg)[k]? = some d) (hacc : u.inaccessible d.rgn d.off = false) (hi : u.isIsr d.rgn d.off = false)
    (hpm : u.isPm d.rgn d.off = true → u.cfg.pmSts.mask.getLsbD i = false) (hm : d.mask.getLsbD i = true)
    (hlater : ∀ j e, k < j → (policySteps u.cfg)[j]? = some e → e.rgn = d.rgn → e.off = d.off → e.mask.getLsbD i = false) :
    ((u.setupD0 .host).word d.rgn d.off).getLsbD i = d.val.getLsbD i := by
  have hclock : PowerFrame .host u (u.updateAt .host u.cfg.stClkSel) := .update32 ..
  have hframe : PowerFrame .host u ((u.updateAt .host u.cfg.stClkSel).pulse .host) := hclock.trans (.pulse .host (hclock.quiet hq))
  have hcfg : ((u.updateAt .host u.cfg.stClkSel).pulse .host).cfg = u.cfg := by simp
  rw [State.setupD0_eq]
  refine State.getLsbD_updatesAt_field .host hd (policySteps_aligned hw) ?_ ?_ ?_ hm hlater
  · rw [hframe.inaccessible (by simp [State.updateAt])]
    exact hacc
  · rw [State.isIsr_congr hcfg]
    exact hi
  · rw [State.isPm_congr hcfg, hcfg]
    exact hpm

end

/-- Settles O20: E1 to E3, E7 and E11 to E13 each write their fields, and what follows leaves them out. -/
theorem enterD0Targets : Obligations.EnterD0Targets := by
  intro s k d hw hp hl hg hq hd hpm hread hk hlater hown hisr
  obtain ⟨hrequest, hacc⟩ := hread
  set u := s.confirmed with hu
  have hcfg : u.cfg = s.cfg := State.confirmed_cfg
  have hwu : u.cfg.wf = true := hcfg ▸ hw
  have hdu : u.d0Confirmed = true := rfl
  have hpmu : u.pmApart := (State.confirmed_registersPlain hw hpm).2
  have hqu : u.atDelay = [] := PowerFrame.confirmed.quiet hq
  have haccu (r : Region) (x : Nat) : u.inaccessible r x = false := by
    obtain ⟨-, -, -, -, -, -, -, ⟨-, -, hgated, -⟩, -⟩ : PowerFrame .host s u := PowerFrame.confirmed
    exact State.inaccessible_ungated hdu (hgated.trans hg) r x
  have hal : d.off % 4 = 0 := stepDesc_aligned hw (List.mem_of_getElem? hk)
  refine ⟨u.broughtUp, exec_enterD0_inD0 hp hl hacc hd, State.broughtUp_pwr, fun i hi hm hfield => ?_⟩
  have hbit {m : Word} (h : m &&& d.mask = 0) : m.getLsbD i = false := by
    have := congrArg (BitVec.getLsbD · i) h
    simpa [hm] using this
  have hafter (j : Nat) (e : StepDesc) (hj : k < j) (he : s.cfg.stepDescs[j]? = some e) (hr : e.rgn = d.rgn)
      (ho : e.off = d.off) : e.mask.getLsbD i = false := hbit (hlater j e hj he hr ho)
  have hownu (g : DevReg) (hr : d.rgn = .dsp) (ho : d.off = regOff u.cfg g) : (enterD0Mask u.cfg g).getLsbD i = false := by
    rw [hcfg] at ho ⊢
    exact hbit ((BitVec.and_comm _ _).trans (hown g hr ho))
  have hpms : s.isPm d.rgn d.off = true → s.cfg.pmSts.mask.getLsbD i = false := by
    rwa [State.isPm_congr (State.broughtUp_cfg.trans hcfg)] at hfield
  have hisrs : s.isIsr d.rgn d.off = false := by
    simp only [State.isIsr, Bool.and_eq_false_imp, beq_iff_eq, beq_eq_false_iff_ne]
    exact hisr
  have hpmU : u.isPm d.rgn d.off = true → u.cfg.pmSts.mask.getLsbD i = false := by rwa [State.isPm_congr hcfg, hcfg]
  have hisrU : u.isIsr d.rgn d.off = false := by rwa [State.isIsr_congr hcfg]
  rcases Nat.lt_trichotomy k 3 with hlt | rfl | hgt
  · have hd' := request_stepDescs hlt hk
    have hkept : (u.broughtUp.word d.rgn d.off).getLsbD i = (u.word d.rgn d.off).getLsbD i := by
      refine State.getLsbD_broughtUp_kept hwu hdu hpmu hqu hal hi hownu ?_
      rw [hcfg]
      intro e he hr ho
      obtain ⟨j, hj⟩ := List.mem_iff_getElem?.1 he
      exact ⟨haccu _ _, hafter (j + 3) e (by omega) ((stepDescs_setup s.cfg j).trans hj) hr ho⟩
    rw [hkept, hu, State.confirmed_word]
    exact State.getLsbD_requested_field hw hd' (hrequest d (List.mem_of_getElem? hd')) hisrs hpms hm
      fun j e hj he => hafter j e hj (stepDescs_request he)
  · obtain rfl : d = u.cfg.stClkSel := by rw [hcfg]; exact (Option.some.inj hk).symm
    rw [State.getLsbD_broughtUp_setup hwu hdu hpmu hi hownu]
    refine State.getLsbD_setupD0_clock hwu hdu hqu (haccu _ _) hisrU hpmU hm (fun hr ho => hownu .csr hr ho) ?_
    rw [hcfg]
    intro e he hr ho
    obtain ⟨j, hj⟩ := List.mem_iff_getElem?.1 he
    exact hafter (j + 4) e (by omega) ((stepDescs_policy s.cfg j).trans hj) (hr.trans (by rw [hcfg])) (ho.trans (by rw [hcfg]))
  · obtain ⟨m, rfl⟩ : ∃ m, k = m + 4 := ⟨k - 4, by omega⟩
    rw [State.getLsbD_broughtUp_setup hwu hdu hpmu hi hownu]
    refine State.getLsbD_setupD0_policy (k := m) hwu hqu ?_ (haccu _ _) hisrU hpmU hm ?_
    · rw [hcfg]
      exact hk
    · rw [hcfg]
      exact fun j e hj he => hafter (j + 4) e (by omega) he

/-! ## The poll loop (R137) -/

/-- The end of `ENTER_D0` after the last poll has found the field not 0 (R131 E6, R231). -/
def State.gaveUp (s : State) : State := ((pwrStep s .timedOut).raise .host .timeout 0).finish .host

section
variable (s : State)

@[simp] theorem State.gaveUp_halt : s.gaveUp.halt = true := by simp [State.gaveUp, Kind.fatal]
@[simp] theorem State.gaveUp_pwr : s.gaveUp.pwr = .offD3 := by simp [State.gaveUp, pwrStep]
@[simp] theorem State.gaveUp_elapsed : s.gaveUp.elapsed = s.elapsed := by simp [State.gaveUp]
@[simp] theorem State.gaveUp_bus : s.gaveUp.bus = s.bus := by simp [State.gaveUp]
@[simp] theorem State.gaveUp_lock : s.gaveUp.lock = s.lock := by simp [State.gaveUp]
@[simp] theorem State.gaveUp_regs : s.gaveUp.regs = s.regs := by simp [State.gaveUp]
@[simp] theorem State.gaveUp_mem (r : Region) : s.gaveUp.mem r = s.mem r := by simp [State.gaveUp]
@[simp] theorem State.gaveUp_word (r : Region) (x : Nat) : s.gaveUp.word r x = s.word r x := by simp [State.gaveUp]

theorem ended_gaveUp : Ended .host .timeout 0 s.gaveUp := by
  simp [Ended, State.gaveUp, State.finish_ex, State.raise_ex]

theorem PowerFrame.gaveUp : PowerFrame .host s s.gaveUp := by
  simp +contextual [PowerFrame, SameHost, SameOthers, SameSetting, SameResults, State.gaveUp, State.finish_ex, State.raise_ex]

end

/-- Settles O21: each failed poll moves the schedule of the power hardware on by one delay; the first poll that finds 0 ends the
loop, and the tenth failed one gives up. -/
theorem pollLaw : Obligations.PollLaw := by
  intro s k hw hp hl hfield hk hbusy hready
  have hstatus (j : Nat) : s.requested.statusAt j = s.statusAt j := by simp [State.statusAt]
  have hbusy' : ∀ j < k, s.requested.statusAt j ≠ 0 := fun j hj => by rw [hstatus]; exact hbusy j hj
  have hpoll : s.requested.Pollable := by
    refine ⟨rfl, ?_, ?_⟩
    · rw [State.requested_inaccessible, State.requested_cfg]
      cases hr : s.cfg.pmSts.rgn with
      | comp => rfl
      | dsp =>
        rcases hfield with hcomp | ⟨hacc, -⟩
        · simp [hcomp] at hr
        · exact hacc
    · rw [State.requested_cfg, State.requested_atDelay]
      exact hfield.imp_right And.right
  by_cases hlt : k < 10
  · set u := (s.requested.polled .host k).confirmD0 .host with hu
    have hrun : pollAll .host nPoll s.requested = .go u :=
      pollAll_ready hpoll hlt hbusy' ((hstatus k).trans (hready hlt))
    refine ⟨u.broughtUp, exec_enterD0_go hp hrun (by simp [hu]) (by simp [hu, State.confirmD0, hl]), fun _ => ?_,
      fun h => absurd h (by omega)⟩
    refine ⟨ended_endOk .., by simp, by simp [hu], by simp [hu], newAccesses_of_access ?_⟩
    simp [State.broughtUp_access, hu, State.confirmD0_access, State.polled_access, State.requested_access]
  · obtain rfl : k = 10 := by omega
    refine ⟨(s.requested.polled .host 10).gaveUp, exec_enterD0_raised hp (pollAll_timeout hpoll hbusy'),
      fun h => absurd h (by omega), fun _ => ⟨ended_gaveUp _, by simp, by simp, by simp, newAccesses_of_access ?_⟩⟩
    simp [State.polled_access, State.requested_access]

/-! ## A device that never reports ready (R232) -/

/-- Settles O22: the polls change the trace, the time and the free-value counter, so what stays written is what E1 to E3 wrote. -/
theorem enterD0Timeout : Obligations.EnterD0Timeout := by
  intro s hw hp hacc hd hq
  set v := s.requested.polled .host 10 with hv
  have hqr : s.requested.atDelay = [] := by simpa using hq
  have hpoll : s.requested.Pollable := by
    refine ⟨rfl, ?_, .inr (by simp [hq])⟩
    rw [State.requested_inaccessible, State.requested_cfg]
    exact hacc
  have hbusy : ∀ j < 10, s.requested.statusAt j ≠ 0 := fun j _ => by
    rw [State.statusAt_quiet hqr]
    simpa [State.inD0] using hd
  have htrace : TraceOnly s.requested v := .polled .host 10 hqr
  have hframe : PowerFrame .host s v.gaveUp :=
    PowerFrame.requested.trans ((htrace.powerFrame .host).trans (.gaveUp v))
  obtain ⟨hpmhw, hctx, hdefer, hirq, hevents, hhost, hothers, hsetting, hresults⟩ := hframe
  have hword (r : Region) (x : Nat) : v.gaveUp.word r x = s.requested.word r x := by
    rw [State.gaveUp_word, htrace.word]
  refine ⟨v.gaveUp, exec_enterD0_raised hp (pollAll_timeout hpoll hbusy), ended_gaveUp v, hresults, by simp, by simp,
    by simp [hv], fun g hg => ?_, fun r x hoff => ?_, fun k d i hk _ hm ha hi hpm hlater => ?_, fun r x i hx _ h => ?_,
    hpmhw, hctx, hdefer, by simp [hv], hirq, hevents, hhost, hothers, hsetting⟩
  · rw [State.gaveUp_regs, htrace.regs]
    exact State.requested_regs_get hg
  · rw [State.gaveUp_mem, htrace.mem]
    exact State.read_mem_requested hoff
  · rw [hword]
    exact State.getLsbD_requested_field hw hk ha hi hpm hm hlater
  · rw [hword]
    exact State.getLsbD_requested_kept hw hx h

end Sys2Proof.Machine
end

section
/-! PROOFS. The box-relative operations (R160 to R162): the caller's contract at a box, how an operation goes on from a check
that passes and ends at one that fails, and what `MBOXWR` and `MBOXRD` do. -/

namespace Sys2Proof.Machine

/-! ## The caller's contract at a box (R66, R160 (b)) -/

/-- A read at a box keeps R160 (b) just where it lies in the box and in the region. -/
theorem boxReadBreach_eq_none {c : Cfg} {x : Box} {b n : Nat} :
    boxReadBreach c x b n = none ↔ b + n ≤ x.size ∧ x.off + b + n ≤ c.regionSize .dsp := by
  unfold boxReadBreach regionFits
  split_ifs with hbox hregion <;> simp_all

/-- A write at a box asks for a 4-aligned place as well, and rounds its length up (R64, R116). -/
theorem boxWriteBreach_eq_none {c : Cfg} {x : Box} {b n : Nat} :
    boxWriteBreach c x b n = none ↔
      (x.off + b) % 4 = 0 ∧ b + roundUp n ≤ x.size ∧ x.off + b + roundUp n ≤ c.regionSize .dsp := by
  unfold boxWriteBreach
  split_ifs with ho
  · simp [ho]
  · rw [boxReadBreach_eq_none, not_not.1 ho]
    simp

/-- The read-back of `GETREPLY` asks for room in host memory as well (R164 P5). -/
theorem readBackBreach_eq_none {c : Cfg} {x : Box} {h n : Nat} :
    readBackBreach c x h n = none ↔ n ≤ x.size ∧ x.off + n ≤ c.regionSize .dsp ∧ HostRange h n := by
  have hbox : boxReadBreach c x 0 n = none ↔ n ≤ x.size ∧ x.off + n ≤ c.regionSize .dsp := by
    simpa using boxReadBreach_eq_none (c := c) (x := x) (b := 0) (n := n)
  rw [← and_assoc, ← hbox, readBackBreach, HostRange]
  cases boxReadBreach c x 0 n with
  | some b => simp
  | none => split_ifs with h <;> simpa [hostSize] using h

/-- Before the first micro-step an operation of which R66 asks a host buffer alone is checked for that buffer alone. -/
theorem contractBreach_eq_none_of_buffer {c : Cfg} {i : Instr} {h n : Word}
    (hi : i.breach = if hostFits h n then none else some .outOfHost) (hr : rangeBreach c i = none) :
    contractBreach c i = none ↔ HostRange h.toNat n.toNat := by
  rw [contractBreach_eq_none, hi, hr]
  simp [hostFits, HostRange]

/-! ## From the presentation to the end -/

theorem State.endOk_setEx (u : State) (a : Agent) (e : Exec) : (u.setEx a e).endOk a = u.setEx a e.ended := by
  simp [State.endOk, State.finish, State.result, Exec.ended]

/-- An operation whose entries before the closing `OK` leave its agent's record alone. -/
theorem exec_ended {s u : State} {i : Instr} {ms : List Micro} {a : Agent} (hp : Presentable s i) (ha : s.presenter = a)
    (hc : contractBreach s.cfg i = none) (hl : listing s.cfg i = ms ++ [.ok])
    (hrun : ∀ e, runList (entire 8 a) ms (s.setEx a e) = .go (u.setEx a e)) :
    exec i s = .next (u.setEx a (s.ex a).ended) := by
  rw [exec_endOk hp ha hc hl (hrun ((s.ex a).begun i)), State.endOk_setEx]
  rfl

/-- An entry whose check fails (R67). -/
theorem entire_orRefuse_some (d : Nat) (a : Agent) {m : Micro} {b : Breach} {n : Next} {s : State}
    (hu : unit a 0 m s = orRefuse (some b) n) (hm : m.looped = false) : entire d a m s = .refuse (.contract b) := by
  cases d with
  | zero => simp [entire, hu, orRefuse]
  | succ d =>
    cases m with
    | copyIn | copyOut | poll | pollWait | windows => simp [Micro.looped] at hm
    | _ => simp [entire, hu, orRefuse]

/-- An operation is refused where the checks at its presentation fail, or the check of an entry that its listing comes to. -/
theorem exec_refused {s u : State} {i : Instr} {pre post : List Micro} {m : Micro} {br : Option Breach} {n : Next}
    (hp : Presentable s i) (hl : listing s.cfg i = pre ++ m :: post)
    (hpre : runList (entire 8 s.presenter) pre (s.start s.presenter i []) = .go u)
    (hu : unit s.presenter 0 m u = orRefuse br n) (hm : m.looped = false)
    (hbad : ¬(contractBreach s.cfg i = none ∧ br = none)) : ∃ b, exec i s = .refused (.contract b) := by
  cases hc : contractBreach s.cfg i with
  | some b => exact ⟨b, exec_breach hp hc⟩
  | none =>
    obtain ⟨b, rfl⟩ := Option.ne_none_iff_exists'.1 fun h => hbad ⟨hc, h⟩
    refine ⟨b, ?_⟩
    rw [exec_eq_perform, hl]
    refine perform_refuse (portRefusal_eq_none hp hc) ?_
    rw [runList_append hpre, runList_refuse (entire_orRefuse_some 8 s.presenter hu hm)]

/-! ## `MBOXWR` (R161) and `MBOXRD` (R162) -/

theorem Presentable.host_of_mboxwr {s : State} {b h n : Word} (hp : Presentable s (.mboxwr b h n)) : s.presenter = .host := by
  simpa [presenters] using hp.presenter_mem

/-- `MBOXWR` is the bulk write at its place in the outbound box (R161). -/
theorem exec_mboxwr_eq {s : State} {b h n : Word} (hp : Presentable s (.mboxwr b h n))
    (hbox : boxWriteBreach s.cfg s.ctx.outbox b.toNat n.toNat = none) (hhost : HostRange h.toNat n.toNat) :
    exec (.mboxwr b h n) s = .next ((s.bulkIn .host .dsp (s.ctx.outbox.off + b.toNat) h.toNat n.toNat).setEx .host
      (s.ex .host).ended) :=
  exec_ended (ms := [.boxWrite b h n]) hp hp.host_of_mboxwr ((contractBreach_eq_none_of_buffer rfl rfl).2 hhost) rfl fun e => by
    rw [runList_go (entire_boxWrite 6 .host (by simpa using hbox)), runList_nil, State.bulkIn_setEx, State.setEx_ctx]

/-- `MBOXRD` is the bulk read at its place in the inbound box (R162). -/
theorem exec_mboxrd_eq {s : State} {b h n : Word} (hp : Presentable s (.mboxrd b h n))
    (hbox : boxReadBreach s.cfg s.ctx.inbox b.toNat n.toNat = none) (hhost : HostRange h.toNat n.toNat) :
    exec (.mboxrd b h n) s =
      .next ((s.bulkOut s.presenter .dsp (s.ctx.inbox.off + b.toNat) (.host h.toNat) n.toNat).setEx s.presenter
        (s.ex s.presenter).ended) :=
  exec_ended (ms := [.boxRead b h n]) hp rfl ((contractBreach_eq_none_of_buffer rfl rfl).2 hhost) rfl fun e => by
    rw [runList_go (entire_boxRead 6 s.presenter (by simpa using hbox)), runList_nil, State.bulkOut_host_setEx,
      State.setEx_ctx]

/-- Settles O27, by the bulk write that `MBOXWR` makes. -/
theorem mboxwrResult : Obligations.MboxwrResult := by
  intro s boxoff haddr size hp ho hsize hregion hhost
  refine ⟨_, exec_mboxwr_eq hp (boxWriteBreach_eq_none.2 ⟨ho, hsize, hregion⟩) hhost, ended_setEx ..,
    sameResults_setEx_ended .., fun i hi hacc hisr hpm => ?_, (sameButRange_bulkIn s _ _ .dsp _ _ ho).setEx _⟩
  rw [State.setEx_byteAt, s.bulkIn_byteAt_payload .host haddr.toNat size.toNat i ho hi hacc hisr hpm]

/-- Settles O28, by the bulk read that `MBOXRD` makes. -/
theorem mboxrdResult : Obligations.MboxrdResult := by
  intro s boxoff haddr size hp hsize hregion hhost
  obtain ⟨-, hcopied⟩ :=
    s.bulkOut_host_hm s.presenter .dsp (s.ctx.inbox.off + boxoff.toNat) haddr.toNat size.toNat
  refine ⟨_, exec_mboxrd_eq hp (boxReadBreach_eq_none.2 ⟨hsize, hregion⟩) hhost, ended_setEx ..,
    sameResults_setEx_ended .., fun i hi hacc hisr => ?_, (sameButHost_bulkOut ..).setEx _⟩
  rw [State.setEx_hm, hcopied i hi hacc hisr]

end Sys2Proof.Machine
end

section
/-! PROOFS. `GETREPLY` (R164, R166, R168): the header in the buffer, what is judged of it, the read-back, and the refusals of the
four mailbox operations (R160 (b), R67). -/

namespace Sys2Proof.Machine

/-! ## The header in the buffer (R164 P1 and P2) -/

/-- A little-endian word of what a bulk read has left in the buffer is the region's (R62). -/
theorem State.readWord_bulkOut_buf {s : State} (a : Agent) {r : Region} {off n k : Nat} (hr : s.readable r off n)
    (hk : k + 4 ≤ n) : Memory.readWord ((s.bulkOut a r off (.buf 0) n).loc a).buf k = s.leWord r (off + k) := by
  obtain ⟨-, hread⟩ := s.bulkOut_buf_buf a r off 0 n
  have hbyte (j : Nat) (hj : j < n) : Memory.read ((s.bulkOut a r off (.buf 0) n).loc a).buf j = s.byteAt r (off + j) := by
    obtain ⟨hacc, hisr⟩ := hr j hj
    simpa using hread j hj hacc hisr
  simp only [Memory.readWord, State.leWord, hbyte k (by omega), hbyte (k + 1) (by omega), hbyte (k + 2) (by omega),
    hbyte (k + 3) (by omega), Nat.add_assoc]

/-- The state after P1 and P2: the outbound box captured, its header in the buffer. -/
def State.headed (s : State) (a : Agent) : State :=
  (s.setLoc a { s.loc a with box := s.ctx.outbox }).bulkOut a .dsp s.ctx.outbox.off (.buf 0) s.cfg.rhSize

/-- The state after P4: what is to be copied and reported is known. -/
def State.judged (s : State) (a : Agent) (expect : Word) : State := judgeStep a expect (s.headed a)

section
variable (s : State) (a : Agent) (expect : Word)

@[simp] theorem State.headed_cfg : (s.headed a).cfg = s.cfg := by simp [State.headed]

theorem State.headed_ex : (s.headed a).ex a =
    { s.ex a with loc := { s.loc a with box := s.ctx.outbox, buf := ((s.headed a).loc a).buf } } := by
  rw [State.headed, State.bulkOut_buf_own, State.ex_setLoc, if_pos rfl, State.loc_setLoc]

/-- P1 to P4 change nothing but the agent's own record. -/
theorem State.judged_eq : s.judged a expect = (s.headed a).setEx a ((s.judged a expect).ex a) := by
  simp [State.judged, judgeStep, State.setLoc]

/-- P1 to P4 only read the region (R69). -/
theorem sameAll_judged : SameAll a s (s.judged a expect) := by
  rw [State.judged_eq]
  refine SameAll.setEx ⟨?_, ?_, ?_, ?_, fun b hb => ?_, ?_, ?_⟩ _
  case refine_5 => simp [State.headed, State.bulkOut_buf_ex _ _ _ _ _ hb, State.ex_setLoc, hb]
  all_goals simp [State.headed, SameBlock, SameDevice, SameRegions, SameHost, SameSetting, Silent]

@[simp] theorem State.judged_cfg : (s.judged a expect).cfg = s.cfg := by simp [State.judged, judgeStep]

@[simp] theorem State.judged_inaccessible (r : Region) (x : Nat) :
    (s.judged a expect).inaccessible r x = s.inaccessible r x := by simp [State.judged, judgeStep, State.headed]

@[simp] theorem State.judged_isIsrByte (r : Region) (x : Nat) :
    (s.judged a expect).isIsrByte r x = s.isIsrByte r x := by
  simp [State.isIsrByte, State.judged, judgeStep, State.headed]

@[simp] theorem State.judged_byteAt (r : Region) (x : Nat) : (s.judged a expect).byteAt r x = s.byteAt r x :=
  State.byteAt_congr (by simp [State.judged, judgeStep, State.headed]) r x

@[simp] theorem State.judged_box : ((s.judged a expect).loc a).box = s.ctx.outbox := by
  have hloc := congrArg Exec.loc (s.headed_ex a)
  rw [State.judged, judgeStep, State.loc_setLoc]
  exact congrArg Locals.box hloc

/-- Of its agent's record `GETREPLY` has changed the local variables alone by P4. -/
theorem State.judged_ex : (s.judged a expect).ex a = { s.ex a with loc := (s.judged a expect).loc a } := by
  rw [State.judged, judgeStep, State.ex_setLoc, if_pos rfl, State.headed_ex, State.loc_setLoc]

end

/-! ## The judgement (R164 P3 and P4) -/

theorem isNegative_iff (w : Word) : isNegative w = true ↔ w.toInt < 0 := by
  have hmsb : isNegative w = w.msb := (BitVec.msb_eq_getLsbD_last w).symm
  rw [hmsb, BitVec.msb_eq_toInt, decide_eq_true_iff]

section
variable {s : State} {a : Agent} {expect : Word}

/-- The header's fields, as P3 finds them in the buffer. -/
theorem State.readWord_headed {k : Nat} (hr : s.readable .dsp s.ctx.outbox.off s.cfg.rhSize) (hk : k + 4 ≤ s.cfg.rhSize) :
    Memory.readWord ((s.headed a).loc a).buf k = s.leWord .dsp (s.ctx.outbox.off + k) := by
  set u := s.setLoc a { s.loc a with box := s.ctx.outbox } with hu
  have hru : u.readable .dsp s.ctx.outbox.off s.cfg.rhSize := fun i hi => by
    simpa [hu, State.isIsrByte] using hr i hi
  have hbyte : ∀ r x, u.byteAt r x = s.byteAt r x := State.byteAt_congr (by simp [hu])
  rw [State.headed, State.readWord_bulkOut_buf a hru hk]
  simp [State.leWord, hbyte]

/-- The three cases of P3 and P4, told apart by the header's error field and its size field. -/
theorem judgement_headed {declared err ev : Word} {n : Nat} {k : Kind} (hw : s.cfg.wf = true)
    (hr : s.readable .dsp s.ctx.outbox.off s.cfg.rhSize)
    (hdeclared : declared = s.leWord .dsp (s.ctx.outbox.off + s.cfg.rhSizeOff))
    (herr : err = s.leWord .dsp (s.ctx.outbox.off + s.cfg.rhErrOff))
    (hneg : err.toInt < 0 → n = s.cfg.rhSize ∧ k = .fwError ∧ ev = err)
    (hmismatch : 0 ≤ err.toInt → declared ≠ expect → n = expect.toNat ∧ k = .sizeMismatch ∧ ev = 0)
    (hok : 0 ≤ err.toInt → declared = expect → n = declared.toNat ∧ k = .ok ∧ ev = 0) :
    judgement s.cfg ((s.headed a).loc a).buf expect = (n, k, ev) := by
  obtain ⟨hsize, hfield⟩ := s.cfg.wf_header hw
  rw [judgement, State.readWord_headed hr hfield, State.readWord_headed hr hsize, ← herr, ← hdeclared]
  simp only [isNegative_iff]
  by_cases h : err.toInt < 0
  · obtain ⟨rfl, rfl, rfl⟩ := hneg h
    simp [h]
  · by_cases he : declared = expect
    · obtain ⟨rfl, rfl, rfl⟩ := hok (by omega) he
      simp [h, he]
    · obtain ⟨rfl, rfl, rfl⟩ := hmismatch (by omega) he
      simp [h, he]

theorem State.judged_loc {n : Nat} {k : Kind} {ev : Word}
    (h : judgement s.cfg ((s.headed a).loc a).buf expect = (n, k, ev)) :
    ((s.judged a expect).loc a).size = n ∧ ((s.judged a expect).loc a).kind = k ∧
      ((s.judged a expect).loc a).ev = ev := by
  simp [State.judged, judgeStep, h]

/-- How many bytes are to be copied back. -/
theorem State.judged_size (hw : s.cfg.wf = true) (hr : s.readable .dsp s.ctx.outbox.off s.cfg.rhSize) :
    ((s.judged a expect).loc a).size = s.replySize expect := by
  obtain ⟨hsize, hfield⟩ := s.cfg.wf_header hw
  simp only [State.judged, judgeStep, State.loc_setLoc, State.headed_cfg, judgement, isNegative_iff,
    State.readWord_headed hr hfield, State.readWord_headed hr hsize, State.replySize]
  split_ifs with hneg hne
  · rfl
  · rfl
  · rw [not_not.1 hne]

/-! ## `GETREPLY` from its presentation to its end -/

/-- P1 to P4. -/
theorem runList_judged (a : Agent) (expect : Word) (hbox : s.cfg.rhSize ≤ s.ctx.outbox.size)
    (hregion : RegionRange s .dsp s.ctx.outbox.off s.cfg.rhSize) :
    runList (entire 8 a) [.header, .judge expect] s = .go (s.judged a expect) := by
  have hbreach : boxReadBreach s.cfg s.ctx.outbox 0 s.cfg.rhSize = none :=
    boxReadBreach_eq_none.2 ⟨by omega, hregion⟩
  rw [runList_go (entire_header 6 a hbreach), runList_go (entire_judge ..), runList_nil]
  rfl

end

/-- The record of an agent whose operation has ended with a reply of `n` bytes (R164 P6). -/
def Exec.replied (e : Exec) (n : Nat) (k : Kind) (ev : Word) : Exec :=
  { e.ended with status := k.code, errval := ev, result0 := BitVec.ofNat 32 n }

/-- `GETREPLY` whose header has been judged: the read-back, then the results (R164 P5 and P6). -/
theorem exec_getreply_eq {s u : State} {h expect : Word} {n : Nat} {k : Kind} {ev : Word}
    (hp : Presentable s (.getreply h expect))
    (hrun : runList (entire 8 s.presenter) [.header, .judge expect] (s.start s.presenter (.getreply h expect) []) = .go u)
    (hex : u.ex s.presenter = { (s.ex s.presenter).begun (.getreply h expect) with loc := u.loc s.presenter })
    (hl : (u.loc s.presenter).size = n ∧ (u.loc s.presenter).kind = k ∧ (u.loc s.presenter).ev = ev)
    (hback : readBackBreach u.cfg (u.loc s.presenter).box h.toNat n = none) :
    exec (.getreply h expect) s =
      .next ((u.bulkOut s.presenter .dsp (u.loc s.presenter).box.off (.host h.toNat) n).setEx s.presenter
        ((s.ex s.presenter).replied n k ev)) := by
  obtain ⟨rfl, rfl, rfl⟩ := hl
  rw [exec_eq_perform]
  change perform _ ([.header, .judge expect] ++ [.readBack h, .replyResult]) s = _
  have hall : runList (entire 8 s.presenter) ([.header, .judge expect] ++ [.readBack h, .replyResult])
      (s.start s.presenter (.getreply h expect) []) =
      .go (replyResultStep s.presenter (u.bulkOut s.presenter .dsp (u.loc s.presenter).box.off (.host h.toNat)
        (u.loc s.presenter).size)) := by
    rw [runList_append hrun, runList_go (entire_readBack 6 s.presenter hback), runList_go (entire_replyResult ..), runList_nil]
  rw [perform_go (portRefusal_eq_none hp rfl) hall]
  simp [State.finish, replyResultStep, hex, Exec.replied, Exec.ended, Exec.begun]

/-! ## What the presentation leaves as it was -/

section
variable (s : State) (a : Agent) (i : Instr) (ms : List Micro)

@[simp] theorem State.start_byteAt (r : Region) (x : Nat) : (s.start a i ms).byteAt r x = s.byteAt r x :=
  State.byteAt_congr (by simp) r x

@[simp] theorem State.start_leWord (r : Region) (x : Nat) : (s.start a i ms).leWord r x = s.leWord r x := by
  simp [State.leWord]

@[simp] theorem State.start_isIsrByte (r : Region) (x : Nat) : (s.start a i ms).isIsrByte r x = s.isIsrByte r x := by
  simp [State.isIsrByte]

@[simp] theorem State.start_readable (r : Region) (x n : Nat) : (s.start a i ms).readable r x n ↔ s.readable r x n := by
  simp [State.readable]

@[simp] theorem State.start_replySize (expect : Word) : (s.start a i ms).replySize expect = s.replySize expect := by
  simp [State.replySize]

theorem sameAll_start : SameAll a s (s.start a i ms) := by
  refine SameAll.setEx ?_ _
  simp [SameAll, SameBlock, SameDevice, SameRegions, SameHost, SameOthers, SameSetting, Silent]

end

/-- A stretch that changes no host byte, before one that changes none beyond its destination. -/
theorem SameAll.trans_sameButHost {a : Agent} {base n : Nat} {s t u : State} (h : SameAll a s t)
    (h' : SameButHost a base n t u) : SameButHost a base n s u := by
  obtain ⟨hblock, ⟨hregs, hpm⟩, hregions, hhost, hothers, hsetting, hevents, htime⟩ := h
  obtain ⟨hblock', ⟨hregs', hpm'⟩, hregions', hhost', hothers', hsetting', hevents', htime'⟩ := h'
  exact ⟨hblock.trans hblock', ⟨hregs'.trans hregs, hpm'.trans hpm⟩, fun r x => (hregions' r x).trans (hregions r x),
    fun x hx => (hhost' x hx).trans (hhost x), fun b hb => (hothers' b hb).trans (hothers b hb), hsetting.trans hsetting',
    hevents'.trans hevents, htime'.trans htime⟩

/-! ## The obligations on `GETREPLY` and on the refusals -/

/-- Settles O30, by what the judgement finds in the header and the bulk read that follows it. -/
theorem getreplyResult : Obligations.GetreplyResult := by
  intro s haddr expect declared err n k ev hw hp hsize hregion hr hdeclared herr hneg hmismatch hok hn hnregion hhost
  set a := s.presenter with ha
  set s₁ := s.start a (.getreply haddr expect) [] with hs₁
  set u := s₁.judged a expect with hu
  have hcfg : s₁.cfg = s.cfg := by simp [hs₁]
  have hctx : s₁.ctx = s.ctx := by simp [hs₁]
  have hrun : runList (entire 8 a) [.header, .judge expect] s₁ = .go u :=
    runList_judged a expect (by rwa [hcfg, hctx]) (by simpa only [RegionRange, hcfg, hctx] using hregion)
  have hex : u.ex a = { (s.ex a).begun (.getreply haddr expect) with loc := u.loc a } := by
    rw [hu, State.judged_ex, hs₁, State.start_ex, if_pos rfl]
    rfl
  have hl : (u.loc a).size = n ∧ (u.loc a).kind = k ∧ (u.loc a).ev = ev := by
    refine State.judged_loc (judgement_headed (s := s₁) (declared := declared) (err := err) (by rwa [hcfg]) ?_ ?_ ?_ ?_
      hmismatch hok)
    · rw [hctx, hcfg, hs₁, State.start_readable]
      exact hr
    · rw [hctx, hcfg, hs₁, State.start_leWord, hdeclared]
    · rw [hctx, hcfg, hs₁, State.start_leWord, herr]
    · rwa [hcfg]
  have hbox : (u.loc a).box = s.ctx.outbox := by rw [hu, State.judged_box, hctx]
  have hback : readBackBreach u.cfg (u.loc a).box haddr.toNat n = none := by
    rw [hbox, hu, State.judged_cfg, hcfg]
    exact readBackBreach_eq_none.2 ⟨hn, hnregion, hhost⟩
  refine ⟨_, exec_getreply_eq hp hrun hex hl hback, ?_, ?_, ?_, fun i hi hacc hisr => ?_, ?_⟩
  · simp [Ended, Exec.replied, Exec.ended, ha]
  · simp [Exec.replied, ha]
  · simp [Exec.replied, Exec.ended, ha]
  · obtain ⟨-, hcopied⟩ := u.bulkOut_host_hm a .dsp s.ctx.outbox.off haddr.toNat n
    rw [State.setEx_hm, hbox, hcopied i hi (by simpa [hu, hs₁] using hacc) (by simpa [hu, hs₁] using hisr)]
    simp [hu, hs₁]
  · rw [hbox]
    exact ((sameAll_start s a _ []).trans_sameButHost ((sameAll_judged s₁ a expect).trans_sameButHost
      (sameButHost_bulkOut u a a .dsp _ _ n))).setEx _

/-- `MBOXWR` keeps its contract or is refused (R160 (b), R67). -/
theorem exec_mboxwr_refused {s : State} {b h n : Word} (hp : Presentable s (.mboxwr b h n))
    (hbad : ¬((s.ctx.outbox.off + b.toNat) % 4 = 0 ∧ b.toNat + roundUp n.toNat ≤ s.ctx.outbox.size ∧
      RegionRange s .dsp (s.ctx.outbox.off + b.toNat) (roundUp n.toNat) ∧ HostRange h.toNat n.toNat)) :
    ∃ br, exec (.mboxwr b h n) s = .refused (.contract br) := by
  refine exec_refused (pre := []) hp rfl (runList_nil ..) rfl rfl fun ⟨hc, hbox⟩ => hbad ?_
  rw [State.start_cfg, State.start_ctx] at hbox
  obtain ⟨ho, hsize, hregion⟩ := boxWriteBreach_eq_none.1 hbox
  exact ⟨ho, hsize, hregion, (contractBreach_eq_none_of_buffer rfl rfl).1 hc⟩

theorem exec_mboxrd_refused {s : State} {b h n : Word} (hp : Presentable s (.mboxrd b h n))
    (hbad : ¬(b.toNat + n.toNat ≤ s.ctx.inbox.size ∧ RegionRange s .dsp (s.ctx.inbox.off + b.toNat) n.toNat ∧
      HostRange h.toNat n.toNat)) : ∃ br, exec (.mboxrd b h n) s = .refused (.contract br) := by
  refine exec_refused (pre := []) hp rfl (runList_nil ..) rfl rfl fun ⟨hc, hbox⟩ => hbad ?_
  rw [State.start_cfg, State.start_ctx] at hbox
  obtain ⟨hsize, hregion⟩ := boxReadBreach_eq_none.1 hbox
  exact ⟨hsize, hregion, (contractBreach_eq_none_of_buffer rfl rfl).1 hc⟩

theorem exec_sendmsg_refused {s : State} {h n : Word} (hp : Presentable s (.sendmsg h n))
    (hbad : ¬(s.ctx.outbox.off % 4 = 0 ∧ roundUp n.toNat ≤ s.ctx.outbox.size ∧
      RegionRange s .dsp s.ctx.outbox.off (roundUp n.toNat) ∧ HostRange h.toNat n.toNat)) :
    ∃ br, exec (.sendmsg h n) s = .refused (.contract br) := by
  refine exec_refused (pre := []) hp rfl (runList_nil ..) rfl rfl fun ⟨hc, hbox⟩ => hbad ?_
  rw [State.start_cfg, State.start_ctx] at hbox
  obtain ⟨ho, hsize, hregion⟩ := boxWriteBreach_eq_none.1 hbox
  simp only [BitVec.ofNat_eq_ofNat, BitVec.toNat_zero, Nat.add_zero, Nat.zero_add] at ho hsize hregion
  exact ⟨ho, hsize, hregion, (contractBreach_eq_none_of_buffer rfl rfl).1 hc⟩

/-- A header that leaves its box or the region (R164 P1). -/
theorem exec_getreply_header_refused {s : State} {h expect : Word} (hp : Presentable s (.getreply h expect))
    (hbad : ¬(s.cfg.rhSize ≤ s.ctx.outbox.size ∧ RegionRange s .dsp s.ctx.outbox.off s.cfg.rhSize)) :
    ∃ br, exec (.getreply h expect) s = .refused (.contract br) := by
  refine exec_refused (pre := []) hp rfl (runList_nil ..) rfl rfl fun ⟨_, hbox⟩ => hbad ?_
  rw [State.start_cfg, State.start_ctx] at hbox
  obtain ⟨hsize, hregion⟩ := boxReadBreach_eq_none.1 hbox
  exact ⟨by omega, hregion⟩

/-- A read-back that leaves its box, the region or host memory (R164 P5). -/
theorem exec_getreply_readBack_refused {s : State} {h expect : Word} (hw : s.cfg.wf = true)
    (hp : Presentable s (.getreply h expect)) (hsize : s.cfg.rhSize ≤ s.ctx.outbox.size)
    (hregion : RegionRange s .dsp s.ctx.outbox.off s.cfg.rhSize) (hr : s.readable .dsp s.ctx.outbox.off s.cfg.rhSize)
    (hbad : ¬(s.replySize expect ≤ s.ctx.outbox.size ∧ RegionRange s .dsp s.ctx.outbox.off (s.replySize expect) ∧
      HostRange h.toNat (s.replySize expect))) :
    ∃ br, exec (.getreply h expect) s = .refused (.contract br) := by
  set s₁ := s.start s.presenter (.getreply h expect) [] with hs₁
  have hrun : runList (entire 8 s.presenter) [.header, .judge expect] s₁ = .go (s₁.judged s.presenter expect) :=
    runList_judged _ expect (by simpa [hs₁] using hsize) (by simpa [hs₁, RegionRange] using hregion)
  have hcopied : ((s₁.judged s.presenter expect).loc s.presenter).size = s.replySize expect := by
    rw [State.judged_size (by simpa [hs₁] using hw) (by simpa [hs₁] using hr), hs₁, State.start_replySize]
  refine exec_refused (pre := [.header, .judge expect]) hp rfl hrun rfl rfl fun ⟨_, hback⟩ => hbad ?_
  rw [hcopied, State.judged_box, State.judged_cfg, hs₁, State.start_cfg, State.start_ctx] at hback
  exact readBackBreach_eq_none.1 hback

/-- Settles O31: each clause says of its operation that a check of its listing, or of its presentation, fails. -/
theorem mailboxRefused : Obligations.MailboxRefused := fun _ _ _ _ =>
  ⟨exec_mboxwr_refused, exec_mboxrd_refused, exec_sendmsg_refused, exec_getreply_header_refused,
    exec_getreply_readBack_refused, fun hlen hzero hp => exec_mboxrd_refused hp fun ⟨hsize, _⟩ => by omega⟩

end Sys2Proof.Machine
end

section
/-! PROOFS. `SENDMSG` (R163, R291): the payload, then `CMDO.BUSY`, and the box in which the message will be answered. -/

namespace Sys2Proof.Machine

/-! ## The reply box (R291) -/

/-- A write that is not at `CMDO`'s offset posts no message. -/
theorem State.replyBox_store (s : State) {r : Region} {off : Nat} (v : Word) (h : regAt s.cfg r off ≠ some .cmdo) :
    (s.store r off v).replyBox = s.replyBox := by
  unfold State.store State.setStored
  split
  · rfl
  · cases e : regAt s.cfg r off with
    | none => simp
    | some g => exact s.setReg_replyBox g _ fun hg => h (hg ▸ e)

theorem State.replyBox_write32 (s : State) (a : Agent) {r : Region} {off : Nat} (v : Word)
    (h : regAt s.cfg r off ≠ some .cmdo) : (s.write32 a r off v).replyBox = s.replyBox := by
  rw [State.write32, State.busWrite_cases, State.record_replyBox]
  split
  · split
    · rw [s.draw.2.replyBox_store v (by simpa using h), State.draw_replyBox]
    · rw [State.draw_replyBox]
  · rw [s.replyBox_store v h]

/-- A bulk write whose rounded range leaves `CMDO` out posts no message. -/
theorem State.replyBox_bulkIn (s : State) (a : Agent) {off : Nat} (h n : Nat)
    (hn : ¬(off ≤ s.cfg.cmdoOff ∧ s.cfg.cmdoOff < off + roundUp n)) :
    (s.bulkIn a .dsp off h n).replyBox = s.replyBox := by
  have hr := roundUp_eq n
  have hne (t : State) (k : Nat) (ht : t.cfg = s.cfg) (hk : off + 4 * k < off + roundUp n) :
      regAt t.cfg .dsp (off + 4 * k) ≠ some .cmdo := by
    intro e
    obtain ⟨-, hoff⟩ := regAt_some e
    rw [ht, regOff] at hoff
    exact hn ⟨by omega, by omega⟩
  obtain ⟨hcfg, hgroups⟩ := unitsLoop_keep (P := fun t => t.cfg = s.cfg ∧ t.replyBox = s.replyBox)
    (f := groupUnit a .dsp off h) (b := 0) (n := n / 4) (s := s) (fun k t _ hk ⟨hc, hb⟩ =>
      ⟨by simp [hc], by rw [groupUnit, t.replyBox_write32 _ _ (hne t k hc (by split at hr <;> omega)), hb]⟩) ⟨rfl, rfl⟩
  unfold State.bulkIn tailStep
  split
  · exact hgroups
  · rename_i h0
    rw [if_neg h0] at hr
    rw [State.replyBox_write32 _ _ _ (hne _ _ (by simpa using hcfg) (by omega)), State.draw_replyBox, hgroups]

/-- An `Update32` of an accessible `CMDO` posts a message where it raises BUSY, to be answered in the live outbound box. -/
theorem State.replyBox_update32_cmdo {s : State} (a : Agent) (m v : Word) (hw : s.cfg.wf = true) (hr : s.registersPlain) :
    (s.update32 a .dsp s.cfg.cmdoOff m v).replyBox =
      if flagOf (merged s.regs.cmdo m v) s.cfg.cmdoBusy && !s.cmdoBusy then s.ctx.outbox else s.replyBox := by
  obtain ⟨hacc, hpm⟩ := State.registersPlain_reg hr .cmdo
  have hisr : s.isIsr .dsp (regOff s.cfg .cmdo) = false := by simp [State.isIsr, regOff_ne_isr hw .cmdo]
  have hwrite := (readStep a .dsp (regOff s.cfg .cmdo) .old s).write32_reg a .cmdo
    (merged (s.read32 a .dsp (regOff s.cfg .cmdo)).1 m v) (by simpa using hw) (by simpa using hacc) (by simpa using hpm)
  rw [State.readStep_cfg] at hwrite
  change (s.update32 a .dsp (regOff s.cfg .cmdo) m v).replyBox = _
  rw [State.update32_eq, hwrite, State.record_replyBox, State.setReg_cmdo_replyBox, State.read32_fst s a hacc hisr,
    State.word_reg s .cmdo hw hpm]
  simp [State.cmdoBusy]

/-! ## A box clear of registers (R13 (k)) -/

section
variable {s : State} {b : Box} {n : Nat}

/-- No register lies in a stretch at the base of the box. -/
theorem State.boxClear_offset (hb : s.boxClear b) (hn : n ≤ b.size) {o : Nat} (ho : o ∈ s.cfg.offsets) :
    ¬(b.off ≤ o ∧ o < b.off + n) := by
  obtain ⟨hoffsets, -⟩ := hb
  have := hoffsets o ho
  omega

/-- The accessible words of the box are plain. -/
theorem State.boxClear_plainWord (hb : s.boxClear b) {x : Nat} (hlow : b.off ≤ x) (hhigh : x < b.off + b.size)
    (hacc : s.inaccessible .dsp x = false) : s.plainWord .dsp x := by
  refine ⟨hacc, fun _ ho => State.boxClear_offset hb le_rfl ho ⟨hlow, hhigh⟩, ?_⟩
  obtain ⟨-, hpm⟩ := hb
  simp only [State.isPm, Bool.and_eq_false_iff, beq_eq_false_iff_ne]
  by_contra! h
  have := hpm h.1.symm
  omega

end

/-- A byte of a plain word is the one in plain memory. -/
theorem State.byteAt_plain {s : State} {r : Region} {x : Nat} (h : s.plainWord r (x - x % 4)) :
    s.byteAt r x = Memory.read (s.mem r) x := by
  rw [State.byteAt, State.word_plain h, Memory.wordByte_readWord _ _ _ (by omega)]
  congr 1
  omega

/-- The payload bytes of a bulk write in plain words (R116). -/
theorem State.read_mem_bulkIn_payload (s : State) (a : Agent) {r : Region} {off : Nat} (h n i : Nat) (ho : off % 4 = 0)
    (hi : i < n) (hplain : s.plainWord r (off + i - i % 4)) :
    Memory.read ((s.bulkIn a r off h n).mem r) (off + i) = Memory.read s.hm (h + i) := by
  have hword : off + i - (off + i) % 4 = off + i - i % 4 := by omega
  have hplain' : (s.bulkIn a r off h n).plainWord r (off + i - (off + i) % 4) := by
    simpa [State.plainWord, hword] using hplain
  have ⟨hacc, hreg, hpm⟩ := hplain
  rw [← State.byteAt_plain hplain', s.bulkIn_byteAt_payload a h n i ho hi hacc (State.isIsr_of_plain hreg) hpm]

/-! ## `SENDMSG` from its presentation to its end -/

/-- The state after M1 to M4: the payload in the outbound box, `CMDO.BUSY` set. -/
def State.posted (s : State) (a : Agent) (h n : Nat) : State :=
  (s.bulkIn a .dsp s.ctx.outbox.off h n).update32 a .dsp s.cfg.cmdoOff s.cfg.cmdoBusy s.cfg.cmdoBusy

theorem PowerFrame.bulkIn (s : State) (a b : Agent) (r : Region) (off h n : Nat) : PowerFrame a s (s.bulkIn b r off h n) := by
  simp [PowerFrame, SameHost, SameOthers, SameSetting, SameResults]

theorem PowerFrame.posted (s : State) (a : Agent) (h n : Nat) : PowerFrame a s (s.posted a h n) :=
  (PowerFrame.bulkIn ..).trans (PowerFrame.update32 ..)

theorem Presentable.host_of_sendmsg {s : State} {h n : Word} (hp : Presentable s (.sendmsg h n)) : s.presenter = .host := by
  simpa [presenters] using hp.presenter_mem

theorem exec_sendmsg_eq {s : State} {h n : Word} (hp : Presentable s (.sendmsg h n))
    (hbox : boxWriteBreach s.cfg s.ctx.outbox 0 n.toNat = none) (hhost : HostRange h.toNat n.toNat) :
    exec (.sendmsg h n) s =
      .next (((s.start .host (.sendmsg h n) []).posted .host h.toNat n.toNat).endOk .host) := by
  refine exec_endOk (ms := [.boxWrite 0 h n] ++ update .dsp s.cfg.cmdoOff s.cfg.cmdoBusy s.cfg.cmdoBusy) hp
    hp.host_of_sendmsg ((contractBreach_eq_none_of_buffer rfl rfl).2 hhost) rfl ?_
  rw [List.singleton_append, runList_go (entire_boxWrite 6 .host (by simpa using hbox)), runList_update_last]
  simp [State.posted]

/-- Setting a flag keeps every other bit (R163). -/
theorem merged_self_val (old m : Word) : merged old m m = old ||| m := by
  ext k hk
  simp only [← BitVec.getLsbD_eq_getElem, getLsbD_merged, BitVec.getLsbD_or]
  by_cases hm : m.getLsbD k <;> simp [hm]

/-- The flags of a `CMDO` in which BUSY has been set (R13 (c), R35). -/
theorem flags_of_posted {c : Cfg} (hw : c.wf = true) (old : Word) :
    flagOf (old ||| c.cmdoBusy) c.cmdoBusy = true ∧ flagOf (old ||| c.cmdoBusy) c.cmdoDone = flagOf old c.cmdoDone := by
  have hbits := c.wf_cmdo hw
  rw [← merged_self_val]
  exact ⟨by rw [flagOf_merged_inside (by simp), flagOf_self (twoBits_fst hbits)],
    flagOf_merged_outside (by rw [BitVec.and_comm, twoBits_disjoint hbits])⟩

section
variable {s : State} (a : Agent) (h : Nat) {n : Nat}

theorem State.posted_access (s : State) (n : Nat) : (s.posted a h n).bus.map BusRec.access = s.bus.map BusRec.access ++
    (wordWrites .dsp s.ctx.outbox.off (roundUp n / 4) ++ updateAccess .dsp s.cfg.cmdoOff) := by
  rw [State.posted, State.update32_access, State.bulkIn_access, List.append_assoc]

/-- Plain memory after `SENDMSG` is that after its bulk write. -/
theorem State.posted_mem (hw : s.cfg.wf = true) (n : Nat) (r : Region) :
    (s.posted a h n).mem r = (s.bulkIn a .dsp s.ctx.outbox.off h n).mem r := by
  have hmem := (s.bulkIn a .dsp s.ctx.outbox.off h n).mem_update32_reg a .cmdo s.cfg.cmdoBusy s.cfg.cmdoBusy
    (by simpa using hw) r
  rw [State.bulkIn_cfg] at hmem
  exact hmem

/-- A payload in a box clear of registers leaves the registers accessible and as they were. -/
theorem State.bulkIn_registers (hr : s.registersPlain) (hb : s.boxClear s.ctx.outbox) (hn : roundUp n ≤ s.ctx.outbox.size) :
    (s.bulkIn a .dsp s.ctx.outbox.off h n).registersPlain ∧ (s.bulkIn a .dsp s.ctx.outbox.off h n).regs = s.regs :=
  ⟨State.registersPlain_congr (by simp) (by simp) (by simp) (by simp) hr, Regs.ext_get fun g =>
    s.regs_get_bulkIn a h n fun ⟨_, hin⟩ => State.boxClear_offset hb hn (regOff_mem s.cfg g) hin⟩

/-- Of the registers `SENDMSG` sets `CMDO.BUSY` and nothing else. -/
theorem State.posted_regs (hw : s.cfg.wf = true) (hr : s.registersPlain) (hb : s.boxClear s.ctx.outbox)
    (hn : roundUp n ≤ s.ctx.outbox.size) :
    (s.posted a h n).regs = s.regs.set .cmdo (s.regs.cmdo ||| s.cfg.cmdoBusy) := by
  obtain ⟨hru, hregs⟩ := State.bulkIn_registers a h hr hb hn
  obtain ⟨hacc, hpm⟩ := State.registersPlain_reg hru .cmdo
  have hset := State.update32_reg _ a .cmdo s.cfg.cmdoBusy s.cfg.cmdoBusy (by simpa using hw) hacc hpm
  rw [State.bulkIn_cfg, hregs, merged_self_val] at hset
  exact hset

/-- The message will be answered in the outbound box, unless one was outstanding already (R291). -/
theorem State.posted_replyBox (hw : s.cfg.wf = true) (hr : s.registersPlain) (hb : s.boxClear s.ctx.outbox)
    (hn : roundUp n ≤ s.ctx.outbox.size) :
    (s.posted a h n).replyBox = if s.cmdoBusy then s.replyBox else s.ctx.outbox := by
  obtain ⟨hru, hregs⟩ := State.bulkIn_registers a h hr hb hn
  obtain ⟨hbusy, -⟩ := flags_of_posted hw s.regs.cmdo
  have hout : ¬(s.ctx.outbox.off ≤ s.cfg.cmdoOff ∧ s.cfg.cmdoOff < s.ctx.outbox.off + roundUp n) :=
    State.boxClear_offset hb hn (regOff_mem s.cfg .cmdo)
  have hupdate := State.replyBox_update32_cmdo a s.cfg.cmdoBusy s.cfg.cmdoBusy (by simpa using hw) hru
  rw [State.cmdoBusy, State.bulkIn_cfg, hregs, merged_self_val, hbusy, State.bulkIn_ctx, s.replyBox_bulkIn a h n hout,
    ← State.cmdoBusy] at hupdate
  rw [State.posted, hupdate]
  cases s.cmdoBusy <;> rfl

end

/-- Settles O29: the payload goes to plain words of the box, so `CMDO` is what the update after it finds and sets. -/
theorem sendmsgResult : Obligations.SendmsgResult := by
  intro s haddr size hw hp ho hsize hregion hhost hr hb
  set s₁ := s.start .host (.sendmsg haddr size) [] with hs₁
  have hcfg : s₁.cfg = s.cfg := by simp [hs₁]
  have hctx : s₁.ctx = s.ctx := by simp [hs₁]
  have hw₁ : s₁.cfg.wf = true := hcfg ▸ hw
  have hr₁ : s₁.registersPlain := State.registersPlain_congr hcfg hctx (by simp [hs₁]) (by simp [hs₁]) hr
  have hb₁ : s₁.boxClear s₁.ctx.outbox := by simpa only [State.boxClear, hcfg, hctx] using hb
  have hsize₁ : roundUp size.toNat ≤ s₁.ctx.outbox.size := hctx ▸ hsize
  set u := s₁.posted .host haddr.toNat size.toNat with hu
  have hmem (r : Region) : (u.endOk .host).mem r = (s₁.bulkIn .host .dsp s.ctx.outbox.off haddr.toNat size.toNat).mem r := by
    rw [State.endOk_mem, hu, State.posted_mem _ _ hw₁, hctx]
  have hregs : (u.endOk .host).regs = s.regs.set .cmdo (s.regs.cmdo ||| s.cfg.cmdoBusy) := by
    rw [State.endOk_regs, hu, State.posted_regs .host _ hw₁ hr₁ hb₁ hsize₁, hcfg, hs₁, State.start_regs]
  have hcmdo : (u.endOk .host).regs.cmdo = s.regs.cmdo ||| s.cfg.cmdoBusy := congrArg Regs.cmdo hregs
  obtain ⟨hbusy, hdone⟩ := flags_of_posted hw s.regs.cmdo
  have hframe : PowerFrame .host s (u.endOk .host) := (PowerFrame.start ..).trans ((PowerFrame.posted ..).trans (.endOk ..))
  obtain ⟨hpmhw, hctx', hdefer, hirq, hevents, hhostmem, hothers, hsetting, hresults⟩ := hframe
  obtain ⟨hcfg', -⟩ := id hsetting
  refine ⟨u.endOk .host, exec_sendmsg_eq hp (boxWriteBreach_eq_none.2 ⟨ho, by omega, hregion⟩) hhost, ended_endOk ..,
    hresults, fun i hi hacc => ?_, newAccesses_of_access ?_, hcmdo, ?_, ?_, fun g hg => ?_, hpmhw, fun r x hx => ?_, ?_,
    ⟨hctx', ?_, hdefer, ?_, ?_, hirq⟩, hhostmem, hothers, hsetting, hevents, ?_⟩
  · have hlen : size.toNat ≤ roundUp size.toNat := by unfold roundUp; omega
    have hplain : s₁.plainWord .dsp (s.ctx.outbox.off + i - i % 4) :=
      hctx ▸ State.boxClear_plainWord hb₁ (by rw [hctx]; omega) (by rw [hctx]; omega) (by simpa [hs₁] using hacc)
    have hread := s₁.read_mem_bulkIn_payload .host haddr.toNat size.toNat i ho hi hplain
    rw [← hmem, hs₁, State.start_hm] at hread
    exact hread
  · rw [State.endOk_bus, hu, State.posted_access, hcfg, hctx, hs₁, State.start_bus]
  · rw [State.cmdoBusy, hcmdo, hcfg', hbusy]
  · rw [State.cmdoDone, hcmdo, hcfg', hdone, State.cmdoDone]
  · rw [hregs, Regs.get_set, if_neg hg]
  · rw [hmem, State.read_mem_bulkIn _ _ _ _ hx, hs₁, State.start_mem]
  · have hbox := State.posted_replyBox .host haddr.toNat hw₁ hr₁ hb₁ hsize₁
    rw [show (u.endOk .host).replyBox = u.replyBox by simp [State.endOk], hu, hbox, hctx,
      show s₁.cmdoBusy = s.cmdoBusy by simp [hs₁, State.cmdoBusy], hs₁, State.start_replyBox]
  all_goals simp [hu, hs₁, State.posted]

end Sys2Proof.Machine
end

section
/-! PROOFS. The doorbell dispatcher (R181 to R197): what its operations leave unchanged, and command-done. -/

namespace Sys2Proof.Machine

/-! ## The device -/

/-- What a read finds in the device is as before, but for the registers `gs`. -/
structure DeviceKept (gs : List DevReg) (s t : State) : Prop where
  cfg : t.cfg = s.cfg
  ctx : t.ctx = s.ctx
  gated : t.gated = s.gated
  confirmed : t.d0Confirmed = s.d0Confirmed
  pmhw : t.pmhw = s.pmhw
  regs : ∀ g, g ∉ gs → t.regs.get g = s.regs.get g
  mem : ∀ r, t.mem r = s.mem r

namespace DeviceKept

variable {gs gs' : List DevReg} {s t u : State}

theorem refl (gs : List DevReg) (s : State) : DeviceKept gs s s := ⟨rfl, rfl, rfl, rfl, rfl, fun _ _ => rfl, fun _ => rfl⟩

theorem trans (h : DeviceKept gs s t) (h' : DeviceKept gs t u) : DeviceKept gs s u :=
  ⟨h'.cfg.trans h.cfg, h'.ctx.trans h.ctx, h'.gated.trans h.gated, h'.confirmed.trans h.confirmed, h'.pmhw.trans h.pmhw,
    fun g hg => (h'.regs g hg).trans (h.regs g hg), fun r => (h'.mem r).trans (h.mem r)⟩

theorem mono (h : DeviceKept gs s t) (hsub : gs ⊆ gs') : DeviceKept gs' s t :=
  { h with regs := fun g hg => h.regs g (fun hm => hg (hsub hm)) }

theorem wf (h : DeviceKept gs s t) (hw : s.cfg.wf = true) : t.cfg.wf = true := h.cfg ▸ hw

theorem inaccessible (h : DeviceKept gs s t) (r : Region) (x : Nat) : t.inaccessible r x = s.inaccessible r x :=
  State.inaccessible_congr h.cfg h.ctx h.gated h.confirmed r x

theorem registersPlain (h : DeviceKept gs s t) (hr : s.registersPlain) : t.registersPlain :=
  State.registersPlain_congr h.cfg h.ctx h.gated h.confirmed hr

theorem regs_eq (h : DeviceKept [] s t) : t.regs = s.regs := Regs.ext_get fun g => h.regs g (List.not_mem_nil)

theorem readable (h : DeviceKept gs s t) {r : Region} {x n : Nat} (hr : s.readable r x n) : t.readable r x n := by
  intro i hi
  obtain ⟨hacc, hisr⟩ := hr i hi
  exact ⟨(h.inaccessible r _).trans hacc, (State.isIsr_congr h.cfg r _).trans hisr⟩

/-- With every register as before, so is every byte that a read finds. -/
theorem byteAt (h : DeviceKept [] s t) (r : Region) (x : Nat) : t.byteAt r x = s.byteAt r x :=
  State.byteAt_congr (State.word_congr h.cfg h.regs_eq h.mem h.pmhw) r x

theorem plainBytes (h : DeviceKept gs s t) {r : Region} {x n : Nat} (hp : s.plainBytes r x n) : t.plainBytes r x n := by
  intro i hi
  obtain ⟨hacc, hword, hoff, hpm⟩ := hp i hi
  exact ⟨(h.inaccessible r _).trans hacc, (h.inaccessible r _).trans hword, by rw [h.cfg]; exact hoff,
    (State.isPm_congr h.cfg r _).trans hpm⟩

/-- Plain bytes are as before, whatever the registers. -/
theorem byteAt_plain (h : DeviceKept gs s t) {r : Region} {x n : Nat} (hp : s.plainBytes r x n) {i : Nat} (hi : i < n) :
    t.byteAt r (x + i) = s.byteAt r (x + i) := by
  obtain ⟨-, hs⟩ := hp i hi
  obtain ⟨-, ht⟩ := h.plainBytes hp i hi
  rw [State.byteAt_plain ht, State.byteAt_plain hs, h.mem]

end DeviceKept

/-- Plain bytes can be read: `ISR` is no plain word (R32). -/
theorem State.plainBytes.readable {s : State} {r : Region} {x n : Nat} (h : s.plainBytes r x n) : s.readable r x n := by
  intro i hi
  obtain ⟨hacc, -, hoff, -⟩ := h i hi
  refine ⟨hacc, ?_⟩
  cases r with
  | comp => simp [State.isIsrByte, State.isIsr]
  | dsp =>
    have hne : x + i - (x + i) % 4 ≠ s.cfg.isrOff := fun he => hoff rfl (he ▸ isrOff_mem s.cfg)
    simpa [State.isIsrByte, State.isIsr] using hne

/-! ## The lock (R29) -/

/-- The state with the owner of the lock replaced. -/
def State.withLock (s : State) (l : Option Agent) : State := { s with lock := l }

section
variable (s : State) (l : Option Agent)

@[simp] theorem State.withLock_lock : (s.withLock l).lock = l := rfl
@[simp] theorem State.withLock_cfg : (s.withLock l).cfg = s.cfg := rfl
@[simp] theorem State.withLock_regs : (s.withLock l).regs = s.regs := rfl
@[simp] theorem State.withLock_bus : (s.withLock l).bus = s.bus := rfl
@[simp] theorem State.withLock_events : (s.withLock l).events = s.events := rfl
@[simp] theorem State.withLock_irqRet : (s.withLock l).irqRet = s.irqRet := rfl
@[simp] theorem State.withLock_deferPending : (s.withLock l).deferPending = s.deferPending := rfl
@[simp] theorem State.withLock_replyCalls : (s.withLock l).replyCalls = s.replyCalls := rfl
@[simp] theorem State.withLock_msgCalls : (s.withLock l).msgCalls = s.msgCalls := rfl
@[simp] theorem State.withLock_ex (b : Agent) : (s.withLock l).ex b = s.ex b := by cases b <;> rfl
@[simp] theorem State.withLock_loc (b : Agent) : (s.withLock l).loc b = s.loc b := by simp [State.loc]
@[simp] theorem State.withLock_seen (r : Region) (x : Nat) : (s.withLock l).seen r x = s.seen r x := rfl

/-- Who owns the lock is not seen on the bus. -/
@[simp] theorem State.withLock_read32_fst (a : Agent) (r : Region) (x : Nat) :
    ((s.withLock l).read32 a r x).1 = (s.read32 a r x).1 := by
  have hacc : (s.withLock l).inaccessible r x = s.inaccessible r x := rfl
  have hisr : (s.withLock l).isIsr r x = s.isIsr r x := rfl
  simp only [State.read32, State.busRead, hacc, hisr]
  split
  · rfl
  · split <;> rfl

end

/-! ## The frame -/

/-- As `DeviceKept`, and of the rest of the state only what an interrupt stage or command-done is there to write may differ:
`DEFER.pending`, the lock, `IRQRET`, the events, and of agent `a`'s record all but the result registers. -/
structure StageFrame (a : Agent) (gs : List DevReg) (s t : State) : Prop extends DeviceKept gs s t where
  pwr : t.pwr = s.pwr
  halt : t.halt = s.halt
  elapsed : t.elapsed = s.elapsed
  hm : t.hm = s.hm
  others : SameOthers a s t
  results : SameResults a s t
  setting : SameSetting s t

namespace StageFrame

variable {a : Agent} {gs : List DevReg} {s t u : State}

theorem refl (a : Agent) (gs : List DevReg) (s : State) : StageFrame a gs s s :=
  ⟨.refl gs s, rfl, rfl, rfl, rfl, fun _ _ => rfl, ⟨rfl, rfl⟩, ⟨rfl, rfl, rfl, rfl, rfl, rfl, rfl, rfl, rfl⟩⟩

theorem trans (h : StageFrame a gs s t) (h' : StageFrame a gs t u) : StageFrame a gs s u := by
  obtain ⟨h0, h1⟩ := h.results
  obtain ⟨h0', h1'⟩ := h'.results
  exact ⟨h.toDeviceKept.trans h'.toDeviceKept, h'.pwr.trans h.pwr, h'.halt.trans h.halt, h'.elapsed.trans h.elapsed,
    h'.hm.trans h.hm, fun b hb => (h'.others b hb).trans (h.others b hb), ⟨h0'.trans h0, h1'.trans h1⟩,
    h.setting.trans h'.setting⟩

theorem sameButRegs (h : StageFrame a gs s t) : SameButRegs a gs s t :=
  ⟨h.pmhw, h.regs, fun r x => by rw [h.mem r], fun x => by rw [h.hm], h.others, h.setting⟩

/-- Whatever is written to the lock, `DEFER.pending`, `IRQRET` and the events. -/
theorem setBlock (s : State) (a : Agent) (gs : List DevReg) (l : Option Agent) (d : Bool) (v : BitVec 2) (es : List Event) :
    StageFrame a gs s { s with lock := l, deferPending := d, irqRet := v, events := es } :=
  ⟨⟨rfl, rfl, rfl, rfl, rfl, fun _ _ => rfl, fun _ => rfl⟩, rfl, rfl, rfl, rfl, fun _ _ => rfl, ⟨rfl, rfl⟩,
    ⟨rfl, rfl, rfl, rfl, rfl, rfl, rfl, rfl, rfl⟩⟩

theorem withLock (s : State) (a : Agent) (gs : List DevReg) (l : Option Agent) : StageFrame a gs s (s.withLock l) :=
  setBlock s a gs l s.deferPending s.irqRet s.events

theorem setPending (s : State) (a : Agent) (gs : List DevReg) (b : Bool) :
    StageFrame a gs s { s with deferPending := b } := setBlock s a gs s.lock b s.irqRet s.events

theorem irqReturn (s : State) (a : Agent) (gs : List DevReg) (v : BitVec 2) : StageFrame a gs s (s.irqReturn v) :=
  setBlock s a gs s.lock s.deferPending v s.events

theorem emit (s : State) (a : Agent) (gs : List DevReg) (e : Event) : StageFrame a gs s (s.emit e) :=
  setBlock s a gs s.lock s.deferPending s.irqRet (s.events ++ [e])

/-- Whatever is written to agent `a`'s record, its result registers apart. -/
theorem setEx (s : State) {a : Agent} (gs : List DevReg) {e : Exec} (h0 : e.result0 = (s.ex a).result0)
    (h1 : e.result1 = (s.ex a).result1) : StageFrame a gs s (s.setEx a e) :=
  ⟨⟨by simp, by simp, by simp, by simp, by simp, by simp, by simp⟩, by simp, by simp, by simp, by simp,
    fun b hb => by simp [hb], by simp [SameResults, h0, h1], by simp [SameSetting]⟩

theorem setLoc (s : State) (a : Agent) (gs : List DevReg) (l : Locals) : StageFrame a gs s (s.setLoc a l) :=
  setEx s gs rfl rfl

theorem start (s : State) (a : Agent) (gs : List DevReg) (i : Instr) (ms : List Micro) :
    StageFrame a gs s (s.start a i ms) := setEx s gs rfl rfl

theorem endOk (s : State) (a : Agent) (gs : List DevReg) : StageFrame a gs s (s.endOk a) :=
  (setEx s gs (e := { s.ex a with status := Kind.ok.code, errval := 0 }) rfl rfl).trans
    (setEx _ gs rfl rfl)

theorem readStep (s : State) (a : Agent) (gs : List DevReg) (r : Region) (off : Nat) (sl : Slot) :
    StageFrame a gs s (readStep a r off sl s) := by
  refine StageFrame.trans (t := (s.read32 a r off).2) ?_ (setLoc _ a gs _)
  exact ⟨⟨by simp, by simp, by simp, by simp, by simp, by simp, by simp⟩, by simp, by simp, by simp, by simp,
    fun b _ => by simp, by simp [SameResults], by simp [SameSetting]⟩

/-- An `Update32` of one of the registers `gs`. -/
theorem updateReg {g : DevReg} (m v : Word) (hg : g ∈ gs) (hw : s.cfg.wf = true) :
    StageFrame a gs s (s.updateReg a g m v) := by
  refine ⟨⟨by simp, ?_, ?_, by simp, ?_, fun g' hg' => ?_, fun r => State.mem_updateReg hw r⟩, ?_, by simp, by simp, ?_,
    fun b hb => ?_, ?_, ?_⟩
  case refine_4 => exact State.regs_update32_other a m v hw (fun he => hg' (he ▸ hg))
  all_goals simp_all [State.updateReg, SameResults, SameSetting, State.update32_ex]

/-- A bulk read into the operation's buffer. -/
theorem bulkOut (s : State) (a : Agent) (gs : List DevReg) (r : Region) (off base n : Nat) :
    StageFrame a gs s (s.bulkOut a r off (.buf base) n) := by
  refine ⟨⟨by simp, by simp, by simp, by simp, by simp, by simp, by simp⟩, by simp, by simp, by simp, by simp,
    fun b hb => s.bulkOut_buf_ex r off base n hb, ?_, by simp [SameSetting]⟩
  rw [SameResults, s.bulkOut_buf_own a r off base n]
  exact ⟨rfl, rfl⟩

end StageFrame

/-! ## The end of an operation that raises nothing, once more -/

section
variable (s : State) (a : Agent)

@[simp] theorem State.endOk_ctx : (s.endOk a).ctx = s.ctx := by simp [State.endOk]
@[simp] theorem State.endOk_events : (s.endOk a).events = s.events := by simp [State.endOk]
@[simp] theorem State.endOk_irqRet : (s.endOk a).irqRet = s.irqRet := by simp [State.endOk]
@[simp] theorem State.endOk_deferPending : (s.endOk a).deferPending = s.deferPending := by simp [State.endOk]

end

/-! ## Flags and registers -/

/-- The flags of a word into which an `Update32` of the two flags of a command register has put the second one (R195). -/
theorem flags_of_acked {busy done : Word} (hb : twoBits busy done = true) (old : Word) :
    merged old (busy ||| done) done = (old &&& ~~~(busy ||| done)) ||| done ∧
      flagOf (merged old (busy ||| done) done) busy = false ∧ flagOf (merged old (busy ||| done) done) done = true := by
  have hin : busy &&& ~~~(busy ||| done) = 0 := by
    rw [BitVec.not_or, ← BitVec.and_assoc, BitVec.and_not_self]
    exact BitVec.zero_and
  have hin' : done &&& ~~~(busy ||| done) = 0 := by
    rw [BitVec.not_or, BitVec.and_comm (~~~busy), ← BitVec.and_assoc, BitVec.and_not_self]
    exact BitVec.zero_and
  refine ⟨?_, ?_, ?_⟩
  · rw [merged, show done &&& (busy ||| done) = done by ext i; simp; grind]
  · rw [flagOf_merged_inside hin, flagOf, BitVec.and_comm, twoBits_disjoint hb]
    rfl
  · rw [flagOf_merged_inside hin', flagOf_self (twoBits_snd hb)]

section
variable {s : State} {a : Agent} {g : DevReg} {m v : Word}

@[simp] theorem State.updateReg_lock : (s.updateReg a g m v).lock = s.lock := by simp [State.updateReg]
@[simp] theorem State.updateReg_events : (s.updateReg a g m v).events = s.events := by simp [State.updateReg]
@[simp] theorem State.updateReg_irqRet : (s.updateReg a g m v).irqRet = s.irqRet := by simp [State.updateReg]
@[simp] theorem State.updateReg_deferPending : (s.updateReg a g m v).deferPending = s.deferPending := by
  simp [State.updateReg]
@[simp] theorem State.updateReg_cmdo (b : Agent) : ((s.updateReg a g m v).loc b).cmdo = (s.loc b).cmdo := by
  simp [State.updateReg]
@[simp] theorem State.updateReg_cmdi (b : Agent) : ((s.updateReg a g m v).loc b).cmdi = (s.loc b).cmdi := by
  simp [State.updateReg]

end

/-! ## `IMRH` under the lock (R82) -/

/-- An `Update32` of `IMRH` by agent `a`, enclosed in the lock. -/
def State.imrhUpdated (s : State) (a : Agent) (m v : Word) : State :=
  ((s.withLock (some a)).updateReg a .imrh m v).withLock none

section
variable {s : State} {a : Agent} {m v : Word}

theorem runList_imrhUpdated (d : Nat) (hl : s.lock = none) (m v : Word) (ms : List Micro) :
    runList (entire d a) (.acquire :: (update .dsp s.cfg.imrhOff m v ++ .release :: ms)) s =
      runList (entire d a) ms (s.imrhUpdated a m v) := by
  rw [runList_go (entire_acquire d a hl), runList_update, runList_go (entire_release ..)]
  rfl

@[simp] theorem State.imrhUpdated_lock : (s.imrhUpdated a m v).lock = none := rfl
@[simp] theorem State.imrhUpdated_cfg : (s.imrhUpdated a m v).cfg = s.cfg := by simp [State.imrhUpdated]
@[simp] theorem State.imrhUpdated_events : (s.imrhUpdated a m v).events = s.events := by simp [State.imrhUpdated]
@[simp] theorem State.imrhUpdated_irqRet : (s.imrhUpdated a m v).irqRet = s.irqRet := by simp [State.imrhUpdated]
@[simp] theorem State.imrhUpdated_deferPending : (s.imrhUpdated a m v).deferPending = s.deferPending := by
  simp [State.imrhUpdated]
@[simp] theorem State.imrhUpdated_cmdo (b : Agent) : ((s.imrhUpdated a m v).loc b).cmdo = (s.loc b).cmdo := by
  simp [State.imrhUpdated]
@[simp] theorem State.imrhUpdated_cmdi (b : Agent) : ((s.imrhUpdated a m v).loc b).cmdi = (s.loc b).cmdi := by
  simp [State.imrhUpdated]

theorem State.imrhUpdated_access : (s.imrhUpdated a m v).bus.map BusRec.access =
    s.bus.map BusRec.access ++ updateAccess .dsp s.cfg.imrhOff := by
  simp [State.imrhUpdated, State.updateReg_access, regOff]

theorem State.imrhUpdated_regs (hw : s.cfg.wf = true) (hr : s.registersPlain) :
    (s.imrhUpdated a m v).regs = s.regs.set .imrh (merged s.regs.imrh m v) :=
  State.updateReg_regs (s := s.withLock (some a)) (g := .imrh) hw hr

theorem StageFrame.imrhUpdated {gs : List DevReg} (m v : Word) (hg : .imrh ∈ gs) (hw : s.cfg.wf = true) :
    StageFrame a gs s (s.imrhUpdated a m v) :=
  (StageFrame.withLock s a gs (some a)).trans
    ((StageFrame.updateReg (s := s.withLock (some a)) m v hg hw).trans (.withLock _ a gs none))

end

/-! ## `CMDDONE` (R195) -/

/-- The state after C1 and C2 by agent `a`. -/
def State.cmdAcked (s : State) (a : Agent) : State :=
  (s.updateReg a .cmdi (s.cfg.cmdiBusy ||| s.cfg.cmdiDone) s.cfg.cmdiDone).imrhUpdated a s.cfg.imrhBusy 0

section
variable {s : State} {a : Agent}

/-- C1 and C2, at any depth: on a port, or presented in a consumer's call. -/
theorem runList_cmdAcked (d : Nat) (hl : s.lock = none) (ms : List Micro) :
    runList (entire d a) (cmddoneListing s.cfg ++ ms) s = runList (entire d a) (.ok :: ms) (s.cmdAcked a) := by
  have hacked := runList_imrhUpdated (a := a)
    (s := s.updateReg a .cmdi (s.cfg.cmdiBusy ||| s.cfg.cmdiDone) s.cfg.cmdiDone) d (by simpa using hl) s.cfg.imrhBusy 0
    (.ok :: ms)
  rw [State.updateReg_cfg] at hacked
  simp only [cmddoneListing, List.append_assoc, List.cons_append, List.nil_append]
  rw [runList_update]
  exact hacked

@[simp] theorem State.cmdAcked_lock : (s.cmdAcked a).lock = none := rfl
@[simp] theorem State.cmdAcked_cfg : (s.cmdAcked a).cfg = s.cfg := by simp [State.cmdAcked]
@[simp] theorem State.cmdAcked_events : (s.cmdAcked a).events = s.events := by simp [State.cmdAcked]
@[simp] theorem State.cmdAcked_irqRet : (s.cmdAcked a).irqRet = s.irqRet := by simp [State.cmdAcked]
@[simp] theorem State.cmdAcked_deferPending : (s.cmdAcked a).deferPending = s.deferPending := by simp [State.cmdAcked]

theorem State.cmdAcked_access : (s.cmdAcked a).bus.map BusRec.access =
    s.bus.map BusRec.access ++ (updateAccess .dsp s.cfg.cmdiOff ++ updateAccess .dsp s.cfg.imrhOff) := by
  simp [State.cmdAcked, State.imrhUpdated_access, State.updateReg_access, regOff]

theorem State.cmdAcked_regs (hw : s.cfg.wf = true) (hr : s.registersPlain) :
    (s.cmdAcked a).regs =
      { s.regs with
        cmdi := merged s.regs.cmdi (s.cfg.cmdiBusy ||| s.cfg.cmdiDone) s.cfg.cmdiDone
        imrh := s.regs.imrh &&& ~~~s.cfg.imrhBusy } := by
  rw [State.cmdAcked, State.imrhUpdated_regs (by simpa using hw) hr.updateReg, State.updateReg_regs hw hr, merged_zero_val]
  rfl

/-- Command-done acknowledges the message and unmasks BUSY. -/
theorem State.cmdAcked_flags (hw : s.cfg.wf = true) (hr : s.registersPlain) :
    (s.cmdAcked a).cmdiBusy = false ∧ (s.cmdAcked a).cmdiDone = true ∧ (s.cmdAcked a).imrhBusy = false := by
  obtain ⟨-, hbusy, hdone⟩ := flags_of_acked (s.cfg.wf_cmdi hw) s.regs.cmdi
  rw [State.cmdiBusy, State.cmdiDone, State.imrhBusy, State.cmdAcked_regs hw hr, State.cmdAcked_cfg]
  refine ⟨hbusy, hdone, ?_⟩
  rw [← merged_zero_val, flagOf_merged_inside (by simp), flagOf_zero]

theorem StageFrame.cmdAcked (hw : s.cfg.wf = true) : StageFrame a [.cmdi, .imrh] s (s.cmdAcked a) :=
  (StageFrame.updateReg _ _ (by simp) hw).trans (StageFrame.imrhUpdated _ _ (by simp) (by simpa using hw))

end

theorem exec_cmddone_eq {s : State} (hp : Presentable s .cmddone) (hl : s.lock = none) :
    exec .cmddone s = .next (((s.start s.presenter .cmddone []).cmdAcked s.presenter).endOk s.presenter) := by
  have hrun := runList_cmdAcked (a := s.presenter) (s := s.start s.presenter .cmddone []) 8 (by simpa using hl) []
  rw [State.start_cfg, List.append_nil] at hrun
  rw [exec_eq_perform, perform_go (portRefusal_eq_none hp rfl)]
  · rfl
  · exact hrun

/-- Settles O40: command-done is an update of `CMDI` and one of `IMRH` under the lock. -/
theorem cmddoneResult : Obligations.CmddoneResult := by
  intro s hw hp hl hr
  set a := s.presenter
  set s₁ := s.start a .cmddone [] with hs₁
  have hframe₁ : StageFrame a [.cmdi, .imrh] s s₁ := .start ..
  have hw₁ := hframe₁.wf hw
  have hr₁ := hframe₁.registersPlain hr
  have hframe : StageFrame a [.cmdi, .imrh] s ((s₁.cmdAcked a).endOk a) :=
    hframe₁.trans ((StageFrame.cmdAcked hw₁).trans (.endOk ..))
  obtain ⟨hcmdi, -, -⟩ := flags_of_acked (s.cfg.wf_cmdi hw) s.regs.cmdi
  obtain ⟨hbusy, hdone, hmask⟩ := State.cmdAcked_flags (a := a) hw₁ hr₁
  have hregs : ((s₁.cmdAcked a).endOk a).regs = _ := (State.endOk_regs ..).trans (State.cmdAcked_regs hw₁ hr₁)
  refine ⟨(s₁.cmdAcked a).endOk a, exec_cmddone_eq hp hl, ended_endOk .., hframe.results, ?_, ?_, ?_, ?_, ?_, ?_, newAccesses_of_access ?_,
    hframe.sameButRegs, ⟨?_, hframe.elapsed⟩, hframe.ctx, hframe.pwr, ?_, hframe.halt, ?_⟩
  · rw [hregs, ← hcmdi]
    simp [hs₁]
  · rw [hregs]
    simp [hs₁]
  · simpa [State.cmdiBusy] using hbusy
  · simpa [State.cmdiDone] using hdone
  · simpa [State.imrhBusy] using hmask
  · simp
  · simp [State.cmdAcked_access, hs₁]
  · simp [hs₁]
  · simp [hs₁]
  · simp [hs₁]

end Sys2Proof.Machine
end

section
/-! PROOFS. What the block does with no input left (R182, R187, R254). -/

namespace Sys2Proof.Machine

/-! ## No input left -/

section
variable {s : State}

/-- With no input left the block settles (R254). -/
theorem step_settle (hw : s.cfg.wf = true) (hp : s.port = []) : step s = settle s := by
  simp only [step, stepPort, hp, ifConfigured, hw, if_true]

theorem canMove_idle {a : Agent} (h : (s.ex a).todo = []) : canMove s a = false := by simp [canMove, h]

/-- With every agent idle, settling is taking the line or the pending work, whichever is due and was not taken last. -/
theorem settle_idle (h : ∀ a, (s.ex a).todo = []) : settle s =
    if lineDue s && !(workDue s && s.lastTaken == .irq) then exec .irqimm { s with presenter := .irq, lastTaken := .irq }
    else if workDue s then exec .irqdefer { s with presenter := .worker, lastTaken := .worker }
    else .next s := by
  simp only [settle, canMove_idle (h _), Bool.false_eq_true, if_false]

theorem lineDue_idle (ha : s.attached = true) (h : (s.ex .irq).op = none) : lineDue s = s.irqLine := by
  rw [State.irq_eq_ex] at h
  simp [lineDue, ha, h]

theorem workDue_idle (ha : s.attached = true) (h : (s.ex .worker).op = none) : workDue s = s.deferPending := by
  rw [State.worker_eq_ex] at h
  simp [workDue, ha, h]

/-- A step with no input left and every agent idle. -/
theorem step_idle (hw : s.cfg.wf = true) (ha : s.attached = true) (hp : s.port = [])
    (hidle : ∀ a, (s.ex a).op = none ∧ (s.ex a).todo = []) : step s =
      if s.irqLine && !(s.deferPending && s.lastTaken == .irq) then
        exec .irqimm { s with presenter := .irq, lastTaken := .irq }
      else if s.deferPending then exec .irqdefer { s with presenter := .worker, lastTaken := .worker }
      else .next s := by
  rw [step_settle hw hp, settle_idle fun a => (hidle a).2, lineDue_idle ha (hidle .irq).1, workDue_idle ha (hidle .worker).1]

end

/-- Settles O48: the three cases of a step with every agent idle and no input left. -/
theorem lineServed : Obligations.LineServed := by
  intro s hw ha hp hidle
  rw [step_idle hw ha hp hidle]
  refine ⟨fun hline hturn => if_pos ?_, fun hwork hturn => ?_, fun hline hwork => ?_⟩
  · obtain hpending | hlast := hturn
    · simp [hline, hpending]
    · simp [hline, hlast]
  · rw [if_neg, if_pos hwork]
    obtain hline | hlast := hturn
    · simp [hline]
    · simp [hwork, hlast]
  · simp [hline, hwork]

end Sys2Proof.Machine
end

section
/-! PROOFS. The immediate stage `IRQIMM` (R183, R185). -/

namespace Sys2Proof.Machine

/-! ## Flags of a word -/

/-- A word meets neither of two masks exactly when neither flag is set in it. -/
theorem and_or_eq_zero (w x y : Word) : w &&& (x ||| y) = 0 ↔ flagOf w x = false ∧ flagOf w y = false := by
  have hsplit : w &&& (x ||| y) = (w &&& x) ||| (w &&& y) := by ext i; simp; grind
  simp only [hsplit, flagOf, bne_eq_false_iff_eq]
  exact BitVec.or_eq_zero_iff

theorem flagOf_or (x y f : Word) : flagOf (x ||| y) f = (flagOf x f || flagOf y f) := by
  have h := not_congr (and_or_eq_zero f x y)
  rw [Bool.eq_iff_iff]
  simpa [flagOf, BitVec.and_comm f, imp_iff_not_or, Bool.or_eq_true] using h

/-! ## `ISR` as the stage sees it (R32, R183) -/

section
variable {s : State}

/-- The value read from `ISR` and what the stage keeps of it agree in the two mirror bits, accessible or not. -/
theorem State.read32_isr_and (s : State) (a : Agent) :
    (s.read32 a .dsp s.cfg.isrOff).1 &&& (s.cfg.isrDone ||| s.cfg.isrBusy) =
      s.seen .dsp s.cfg.isrOff &&& (s.cfg.isrDone ||| s.cfg.isrBusy) := by
  rw [State.read32, State.busRead, State.seen]
  split
  · rfl
  · split
    · ext k hk
      simp only [← BitVec.getLsbD_eq_getElem, BitVec.getLsbD_and, State.getLsbD_overlay, State.isrWord, BitVec.getLsbD_or,
        BitVec.getLsbD_not]
      cases (s.cfg.isrDone.getLsbD k || s.cfg.isrBusy.getLsbD k) <;> simp
    · rfl

/-- Where the registers can be accessed the stage sees the two flags of the command registers (R32). -/
theorem State.flagOf_seen_isr (hw : s.cfg.wf = true) (hr : s.registersPlain) :
    flagOf (s.seen .dsp s.cfg.isrOff) s.cfg.isrDone = s.cmdoDone ∧
      flagOf (s.seen .dsp s.cfg.isrOff) s.cfg.isrBusy = s.cmdiBusy := by
  obtain ⟨hacc, hpm⟩ := hr
  have hover : s.overlay .dsp s.cfg.isrOff (s.isrWord 0) = s.isrWord 0 := by
    rw [State.overlay, if_neg]
    simp only [State.isPm, Bool.and_eq_true, beq_iff_eq, not_and]
    obtain hrgn | hoff := hpm
    · simp [hrgn]
    · exact fun _ he => hoff (he ▸ isrOff_mem s.cfg)
  have hseen : s.seen .dsp s.cfg.isrOff = s.isrWord 0 := by
    rw [State.seen, if_neg (by simp [hacc _ (isrOff_mem s.cfg)]), if_pos (by simp [State.isIsr]), hover]
  rw [hseen]
  exact flagOf_isrWord s hw 0

end

/-! ## I4 and I5 -/

/-- The state after an asserted source has been masked and noted by agent `a`. -/
def State.sourceMasked (s : State) (a : Agent) (m : Word) : State :=
  (s.updateReg a .imrh m m).setLoc a { (s.updateReg a .imrh m m).loc a with work := true }

/-- The state after the conditional `k` of a source whose mask bit is `m`. -/
def State.sourceTaken (s : State) (a : Agent) (k : Cond) (m : Word) : State :=
  if k.holds s.cfg (s.loc a) then s.sourceMasked a m else s

section
variable {s : State} {a : Agent} {k : Cond} {m : Word}

theorem runList_sourceMasked (d : Nat) (s : State) (a : Agent) (m : Word) :
    runList (entire d a) (update .dsp s.cfg.imrhOff m m ++ [.setWork]) s = .go (s.sourceMasked a m) := by
  rw [runList_update, runList_go (entire_setWork ..), runList_nil]
  rfl

theorem entire_sourceTaken (d : Nat) (hg : guarded s.cfg k = update .dsp s.cfg.imrhOff m m ++ [.setWork]) :
    entire (d + 1) a (.given k) s = .go (s.sourceTaken a k m) := by
  unfold State.sourceTaken
  split
  · next h => rw [entire_given_true d a h, hg, runList_sourceMasked]
  · next h => exact entire_given_false _ a (Bool.eq_false_iff.2 h)

theorem StageFrame.sourceTaken (hw : s.cfg.wf = true) : StageFrame a [.imrh] s (s.sourceTaken a k m) := by
  unfold State.sourceTaken
  split
  · exact (StageFrame.updateReg m m (by simp) hw).trans (.setLoc ..)
  · exact .refl ..

@[simp] theorem State.sourceTaken_cfg : (s.sourceTaken a k m).cfg = s.cfg := by
  unfold State.sourceTaken; split <;> simp [State.sourceMasked]
@[simp] theorem State.sourceTaken_events : (s.sourceTaken a k m).events = s.events := by
  unfold State.sourceTaken; split <;> simp [State.sourceMasked]
@[simp] theorem State.sourceTaken_deferPending : (s.sourceTaken a k m).deferPending = s.deferPending := by
  unfold State.sourceTaken; split <;> simp [State.sourceMasked]
@[simp] theorem State.sourceTaken_isr : ((s.sourceTaken a k m).loc a).isr = (s.loc a).isr := by
  unfold State.sourceTaken; split <;> simp [State.sourceMasked, State.updateReg]

theorem State.sourceTaken_work :
    ((s.sourceTaken a k m).loc a).work = ((s.loc a).work || k.holds s.cfg (s.loc a)) := by
  unfold State.sourceTaken
  split
  · next h => simp [State.sourceMasked, h]
  · next h => simp [Bool.eq_false_iff.2 h]

/-- A source is masked exactly when it is asserted. -/
theorem State.sourceTaken_imrh (hw : s.cfg.wf = true) (hr : s.registersPlain) :
    (s.sourceTaken a k m).regs.imrh = s.regs.imrh ||| (if k.holds s.cfg (s.loc a) then m else 0) := by
  unfold State.sourceTaken
  split
  · rw [State.sourceMasked, State.setLoc_regs, State.updateReg_regs hw hr, ← merged_self_val]
    rfl
  · simp

/-- A source that is asserted costs accesses, one that is not costs none. -/
theorem State.sourceTaken_bus : ∃ l, (s.sourceTaken a k m).bus = s.bus ++ l ∧
    (l = [] ↔ k.holds s.cfg (s.loc a) = false) := by
  unfold State.sourceTaken
  split
  · next h => exact ⟨_, by rw [State.sourceMasked, State.setLoc_bus, State.updateReg, State.update32_bus], by simp [h]⟩
  · next h => exact ⟨[], by simp, by simp [Bool.eq_false_iff.2 h]⟩

end

/-! ## The stage -/

/-- The state after I1 and I2 by agent `a`. -/
def State.isrTaken (s : State) (a : Agent) : State := readStep a .dsp s.cfg.isrOff .isr (s.withLock (some a))

/-- The state after I1 to I5 by agent `a`. -/
def State.sourcesTaken (s : State) (a : Agent) : State :=
  ((s.isrTaken a).sourceTaken a .isrDone s.cfg.imrhDone).sourceTaken a .isrBusy s.cfg.imrhBusy

/-- The state after I1 to I7 by agent `a`. -/
def State.lineTaken (s : State) (a : Agent) : State := wakeStep a ((s.sourcesTaken a).withLock none)

section
variable {s : State} {a : Agent}

@[simp] theorem State.isrTaken_cfg : (s.isrTaken a).cfg = s.cfg := by simp [State.isrTaken]
@[simp] theorem State.isrTaken_regs : (s.isrTaken a).regs = s.regs := by simp [State.isrTaken]
@[simp] theorem State.isrTaken_events : (s.isrTaken a).events = s.events := by simp [State.isrTaken]
@[simp] theorem State.isrTaken_deferPending : (s.isrTaken a).deferPending = s.deferPending := by simp [State.isrTaken]

theorem State.isrTaken_bus :
    (s.isrTaken a).bus = s.bus ++ [.rd32 a .dsp s.cfg.isrOff (s.read32 a .dsp s.cfg.isrOff).1] := by
  simp [State.isrTaken, readStep]

theorem State.isrTaken_isr : ((s.isrTaken a).loc a).isr = s.seen .dsp s.cfg.isrOff := by
  simp [State.isrTaken, readStep, Locals.setSlot, kept]

theorem State.isrTaken_work : ((s.isrTaken a).loc a).work = (s.loc a).work := by
  simp [State.isrTaken, readStep, Locals.setSlot]

theorem StageFrame.isrTaken (gs : List DevReg) : StageFrame a gs s (s.isrTaken a) :=
  (StageFrame.withLock s a gs (some a)).trans (.readStep ..)

@[simp] theorem State.sourcesTaken_cfg : (s.sourcesTaken a).cfg = s.cfg := by simp [State.sourcesTaken]
@[simp] theorem State.sourcesTaken_events : (s.sourcesTaken a).events = s.events := by simp [State.sourcesTaken]
@[simp] theorem State.sourcesTaken_deferPending : (s.sourcesTaken a).deferPending = s.deferPending := by
  simp [State.sourcesTaken]

theorem StageFrame.sourcesTaken (hw : s.cfg.wf = true) : StageFrame a [.imrh] s (s.sourcesTaken a) :=
  (StageFrame.isrTaken _).trans ((StageFrame.sourceTaken (by simpa using hw)).trans (.sourceTaken (by simpa using hw)))

/-- There is work exactly when one of the two bits is seen. -/
theorem State.sourcesTaken_work : ((s.sourcesTaken a).loc a).work = ((s.loc a).work ||
    flagOf (s.seen .dsp s.cfg.isrOff) s.cfg.isrDone || flagOf (s.seen .dsp s.cfg.isrOff) s.cfg.isrBusy) := by
  simp [State.sourcesTaken, State.sourceTaken_work, Cond.holds, State.isrTaken_isr, State.isrTaken_work]

theorem State.sourcesTaken_imrh (hw : s.cfg.wf = true) (hr : s.registersPlain) : (s.sourcesTaken a).regs.imrh =
    s.regs.imrh ||| (if s.cmdoDone then s.cfg.imrhDone else 0) ||| (if s.cmdiBusy then s.cfg.imrhBusy else 0) := by
  obtain ⟨hdone, hbusy⟩ := State.flagOf_seen_isr hw hr
  have hframe : StageFrame a [.imrh] s (s.isrTaken a) := .isrTaken _
  have hw' := hframe.wf hw
  have hr' := hframe.registersPlain hr
  rw [State.sourcesTaken, State.sourceTaken_imrh (by simpa using hw)
      ((StageFrame.sourceTaken hw').registersPlain hr'), State.sourceTaken_imrh hw' hr']
  simp [Cond.holds, State.isrTaken_isr, hdone, hbusy]

/-- The accesses after the read of `ISR`: none exactly when neither bit is seen. -/
theorem State.sourcesTaken_bus : ∃ rest, (s.sourcesTaken a).bus =
    s.bus ++ .rd32 a .dsp s.cfg.isrOff (s.read32 a .dsp s.cfg.isrOff).1 :: rest ∧
      (rest = [] ↔ flagOf (s.seen .dsp s.cfg.isrOff) s.cfg.isrDone = false ∧
        flagOf (s.seen .dsp s.cfg.isrOff) s.cfg.isrBusy = false) := by
  obtain ⟨l₁, hl₁, he₁⟩ := State.sourceTaken_bus (s := s.isrTaken a) (a := a) (k := .isrDone) (m := s.cfg.imrhDone)
  obtain ⟨l₂, hl₂, he₂⟩ := State.sourceTaken_bus (s := (s.isrTaken a).sourceTaken a .isrDone s.cfg.imrhDone) (a := a)
    (k := .isrBusy) (m := s.cfg.imrhBusy)
  refine ⟨l₁ ++ l₂, by simp [State.sourcesTaken, hl₁, hl₂, State.isrTaken_bus], ?_⟩
  rw [List.append_eq_nil_iff, he₁, he₂]
  simp [Cond.holds, State.isrTaken_isr]

/-- I1 to I7. -/
theorem runList_lineTaken (d : Nat) (hl : s.lock = none) :
    runList (entire (d + 1) a) [.acquire, .read .dsp s.cfg.isrOff .isr, .given .isrDone, .given .isrBusy, .release,
      .wakeOrNone] s = .go (s.lineTaken a) := by
  rw [runList_go (entire_acquire _ a hl), runList_go (entire_read ..),
    show readStep a .dsp s.cfg.isrOff .isr { s with lock := some a } = s.isrTaken a from rfl,
    runList_go (entire_sourceTaken (m := s.cfg.imrhDone) d (by simp [guarded])),
    runList_go (entire_sourceTaken (m := s.cfg.imrhBusy) d (by simp [guarded])), runList_go (entire_release ..),
    runList_go (entire_wakeOrNone ..), runList_nil]
  rfl

/-- I7: the work recorded, or nothing (R183, R185). -/
theorem wakeStep_eq (a : Agent) (s : State) : wakeStep a s =
    { s with deferPending := s.deferPending || (s.loc a).work, irqRet := if (s.loc a).work then 1 else 0 } := by
  unfold wakeStep
  split
  · next h => simp [State.irqReturn, irqWake, h]
  · next h => simp [State.irqReturn, irqNone, h]

theorem State.lineTaken_eq : s.lineTaken a = { s.sourcesTaken a with
    lock := none
    deferPending := s.deferPending || ((s.sourcesTaken a).loc a).work
    irqRet := if ((s.sourcesTaken a).loc a).work then 1 else 0 } := by
  rw [State.lineTaken, wakeStep_eq, State.withLock_loc, State.withLock_deferPending, State.sourcesTaken_deferPending]
  rfl

theorem StageFrame.lineTaken (hw : s.cfg.wf = true) : StageFrame a [.imrh] s (s.lineTaken a) := by
  rw [State.lineTaken_eq]
  exact (StageFrame.sourcesTaken hw).trans (.setBlock ..)

end

/-- `IRQIMM` with the lock free: I1 to I7, then `OK`. -/
theorem exec_irqimm_eq {s : State} (hp : Presentable s .irqimm) (hl : s.lock = none) :
    exec .irqimm s = .next (((s.start .irq .irqimm []).lineTaken .irq).endOk .irq) := by
  have hirq : s.presenter = .irq := by simpa [presenters] using hp.presenter_mem
  have hrun := runList_lineTaken (a := .irq) (s := s.start .irq .irqimm []) 7 (by simpa using hl)
  rw [State.start_cfg] at hrun
  exact exec_endOk hp hirq rfl rfl hrun

/-- What `IRQIMM` does where the registers can be accessed (R183). -/
theorem exec_irqimm {s : State} (hw : s.cfg.wf = true) (hp : Presentable s .irqimm) (hl : s.lock = none)
    (hr : s.registersPlain) : ∃ t, exec .irqimm s = .next t ∧ Ended .irq .ok 0 t ∧ StageFrame .irq [.imrh] s t ∧
      t.regs.imrh = s.regs.imrh ||| (if s.cmdoDone then s.cfg.imrhDone else 0) |||
        (if s.cmdiBusy then s.cfg.imrhBusy else 0) ∧
      t.deferPending = (s.deferPending || s.cmdoDone || s.cmdiBusy) ∧
      t.irqRet = (if s.cmdoDone || s.cmdiBusy then 1 else 0) ∧ t.lock = none ∧ t.events = s.events := by
  set s₁ := s.start .irq .irqimm [] with hs₁
  have hframe₁ : StageFrame .irq [.imrh] s s₁ := .start ..
  have hw₁ := hframe₁.wf hw
  have hr₁ := hframe₁.registersPlain hr
  have hd : s₁.cmdoDone = s.cmdoDone := by simp [State.cmdoDone, hs₁]
  have hb : s₁.cmdiBusy = s.cmdiBusy := by simp [State.cmdiBusy, hs₁]
  obtain ⟨hdone, hbusy⟩ := State.flagOf_seen_isr hw₁ hr₁
  have hwork : ((s₁.sourcesTaken .irq).loc .irq).work = (s.cmdoDone || s.cmdiBusy) := by
    rw [State.sourcesTaken_work, hdone, hbusy, hd, hb, hs₁, State.start_loc, Bool.false_or]
  refine ⟨(s₁.lineTaken .irq).endOk .irq, exec_irqimm_eq hp hl, ended_endOk ..,
    hframe₁.trans ((StageFrame.lineTaken hw₁).trans (.endOk ..)), ?_, ?_, ?_, ?_, ?_⟩
  · rw [State.endOk_regs, State.lineTaken_eq, State.sourcesTaken_imrh hw₁ hr₁, hd, hb]
    simp [hs₁]
  · rw [State.endOk_deferPending, State.lineTaken_eq, hwork, Bool.or_assoc]
    simp [hs₁]
  · rw [State.endOk_irqRet, State.lineTaken_eq, hwork]
  · rw [State.endOk_lock, State.lineTaken_eq]
  · rw [State.endOk_events, State.lineTaken_eq, State.sourcesTaken_events]
    simp [hs₁]

/-- Masking every asserted source leaves the line low (R181). -/
theorem State.irqLine_masked {s t : State} (hw : s.cfg.wf = true) (hf : StageFrame .irq [.imrh] s t)
    (h : t.regs.imrh = s.regs.imrh ||| (if s.cmdoDone then s.cfg.imrhDone else 0) |||
      (if s.cmdiBusy then s.cfg.imrhBusy else 0)) : t.irqLine = false := by
  have hcmdo : t.regs.cmdo = s.regs.cmdo := hf.regs .cmdo (by simp)
  have hcmdi : t.regs.cmdi = s.regs.cmdi := hf.regs .cmdi (by simp)
  have hd : t.cmdoDone = s.cmdoDone := by rw [State.cmdoDone, State.cmdoDone, hcmdo, hf.cfg]
  have hb : t.cmdiBusy = s.cmdiBusy := by rw [State.cmdiBusy, State.cmdiBusy, hcmdi, hf.cfg]
  have hself := s.cfg.wf_imrh hw
  rw [State.irqLine, hd, hb, State.imrhDone, State.imrhBusy, h, hf.cfg]
  simp only [flagOf_or]
  cases s.cmdoDone <;> cases s.cmdiBusy <;> simp [flagOf_self (twoBits_fst hself), flagOf_self (twoBits_snd hself)]

/-- Settles O32: what is masked is what the stage sees asserted, and that puts the line down. -/
theorem irqimmResult : Obligations.IrqimmResult := by
  intro s hw hp hl hr
  obtain ⟨t, he, hend, hframe, himrh, hpending, hret, hlock, hevents⟩ := exec_irqimm hw hp hl hr
  exact ⟨t, he, hend, hframe.results, himrh, hpending, hret, State.irqLine_masked hw hframe himrh, hlock,
    hframe.sameButRegs, ⟨hevents, hframe.elapsed⟩, hframe.ctx, hframe.pwr, hframe.halt⟩

/-- Settles O33: the value read has one of the two bits exactly when the stage sees it, and then there is an access more. -/
theorem notMineLaw : Obligations.NotMineLaw := by
  intro s hw hp hl
  set s₁ := s.start .irq .irqimm [] with hs₁
  obtain ⟨rest, hbus, hrest⟩ := State.sourcesTaken_bus (s := s₁) (a := .irq)
  set v := (s₁.read32 .irq .dsp s₁.cfg.isrOff).1 with hv
  have hcfg : s₁.cfg = s.cfg := by simp [hs₁]
  have hzero : v &&& (s.cfg.isrDone ||| s.cfg.isrBusy) = 0 ↔
      flagOf (s₁.seen .dsp s₁.cfg.isrOff) s₁.cfg.isrDone = false ∧
        flagOf (s₁.seen .dsp s₁.cfg.isrOff) s₁.cfg.isrBusy = false := by
    rw [← hcfg, hv, State.read32_isr_and, and_or_eq_zero]
  have hwork : ((s₁.sourcesTaken .irq).loc .irq).work = !decide (v &&& (s.cfg.isrDone ||| s.cfg.isrBusy) = 0) := by
    rw [State.sourcesTaken_work, hs₁, State.start_loc, Bool.false_or, ← hs₁, Bool.eq_iff_iff]
    simp only [Bool.not_eq_true', decide_eq_false_iff_not, hzero, Bool.or_eq_true]
    grind
  refine ⟨(s₁.lineTaken .irq).endOk .irq, v, rest, exec_irqimm_eq hp hl, ?_, fun h => ⟨?_, ?_, hrest.2 (hzero.1 h)⟩,
    fun h => ⟨?_, ?_, fun hnil => h (hzero.2 (hrest.1 hnil))⟩⟩
  · rw [State.endOk_bus, State.lineTaken_eq, hbus, hcfg]
    simp [hs₁]
  all_goals
    simp only [State.endOk_irqRet, State.endOk_deferPending, State.lineTaken_eq, hwork, h]
    simp [hs₁]

end Sys2Proof.Machine
end

section
/-! PROOFS. The parts of the deferred stage `IRQDEFER` (R189): the reply part, the panic capture, the message part. -/

namespace Sys2Proof.Machine

/-! ## Bulk reads into the buffer -/

section
variable (s : State) (a : Agent) (r : Region) (off base n : Nat)

theorem State.bulkOut_buf_loc : (s.bulkOut a r off (.buf base) n).loc a =
    { s.loc a with buf := ((s.bulkOut a r off (.buf base) n).loc a).buf } :=
  congrArg Exec.loc (s.bulkOut_buf_own a r off base n)

@[simp] theorem State.bulkOut_buf_cmdo : ((s.bulkOut a r off (.buf base) n).loc a).cmdo = (s.loc a).cmdo := by
  rw [State.bulkOut_buf_loc]
@[simp] theorem State.bulkOut_buf_cmdi : ((s.bulkOut a r off (.buf base) n).loc a).cmdi = (s.loc a).cmdi := by
  rw [State.bulkOut_buf_loc]
@[simp] theorem State.bulkOut_buf_used : ((s.bulkOut a r off (.buf base) n).loc a).used = (s.loc a).used := by
  rw [State.bulkOut_buf_loc]
@[simp] theorem State.bulkOut_buf_capOff : ((s.bulkOut a r off (.buf base) n).loc a).capOff = (s.loc a).capOff := by
  rw [State.bulkOut_buf_loc]
@[simp] theorem State.bulkOut_buf_capCmdo : ((s.bulkOut a r off (.buf base) n).loc a).capCmdo = (s.loc a).capCmdo := by
  rw [State.bulkOut_buf_loc]
@[simp] theorem State.bulkOut_buf_capCmdi : ((s.bulkOut a r off (.buf base) n).loc a).capCmdi = (s.loc a).capCmdi := by
  rw [State.bulkOut_buf_loc]

end

/-- Words whose four bytes are those a read finds (R62). -/
theorem Memory.readWord_eq_leWord {m : Memory} {s : State} {r : Region} {k x : Nat}
    (h : ∀ j < 4, Memory.read m (k + j) = s.byteAt r (x + j)) : Memory.readWord m k = s.leWord r x := by
  have h0 := h 0 (by omega)
  rw [Nat.add_zero, Nat.add_zero] at h0
  rw [Memory.readWord, State.leWord, h0, h 1 (by omega), h 2 (by omega), h 3 (by omega)]

/-! ## W1, W2 and W4 -/

/-- The state after W4 by agent `a`. -/
def State.cmdiTaken (s : State) (a : Agent) : State := readStep a .dsp s.cfg.cmdiOff .cmdi s

section
variable {s : State} {a : Agent}

@[simp] theorem State.cmdiTaken_cfg : (s.cmdiTaken a).cfg = s.cfg := by simp [State.cmdiTaken]
@[simp] theorem State.cmdiTaken_lock : (s.cmdiTaken a).lock = s.lock := by simp [State.cmdiTaken]
@[simp] theorem State.cmdiTaken_events : (s.cmdiTaken a).events = s.events := by simp [State.cmdiTaken]
@[simp] theorem State.cmdiTaken_regs : (s.cmdiTaken a).regs = s.regs := by simp [State.cmdiTaken]
@[simp] theorem State.cmdiTaken_deferPending : (s.cmdiTaken a).deferPending = s.deferPending := by simp [State.cmdiTaken]
@[simp] theorem State.cmdiTaken_replyCalls : (s.cmdiTaken a).replyCalls = s.replyCalls := by simp [State.cmdiTaken]
@[simp] theorem State.cmdiTaken_msgCalls : (s.cmdiTaken a).msgCalls = s.msgCalls := by simp [State.cmdiTaken]
@[simp] theorem State.cmdiTaken_cmdo : ((s.cmdiTaken a).loc a).cmdo = (s.loc a).cmdo := by
  simp [State.cmdiTaken, readStep, Locals.setSlot]

theorem State.cmdiTaken_access :
    (s.cmdiTaken a).bus.map BusRec.access = s.bus.map BusRec.access ++ [.read .dsp s.cfg.cmdiOff] := State.readStep_access ..

/-- The word that W4 reads from a plain `CMDI`. -/
theorem State.cmdiTaken_cmdi (hw : s.cfg.wf = true) (hr : s.registersPlain) :
    ((s.cmdiTaken a).loc a).cmdi = s.regs.cmdi := by
  obtain ⟨hacc, hpm⟩ := State.registersPlain_reg hr .cmdi
  have hisr : s.isIsr .dsp (regOff s.cfg .cmdi) = false := by simp [State.isIsr, regOff_ne_isr hw]
  have hloc := State.readStep_loc a hacc hisr .cmdi
  rw [State.word_reg s .cmdi hw hpm] at hloc
  exact congrArg Locals.cmdi hloc

@[simp] theorem State.cmdoTaken_events : (s.cmdoTaken a).events = s.events := by simp [State.cmdoTaken]
@[simp] theorem State.cmdoTaken_msgCalls : (s.cmdoTaken a).msgCalls = s.msgCalls := by simp [State.cmdoTaken]
@[simp] theorem State.cmdoTaken_deferPending : (s.cmdoTaken a).deferPending = false := by simp [State.cmdoTaken]

theorem StageFrame.cmdoTaken (gs : List DevReg) : StageFrame a gs s (s.cmdoTaken a) :=
  (StageFrame.setPending s a gs false).trans (.readStep ..)

theorem StageFrame.cmdiTaken (gs : List DevReg) : StageFrame a gs s (s.cmdiTaken a) := .readStep ..

end

/-! ## The reply part: W3a to W3d -/

/-- The state after W3a and W3b by agent `a`. -/
def State.replyEmitted (s : State) (a : Agent) : State :=
  emitReplyStep a (s.bulkOut a .dsp s.ctx.outbox.off (.buf 0) s.cfg.rhSize)

/-- The state after W3c and W3d by agent `a`. -/
def State.replyDone (s : State) (a : Agent) : State :=
  (s.updateReg a .cmdo s.cfg.cmdoDone 0).imrhUpdated a s.cfg.imrhDone 0

section
variable {s v : State} {a : Agent}

@[simp] theorem State.replyEmitted_cfg : (s.replyEmitted a).cfg = s.cfg := by simp [State.replyEmitted, emitReplyStep]
@[simp] theorem State.replyEmitted_ctx : (s.replyEmitted a).ctx = s.ctx := by simp [State.replyEmitted, emitReplyStep]
@[simp] theorem State.replyEmitted_lock : (s.replyEmitted a).lock = s.lock := by simp [State.replyEmitted, emitReplyStep]
@[simp] theorem State.replyEmitted_regs : (s.replyEmitted a).regs = s.regs := by simp [State.replyEmitted, emitReplyStep]
@[simp] theorem State.replyEmitted_deferPending : (s.replyEmitted a).deferPending = s.deferPending := by
  simp [State.replyEmitted, emitReplyStep]
@[simp] theorem State.replyEmitted_replyCalls : (s.replyEmitted a).replyCalls = s.replyCalls := by
  simp [State.replyEmitted, emitReplyStep]
@[simp] theorem State.replyEmitted_cmdo : ((s.replyEmitted a).loc a).cmdo = (s.loc a).cmdo := by
  simp [State.replyEmitted, emitReplyStep]

theorem State.replyEmitted_access : (s.replyEmitted a).bus.map BusRec.access =
    s.bus.map BusRec.access ++ byteReads .dsp s.ctx.outbox.off s.cfg.rhSize := by
  simp [State.replyEmitted, emitReplyStep, State.bulkOut_access]

/-- The one event of the reply part, whatever could be read of the header. -/
theorem State.replyEmitted_events_reply :
    ∃ hdr, (s.replyEmitted a).events = s.events ++ [.reply hdr (s.loc a).cmdo] :=
  ⟨_, by rw [State.replyEmitted, emitReplyStep, State.emit_events, State.bulkOut_events, State.bulkOut_buf_cmdo]⟩

/-- The event holds the header's bytes where they can be read. -/
theorem State.replyEmitted_events (hr : s.readable .dsp s.ctx.outbox.off s.cfg.rhSize) :
    (s.replyEmitted a).events =
      s.events ++ [.reply (s.bytesAt .dsp s.ctx.outbox.off s.cfg.rhSize) (s.loc a).cmdo] := by
  obtain ⟨-, hread⟩ := s.bulkOut_buf_buf a .dsp s.ctx.outbox.off 0 s.cfg.rhSize
  have hhdr : Memory.readBytes ((s.bulkOut a .dsp s.ctx.outbox.off (.buf 0) s.cfg.rhSize).loc a).buf 0 s.cfg.rhSize =
      s.bytesAt .dsp s.ctx.outbox.off s.cfg.rhSize := by
    refine List.map_congr_left fun i hi => ?_
    obtain ⟨hacc, hisr⟩ := hr i (List.mem_range.1 hi)
    exact hread i (List.mem_range.1 hi) hacc hisr
  rw [State.replyEmitted, emitReplyStep, State.emit_events, State.bulkOut_events, State.bulkOut_buf_cmdo, State.bulkOut_cfg,
    hhdr]

theorem StageFrame.replyEmitted (gs : List DevReg) : StageFrame a gs s (s.replyEmitted a) :=
  (StageFrame.bulkOut s a gs ..).trans (.emit ..)

@[simp] theorem State.replyDone_cfg : (s.replyDone a).cfg = s.cfg := by simp [State.replyDone]
@[simp] theorem State.replyDone_lock : (s.replyDone a).lock = none := rfl
@[simp] theorem State.replyDone_events : (s.replyDone a).events = s.events := by simp [State.replyDone]
@[simp] theorem State.replyDone_deferPending : (s.replyDone a).deferPending = s.deferPending := by simp [State.replyDone]
@[simp] theorem State.replyDone_cmdo : ((s.replyDone a).loc a).cmdo = (s.loc a).cmdo := by simp [State.replyDone]

theorem State.replyDone_access : (s.replyDone a).bus.map BusRec.access =
    s.bus.map BusRec.access ++ (updateAccess .dsp s.cfg.cmdoOff ++ updateAccess .dsp s.cfg.imrhOff) := by
  simp [State.replyDone, State.imrhUpdated_access, State.updateReg_access, regOff]

theorem State.replyDone_regs (hw : s.cfg.wf = true) (hr : s.registersPlain) :
    (s.replyDone a).regs =
      { s.regs with cmdo := s.regs.cmdo &&& ~~~s.cfg.cmdoDone, imrh := s.regs.imrh &&& ~~~s.cfg.imrhDone } := by
  rw [State.replyDone, State.imrhUpdated_regs (by simpa using hw) hr.updateReg, State.updateReg_regs hw hr, merged_zero_val,
    merged_zero_val]
  rfl

theorem StageFrame.replyDone {gs : List DevReg} (hcmdo : .cmdo ∈ gs) (himrh : .imrh ∈ gs) (hw : s.cfg.wf = true) :
    StageFrame a gs s (s.replyDone a) :=
  (StageFrame.updateReg _ _ hcmdo hw).trans (StageFrame.imrhUpdated _ _ himrh (by simpa using hw))

/-- W3c and W3d. -/
theorem runList_replyDone (d : Nat) (hl : s.lock = none) :
    runList (entire d a) (update .dsp s.cfg.cmdoOff s.cfg.cmdoDone 0 ++
      .acquire :: (update .dsp s.cfg.imrhOff s.cfg.imrhDone 0 ++ [.release])) s = .go (s.replyDone a) := by
  have hdone := runList_imrhUpdated (a := a) (s := s.updateReg a .cmdo s.cfg.cmdoDone 0) d (by simpa using hl)
    s.cfg.imrhDone 0 []
  rw [State.updateReg_cfg, runList_nil] at hdone
  rw [runList_update]
  exact hdone

/-- The reply part, the reply consumer's call going from the state after W3b to `v`. -/
theorem entire_replyPart (d : Nat) (hready : Cond.replyReady.holds s.cfg (s.loc a) = true)
    (hb : RegionRange s .dsp s.ctx.outbox.off s.cfg.rhSize)
    (hcall : entire (d + 2) a (.call .reply) (s.replyEmitted a) = .go v) (hl : v.lock = none) (hc : v.cfg = s.cfg) :
    entire (d + 3) a (.given .replyReady) s = .go (v.replyDone a) := by
  have hread := entire_hdrRead d a (s := s) (by simpa [regionFits, RegionRange] using hb)
  rw [entire_given_true _ a hready, guarded_replyReady, ← hc]
  simp only [List.cons_append, List.nil_append]
  rw [runList_go hread, runList_go (entire_emitReply ..),
    show emitReplyStep a (s.bulkOut a .dsp s.ctx.outbox.off (.buf 0) s.cfg.rhSize) = s.replyEmitted a from rfl,
    runList_go hcall, runList_replyDone _ hl]

end

/-! ## The panic capture: X1 to X5 (R220) -/

/-- The state after X2 and X3 by agent `a`. -/
def State.recordRead (s : State) (a : Agent) : State :=
  (s.bulkOut a .dsp (s.loc a).used (.buf 0) s.cfg.xoopsSize).bulkOut a .dsp ((s.loc a).used + s.cfg.xoopsSize)
    (.buf s.cfg.xoopsSize) (4 * s.cfg.stackWords)

/-- The state after X1 to X5 by agent `a`. -/
def State.captured (s : State) (a : Agent) (args : Option (Word × Word × Word)) : State :=
  (capEmitStep a ((capBeginStep a args s).recordRead a)).result a .ok 0

section
variable {s : State} {a : Agent} {args : Option (Word × Word × Word)}

theorem StageFrame.recordRead (gs : List DevReg) : StageFrame a gs s (s.recordRead a) :=
  (StageFrame.bulkOut s a gs ..).trans (.bulkOut ..)

theorem StageFrame.captured (gs : List DevReg) : StageFrame a gs s (s.captured a args) :=
  (StageFrame.setLoc s a gs _).trans ((StageFrame.recordRead gs).trans ((StageFrame.emit _ a gs _).trans
    (StageFrame.setEx _ gs rfl rfl)))

@[simp] theorem State.captured_lock : (s.captured a args).lock = s.lock := by
  simp [State.captured, capEmitStep, State.recordRead, capBeginStep]
@[simp] theorem State.captured_deferPending : (s.captured a args).deferPending = s.deferPending := by
  simp [State.captured, capEmitStep, State.recordRead, capBeginStep]
@[simp] theorem State.captured_cmdi : ((s.captured a args).loc a).cmdi = (s.loc a).cmdi := by
  simp [State.captured, capEmitStep, State.recordRead, capBeginStep]

/-- The record that the capture of `IRQDEFER` reads is at the recorded offset if there is one, else at the encoded one. -/
def State.panicAt (s : State) (a : Agent) : Nat :=
  if s.ctx.excValid then s.ctx.excOff else (panicOffset (s.loc a).cmdi (s.loc a).cmdo s.cfg.panicOffsetOf).toNat

/-- The one event of the capture of `IRQDEFER`, whatever could be read of the record. -/
theorem State.captured_events_diag : ∃ sn st used off, (s.captured a none).events =
    s.events ++ [.diag sn st (s.loc a).cmdo (s.loc a).cmdi used off] :=
  ⟨_, _, _, _, by simp [State.captured, capEmitStep, State.recordRead, capBeginStep]; exact ⟨rfl, rfl, rfl, rfl⟩⟩

/-- What X2 and X3 leave in the buffer, where the record can be read. -/
theorem State.recordRead_buf (hr : s.readable .dsp (s.loc a).used (s.cfg.xoopsSize + 4 * s.cfg.stackWords)) :
    Memory.readBytes ((s.recordRead a).loc a).buf 0 s.cfg.xoopsSize = s.bytesAt .dsp (s.loc a).used s.cfg.xoopsSize ∧
      Memory.readWords ((s.recordRead a).loc a).buf s.cfg.xoopsSize s.cfg.stackWords =
        s.wordsAt .dsp ((s.loc a).used + s.cfg.xoopsSize) s.cfg.stackWords := by
  set u := s.bulkOut a .dsp (s.loc a).used (.buf 0) s.cfg.xoopsSize with hu
  obtain ⟨-, hsnap⟩ := s.bulkOut_buf_buf a .dsp (s.loc a).used 0 s.cfg.xoopsSize
  obtain ⟨hkept, hstack⟩ := u.bulkOut_buf_buf a .dsp ((s.loc a).used + s.cfg.xoopsSize) s.cfg.xoopsSize
    (4 * s.cfg.stackWords)
  constructor
  · refine List.map_congr_left fun i hi => ?_
    have hi := List.mem_range.1 hi
    obtain ⟨hacc, hisr⟩ := hr i (by omega)
    exact (hkept _ (by omega)).trans (hsnap i hi hacc hisr)
  · refine List.map_congr_left fun i hi => Memory.readWord_eq_leWord fun j hj => ?_
    have hi := List.mem_range.1 hi
    obtain ⟨hacc, hisr⟩ := hr (s.cfg.xoopsSize + (4 * i + j)) (by omega)
    rw [← Nat.add_assoc (s.loc a).used] at hacc hisr
    have hread := hstack (4 * i + j) (by omega) (by rw [hu, State.bulkOut_inaccessible]; exact hacc)
      (by rw [hu, State.isIsrByte, State.bulkOut_isIsr]; exact hisr)
    rw [hu, State.bulkOut_byteAt] at hread
    simpa only [Nat.add_assoc, State.recordRead] using hread

/-- The event holds the record where it can be read. -/
theorem State.captured_events {used : Nat} (hused : used = s.panicAt a)
    (hr : s.readable .dsp used (s.cfg.xoopsSize + 4 * s.cfg.stackWords)) :
    (s.captured a none).events = s.events ++
      [.diag (s.bytesAt .dsp used s.cfg.xoopsSize) (s.wordsAt .dsp (used + s.cfg.xoopsSize) s.cfg.stackWords)
        (s.loc a).cmdo (s.loc a).cmdi used (panicOffset (s.loc a).cmdi (s.loc a).cmdo s.cfg.panicOffsetOf)] := by
  subst hused
  set u := capBeginStep a none s with hu
  have hframe : StageFrame a [] s u := .setLoc ..
  have hat : (u.loc a).used = s.panicAt a := by simp [hu, capBeginStep, State.panicAt]
  have hbuf := State.recordRead_buf (s := u) (a := a) (by rw [hat, hframe.cfg]; exact hframe.readable hr)
  rw [hat, hframe.cfg] at hbuf
  obtain ⟨hsnap, hstack⟩ := hbuf
  have hbytes (x n : Nat) : u.bytesAt .dsp x n = s.bytesAt .dsp x n := by
    simp only [State.bytesAt, hframe.byteAt]
  have hwords (x n : Nat) : u.wordsAt .dsp x n = s.wordsAt .dsp x n := by
    simp only [State.wordsAt, State.leWord, hframe.byteAt]
  have hcfg : (u.recordRead a).cfg = s.cfg := ((StageFrame.recordRead []).cfg).trans hframe.cfg
  rw [State.captured, State.result_events, capEmitStep, State.emit_events, hcfg, hsnap, hstack, hbytes, hwords]
  simp [State.recordRead, capBeginStep, State.panicAt]

/-- X2, given the check of its range. -/
theorem unit_capSnap (s : State) (a : Agent) : unit a 0 .capSnap s =
    orRefuse (if regionFits s.cfg .dsp (s.loc a).used s.cfg.xoopsSize then none else some .outOfRegion)
      (.to (bulkRead .dsp (s.loc a).used (.buf 0) s.cfg.xoopsSize) s) := rfl

/-- X3, given the check of its range. -/
theorem unit_capStack (s : State) (a : Agent) : unit a 0 .capStack s =
    orRefuse (if regionFits s.cfg .dsp ((s.loc a).used + s.cfg.xoopsSize) (4 * s.cfg.stackWords) then none
        else some .outOfRegion)
      (.to (bulkRead .dsp ((s.loc a).used + s.cfg.xoopsSize) (.buf s.cfg.xoopsSize) (4 * s.cfg.stackWords)) s) := rfl

/-- X1 to X5: the capture where the record lies inside the region, a refusal where it does not (R66, R67, R220). -/
theorem entire_capture (d : Nat) (hk : Cond.panic.holds s.cfg (s.loc a) = true) :
    (RegionRange s .dsp (s.panicAt a) (s.cfg.xoopsSize + 4 * s.cfg.stackWords) →
      entire (d + 3) a (.given .panic) s = .go (s.captured a none)) ∧
    (¬RegionRange s .dsp (s.panicAt a) (s.cfg.xoopsSize + 4 * s.cfg.stackWords) →
      ∃ r, entire (d + 3) a (.given .panic) s = .refuse r) := by
  set u := capBeginStep a none s with hu
  set w := u.bulkOut a .dsp (u.loc a).used (.buf 0) u.cfg.xoopsSize with hw
  have hat : (u.loc a).used = s.panicAt a := by simp [hu, capBeginStep, State.panicAt]
  have hcfg : u.cfg = s.cfg := by simp [hu, capBeginStep]
  have hatw : (w.loc a).used = s.panicAt a := by rw [hw, State.bulkOut_buf_used, hat]
  have hcfgw : w.cfg = s.cfg := by rw [hw, State.bulkOut_cfg, hcfg]
  have hfits (x n : Nat) : regionFits s.cfg .dsp x n = true ↔ x + n ≤ s.cfg.regionSize .dsp := by simp [regionFits]
  rw [entire_given_true _ a hk]
  simp only [guarded, captureListing, RegionRange]
  rw [runList_go (entire_capBegin ..), ← hu]
  by_cases hsnap : s.panicAt a + s.cfg.xoopsSize ≤ s.cfg.regionSize .dsp
  · rw [runList_go (entire_capSnap d a (by rwa [hat, hcfg, hfits])), ← hw]
    constructor
    · intro hb
      rw [runList_go (entire_capStack d a (by rw [hatw, hcfgw, hfits]; omega)), runList_go (entire_capEmit ..),
        runList_go (entire_ok ..), runList_nil]
      rw [hw, State.bulkOut_buf_used, State.bulkOut_cfg]
      rfl
    · intro hb
      have hrange := unit_capStack w a
      rw [if_neg (by rw [hatw, hcfgw, hfits]; omega)] at hrange
      exact ⟨_, runList_refuse (entire_orRefuse_some _ a hrange rfl) _⟩
  · have hrange := unit_capSnap u a
    rw [if_neg (by rwa [hat, hcfg, hfits])] at hrange
    exact ⟨fun hb => absurd hb (by omega), fun _ => ⟨_, runList_refuse (entire_orRefuse_some _ a hrange rfl) _⟩⟩

end

end Sys2Proof.Machine
end

section
/-! PROOFS. The deferred stage `IRQDEFER` with no consumer attached (R189). -/

namespace Sys2Proof.Machine

theorem StageFrame.calls {a : Agent} {gs : List DevReg} {s t : State} (h : StageFrame a gs s t) :
    t.replyCalls = s.replyCalls ∧ t.msgCalls = s.msgCalls := by
  obtain ⟨-, -, -, -, -, hreplies, hmessages, -, -⟩ := h.setting
  exact ⟨hreplies, hmessages⟩

/-! ## The whole stage -/

/-- The state in which the worker comes to W3. -/
def State.deferEntered (s : State) : State := (s.start .worker .irqdefer []).cmdoTaken .worker

section
variable {s : State}

theorem StageFrame.deferEntered (gs : List DevReg) : StageFrame .worker gs s s.deferEntered :=
  (StageFrame.start ..).trans (.cmdoTaken gs)

@[simp] theorem State.deferEntered_lock : s.deferEntered.lock = s.lock := by simp [State.deferEntered]
@[simp] theorem State.deferEntered_events : s.deferEntered.events = s.events := by simp [State.deferEntered]
@[simp] theorem State.deferEntered_deferPending : s.deferEntered.deferPending = false := by simp [State.deferEntered]

theorem State.deferEntered_access : s.deferEntered.bus.map BusRec.access =
    s.bus.map BusRec.access ++ [.read .dsp s.cfg.cmdoOff] := by
  simp [State.deferEntered, State.cmdoTaken_access]

/-- The word that W2 reads from a plain `CMDO`. -/
theorem State.deferEntered_cmdo (hw : s.cfg.wf = true) (hr : s.registersPlain) :
    (s.deferEntered.loc .worker).cmdo = s.regs.cmdo := by
  have hframe : StageFrame .worker [] s (s.start .worker .irqdefer []) := .start ..
  rw [State.deferEntered, State.cmdoTaken_cmdo .worker (hframe.wf hw) (hframe.registersPlain hr), State.start_regs]

/-- W3 asks for `CMDO.DONE`. -/
theorem State.deferEntered_ready (hw : s.cfg.wf = true) (hr : s.registersPlain) :
    Cond.replyReady.holds s.deferEntered.cfg (s.deferEntered.loc .worker) = s.cmdoDone := by
  rw [Cond.holds, State.deferEntered_cmdo hw hr, (StageFrame.deferEntered []).cfg, State.cmdoDone]

end

/-- `IRQDEFER` whose reply part goes on to `w`, and whose message part goes on from W4 to `v`. -/
theorem exec_irqdefer_eq {s w v : State} (hp : Presentable s .irqdefer)
    (hreply : entire 8 .worker (.given .replyReady) s.deferEntered = .go w) (hc : w.cfg = s.cfg)
    (hmsg : runList (entire 8 .worker) [.given .panic, .given .message] (w.cmdiTaken .worker) = .go v) :
    exec .irqdefer s = .next ((v.irqReturn irqHandled).endOk .worker) := by
  have hworker : s.presenter = .worker := by simpa [presenters] using hp.presenter_mem
  have htaken := runList_cmdoTaken 8 .worker (s.start .worker .irqdefer [])
  refine exec_endOk (ms := [.clearPending, .read .dsp s.cfg.cmdoOff .cmdo] ++ .given .replyReady ::
    .read .dsp s.cfg.cmdiOff .cmdi :: ([.given .panic, .given .message] ++ [.handled])) hp hworker rfl rfl ?_
  rw [State.start_cfg] at htaken
  rw [runList_append htaken, ← State.deferEntered, runList_go hreply, runList_go (entire_read ..), ← hc,
    show readStep .worker .dsp w.cfg.cmdiOff .cmdi w = w.cmdiTaken .worker from rfl, runList_append hmsg,
    runList_go (entire_handled ..), runList_nil]

/-- What W5a and W5b ask at a state reached with `CMDI` untouched: the word that `CMDI` held from the start. -/
theorem DeviceKept.cmdi_holds {gs : List DevReg} {s w : State} (hf : DeviceKept gs s w) (hg : .cmdi ∉ gs)
    (hw : s.cfg.wf = true) (hr : s.registersPlain) :
    ((w.cmdiTaken .worker).loc .worker).cmdi = s.regs.cmdi ∧
      Cond.panic.holds (w.cmdiTaken .worker).cfg ((w.cmdiTaken .worker).loc .worker) =
        (s.cmdiBusy && isPanic s.cfg s.regs.cmdi) ∧
      Cond.message.holds (w.cmdiTaken .worker).cfg ((w.cmdiTaken .worker).loc .worker) =
        (s.cmdiBusy && !isPanic s.cfg s.regs.cmdi) := by
  have hcmdi : ((w.cmdiTaken .worker).loc .worker).cmdi = s.regs.cmdi :=
    (State.cmdiTaken_cmdi (hf.wf hw) (hf.registersPlain hr)).trans (hf.regs .cmdi hg)
  refine ⟨hcmdi, ?_, ?_⟩ <;> rw [Cond.holds, hcmdi, State.cmdiTaken_cfg, hf.cfg, State.cmdiBusy]

/-! ## The two parts with no consumer attached -/

/-- The state after the reply part by agent `a`, no reply consumer attached. -/
def State.replyServed (s : State) (a : Agent) : State :=
  if Cond.replyReady.holds s.cfg (s.loc a) then (s.replyEmitted a).replyDone a else s

section
variable {s : State} {a : Agent}

theorem entire_replyServed (d : Nat) (hcalls : s.replyCalls = []) (hl : s.lock = none)
    (hb : Cond.replyReady.holds s.cfg (s.loc a) = true → RegionRange s .dsp s.ctx.outbox.off s.cfg.rhSize) :
    entire (d + 3) a (.given .replyReady) s = .go (s.replyServed a) := by
  unfold State.replyServed
  split
  · next h =>
    obtain ⟨hcall, -⟩ := entire_call_none (d + 2) a (s := s.replyEmitted a)
    exact entire_replyPart d h (hb h) (hcall (by simpa using hcalls)) (by simpa using hl) (by simp)
  · next h => exact entire_given_false _ a (Bool.eq_false_iff.2 h)

@[simp] theorem State.replyServed_cfg : (s.replyServed a).cfg = s.cfg := by unfold State.replyServed; split <;> simp
@[simp] theorem State.replyServed_cmdo : ((s.replyServed a).loc a).cmdo = (s.loc a).cmdo := by
  unfold State.replyServed; split <;> simp
@[simp] theorem State.replyServed_deferPending : (s.replyServed a).deferPending = s.deferPending := by
  unfold State.replyServed; split <;> simp

theorem State.replyServed_lock (hl : s.lock = none) : (s.replyServed a).lock = none := by
  unfold State.replyServed; split <;> simp [hl]

theorem State.replyServed_events (hr : Cond.replyReady.holds s.cfg (s.loc a) = true →
      s.readable .dsp s.ctx.outbox.off s.cfg.rhSize) : (s.replyServed a).events = s.events ++
    if Cond.replyReady.holds s.cfg (s.loc a) then
      [.reply (s.bytesAt .dsp s.ctx.outbox.off s.cfg.rhSize) (s.loc a).cmdo] else [] := by
  unfold State.replyServed
  split
  · next h => rw [State.replyDone_events, State.replyEmitted_events (hr h)]
  · simp

theorem StageFrame.replyServed (hw : s.cfg.wf = true) : StageFrame a [.cmdo, .imrh] s (s.replyServed a) := by
  unfold State.replyServed
  split
  · exact (StageFrame.replyEmitted _).trans (.replyDone (by simp) (by simp) (by simpa using hw))
  · exact .refl ..

theorem State.replyServed_regs (hw : s.cfg.wf = true) (hr : s.registersPlain) : (s.replyServed a).regs =
    if Cond.replyReady.holds s.cfg (s.loc a) then
      { s.regs with cmdo := s.regs.cmdo &&& ~~~s.cfg.cmdoDone, imrh := s.regs.imrh &&& ~~~s.cfg.imrhDone } else s.regs := by
  unfold State.replyServed
  split
  · rw [State.replyDone_regs (by simpa using hw) ((StageFrame.replyEmitted []).registersPlain hr), State.replyEmitted_regs,
      State.replyEmitted_cfg]
  · rfl

end

/-- The state after the message part by agent `a`, no message consumer attached. -/
def State.messageServed (s : State) (a : Agent) : State :=
  if Cond.panic.holds s.cfg (s.loc a) then s.captured a none
  else if Cond.message.holds s.cfg (s.loc a) then s.emit (.msg (s.loc a).cmdi) else s

/-- A word is not both a panic notification and none. -/
theorem message_of_panic {c : Cfg} {l : Locals} (h : Cond.panic.holds c l = true) : Cond.message.holds c l = false := by
  simp only [Cond.holds, Bool.and_eq_true] at h ⊢
  simp [h]

section
variable {s : State} {a : Agent}

/-- The capture leaves alone what W5b asks. -/
theorem State.captured_message (h : Cond.panic.holds s.cfg (s.loc a) = true) :
    Cond.message.holds (s.captured a none).cfg ((s.captured a none).loc a) = false := by
  rw [Cond.holds, State.captured_cmdi, (StageFrame.captured (s := s) (a := a) (args := none) []).cfg]
  exact message_of_panic h

theorem runList_messageServed (d : Nat) (hcalls : s.msgCalls = [])
    (hb : Cond.panic.holds s.cfg (s.loc a) = true →
      RegionRange s .dsp (s.panicAt a) (s.cfg.xoopsSize + 4 * s.cfg.stackWords)) :
    runList (entire (d + 3) a) [.given .panic, .given .message] s = .go (s.messageServed a) := by
  unfold State.messageServed
  split
  · next h =>
    obtain ⟨hcapture, -⟩ := entire_capture d h
    rw [runList_go (hcapture (hb h)), runList_go (entire_given_false _ a (State.captured_message h)), runList_nil]
  · next h =>
    rw [runList_go (entire_given_false _ a (Bool.eq_false_iff.2 h))]
    split
    · next hm =>
      obtain ⟨-, hcall⟩ := entire_call_none (d + 2) a (s := s.emit (.msg (s.loc a).cmdi))
      have hgiven : entire (d + 3) a (.given .message) s = .go (s.emit (.msg (s.loc a).cmdi)) := by
        rw [entire_given_true _ a hm, guarded, runList_go (entire_emitMsg ..), runList_go (hcall hcalls), runList_nil]
      rw [runList_go hgiven, runList_nil]
    · next hm => rw [runList_go (entire_given_false _ a (Bool.eq_false_iff.2 hm)), runList_nil]

@[simp] theorem State.messageServed_lock : (s.messageServed a).lock = s.lock := by
  unfold State.messageServed; split_ifs <;> simp
@[simp] theorem State.messageServed_deferPending : (s.messageServed a).deferPending = s.deferPending := by
  unfold State.messageServed; split_ifs <;> simp

theorem StageFrame.messageServed (gs : List DevReg) : StageFrame a gs s (s.messageServed a) := by
  unfold State.messageServed
  split_ifs
  · exact .captured gs
  · exact .emit ..
  · exact .refl ..

theorem State.messageServed_events
    (hr : Cond.panic.holds s.cfg (s.loc a) = true →
      s.readable .dsp (s.panicAt a) (s.cfg.xoopsSize + 4 * s.cfg.stackWords)) :
    (s.messageServed a).events = s.events ++
      if Cond.panic.holds s.cfg (s.loc a) then
        [.diag (s.bytesAt .dsp (s.panicAt a) s.cfg.xoopsSize)
          (s.wordsAt .dsp (s.panicAt a + s.cfg.xoopsSize) s.cfg.stackWords) (s.loc a).cmdo (s.loc a).cmdi (s.panicAt a)
          (panicOffset (s.loc a).cmdi (s.loc a).cmdo s.cfg.panicOffsetOf)]
      else if Cond.message.holds s.cfg (s.loc a) then [.msg (s.loc a).cmdi] else [] := by
  unfold State.messageServed
  split
  · next h => exact State.captured_events rfl (hr h)
  · split <;> simp

end

/-- Putting down a flag that is down changes nothing. -/
theorem and_not_of_flagOf {w m : Word} (h : flagOf w m = false) : w &&& ~~~m = w := by
  simp only [flagOf, bne_eq_false_iff_eq] at h
  have hsplit : (w &&& m) ||| (w &&& ~~~m) = w := by ext i; simp; grind
  rw [h] at hsplit
  exact (BitVec.zero_or).symm.trans hsplit

/-- The state after W4, no reply consumer attached. -/
def State.deferAnswered (s : State) : State := (s.deferEntered.replyServed .worker).cmdiTaken .worker

section
variable {s : State}

theorem StageFrame.deferAnswered (hw : s.cfg.wf = true) : StageFrame .worker [.cmdo, .imrh] s s.deferAnswered :=
  (StageFrame.deferEntered _).trans
    ((StageFrame.replyServed ((StageFrame.deferEntered []).wf hw)).trans (.cmdiTaken _))

theorem State.deferAnswered_lock (hl : s.lock = none) : s.deferAnswered.lock = none := by
  rw [State.deferAnswered, State.cmdiTaken_lock, State.replyServed_lock (by simpa using hl)]

@[simp] theorem State.deferAnswered_deferPending : s.deferAnswered.deferPending = false := by simp [State.deferAnswered]

theorem State.deferAnswered_cmdo (hw : s.cfg.wf = true) (hr : s.registersPlain) :
    (s.deferAnswered.loc .worker).cmdo = s.regs.cmdo := by
  rw [State.deferAnswered, State.cmdiTaken_cmdo, State.replyServed_cmdo, State.deferEntered_cmdo hw hr]

/-- What the message part finds: the word of `CMDI`, and where the record of a panic is. -/
theorem State.deferAnswered_cmdi (hw : s.cfg.wf = true) (hr : s.registersPlain) :
    (s.deferAnswered.loc .worker).cmdi = s.regs.cmdi ∧
      Cond.panic.holds s.deferAnswered.cfg (s.deferAnswered.loc .worker) =
        (s.cmdiBusy && isPanic s.cfg s.regs.cmdi) ∧
      Cond.message.holds s.deferAnswered.cfg (s.deferAnswered.loc .worker) =
        (s.cmdiBusy && !isPanic s.cfg s.regs.cmdi) :=
  DeviceKept.cmdi_holds (gs := [.cmdo, .imrh])
    ((StageFrame.deferEntered _).trans (.replyServed ((StageFrame.deferEntered []).wf hw))).toDeviceKept (by simp) hw hr

theorem State.deferAnswered_panicAt (hw : s.cfg.wf = true) (hr : s.registersPlain) : s.deferAnswered.panicAt .worker =
    if s.ctx.excValid then s.ctx.excOff else (panicOffset s.regs.cmdi s.regs.cmdo s.cfg.panicOffsetOf).toNat := by
  have hframe := StageFrame.deferAnswered hw
  obtain ⟨hcmdi, -, -⟩ := State.deferAnswered_cmdi hw hr
  rw [State.panicAt, hcmdi, State.deferAnswered_cmdo hw hr, hframe.cfg, hframe.ctx]

theorem State.deferAnswered_events (hw : s.cfg.wf = true) (hr : s.registersPlain)
    (hh : s.cmdoDone = true → s.readable .dsp s.ctx.outbox.off s.cfg.rhSize) : s.deferAnswered.events = s.events ++
      if s.cmdoDone then [.reply (s.bytesAt .dsp s.ctx.outbox.off s.cfg.rhSize) s.regs.cmdo] else [] := by
  have hframe : StageFrame .worker [] s s.deferEntered := .deferEntered _
  have hready := State.deferEntered_ready hw hr
  have hbytes (x n : Nat) : s.deferEntered.bytesAt .dsp x n = s.bytesAt .dsp x n := by
    simp only [State.bytesAt, hframe.byteAt]
  have hevents := State.replyServed_events (s := s.deferEntered) (a := .worker) fun h => by
    rw [hframe.cfg, hframe.ctx]
    exact hframe.readable (hh (hready ▸ h))
  rw [hready, State.deferEntered_events, hbytes, hframe.cfg, hframe.ctx, State.deferEntered_cmdo hw hr] at hevents
  rw [State.deferAnswered, State.cmdiTaken_events, hevents]

theorem State.deferAnswered_regs (hw : s.cfg.wf = true) (hr : s.registersPlain) :
    s.deferAnswered.regs.cmdo = s.regs.cmdo &&& ~~~s.cfg.cmdoDone ∧
      s.deferAnswered.regs.imrh = if s.cmdoDone then s.regs.imrh &&& ~~~s.cfg.imrhDone else s.regs.imrh := by
  have hframe : StageFrame .worker [] s s.deferEntered := .deferEntered _
  rw [State.deferAnswered, State.cmdiTaken_regs, State.replyServed_regs (hframe.wf hw) (hframe.registersPlain hr),
    State.deferEntered_ready hw hr, hframe.regs_eq, hframe.cfg]
  split
  · exact ⟨rfl, rfl⟩
  · next h => exact ⟨(and_not_of_flagOf (Bool.eq_false_iff.2 h)).symm, rfl⟩

/-- `IRQDEFER` with no consumer attached. -/
theorem exec_irqdefer_unattended (hw : s.cfg.wf = true) (hp : Presentable s .irqdefer) (hl : s.lock = none)
    (hr : s.registersPlain) (hreplies : s.replyCalls = []) (hmessages : s.msgCalls = [])
    (hh : s.cmdoDone = true → RegionRange s .dsp s.ctx.outbox.off s.cfg.rhSize)
    (hrec : s.cmdiBusy = true → isPanic s.cfg s.regs.cmdi = true →
      RegionRange s .dsp (s.deferAnswered.panicAt .worker) (s.cfg.xoopsSize + 4 * s.cfg.stackWords)) :
    exec .irqdefer s = .next (((s.deferAnswered.messageServed .worker).irqReturn irqHandled).endOk .worker) := by
  have hentered : StageFrame .worker [] s s.deferEntered := .deferEntered _
  have hanswered := StageFrame.deferAnswered hw
  obtain ⟨hreplies', -⟩ := hentered.calls
  obtain ⟨-, hmessages'⟩ := hanswered.calls
  obtain ⟨-, hpanic, -⟩ := State.deferAnswered_cmdi hw hr
  refine exec_irqdefer_eq hp (entire_replyServed 5 (hreplies'.trans hreplies) (by simpa using hl) fun h => ?_) ?_
    (runList_messageServed 5 (hmessages'.trans hmessages) fun h => ?_)
  · rw [RegionRange, hentered.cfg, hentered.ctx]
    exact hh (State.deferEntered_ready hw hr ▸ h)
  · rw [State.replyServed_cfg, hentered.cfg]
  · change Cond.panic.holds s.deferAnswered.cfg (s.deferAnswered.loc .worker) = true at h
    rw [hpanic, Bool.and_eq_true] at h
    change RegionRange s.deferAnswered .dsp (s.deferAnswered.panicAt .worker)
      (s.deferAnswered.cfg.xoopsSize + 4 * s.deferAnswered.cfg.stackWords)
    rw [RegionRange, hanswered.cfg]
    exact hrec h.1 h.2

end

/-- A panic record in plain bytes is as before, whatever the registers. -/
theorem DeviceKept.record_plain {gs : List DevReg} {s t : State} (h : DeviceKept gs s t) {r : Region} {x n k : Nat}
    (hp : s.plainBytes r x (n + 4 * k)) :
    t.bytesAt r x n = s.bytesAt r x n ∧ t.wordsAt r (x + n) k = s.wordsAt r (x + n) k := by
  have hbyte (i : Nat) (hi : i < n + 4 * k) : t.byteAt r (x + i) = s.byteAt r (x + i) := h.byteAt_plain hp hi
  constructor
  · exact List.map_congr_left fun i hi => hbyte i (by have := List.mem_range.1 hi; omega)
  · refine List.map_congr_left fun i hi => ?_
    have hi := List.mem_range.1 hi
    simp only [State.leWord, Nat.add_assoc x, hbyte _ (show n + 4 * i < n + 4 * k by omega),
      hbyte _ (show n + (4 * i + 1) < n + 4 * k by omega), hbyte _ (show n + (4 * i + 2) < n + 4 * k by omega),
      hbyte _ (show n + (4 * i + 3) < n + 4 * k by omega), Nat.add_assoc n]

/-- The events of both parts. -/
theorem State.served_events {s : State} (hw : s.cfg.wf = true) (hr : s.registersPlain)
    (hh : s.cmdoDone = true → s.readable .dsp s.ctx.outbox.off s.cfg.rhSize)
    {used : Nat} (hat : s.deferAnswered.panicAt .worker = used)
    (hrec : s.cmdiBusy = true → isPanic s.cfg s.regs.cmdi = true →
      s.plainBytes .dsp used (s.cfg.xoopsSize + 4 * s.cfg.stackWords)) :
    (s.deferAnswered.messageServed .worker).events = s.events ++
      (if s.cmdoDone then [.reply (s.bytesAt .dsp s.ctx.outbox.off s.cfg.rhSize) s.regs.cmdo] else []) ++
      (if s.cmdiBusy then
        (if isPanic s.cfg s.regs.cmdi then
          [.diag (s.bytesAt .dsp used s.cfg.xoopsSize) (s.wordsAt .dsp (used + s.cfg.xoopsSize) s.cfg.stackWords)
            s.regs.cmdo s.regs.cmdi used (panicOffset s.regs.cmdi s.regs.cmdo s.cfg.panicOffsetOf)]
        else [.msg s.regs.cmdi]) else []) := by
  have hframe := StageFrame.deferAnswered hw
  obtain ⟨hcmdi, hpanic, hmessage⟩ := State.deferAnswered_cmdi hw hr
  rw [State.messageServed_events, State.deferAnswered_events hw hr hh, hpanic, hmessage, hcmdi,
    State.deferAnswered_cmdo hw hr, hat, hframe.cfg]
  · congr 1
    cases hb : s.cmdiBusy <;> cases hm : isPanic s.cfg s.regs.cmdi <;> simp only [Bool.and_true, Bool.and_false,
      Bool.not_true, Bool.not_false, Bool.false_eq_true, if_true, if_false]
    obtain ⟨hbytes, hwords⟩ := hframe.record_plain (hrec hb hm)
    rw [hbytes, hwords]
  · rw [hpanic, Bool.and_eq_true, hat, hframe.cfg]
    rintro ⟨hb, hm⟩
    exact (hframe.plainBytes (hrec hb hm)).readable

/-- Settles O35: both parts, each by its own lemmas; the panic record lies in plain bytes, which the reply part leaves alone. -/
theorem irqdeferResult : Obligations.IrqdeferResult := by
  intro s hw hp hl hr hreplies hmessages hheader used hused hrecord
  have hat : s.deferAnswered.panicAt .worker = used := (State.deferAnswered_panicAt hw hr).trans hused.symm
  have hframe : StageFrame .worker [.cmdo, .imrh] s
      (((s.deferAnswered.messageServed .worker).irqReturn irqHandled).endOk .worker) :=
    (StageFrame.deferAnswered hw).trans ((StageFrame.messageServed _).trans ((StageFrame.irqReturn ..).trans (.endOk ..)))
  have hregs : (s.deferAnswered.messageServed .worker).regs = s.deferAnswered.regs := (StageFrame.messageServed []).regs_eq
  obtain ⟨hcmdo, himrh⟩ := State.deferAnswered_regs hw hr
  refine ⟨_, exec_irqdefer_unattended hw hp hl hr hreplies hmessages (fun h => (hheader h).1)
    (fun hb h => hat.symm ▸ (hrecord hb h).1), ended_endOk .., hframe.results, by simp, by simp [irqHandled],
    by simpa using State.deferAnswered_lock hl, by simpa [hregs] using hcmdo, by simpa [hregs] using himrh, ?_,
    hframe.sameButRegs, hframe.elapsed, hframe.ctx, hframe.pwr, hframe.halt⟩
  simpa using State.served_events hw hr (fun h => (hheader h).2) hat fun hb h => (hrecord hb h).2

end Sys2Proof.Machine
end

section
/-! PROOFS. Which entries of a listing can hand a panic or a message on (R192). -/

namespace Sys2Proof.Machine

/-! ## Events handed to the diagnostics or the new-message consumer -/

/-- The event is an `EV_DIAG` or an `EV_MSG` (R46). -/
def Event.routed : Event → Bool
  | .diag .. | .msg _ => true
  | _ => false

/-- `t` has emitted nothing since `s` but events of the other kinds. -/
def Unrouted (s t : State) : Prop := ∃ es, t.events = s.events ++ es ∧ es.filter Event.routed = []

section
variable {s t u : State}

theorem unrouted_of_eq (h : t.events = s.events) : Unrouted s t := ⟨[], by simp [h], rfl⟩

theorem Unrouted.trans (h : Unrouted s t) (h' : Unrouted t u) : Unrouted s u := by
  obtain ⟨es, he, hf⟩ := h
  obtain ⟨es', he', hf'⟩ := h'
  exact ⟨es ++ es', by rw [he', he, List.append_assoc], by rw [List.filter_append, hf, hf', List.append_nil]⟩

theorem unrouted_emit {e : Event} (h : e.routed = false) (s : State) : Unrouted s (s.emit e) :=
  ⟨[e], rfl, by simp [h]⟩

end

/-- The entry may emit one, or go on to an entry that may. -/
def Micro.routes : Micro → Bool
  | .emitMsg | .capEmit | .given .panic | .given .message => true
  | .emit e => e.routed
  | _ => false

/-- None of the entries may. -/
def Unrouting (ms : List Micro) : Prop := ∀ m ∈ ms, m.routes = false

theorem unrouting_of_all {ms : List Micro} (h : ms.all (fun m => !m.routes) = true) : Unrouting ms := by simpa [Unrouting] using h

theorem unrouting_bulkRead (r : Region) (off : Nat) (dst : Dest) (n : Nat) : Unrouting (bulkRead r off dst n) := by
  unfold bulkRead
  split <;> exact unrouting_of_all rfl

theorem unrouting_bulkWrite (r : Region) (off h n : Nat) : Unrouting (bulkWrite r off h n) := by
  unfold bulkWrite
  refine List.forall_mem_append.2 ⟨?_, ?_⟩ <;> split <;> exact unrouting_of_all rfl

/-- What a consumer may present hands no panic and no message on (R190, R193). -/
theorem unrouting_listing_of_callPermits {k : Consumer} {i : Instr} (h : callPermits k i = true) (c : Cfg) :
    Unrouting (listing c i) := by
  cases i with
  | blkrd r off haddr n => exact List.forall_mem_append.2 ⟨unrouting_bulkRead _ _ _ _, unrouting_of_all rfl⟩
  | getreply _ _ | mboxrd _ _ _ | cmddone | fwready => exact unrouting_of_all rfl
  | _ => cases k <;> cases h

theorem unrouting_windowEffect (c : Cfg) (t : Word) (b : Box) : Unrouting (windowEffect c t b) := by
  unfold windowEffect registerRegion
  split_ifs <;> exact unrouting_of_all rfl

/-- What a micro-step of an entry that may not route goes on to. -/
theorem unit_rest_unrouting (a : Agent) (pick : Nat) {m : Micro} (hm : m.routes = false) (s : State) :
    (unit a pick m s).RestOk Unrouting := by
  have hnil : Unrouting [] := fun _ hx => nomatch hx
  cases m with
  | copyIn r off h pend => exact restOk_unitStep _ _ _ _ _ hnil fun _ => unrouting_of_all rfl
  | copyOut r off dst pend => exact restOk_unitStep _ _ _ _ _ hnil fun _ => unrouting_of_all rfl
  | read64 r off => simp only [unit, read64Step]; split <;> exact unrouting_of_all rfl
  | write64 r off lo hi => simp only [unit, write64Step]; split <;> exact unrouting_of_all rfl
  | acquire =>
    simp only [unit, acquireStep]
    split
    · exact hnil
    · trivial
  | poll n =>
    cases n with
    | zero => exact unrouting_of_all rfl
    | succ n => simp only [unit, pollStep]; split <;> exact unrouting_of_all rfl
  | pollWait n => cases n <;> exact unrouting_of_all rfl
  | boxWrite _ _ _ => exact restOk_orRefuse (unrouting_bulkWrite _ _ _ _)
  | boxRead _ _ _ | header | hdrRead | fwrRead | readBack _ | winRead _ | capSnap | capStack =>
    exact restOk_orRefuse (unrouting_bulkRead _ _ _ _)
  | call c =>
    have hds (c : Consumer) (ds : List Desc) : Unrouting (ds.map (Micro.present c)) := unrouting_of_all (by simp [Micro.routes])
    simp only [unit, callStep]
    split
    · split
      · exact hds _ _
      · trivial
    · exact hds _ _
    · exact hnil
    · exact hnil
  | present c d =>
    simp only [unit, presentStep]
    split
    · exact hnil
    · split
      · next hpermits =>
        exact restOk_orRefuse (List.forall_mem_append.2 ⟨unrouting_listing_of_callPermits hpermits _, unrouting_of_all rfl⟩)
      · trivial
  | fwrBegin =>
    simp only [unit, fwrBeginStep]
    split
    · trivial
    · exact hnil
  | windows k n =>
    cases n with
    | zero => exact hnil
    | succ n => exact unrouting_of_all rfl
  | fwrExtdata => exact unrouting_of_all rfl
  | winDispatch => exact unrouting_windowEffect _ _ _
  | zeroBox => simp only [unit, zeroBoxStep]; split <;> exact unrouting_of_all rfl
  | given k =>
    simp only [unit]
    split
    · cases k with
      | panic | message => cases hm
      | isrDone | isrBusy | replyReady => exact unrouting_of_all rfl
    · exact hnil
  | raise k v => trivial
  | _ => exact hnil

/-- A micro-step of an entry that may not route. -/
theorem unit_unrouted (s : State) (a : Agent) (pick : Nat) {m : Micro} (hm : m.routes = false) :
    NextOk (Unrouted s) (fun _ => True) (unit a pick m s) := by
  have hsame : Unrouted s s := unrouted_of_eq rfl
  cases m with
  | emitMsg | capEmit => cases hm
  | emit e => exact nextOk_to (unrouted_emit hm s)
  | emitReply | fwrVersion => exact nextOk_to (unrouted_emit rfl s)
  | fwrExtdata => exact nextOk_to ((unrouted_emit (e := .extdata ((s.loc a).fbase + s.cfg.fwr.size)) rfl s).trans
    (unrouted_of_eq (State.setLoc_events ..)))
  | read64 r off =>
    simp only [unit, read64Step]
    split <;> exact nextOk_to (unrouted_of_eq (by simp))
  | write64 r off lo hi =>
    simp only [unit, write64Step]
    split <;> exact nextOk_to (unrouted_of_eq (by simp))
  | copyIn r off h pend => exact nextOk_unitStep pick pend _ hsame fun k => unrouted_of_eq (by simp)
  | copyOut r off dst pend => exact nextOk_unitStep pick pend _ hsame fun k => unrouted_of_eq (by simp)
  | raise k v => exact unrouted_of_eq (t := s.raise a k v) (by simp)
  | acquire =>
    simp only [unit, acquireStep]
    split
    · exact nextOk_to (unrouted_of_eq rfl)
    · trivial
  | poll n =>
    cases n with
    | zero => exact nextOk_to hsame
    | succ n =>
      have hpoll : (pollRead a s).2.events = s.events := by simp [pollRead]
      simp only [unit, pollStep]
      split <;> exact nextOk_to (unrouted_of_eq hpoll)
  | fwrBegin =>
    simp only [unit, fwrBeginStep]
    split
    · trivial
    · exact nextOk_to (unrouted_of_eq (by simp))
  | boxWrite _ _ _ | boxRead _ _ _ | hdrRead | fwrRead | readBack _ | winRead _ | capSnap | capStack =>
    exact nextOk_orRefuse (nextOk_to hsame)
  | header => exact nextOk_orRefuse (nextOk_to (unrouted_of_eq (by simp)))
  | wakeOrNone =>
    simp only [unit, wakeStep]
    split <;> exact nextOk_to (unrouted_of_eq rfl)
  | call c =>
    simp only [unit, callStep]
    split
    · split
      · exact nextOk_to (unrouted_of_eq rfl)
      · trivial
    · exact nextOk_to (unrouted_of_eq rfl)
    · exact nextOk_to hsame
    · exact nextOk_to hsame
  | present c d =>
    simp only [unit, presentStep]
    split
    · exact nextOk_to (unrouted_of_eq (by simp))
    · split
      · exact nextOk_orRefuse (nextOk_to (unrouted_of_eq (by simp)))
      · trivial
  | windows k n => cases n <;> exact nextOk_to hsame
  | zeroBox =>
    simp only [unit, zeroBoxStep]
    split <;> exact nextOk_to hsame
  | winDispatch | armEnd _ | given _ => exact nextOk_to hsame
  | release | clearPending | handled | ctx _ | fwrOutbox | fwrInbox => exact nextOk_to (unrouted_of_eq rfl)
  | read _ _ _ | write _ _ _ | merge _ _ _ _ | tail _ _ _ _ | delay _ | pollWait _ | pwr _ | ok | result0 | result01
  | replyResult | ret _ _ | idle | judge _ | setWork | capBegin _ =>
    exact nextOk_to (unrouted_of_eq (by simp [mergeStep, result0Step, result01Step, replyResultStep, judgeStep, capBeginStep]))

theorem nextOk_unrouted_trans {s t : State} (h : Unrouted s t) :
    ∀ {n : Next}, NextOk (Unrouted t) (fun _ => True) n → NextOk (Unrouted s) (fun _ => True) n
  | .to _ _, ⟨hn, hrest⟩ => ⟨h.trans hn, hrest⟩
  | .raised _, hn => h.trans hn
  | .wait, _ | .refuse _, _ => trivial

/-- Entries that may not route emit no event that is routed, and go on to such entries. -/
theorem unrouted_keeps (s : State) (a : Agent) : Keeps a (Unrouted s) (fun m => m.routes = false) where
  unit pick m t _ h hm := nextOk_of_rest (nextOk_unrouted_trans h (unit_unrouted t a pick hm)) (unit_rest_unrouting a pick hm t)
  group _ _ _ _ _ _ h _ _ := h.trans (unrouted_of_eq (by simp))
  byte _ _ _ _ _ _ h _ _ := h.trans (unrouted_of_eq (by simp))
  subIn _ _ _ _ _ _ _ := rfl
  subOut _ _ _ _ _ _ _ := rfl

end Sys2Proof.Machine
end

section
/-! PROOFS. The deferred stage whatever its consumers present (R192). -/

namespace Sys2Proof.Machine

/-! ## Runs that go on or are refused -/

/-- The run goes on to a state with `P`, or it is refused. -/
def Flow.Goes (P : State → Prop) : Flow → Prop
  | .go s => P s
  | .refuse _ => True
  | .raised _ | .blocked _ _ => False

theorem Flow.Goes.mono {P Q : State → Prop} (h : ∀ s, P s → Q s) {f : Flow} (hf : f.Goes P) : f.Goes Q := by
  cases f with
  | go s => exact h s hf
  | refuse r => trivial
  | raised s => exact hf
  | blocked rest s => exact hf

/-- Going on from where a run goes on. -/
theorem Flow.Goes.append {P Q : State → Prop} {f : Micro → State → Flow} {ms ns : List Micro} {s : State}
    (h : (runList f ms s).Goes P) (hn : ∀ t, P t → (runList f ns t).Goes Q) : (runList f (ms ++ ns) s).Goes Q := by
  cases hf : runList f ms s with
  | go t =>
    rw [hf] at h
    rw [runList_append hf]
    exact hn t h
  | refuse r =>
    rw [runList, runFrom_append_refuse hf]
    trivial
  | raised t => rw [hf] at h; exact h.elim
  | blocked rest t => rw [hf] at h; exact h.elim

theorem runList_single (f : Micro → State → Flow) (m : Micro) (s : State) (P : State → Prop) :
    (runList f [m] s).Goes P ↔ (f m s).Goes P := by
  rw [runList_cons]
  cases f m s <;> rfl

/-- An entry that goes on to others. -/
theorem entire_to (d : Nat) (a : Agent) {m : Micro} {ms : List Micro} {s s' : State} (hu : unit a 0 m s = .to ms s')
    (hm : m.looped = false) : entire (d + 1) a m s = runList (entire d a) ms s' :=
  entire_orRefuse_none d a (b := none) hu rfl hm

/-- An entry that refuses. -/
theorem entire_refuse (d : Nat) (a : Agent) {m : Micro} {r : Refusal} {s : State} (hu : unit a 0 m s = .refuse r)
    (hm : m.looped = false) : entire d a m s = .refuse r := by
  cases d with
  | zero => simp [entire, hu]
  | succ d =>
    cases m with
    | copyIn | copyOut | poll | pollWait | windows => simp [Micro.looped] at hm
    | _ => simp [entire, hu]

/-- A list of entries goes on or is refused where each entry does. -/
theorem goes_runList {R : State → State → Prop} {f : Micro → State → Flow} (hrefl : ∀ s, R s s)
    (htrans : ∀ {s t u}, R s t → R t u → R s u) {ms : List Micro} (h : ∀ m ∈ ms, ∀ s, (f m s).Goes (R s)) (s : State) :
    (runList f ms s).Goes (R s) := by
  induction ms generalizing s with
  | nil => exact hrefl s
  | cons m ms ih =>
    have hm : (runList f [m] s).Goes (R s) := (runList_single ..).2 (h m (by simp) s)
    exact hm.append (ns := ms) fun t ht => (ih (fun x hx => h x (by simp [hx])) t).mono fun u hu => htrans ht hu

/-! ## What a call of the reply consumer keeps (R190) -/

/-- The device, the lock and the events are as before. -/
structure CallKept (s t : State) : Prop extends DeviceKept [] s t where
  lock : t.lock = s.lock
  events : t.events = s.events

namespace CallKept

variable {s t u : State} {a : Agent}

theorem refl (s : State) : CallKept s s := ⟨.refl [] s, rfl, rfl⟩

theorem trans (h : CallKept s t) (h' : CallKept t u) : CallKept s u :=
  ⟨h.toDeviceKept.trans h'.toDeviceKept, h'.lock.trans h.lock, h'.events.trans h.events⟩

theorem setEx (s : State) (a : Agent) (e : Exec) : CallKept s (s.setEx a e) :=
  ⟨⟨by simp, by simp, by simp, by simp, by simp, by simp, by simp⟩, by simp, by simp⟩

theorem raise (s : State) (a : Agent) (k : Kind) (v : Word) : CallKept s (s.raise a k v) :=
  ⟨⟨by simp, by simp, by simp, by simp, by simp, by simp, fun r => by cases a <;> cases r <;> rfl⟩, by simp, by simp⟩

theorem bulkOut (s : State) (a : Agent) (r : Region) (off : Nat) (dst : Dest) (n : Nat) :
    CallKept s (s.bulkOut a r off dst n) :=
  ⟨⟨by simp, by simp, by simp, by simp, by simp, by simp, by simp⟩, by simp, by simp⟩

theorem setReplyCalls (s : State) (cs : List (List Desc)) : CallKept s { s with replyCalls := cs } :=
  ⟨⟨rfl, rfl, rfl, rfl, rfl, fun _ _ => rfl, fun r => by cases r <;> rfl⟩, rfl, rfl⟩

end CallKept

/-- A bulk read behind a check goes on or is refused. -/
theorem goes_orRefuse_bulkRead (d : Nat) (a : Agent) {m : Micro} {b : Option Breach} {r : Region} {off n : Nat}
    {dst : Dest} {s s' : State} (hu : unit a 0 m s = orRefuse b (.to (bulkRead r off dst n) s')) (hm : m.looped = false)
    (hs : CallKept s s') : (entire (d + 2) a m s).Goes (CallKept s) := by
  cases b with
  | some b => rw [entire_orRefuse_some _ a hu hm]; trivial
  | none =>
    have hrun := runList_bulkRead d a r off dst n [] s'
    rw [List.append_nil, runList_nil] at hrun
    rw [entire_orRefuse_none (d + 1) a hu rfl hm, hrun]
    exact hs.trans (.bulkOut ..)

/-- The entries of what the reply consumer may present. -/
theorem goes_of_callPermits (d : Nat) (a : Agent) {i : Instr} (hi : callPermits .reply i = true) (c : Cfg) :
    ∀ m ∈ listing c i, ∀ s, (entire (d + 2) a m s).Goes (CallKept s) := by
  cases i with
  | blkrd r off haddr n =>
    have hok (s : State) : (entire (d + 2) a .ok s).Goes (CallKept s) := by
      rw [entire_ok]
      exact .setEx ..
    simp only [listing, blkrdListing, bulkRead]
    intro m hm s
    split_ifs at hm with hn
    · obtain rfl : m = .ok := by simpa using hm
      exact hok s
    · obtain rfl | rfl : m = .copyOut r off.toNat (.host haddr.toNat) [⟨0, n.toNat⟩] ∨ m = .ok := by simpa using hm
      · exact CallKept.bulkOut s a r off.toNat (.host haddr.toNat) n.toNat
      · exact hok s
  | getreply haddr expect =>
    simp only [listing, getreplyListing, List.forall_mem_cons]
    refine ⟨fun s => goes_orRefuse_bulkRead d a rfl rfl (.setEx ..), fun s => ?_,
      fun s => goes_orRefuse_bulkRead d a rfl rfl (.refl s), fun s => ?_, fun _ hx => nomatch hx⟩
    · rw [entire_judge]
      exact .setEx ..
    · rw [entire_replyResult]
      exact .setEx ..
  | _ => cases hi

/-- What the reply consumer presents: it is refused, or it raises, or it runs and the stage goes on with its own `cmdo`. -/
theorem goes_present (d : Nat) (a : Agent) (dsc : Desc) (s : State) :
    (entire (d + 3) a (.present .reply dsc) s).Goes fun t => CallKept s t ∧ (t.loc a).cmdo = (s.loc a).cmdo := by
  cases hdec : decodeDesc dsc with
  | error e =>
    have hu : unit a 0 (.present .reply dsc) s = .to [] (s.raise a .illegalOp (descWord dsc 0)) := by
      simp only [unit, presentStep, hdec]
    rw [entire_to _ a hu rfl]
    exact ⟨.raise .., by cases a <;> rfl⟩
  | ok i =>
    cases hi : callPermits .reply i with
    | false =>
      have hu : unit a 0 (.present .reply dsc) s = .refuse .notPermitted := by
        simp only [unit, presentStep, hdec, hi, Bool.false_eq_true, if_false]
      rw [entire_refuse _ a hu rfl]
      trivial
    | true =>
      have hu : unit a 0 (.present .reply dsc) s = orRefuse (contractBreach s.cfg i)
          (.to (listing s.cfg i ++ [.ret (s.loc a).cmdo (s.loc a).cmdi]) (s.nest a i)) := by
        simp only [unit, presentStep, hdec, hi, if_true]
      cases hb : contractBreach s.cfg i with
      | some b =>
        rw [hb] at hu
        rw [entire_orRefuse_some _ a hu rfl]
        trivial
      | none =>
        rw [entire_orRefuse_none _ a hu hb rfl]
        have hrun := goes_runList (R := CallKept) CallKept.refl CallKept.trans (goes_of_callPermits d a hi s.cfg)
          (s.nest a i)
        refine hrun.append fun t ht => (runList_single ..).2 ?_
        rw [entire_ret]
        exact ⟨(CallKept.setEx ..).trans (ht.trans (.setEx ..)), by simp [State.loc]⟩

/-- A call of the reply consumer, whatever it presents. -/
theorem goes_call_reply (d : Nat) (a : Agent) (s : State) :
    (entire (d + 4) a (.call .reply) s).Goes fun t => CallKept s t ∧ (t.loc a).cmdo = (s.loc a).cmdo := by
  cases hcs : s.replyCalls with
  | nil =>
    obtain ⟨hcall, -⟩ := entire_call_none (d + 4) a (s := s)
    rw [hcall hcs]
    exact ⟨.refl s, rfl⟩
  | cons ds more =>
    cases hallowed : callAllowed .reply ds with
    | false =>
      have hu : unit a 0 (.call .reply) s = .refuse .notPermitted := by
        simp only [unit, callStep, hcs, hallowed, Bool.false_eq_true, if_false]
      rw [entire_refuse _ a hu rfl]
      trivial
    | true =>
      have hu : unit a 0 (.call .reply) s = .to (ds.map (Micro.present .reply)) { s with replyCalls := more } := by
        simp only [unit, callStep, hcs, hallowed, if_true]
      have hrun := goes_runList (R := fun s t => CallKept s t ∧ (t.loc a).cmdo = (s.loc a).cmdo)
        (f := entire (d + 3) a) (ms := ds.map (Micro.present .reply)) (fun s => ⟨.refl s, rfl⟩)
        (fun h h' => ⟨h.1.trans h'.1, h'.2.trans h.2⟩)
        (fun m hm => by
          obtain ⟨dsc, -, rfl⟩ := List.mem_map.1 hm
          exact goes_present d a dsc) { s with replyCalls := more }
      rw [entire_to _ a hu rfl]
      exact hrun.mono fun t ht => ⟨(CallKept.setReplyCalls s more).trans ht.1, ht.2.trans (by cases a <;> rfl)⟩

/-! ## The stage, entry by entry -/

/-- What the reply part leaves, whatever the reply consumer presents. -/
def ReplyPartKept (s w : State) : Prop :=
  DeviceKept [.cmdo, .imrh] s w ∧ Unrouted s w ∧ (w.loc .worker).cmdo = (s.loc .worker).cmdo

theorem goes_replyPart (d : Nat) {s : State} (hw : s.cfg.wf = true) (hl : s.lock = none) :
    (entire (d + 5) .worker (.given .replyReady) s).Goes (ReplyPartKept s) := by
  cases hready : Cond.replyReady.holds s.cfg (s.loc .worker) with
  | false =>
    rw [entire_given_false _ .worker hready]
    exact ⟨.refl .., unrouted_of_eq rfl, rfl⟩
  | true =>
    have hhdr : (runList (entire (d + 4) .worker) [.hdrRead, .emitReply] s).Goes (· = s.replyEmitted .worker) := by
      by_cases hb : regionFits s.cfg .dsp s.ctx.outbox.off s.cfg.rhSize = true
      · rw [runList_go (entire_hdrRead _ .worker hb), runList_go (entire_emitReply ..), runList_nil]
        exact rfl
      · have hu : unit .worker 0 .hdrRead s = .refuse (.contract .outOfRegion) := by
          simp only [unit, hdrReadStep, fetchStep, hb, Bool.false_eq_true, if_false, orRefuse]
        rw [runList_refuse (entire_refuse _ .worker hu rfl)]
        trivial
    rw [entire_given_true _ .worker hready, guarded_replyReady, List.append_assoc,
      show [.hdrRead, .emitReply, .call .reply] = [.hdrRead, .emitReply] ++ [Micro.call .reply] from rfl, List.append_assoc]
    refine hhdr.append fun t ht => ((runList_single ..).2 (goes_call_reply d .worker t)).append ?_
    rintro v ⟨hkept, hcmdo⟩
    subst ht
    have hcfg : v.cfg = s.cfg := hkept.cfg.trans (by simp)
    have hemitted : StageFrame .worker [] s (s.replyEmitted .worker) := .replyEmitted _
    have hdone : StageFrame .worker [.cmdo, .imrh] v (v.replyDone .worker) := .replyDone (by simp) (by simp) (hcfg ▸ hw)
    obtain ⟨hdr, hevents⟩ := State.replyEmitted_events_reply (s := s) (a := .worker)
    rw [← hcfg, runList_replyDone _ (hkept.lock.trans (by simpa using hl))]
    refine ⟨((hemitted.toDeviceKept.trans hkept.toDeviceKept).mono (by simp)).trans hdone.toDeviceKept,
      ⟨_, by rw [State.replyDone_events, hkept.events, hevents], rfl⟩, ?_⟩
    rw [State.replyDone_cmdo, hcmdo, State.replyEmitted_cmdo]

/-! ## The run of an agent's entries, one by one -/

section
variable {a : Agent} {m : Micro} {s t u : State}

theorem runAgent_go (h : entire 8 a m s = .go u) (ms : List Micro) : runAgent a (m :: ms) s = runAgent a ms u := by
  simp only [runAgent, runList_go h]

/-- An entry that goes on or is refused, of a run that answers. -/
theorem runAgent_goes {P : State → Prop} (h : (entire 8 a m s).Goes P) {ms : List Micro}
    (hrun : runAgent a (m :: ms) s = .next t) : ∃ u, P u ∧ runAgent a ms u = .next t := by
  cases hf : entire 8 a m s with
  | go u =>
    rw [hf] at h
    exact ⟨u, h, by rwa [runAgent_go hf] at hrun⟩
  | refuse r =>
    rw [runAgent, runList_refuse hf] at hrun
    cases hrun
  | raised u => rw [hf] at h; exact h.elim
  | blocked rest u => rw [hf] at h; exact h.elim

/-- What holds after an entry, before entries that keep it. -/
theorem flowOk_cons {P : State → Prop} {Q : Micro → Prop} (K : Keeps a P Q) {d : Nat}
    (h : FlowOk P Q (entire d a m s)) {ms : List Micro} (hms : ∀ x ∈ ms, Q x) :
    FlowOk P Q (runList (entire d a) (m :: ms) s) := by
  rw [runList_cons]
  cases hf : entire d a m s with
  | go u => rw [hf] at h; exact Keeps.runFrom_ok (K.entire_ok d) false ms u h hms
  | raised u => rw [hf] at h; exact Keeps.runFrom_ok (K.entire_ok d) true ms u h hms
  | blocked rest u =>
    rw [hf] at h
    exact ⟨h.1, fun x hx => (List.mem_append.1 hx).elim (h.2 x) (hms x)⟩
  | refuse r => trivial

/-- An entry that routes nothing from `u` on, before entries that do not either, of a run that answers. -/
theorem runAgent_unrouted {ms : List Micro} (h : FlowOk (Unrouted u) (fun m => m.routes = false) (entire 8 a m s))
    (hms : Unrouting ms) (hrun : runAgent a (m :: ms) s = .next t) : Unrouted u t := by
  have hflow := flowOk_cons (unrouted_keeps u a) h hms
  simp only [runAgent] at hrun
  cases hf : runList (entire 8 a) (m :: ms) s with
  | go v => rw [hf] at hflow hrun; cases hrun; exact hflow
  | raised v => rw [hf] at hflow hrun; cases hrun; exact hflow
  | blocked rest v =>
    rw [hf] at hflow hrun
    cases hrun
    refine hflow.1.trans (unrouted_of_eq ?_)
    cases ho : (v.ex a).op with
    | none => rw [State.advance_idle ho]
    | some i => rw [State.advance_eq ho, State.setEx_events]
  | refuse r => rw [hf] at hrun; cases hrun

end

/-- `IRQDEFER` from W3 on. -/
theorem exec_irqdefer_run {s : State} (hp : Presentable s .irqdefer) :
    exec .irqdefer s = runAgent .worker [.given .replyReady, .read .dsp s.cfg.cmdiOff .cmdi, .given .panic,
      .given .message, .handled, .ok, .idle] s.deferEntered := by
  have hworker : s.presenter = .worker := by simpa [presenters] using hp.presenter_mem
  have htaken := runList_cmdoTaken 8 .worker (s.start .worker .irqdefer [])
  rw [State.start_cfg] at htaken
  rw [exec_eq_perform, perform, portRefusal_eq_none hp rfl, hworker]
  simp only [runAgent]
  rw [show listing s.cfg .irqdefer ++ [.idle] = [.clearPending, .read .dsp s.cfg.cmdoOff .cmdo] ++
    [.given .replyReady, .read .dsp s.cfg.cmdiOff .cmdi, .given .panic, .given .message, .handled, .ok, .idle] from rfl,
    runList_append htaken]
  rfl

/-- A panic notification: one capture, and the conditional of a message is passed by. -/
theorem panic_routed {x t : State} (hp : Cond.panic.holds x.cfg (x.loc .worker) = true)
    (hrun : runAgent .worker [.given .panic, .given .message, .handled, .ok, .idle] x = .next t) :
    ∃ sn st used off, t.events = x.events ++ [.diag sn st (x.loc .worker).cmdo (x.loc .worker).cmdi used off] := by
  obtain ⟨hcapture, hrefused⟩ := entire_capture (a := .worker) 5 hp
  have hgoes : (entire 8 .worker (.given .panic) x).Goes (· = x.captured .worker none) := by
    by_cases hb : RegionRange x .dsp (x.panicAt .worker) (x.cfg.xoopsSize + 4 * x.cfg.stackWords)
    · rw [hcapture hb]
      exact rfl
    · obtain ⟨r, hr⟩ := hrefused hb
      rw [hr]
      trivial
  obtain ⟨u, rfl, hrun⟩ := runAgent_goes hgoes hrun
  rw [runAgent_go (entire_given_false 8 .worker (State.captured_message hp)), runAgent_go (entire_handled ..),
    runAgent_go (entire_ok ..), runAgent_go (entire_idle ..)] at hrun
  cases hrun
  obtain ⟨sn, st, used, off, hevents⟩ := State.captured_events_diag (s := x) (a := .worker)
  exact ⟨sn, st, used, off, by simp [hevents]⟩

/-- A message that is no panic notification: it is dispatched, and nothing that its consumer presents is routed again. -/
theorem message_routed {x t : State} (hm : Cond.message.holds x.cfg (x.loc .worker) = true)
    (hp : Cond.panic.holds x.cfg (x.loc .worker) = false)
    (hrun : runAgent .worker [.given .panic, .given .message, .handled, .ok, .idle] x = .next t) :
    Unrouted (x.emit (.msg (x.loc .worker).cmdi)) t := by
  rw [runAgent_go (entire_given_false 8 .worker hp)] at hrun
  refine runAgent_unrouted ?_ (unrouting_of_all rfl) hrun
  rw [entire_given_true 7 .worker hm, guarded, runList_go (entire_emitMsg ..)]
  exact flowOk_cons (unrouted_keeps _ .worker) ((unrouted_keeps _ .worker).entire_ok 7 _ _ (unrouted_of_eq rfl) rfl)
    fun _ hx => nomatch hx

/-- Any test that tells the two kinds of events apart from the others. -/
theorem filter_routed {p : Event → Bool} (l : List Event) (hp : ∀ e, p e = e.routed) :
    l.filter p = l.filter Event.routed := List.filter_congr fun e _ => hp e

/-- Settles O37: the reply part routes nothing and leaves `CMDI` alone, whatever the reply consumer presents; then `CMDI`
decides between the capture and the dispatch. -/
theorem panicRouting : Obligations.PanicRouting := by
  intro s t hw hp hl hr hbusy hrun
  have hentered : StageFrame .worker [] s s.deferEntered := .deferEntered _
  rw [exec_irqdefer_run hp] at hrun
  obtain ⟨w, ⟨hdevice, ⟨es, hevents, hnone⟩, hcmdo⟩, hrun⟩ :=
    runAgent_goes (goes_replyPart 3 (hentered.wf hw) (by simpa using hl)) hrun
  have hkept : DeviceKept [.cmdo, .imrh] s w := (hentered.toDeviceKept.mono (by simp)).trans hdevice
  obtain ⟨hcmdi, hpanic, hmessage⟩ := hkept.cmdi_holds (by simp) hw hr
  rw [runAgent_go (entire_read ..), ← hkept.cfg,
    show readStep .worker .dsp w.cfg.cmdiOff .cmdi w = w.cmdiTaken .worker from rfl] at hrun
  have hbefore (l : List Event) : (s.deferEntered.events ++ es ++ l).drop s.events.length = es ++ l := by
    rw [State.deferEntered_events, List.append_assoc, List.drop_left]
  rw [hbusy, Bool.true_and] at hpanic hmessage
  refine ⟨fun hmagic => ?_, fun hmagic => ?_⟩
  · obtain ⟨sn, st, used, off, ht⟩ := panic_routed (hpanic.trans (by simpa [isPanic] using hmagic)) hrun
    rw [State.cmdiTaken_events, State.cmdiTaken_cmdo, hcmdo, hcmdi, State.deferEntered_cmdo hw hr, hevents] at ht
    refine ⟨sn, st, used, off, ?_⟩
    rw [ht, hbefore, filter_routed _ fun e => by cases e <;> rfl, List.filter_append, hnone]
    rfl
  · have hno : isPanic s.cfg s.regs.cmdi = false := by simpa [isPanic] using hmagic
    obtain ⟨es', ht, hnone'⟩ := message_routed (hmessage.trans (by simp [hno])) (hpanic.trans hno) hrun
    rw [State.emit_events, State.cmdiTaken_events, hcmdi, hevents, List.append_assoc] at ht
    rw [ht, hbefore, filter_routed _ fun e => by cases e <;> rfl, List.filter_append, List.filter_append, hnone, hnone']
    rfl

end Sys2Proof.Machine
end

section
/-! PROOFS. The reply consumer that fetches the reply in its call (R190, R252). -/

namespace Sys2Proof.Machine

/-! ## `GETREPLY` presented in a call (R164, R252) -/

/-- The state after P1 to P4 of a `GETREPLY` that agent `a` presents inside its stage. -/
def State.nestJudged (s : State) (a : Agent) (h expect : Word) : State :=
  (s.nest a (.getreply h expect)).judged a expect

/-- The state after P5 of it: `n` bytes copied back. -/
def State.nestCopied (s : State) (a : Agent) (h expect : Word) (n : Nat) : State :=
  (s.nestJudged a h expect).bulkOut a .dsp s.ctx.outbox.off (.host h.toNat) n

/-- The state in which the stage goes on after it. -/
def State.fetched (s : State) (a : Agent) (h expect : Word) (n : Nat) : State :=
  (replyResultStep a (s.nestCopied a h expect n)).unnest a (s.loc a).cmdo (s.loc a).cmdi

section
variable {s : State} {a : Agent} {h expect : Word} {n : Nat}

/-- What is to be copied back is told by bytes of the box alone. -/
theorem DeviceKept.replySize {s t : State} (hkept : DeviceKept [] s t) (expect : Word) :
    t.replySize expect = s.replySize expect := by
  have hword (x : Nat) : t.leWord .dsp x = s.leWord .dsp x := by simp only [State.leWord, hkept.byteAt]
  rw [State.replySize, State.replySize, hword, hkept.ctx, hkept.cfg]

theorem CallKept.nestJudged : CallKept s (s.nestJudged a h expect) :=
  (CallKept.setEx s a _).trans ((CallKept.setEx _ a _).trans ((CallKept.bulkOut ..).trans (.setEx ..)))

theorem CallKept.nestCopied : CallKept s (s.nestCopied a h expect n) := CallKept.nestJudged.trans (.bulkOut ..)

theorem CallKept.fetched : CallKept s (s.fetched a h expect n) :=
  CallKept.nestCopied.trans ((CallKept.setEx ..).trans (.setEx ..))

theorem State.nestJudged_box : ((s.nestJudged a h expect).loc a).box = s.ctx.outbox := by
  simp [State.nestJudged]

/-- P1 to P4 leave the result registers of the stage as they were. -/
theorem State.nestJudged_result1 : ((s.nestJudged a h expect).ex a).result1 = (s.ex a).result1 := by
  rw [State.nestJudged, State.judged_ex]
  simp

/-- How many bytes are to be copied back. -/
theorem State.nestJudged_size (hw : s.cfg.wf = true) (hr : s.readable .dsp s.ctx.outbox.off s.cfg.rhSize) :
    ((s.nestJudged a h expect).loc a).size = s.replySize expect := by
  have hkept : CallKept s (s.nest a (.getreply h expect)) := .setEx ..
  rw [State.nestJudged, State.judged_size (hkept.wf hw), hkept.replySize]
  rw [hkept.ctx, hkept.cfg]
  exact hkept.readable hr

theorem State.nestJudged_access : (s.nestJudged a h expect).bus.map BusRec.access =
    s.bus.map BusRec.access ++ byteReads .dsp s.ctx.outbox.off s.cfg.rhSize := by
  simp [State.nestJudged, State.judged, judgeStep, State.headed, State.bulkOut_access]

@[simp] theorem State.nestJudged_hm : (s.nestJudged a h expect).hm = s.hm := by
  simp [State.nestJudged, State.judged, judgeStep, State.headed]
@[simp] theorem State.nestJudged_replyCalls : (s.nestJudged a h expect).replyCalls = s.replyCalls := by
  simp [State.nestJudged, State.judged, judgeStep, State.headed]
@[simp] theorem State.nestJudged_deferPending : (s.nestJudged a h expect).deferPending = s.deferPending := by
  simp [State.nestJudged, State.judged, judgeStep, State.headed]

@[simp] theorem State.fetched_replyCalls : (s.fetched a h expect n).replyCalls = s.replyCalls := by
  simp [State.fetched, replyResultStep, State.nestCopied]
@[simp] theorem State.fetched_deferPending : (s.fetched a h expect n).deferPending = s.deferPending := by
  simp [State.fetched, replyResultStep, State.nestCopied]
@[simp] theorem State.fetched_cmdo : ((s.fetched a h expect n).loc a).cmdo = (s.loc a).cmdo := by
  simp [State.fetched, State.loc]

/-- P1, P2 and P5 read one byte after another. -/
theorem State.fetched_access : (s.fetched a h expect n).bus.map BusRec.access = s.bus.map BusRec.access ++
    byteReads .dsp s.ctx.outbox.off s.cfg.rhSize ++ byteReads .dsp s.ctx.outbox.off n := by
  simp [State.fetched, replyResultStep, State.nestCopied, State.bulkOut_access, State.nestJudged_access]

/-- P6 reports what was copied. -/
theorem State.fetched_results (hn : ((s.nestJudged a h expect).loc a).size = n) :
    ((s.fetched a h expect n).ex a).result0 = BitVec.ofNat 32 n ∧
      ((s.fetched a h expect n).ex a).result1 = (s.ex a).result1 := by
  simp [State.fetched, replyResultStep, State.nestCopied, hn, State.nestJudged_result1]

/-- P5 copies the reply's bytes and writes no other byte of host memory. -/
theorem State.fetched_hm (hr : s.readable .dsp s.ctx.outbox.off n) :
    (∀ i < n, Memory.read (s.fetched a h expect n).hm (h.toNat + i) = s.byteAt .dsp (s.ctx.outbox.off + i)) ∧
      ∀ x, ¬(h.toNat ≤ x ∧ x < h.toNat + n) → Memory.read (s.fetched a h expect n).hm x = Memory.read s.hm x := by
  have hkept : CallKept s (s.nestJudged a h expect) := .nestJudged
  obtain ⟨hothers, hcopied⟩ :=
    (s.nestJudged a h expect).bulkOut_host_hm a .dsp s.ctx.outbox.off h.toNat n
  have hhm : (s.fetched a h expect n).hm = (s.nestCopied a h expect n).hm := by simp [State.fetched, replyResultStep]
  rw [hhm, State.nestCopied]
  refine ⟨fun i hi => ?_, fun x hx => (hothers x hx).trans (by rw [State.nestJudged_hm])⟩
  obtain ⟨hacc, hisr⟩ := hkept.readable hr i hi
  rw [hcopied i hi hacc hisr, hkept.byteAt]

/-- P1 to P6 inside a stage, at any depth. -/
theorem runList_fetched (d : Nat) (a : Agent) (h : Word) (hw : s.cfg.wf = true) (hsize : s.cfg.rhSize ≤ s.ctx.outbox.size)
    (hregion : RegionRange s .dsp s.ctx.outbox.off s.ctx.outbox.size)
    (hr : s.readable .dsp s.ctx.outbox.off s.cfg.rhSize) (hn : n = s.replySize expect) (hbox : n ≤ s.ctx.outbox.size)
    (hhost : HostRange h.toNat n) :
    runList (entire (d + 2) a) (listing s.cfg (.getreply h expect) ++ [.ret (s.loc a).cmdo (s.loc a).cmdi])
      (s.nest a (.getreply h expect)) = .go (s.fetched a h expect n) := by
  have hkept : CallKept s (s.nest a (.getreply h expect)) := .setEx ..
  have hjudged : CallKept s (s.nestJudged a h expect) := .nestJudged
  rw [RegionRange] at hregion
  have hheader : boxReadBreach (s.nest a (.getreply h expect)).cfg (s.nest a (.getreply h expect)).ctx.outbox 0
      (s.nest a (.getreply h expect)).cfg.rhSize = none := by
    rw [hkept.cfg, hkept.ctx]
    exact boxReadBreach_eq_none.2 ⟨by omega, by omega⟩
  have hcount := State.nestJudged_size (a := a) (h := h) (expect := expect) hw hr
  have hback : readBackBreach (s.nestJudged a h expect).cfg ((s.nestJudged a h expect).loc a).box h.toNat
      ((s.nestJudged a h expect).loc a).size = none := by
    rw [hjudged.cfg, State.nestJudged_box, hcount, ← hn]
    exact readBackBreach_eq_none.2 ⟨hbox, by omega, hhost⟩
  have hcopy := entire_readBack d a hback
  rw [State.nestJudged_box, hcount, ← hn] at hcopy
  have hjudge : runList (entire (d + 2) a) [.header, .judge expect] (s.nest a (.getreply h expect)) =
      .go (s.nestJudged a h expect) := by
    rw [runList_go (entire_header d a hheader), runList_go (entire_judge ..), runList_nil]
    rfl
  rw [show listing s.cfg (.getreply h expect) ++ [.ret (s.loc a).cmdo (s.loc a).cmdi] =
    [.header, .judge expect] ++ [.readBack h, .replyResult, .ret (s.loc a).cmdo (s.loc a).cmdi] from rfl,
    runList_append hjudge, runList_go hcopy, runList_go (entire_replyResult ..), runList_go (entire_ret ..), runList_nil]
  rfl

/-- The state with what the reply consumer presents next replaced. -/
def State.withReplyCalls (s : State) (cs : List (List Desc)) : State := { s with replyCalls := cs }

/-- A legal descriptor of the consumer's set within the caller's contract (R252). -/
theorem unit_present {c : Consumer} {d : Desc} {i : Instr} (hd : decodeDesc d = .ok i) (hp : callPermits c i = true)
    (hc : contractBreach s.cfg i = none) : unit a 0 (.present c d) s =
      .to (listing s.cfg i ++ [.ret (s.loc a).cmdo (s.loc a).cmdi]) (s.nest a i) := by
  rw [unit, presentStep, hd]
  simp only [hp, hc, if_true, orRefuse]

/-- A call in which the reply consumer presents `GETREPLY`. -/
theorem entire_call_fetched (d : Nat) (a : Agent) {more : List (List Desc)}
    {c : State} (hc : c = s.withReplyCalls more)
    (hcalls : s.replyCalls = [encode (.getreply h expect)] :: more)
    (hrun : runList (entire (d + 2) a) (listing c.cfg (.getreply h expect) ++ [.ret (c.loc a).cmdo (c.loc a).cmdi])
      (c.nest a (.getreply h expect)) = .go (c.fetched a h expect n)) :
    entire (d + 4) a (.call .reply) s = .go (c.fetched a h expect n) := by
  have hallowed : callAllowed .reply [encode (.getreply h expect)] = true :=
    decide_eq_true (List.length_filter_le isGetreply [encode (.getreply h expect)])
  have hcall : unit a 0 (.call .reply) s = .to [.present .reply (encode (.getreply h expect))] c := by
    rw [hc]
    simp only [unit, callStep, hcalls, hallowed, if_true, List.map_cons, List.map_nil, State.withReplyCalls]
  have hpresent := unit_present (s := c) (a := a) (c := .reply) (decodeDesc_encode (.getreply h expect)) rfl
    (contractBreach_eq_none.2 ⟨rfl, rfl⟩)
  rw [entire_to _ a hcall rfl, runList_go ((entire_to _ a hpresent rfl).trans hrun), runList_nil]

/-! ## The stage with it -/

/-- The state in which the reply part goes on to W3c, its consumer having fetched the reply. -/
def State.deferFetched (s : State) (more : List (List Desc)) (h expect : Word) (n : Nat) : State :=
  ((s.deferEntered.replyEmitted .worker).withReplyCalls more).fetched .worker h expect n

/-- The state in which W3b has emitted the event and the consumer presents its descriptor. -/
theorem StageFrame.deferEmitted : StageFrame .worker [] s (s.deferEntered.replyEmitted .worker) :=
  (StageFrame.deferEntered []).trans (.replyEmitted [])

theorem CallKept.withReplyCalls {more : List (List Desc)} : CallKept s (s.withReplyCalls more) := .setReplyCalls ..

theorem DeviceKept.deferFetched {more : List (List Desc)} : DeviceKept [] s (s.deferFetched more h expect n) :=
  StageFrame.deferEmitted.toDeviceKept.trans (CallKept.withReplyCalls.trans .fetched).toDeviceKept

theorem State.deferFetched_lock {more : List (List Desc)} : (s.deferFetched more h expect n).lock = s.lock := by
  rw [State.deferFetched, (CallKept.withReplyCalls.trans CallKept.fetched).lock]
  simp

@[simp] theorem State.deferFetched_deferPending {more : List (List Desc)} :
    (s.deferFetched more h expect n).deferPending = false := by
  simp [State.deferFetched, State.withReplyCalls]

@[simp] theorem State.deferFetched_replyCalls {more : List (List Desc)} :
    (s.deferFetched more h expect n).replyCalls = more := by
  simp [State.deferFetched, State.withReplyCalls]

theorem State.deferFetched_events {more : List (List Desc)} (hw : s.cfg.wf = true) (hplain : s.registersPlain)
    (hr : s.readable .dsp s.ctx.outbox.off s.cfg.rhSize) : (s.deferFetched more h expect n).events =
      s.events ++ [.reply (s.bytesAt .dsp s.ctx.outbox.off s.cfg.rhSize) s.regs.cmdo] := by
  have hentered : StageFrame .worker [] s s.deferEntered := .deferEntered []
  have hbytes (x n : Nat) : s.deferEntered.bytesAt .dsp x n = s.bytesAt .dsp x n := by
    simp only [State.bytesAt, hentered.byteAt]
  rw [State.deferFetched, (CallKept.withReplyCalls.trans CallKept.fetched).events, State.replyEmitted_events,
    State.deferEntered_events, State.deferEntered_cmdo hw hplain, hbytes, hentered.cfg, hentered.ctx]
  rw [hentered.cfg, hentered.ctx]
  exact hentered.readable hr

theorem State.deferFetched_access {more : List (List Desc)} : (s.deferFetched more h expect n).bus.map BusRec.access =
    s.bus.map BusRec.access ++ ([.read .dsp s.cfg.cmdoOff] ++ byteReads .dsp s.ctx.outbox.off s.cfg.rhSize ++
      byteReads .dsp s.ctx.outbox.off s.cfg.rhSize ++ byteReads .dsp s.ctx.outbox.off n) := by
  have hentered : StageFrame .worker [] s s.deferEntered := .deferEntered []
  rw [State.deferFetched, State.fetched_access, CallKept.withReplyCalls.cfg, CallKept.withReplyCalls.ctx,
    show ((s.deferEntered.replyEmitted .worker).withReplyCalls more).bus = (s.deferEntered.replyEmitted .worker).bus from rfl,
    State.replyEmitted_access, State.deferEntered_access, State.replyEmitted_cfg, State.replyEmitted_ctx, hentered.cfg,
    hentered.ctx]
  simp only [List.append_assoc]

/-- The reply part with a consumer that fetches the reply. -/
theorem entire_replyFetched {more : List (List Desc)} (hw : s.cfg.wf = true) (hl : s.lock = none) (hplain : s.registersPlain)
    (hcalls : s.replyCalls = [encode (.getreply h expect)] :: more) (hdone : s.cmdoDone = true)
    (hsize : s.cfg.rhSize ≤ s.ctx.outbox.size) (hregion : RegionRange s .dsp s.ctx.outbox.off s.ctx.outbox.size)
    (hr : s.readable .dsp s.ctx.outbox.off s.cfg.rhSize) (hn : n = s.replySize expect) (hbox : n ≤ s.ctx.outbox.size)
    (hhost : HostRange h.toNat n) : entire 8 .worker (.given .replyReady) s.deferEntered =
      .go ((s.deferFetched more h expect n).replyDone .worker) := by
  have hentered : StageFrame .worker [] s s.deferEntered := .deferEntered []
  set c := (s.deferEntered.replyEmitted .worker).withReplyCalls more with hc
  have hkept : DeviceKept [] s c := StageFrame.deferEmitted.toDeviceKept.trans CallKept.withReplyCalls.toDeviceKept
  have hrun := runList_fetched (s := c) (n := n) (expect := expect) 3 .worker h (hkept.wf hw) (by rwa [hkept.cfg, hkept.ctx])
    (by rwa [RegionRange, hkept.cfg, hkept.ctx]) (by rw [hkept.cfg, hkept.ctx]; exact hkept.readable hr)
    (by rw [hkept.replySize, hn]) (by rwa [hkept.ctx]) hhost
  obtain ⟨hcalls', -⟩ := (StageFrame.deferEmitted (s := s)).calls
  have hcall := entire_call_fetched (n := n) 3 .worker hc (hcalls'.trans hcalls) hrun
  rw [RegionRange] at hregion
  refine entire_replyPart 5 (by rwa [State.deferEntered_ready hw hplain]) ?_ hcall ?_ ?_
  · rw [RegionRange, hentered.cfg, hentered.ctx]
    omega
  · exact State.deferFetched_lock.trans hl
  · exact DeviceKept.deferFetched.cfg.trans hentered.cfg.symm

end

/-- A flag is down once it has been put down. -/
theorem flagOf_and_not (w m : Word) : flagOf (w &&& ~~~m) m = false := by
  rw [flagOf, BitVec.and_assoc, BitVec.and_comm (~~~m), BitVec.and_not_self]
  simp

/-- What the fetch leaves in the worker's result registers and in host memory. -/
theorem State.deferFetched_copied {s : State} {h expect : Word} {n : Nat} {more : List (List Desc)} (hw : s.cfg.wf = true)
    (hheader : s.readable .dsp s.ctx.outbox.off s.cfg.rhSize) (hreply : s.readable .dsp s.ctx.outbox.off n)
    (hn : n = s.replySize expect) :
    (((s.deferFetched more h expect n).ex .worker).result0 = BitVec.ofNat 32 n ∧
      ((s.deferFetched more h expect n).ex .worker).result1 = (s.ex .worker).result1) ∧
    (∀ i < n, Memory.read (s.deferFetched more h expect n).hm (h.toNat + i) = s.byteAt .dsp (s.ctx.outbox.off + i)) ∧
      ∀ x, ¬(h.toNat ≤ x ∧ x < h.toNat + n) →
        Memory.read (s.deferFetched more h expect n).hm x = Memory.read s.hm x := by
  have hemitted : StageFrame .worker [] s (s.deferEntered.replyEmitted .worker) := .deferEmitted
  set c := (s.deferEntered.replyEmitted .worker).withReplyCalls more with hc
  have hkept : DeviceKept [] s c := hemitted.toDeviceKept.trans CallKept.withReplyCalls.toDeviceKept
  have hresults : SameResults .worker s c := hemitted.results
  have hhm : c.hm = s.hm := hemitted.hm
  have hsize : ((c.nestJudged .worker h expect).loc .worker).size = n := by
    rw [State.nestJudged_size (hkept.wf hw), hkept.replySize, hn]
    rw [hkept.cfg, hkept.ctx]
    exact hkept.readable hheader
  obtain ⟨h0, h1⟩ := State.fetched_results (s := c) hsize
  obtain ⟨hcopied, hothers⟩ := State.fetched_hm (s := c) (a := .worker) (h := h) (expect := expect) (n := n)
    (by rw [hkept.ctx]; exact hkept.readable hreply)
  rw [hhm] at hothers
  refine ⟨⟨h0, h1.trans hresults.2⟩, fun i hi => ?_, hothers⟩
  rw [← hkept.byteAt, ← hkept.ctx]
  exact hcopied i hi

/-- Settles O38: the reply part with the fetch in it, and a message part with nothing to do. -/
theorem replyFetched : Obligations.ReplyFetched := by
  intro s h expect more n hw hp hl hplain hcalls hdone hidle hsize hregion hreadable hn hbox hhost
  have hheader : s.readable .dsp s.ctx.outbox.off s.cfg.rhSize := fun i hi => hreadable i (by omega)
  have hreply : s.readable .dsp s.ctx.outbox.off n := fun i hi => hreadable i (by omega)
  set v := s.deferFetched more h expect n with hv
  have hkept : DeviceKept [] s v := .deferFetched
  have hacked : StageFrame .worker [.cmdo, .imrh] v (v.replyDone .worker) := .replyDone (by simp) (by simp) (hkept.wf hw)
  have hdevice : DeviceKept [.cmdo, .imrh] s (v.replyDone .worker) := (hkept.mono (by simp)).trans hacked.toDeviceKept
  obtain ⟨-, hpanic, hmessage⟩ := hdevice.cmdi_holds (by simp) hw hplain
  rw [hidle, Bool.false_and] at hpanic hmessage
  have hexec := exec_irqdefer_eq (v := (v.replyDone .worker).cmdiTaken .worker) hp
    (entire_replyFetched hw hl hplain hcalls hdone hsize hregion hheader hn hbox hhost) hdevice.cfg (by
      rw [runList_go (entire_given_false _ _ hpanic), runList_go (entire_given_false _ _ hmessage), runList_nil])
  set t := (((v.replyDone .worker).cmdiTaken .worker).irqReturn irqHandled).endOk .worker with ht
  have hframe : StageFrame .worker [.cmdo, .imrh] v t :=
    hacked.trans ((StageFrame.cmdiTaken _).trans ((StageFrame.irqReturn ..).trans (.endOk ..)))
  have hregs : t.regs = { s.regs with cmdo := s.regs.cmdo &&& ~~~s.cfg.cmdoDone, imrh := s.regs.imrh &&& ~~~s.cfg.imrhDone } := by
    rw [← hkept.regs_eq, ← hkept.cfg, ← State.replyDone_regs (a := .worker) (hkept.wf hw) (hkept.registersPlain hplain)]
    simp [ht]
  have hcfg : t.cfg = s.cfg := hframe.cfg.trans hkept.cfg
  refine ⟨t, hexec, ended_endOk .., by simp [ht, irqHandled], by simp [ht, hv], by simp [ht], ?_, ?_, ?_, ?_, ?_, ?_⟩
  · obtain ⟨hreplies, -⟩ := hframe.calls
    rw [hreplies, hv, State.deferFetched_replyCalls]
  · rw [State.cmdoDone, hregs, hcfg]
    exact flagOf_and_not ..
  · rw [State.imrhDone, hregs, hcfg]
    exact flagOf_and_not ..
  · rw [← State.deferFetched_events hw hplain hheader (more := more) (h := h) (expect := expect) (n := n)]
    simp [ht, hv]
  · refine newAccesses_of_access ?_
    have hbus : t.bus = ((v.replyDone .worker).cmdiTaken .worker).bus := by simp [ht]
    rw [hbus, State.cmdiTaken_access, State.replyDone_access, hv, State.deferFetched_access, hdevice.cfg, hkept.cfg]
    simp only [List.append_assoc]
  · obtain ⟨⟨h0, h1⟩, hcopied⟩ := State.deferFetched_copied (h := h) (more := more) hw hheader hreply hn
    obtain ⟨h0', h1'⟩ := hframe.results
    rw [hframe.hm]
    exact ⟨h0'.trans h0, h1'.trans h1, hcopied⟩

end Sys2Proof.Machine
end

section
/-! PROOFS. What the block does at rest with no input left, step by step (R182, R187). -/

namespace Sys2Proof.Machine

/-- No operation is in progress and the lock is free; the registers can be accessed, each a plain word of its own. -/
structure Resting (s : State) : Prop where
  wf : s.cfg.wf = true
  attached : s.attached = true
  idle : ∀ a, (s.ex a).op = none ∧ (s.ex a).todo = []
  lock : s.lock = none
  plain : s.registersPlain

/-- The state in which the block takes the line or the pending work with agent `a`. -/
def State.takenBy (s : State) (a : Agent) : State := { s with presenter := a, lastTaken := a }

section
variable {s t : State} {a : Agent}

theorem Resting.takenBy (h : Resting s) (a : Agent) : Resting (s.takenBy a) :=
  ⟨h.wf, h.attached, h.idle, h.lock, State.registersPlain_congr rfl rfl rfl rfl h.plain⟩

theorem Resting.presentable {i : Instr} (h : Resting s) (hi : a ∈ presenters i) (hhost : a ≠ .host) :
    Presentable (s.takenBy a) i := ⟨h.attached, (h.idle a).1, fun ha => absurd ha hhost, hi⟩

theorem DeviceKept.takenBy (gs : List DevReg) (s : State) (a : Agent) : DeviceKept gs s (s.takenBy a) :=
  ⟨rfl, rfl, rfl, rfl, rfl, fun _ _ => rfl, fun _ => rfl⟩

/-- After an agent's operation has ended, the others having been idle. -/
theorem Resting.ended {k : Kind} {v : Word} (h : Resting s) (he : Ended a k v t) (hothers : SameOthers a s t)
    (ha : t.attached = s.attached) (hl : t.lock = none) (hw : t.cfg.wf = true) (hr : t.registersPlain) : Resting t := by
  obtain ⟨hop, -, htodo, -⟩ := he
  refine ⟨hw, ha.trans h.attached, fun b => ?_, hl, hr⟩
  by_cases hb : b = a
  · exact hb ▸ ⟨hop, htodo⟩
  · rw [hothers b hb]
    exact h.idle b

theorem Resting.stage {k : Kind} {v : Word} {gs : List DevReg} (h : Resting s) (he : Ended a k v t)
    (hf : StageFrame a gs s t) (hl : t.lock = none) : Resting t := by
  obtain ⟨-, ha, -⟩ := hf.setting
  exact h.ended he hf.others ha hl (hf.wf h.wf) (hf.registersPlain h.plain)

/-- A high line with no work pending is taken: the source is masked and the work deferred (R182, R183). -/
theorem Resting.step_line (h : Resting s) (hp : s.port = []) (hline : s.irqLine = true) (hwork : s.deferPending = false) :
    ∃ t, step s = .next t ∧ Resting t ∧ Ended .irq .ok 0 t ∧ StageFrame .irq [.imrh] (s.takenBy .irq) t ∧
      t.irqLine = false ∧ t.deferPending = true ∧ t.events = s.events := by
  have htaken := h.takenBy .irq
  obtain ⟨t, he, hend, hframe, himrh, hpending, -, hlock, hevents⟩ := exec_irqimm htaken.wf
    (h.presentable (by simp [presenters]) (by decide)) htaken.lock htaken.plain
  refine ⟨t, ?_, htaken.stage hend hframe hlock, hend, hframe, State.irqLine_masked htaken.wf hframe himrh, ?_, hevents⟩
  · obtain ⟨hserved, -⟩ := lineServed s h.wf h.attached hp h.idle
    exact (hserved hline (.inl hwork)).trans he
  · have hasserted : s.cmdoDone = true ∨ s.cmdiBusy = true := by
      simp only [State.irqLine, Bool.or_eq_true, Bool.and_eq_true] at hline
      exact hline.imp And.left And.left
    rw [hpending]
    obtain hdone | hbusy := hasserted
    · rw [show (s.takenBy .irq).cmdoDone = true from hdone, Bool.or_true, Bool.true_or]
    · rw [show (s.takenBy .irq).cmdiBusy = true from hbusy, Bool.or_true]

/-- Pending work with the line low is taken (R187). -/
theorem Resting.step_work (h : Resting s) (hp : s.port = []) (hline : s.irqLine = false) (hwork : s.deferPending = true) :
    step s = exec .irqdefer (s.takenBy .worker) := by
  obtain ⟨-, hserved, -⟩ := lineServed s h.wf h.attached hp h.idle
  exact hserved hwork (.inl hline)

/-- With no input left a high line is taken, and then the work that it left: the second of the two steps is `IRQDEFER`, at a
state in which what asserted the line is masked and the rest of the device as before. -/
theorem Resting.line_then_work (h : Resting s) (hp : s.port = []) (hline : s.irqLine = true) (hwork : s.deferPending = false) :
    ∃ u, (∀ t, exec .irqdefer u = .next t → stepN 2 s = .next t) ∧ Presentable u .irqdefer ∧ Resting u ∧
      DeviceKept [.imrh] s u ∧ Idle .irq u ∧ u.ex .host = s.ex .host ∧ u.replyCalls = s.replyCalls ∧
      u.msgCalls = s.msgCalls ∧ u.events = s.events ∧ u.hm = s.hm := by
  obtain ⟨u, hfirst, hu, ⟨hop, hzero, htodo, -⟩, hmasked, hlow, hpending, hsilent⟩ := h.step_line hp hline hwork
  obtain ⟨-, -, -, hport, -, hreplies, hmessages, -⟩ := hmasked.setting
  refine ⟨u.takenBy .worker, fun t ht => ?_, hu.presentable (by simp [presenters]) (by decide), hu.takenBy .worker,
    (DeviceKept.takenBy _ s .irq).trans (hmasked.toDeviceKept.trans (.takenBy _ u .worker)), ⟨hop, hzero, htodo⟩,
    hmasked.others .host (by decide), hreplies, hmessages, hsilent, hmasked.hm⟩
  rw [stepN_succ hfirst, stepN_succ ((hu.step_work (hport.trans hp) hlow hpending).trans ht)]
  rfl

end

end Sys2Proof.Machine
end

section
/-! PROOFS. What the firmware's reply and its post leave behind (R253, R291). -/

namespace Sys2Proof.Machine

/-! ## Bytes of a box clear of registers (R13 (k)) -/

section
variable {s : State} {b : Box} {x : Nat}

theorem State.boxClear_congr {t : State} (hc : t.cfg = s.cfg) (hb : s.boxClear b) : t.boxClear b := by
  simpa only [State.boxClear, hc] using hb

/-- The word of a byte of the box holds no device register, is not `ISR` and not the power status word. -/
theorem State.boxClear_word (hb : s.boxClear b) (hlow : b.off ≤ x) (hhigh : x < b.off + b.size) :
    x - x % 4 ∉ s.cfg.offsets ∧ s.isPm .dsp (x - x % 4) = false := by
  obtain ⟨hoffsets, hpm⟩ := hb
  refine ⟨fun ho => ?_, ?_⟩
  · have := hoffsets _ ho
    omega
  · simp only [State.isPm, Bool.and_eq_false_iff, beq_eq_false_iff_ne]
    by_contra! h
    have := hpm h.1.symm
    omega

theorem State.boxClear_isrByte (hb : s.boxClear b) (hlow : b.off ≤ x) (hhigh : x < b.off + b.size) :
    s.isIsrByte .dsp x = false := by
  obtain ⟨hreg, -⟩ := State.boxClear_word hb hlow hhigh
  exact State.isIsr_of_plain fun _ => hreg

/-- A byte of the box reads as the one in plain memory. -/
theorem State.byteAt_box (hb : s.boxClear b) (hlow : b.off ≤ x) (hhigh : x < b.off + b.size) :
    s.byteAt .dsp x = Memory.read s.dspMem x := by
  obtain ⟨hreg, hpm⟩ := State.boxClear_word hb hlow hhigh
  have hword : s.word .dsp (x - x % 4) = Memory.readWord s.dspMem (x - x % 4) := by
    simp [State.word, State.overlay, hpm, State.stored, regAt_none fun _ => hreg, State.mem]
  rw [State.byteAt, hword, Memory.wordByte_readWord _ _ _ (by omega)]
  congr 1
  omega

/-- A byte of a live box can be accessed from the confirmation of D0 on, whatever is gated (R282). -/
theorem State.accessible_live (hd : s.d0Confirmed = true) (hb : b = s.ctx.outbox ∨ b = s.ctx.inbox) (hlow : b.off ≤ x)
    (hhigh : x < b.off + b.size) : s.inaccessible .dsp x = false := by
  have hin : inBox b x = true := by simp [inBox, hlow, hhigh]
  have hmailbox : s.inMailbox x = true := by
    obtain rfl | rfl := hb <;> simp [State.inMailbox, hin]
  simp [State.inaccessible, hd, State.isGated, State.exempt, hmailbox]

/-- So `n` bytes at the base of a live box clear of registers can be read. -/
theorem State.readable_live {n : Nat} (hd : s.d0Confirmed = true) (hb : b = s.ctx.outbox ∨ b = s.ctx.inbox)
    (hclear : s.boxClear b) (hn : n ≤ b.size) : s.readable .dsp b.off n := fun i hi =>
  ⟨State.accessible_live hd hb (by omega) (by omega), State.boxClear_isrByte hclear (by omega) (by omega)⟩

end

/-! ## The firmware's byte writes -/

/-- The plain bytes after byte writes from `x`. -/
def Memory.pokes (m : Memory) (x : Nat) : List Byte → Memory
  | [] => m
  | b :: bs =>
    Memory.pokes (Memory.writeWord m (x - x % 4) (wordSetByte (Memory.readWord m (x - x % 4)) (x % 4) b)) (x + 1) bs

/-- One byte of a word written. -/
theorem Memory.read_setByte (m : Memory) (x y : Nat) (b : Byte) :
    Memory.read (Memory.writeWord m (x - x % 4) (wordSetByte (Memory.readWord m (x - x % 4)) (x % 4) b)) y =
      if y = x then b else Memory.read m y := by
  rw [Memory.read_writeWord]
  split
  · rw [wordByte_wordSetByte _ _ _ _ (by omega), Memory.wordByte_readWord _ _ _ (by omega),
      show x - x % 4 + (y - (x - x % 4)) = y by omega]
    simp only [show y - (x - x % 4) = x % 4 ↔ y = x by omega]
  · rw [if_neg (by omega)]

theorem Memory.read_pokes (m : Memory) (x : Nat) (bs : List Byte) (y : Nat) : Memory.read (Memory.pokes m x bs) y =
    if x ≤ y then (bs[y - x]?).getD (Memory.read m y) else Memory.read m y := by
  induction bs generalizing m x with
  | nil => simp [Memory.pokes]
  | cons b bs ih =>
    rw [Memory.pokes, ih, Memory.read_setByte]
    obtain hlt | rfl | hgt := Nat.lt_trichotomy y x
    · rw [if_neg (show ¬x + 1 ≤ y by omega), if_neg (show y ≠ x by omega), if_neg (show ¬x ≤ y by omega)]
    · simp
    · rw [if_pos (show x + 1 ≤ y by omega), if_pos (show x ≤ y by omega), if_neg (show y ≠ x by omega), show y - x = y - (x + 1) + 1 by omega,
        List.getElem?_cons_succ]

section
variable {s : State} {b : Box}

/-- The firmware's writes to a box clear of registers go to plain bytes. -/
theorem State.pokeBytes_box (bs : List Byte) {x : Nat} (hb : s.boxClear b) (hlow : b.off ≤ x)
    (hhigh : x + bs.length ≤ b.off + b.size) : s.pokeBytes .dsp x bs = s.setMem .dsp (Memory.pokes s.dspMem x bs) := by
  induction bs generalizing s x with
  | nil => rfl
  | cons c bs ih =>
    rw [List.length_cons] at hhigh
    obtain ⟨hreg, hpm⟩ := State.boxClear_word hb hlow (show x < b.off + b.size by omega)
    have hisr := State.boxClear_isrByte hb hlow (show x < b.off + b.size by omega)
    have hpoke : s.pokeByte .dsp x c = s.setMem .dsp (Memory.writeWord s.dspMem (x - x % 4)
        (wordSetByte (Memory.readWord s.dspMem (x - x % 4)) (x % 4) c)) := by
      rw [State.isIsrByte] at hisr
      simp [State.pokeByte, State.store, hisr, hpm, State.setStored, State.stored, regAt_none fun _ => hreg, State.mem]
    have hrest := ih (s := s.setMem .dsp (Memory.writeWord s.dspMem (x - x % 4)
      (wordSetByte (Memory.readWord s.dspMem (x - x % 4)) (x % 4) c))) (x := x + 1) hb (by omega) (by omega)
    rw [State.pokeBytes, hpoke, hrest]
    rfl

end

/-! ## The flags of the word the firmware stores (R253) -/

section
variable {busy done : Word} (h : twoBits busy done = true) (w : Word)
include h

/-- A reply's word: DONE set, BUSY clear, the other bits as given. -/
theorem flagged_reply : flagged w busy done false true = (w &&& ~~~(busy ||| done)) ||| done ∧
    flagOf (flagged w busy done false true) busy = false ∧ flagOf (flagged w busy done false true) done = true := by
  have heq : flagged w busy done false true = merged w (busy ||| done) done := by
    ext i
    simp [flagged, merged]
    grind
  rw [heq]
  exact flags_of_acked h w

/-- A post's word: BUSY set, DONE clear, the other bits as given. -/
theorem flagged_post : flagged w busy done true false = (w &&& ~~~(busy ||| done)) ||| busy := by
  have happart := twoBits_disjoint h
  ext i hi
  have hbit : (busy &&& done)[i] = false := by rw [happart]; simp
  simp only [BitVec.getElem_and] at hbit
  simp [flagged, merged]
  grind

end

/-! ## The moves that post a message and a reply, taken whole (R253) -/

/-- From `s` to `t` the firmware has written `bs` from `x` and then `v` to the command register `g`. -/
structure FirmwarePost (s t : State) (x : Nat) (bs : List Byte) (g : DevReg) (v : Word) : Prop where
  only : DeviceOnly s t
  regs : t.regs = s.regs.set g v
  gated : t.gated = s.gated
  bytes : ∀ i < bs.length, some (Memory.read t.dspMem (x + i)) = bs[i]?

theorem DeviceOnly.kept {s t : State} (h : DeviceOnly s t) : t.cfg = s.cfg ∧ t.ctx = s.ctx ∧ t.attached = s.attached ∧
    t.lock = s.lock ∧ t.d0Confirmed = s.d0Confirmed := by
  rw [h.eq]
  exact ⟨rfl, rfl, rfl, rfl, rfl⟩

theorem FirmwarePost.resting {s t : State} {x : Nat} {bs : List Byte} {g : DevReg} {v : Word}
    (h : FirmwarePost s t x bs g v) (hs : Resting s) : Resting t := by
  obtain ⟨hcfg, hctx, hattached, hlock, hconfirmed⟩ := h.only.kept
  exact ⟨hcfg ▸ hs.wf, hattached.trans hs.attached, fun a => h.only.ex a ▸ hs.idle a, hlock.trans hs.lock,
    State.registersPlain_congr hcfg hctx h.gated hconfirmed hs.plain⟩

section
variable {s : State} {b : Box} {bs : List Byte} {x : Nat} {g : DevReg} {v : Word} {act : FwAct}

/-- A core that runs makes all the accesses of such a move. -/
theorem State.fwRun_post (hc : s.coreRunning = true) (hb : s.boxClear b) (hlow : b.off ≤ x)
    (hhigh : x + bs.length ≤ b.off + b.size) (hact : ∀ u : State, u.act act = u.setReg g v) :
    State.fwRun (pokes x bs ++ [act]).length { s with fw := pokes x bs ++ [act] } =
      ({ s.setMem .dsp (Memory.pokes s.dspMem x bs) with fw := [] } : State).setReg g v := by
  have hlen (y : Nat) : (pokes y bs).length = bs.length := by
    induction bs generalizing y with
    | nil => rfl
    | cons c cs ih => simp [pokes, ih (by simp at hhigh; omega)]
  have hplain (i : Nat) (hi : i < bs.length) : regAt s.cfg .dsp (x + i - (x + i) % 4) = none := by
    obtain ⟨hreg, -⟩ := State.boxClear_word hb (show b.off ≤ x + i by omega) (by omega)
    exact regAt_none fun _ => hreg
  rw [List.length_append, hlen, State.fwRun_pokes bs x s [act] _ hplain hc, State.pokeBytes_box bs hb hlow hhigh]
  have hrun : ({ s.setMem .dsp (Memory.pokes s.dspMem x bs) with fw := [act] } : State).coreRunning = true := hc
  simp only [List.length_singleton, State.fwRun, State.fwNext, hrun, if_true]
  exact hact _

theorem FirmwarePost.intro (hg : g ≠ .csr) :
    FirmwarePost s (({ s.setMem .dsp (Memory.pokes s.dspMem x bs) with fw := [] } : State).setReg g v) x bs g v := by
  have hset (u : State) : u.setReg g v = { u with regs := u.regs.set g v, replyBox := (u.setReg g v).replyBox } := by
    cases g with
    | csr => exact absurd rfl hg
    | _ => rfl
  refine ⟨?_, by rw [hset]; rfl, by rw [hset]; rfl, fun i hi => ?_⟩
  · exact DeviceOnly.trans (t := { s.setMem .dsp (Memory.pokes s.dspMem x bs) with fw := [] }) rfl (.setReg ..)
  · have hread := Memory.read_pokes s.dspMem x bs (x + i)
    rw [if_pos (by omega), Nat.add_sub_cancel_left, List.getElem?_eq_getElem hi] at hread
    rw [hset, List.getElem?_eq_getElem hi]
    exact congrArg some hread

/-- `FW_REPLY` (R253, R291). -/
theorem move_fwReply {w : Word} (hrun : s.coreRunning = true) (hfw : s.fw = []) (hbusy : s.cmdoBusy = true)
    (hfit : bs.length ≤ s.replyBox.size) (hregion : s.replyBox.off + s.replyBox.size ≤ s.cfg.dspSize)
    (hb : s.boxClear s.replyBox) : FirmwarePost s (s.move (.fwReply bs w)) s.replyBox.off bs .cmdo
      (flagged w s.cfg.cmdoBusy s.cfg.cmdoDone false true) := by
  have henabled : (EnvMove.fwReply bs w).enabled s = true := by
    simp [EnvMove.enabled, State.fwMayMove, hrun, hfw, hbusy, bytesFit, hfit, hregion]
  have hbegin : s.fwBegin (.fwReply bs w) = { s with fw := (EnvMove.fwReply bs w).acts s } := by simp [State.fwBegin]
  have hmoved := State.fwRun_post (g := .cmdo) (act := .cmdo (flagged w s.cfg.cmdoBusy s.cfg.cmdoDone false true)) hrun hb le_rfl
    (show s.replyBox.off + bs.length ≤ s.replyBox.off + s.replyBox.size by omega) fun _ => rfl
  have heffect : (EnvMove.fwReply bs w).effect s =
      State.fwRun ((EnvMove.fwReply bs w).acts s).length (s.fwBegin (.fwReply bs w)) := rfl
  rw [State.move, if_pos henabled, heffect, hbegin, EnvMove.acts, hmoved]
  exact .intro (by decide)

/-- `FW_POST` at the base of the inbound box (R253). -/
theorem move_fwPost {w : Word} (hrun : s.coreRunning = true) (hfw : s.fw = []) (hidle : s.cmdiBusy = false)
    (hpanic : isPanic s.cfg w = false) (hfit : bs.length ≤ s.ctx.inbox.size)
    (hregion : s.ctx.inbox.off + s.ctx.inbox.size ≤ s.cfg.dspSize) (hb : s.boxClear s.ctx.inbox) :
    FirmwarePost s (s.move (.fwPost 0 bs w)) s.ctx.inbox.off bs .cmdi
      (flagged w s.cfg.cmdiBusy s.cfg.cmdiDone true false) := by
  have henabled : (EnvMove.fwPost 0 bs w).enabled s = true := by
    simp [EnvMove.enabled, State.fwMayMove, hrun, hfw, hidle, hpanic, bytesFit, hfit, hregion]
  have hbegin : s.fwBegin (.fwPost 0 bs w) = { s with fw := (EnvMove.fwPost 0 bs w).acts s } := by simp [State.fwBegin]
  have hmoved := State.fwRun_post (g := .cmdi) (act := .cmdi (flagged w s.cfg.cmdiBusy s.cfg.cmdiDone true false)) hrun hb le_rfl
    (show s.ctx.inbox.off + bs.length ≤ s.ctx.inbox.off + s.ctx.inbox.size by omega) fun _ => rfl
  have heffect : (EnvMove.fwPost 0 bs w).effect s =
      State.fwRun ((EnvMove.fwPost 0 bs w).acts s).length (s.fwBegin (.fwPost 0 bs w)) := rfl
  rw [State.move, if_pos henabled, heffect, hbegin, EnvMove.acts, Nat.add_zero, hmoved]
  exact .intro (by decide)

end

end Sys2Proof.Machine
end

section
/-! PROOFS. The life of an outbound message (R196). -/

namespace Sys2Proof.Machine

/-! ## The move the firmware is making outlives a write that is not at `CSR` (R253) -/

section
variable (s : State) {r : Region} {off : Nat} (v : Word)

theorem State.fw_store (h : regAt s.cfg r off ≠ some .csr) : (s.store r off v).fw = s.fw := by
  unfold State.store State.setStored
  split
  · rfl
  · cases e : regAt s.cfg r off with
    | none => simp
    | some g =>
      cases g with
      | csr => exact absurd e h
      | _ => rfl

theorem State.fw_write32 (a : Agent) (h : regAt s.cfg r off ≠ some .csr) : (s.write32 a r off v).fw = s.fw := by
  rw [State.write32, State.busWrite_cases, State.record_fw]
  split
  · split
    · rw [s.draw.2.fw_store v (by simpa using h), State.draw_fw]
    · rw [State.draw_fw]
  · rw [s.fw_store v h]

end

section
variable {s : State} (a : Agent) (h : Nat) {n : Nat}

/-- A bulk write whose rounded range leaves `CSR` out. -/
theorem State.fw_bulkIn (s : State) {off : Nat} (n : Nat) (hn : ¬(off ≤ s.cfg.csrOff ∧ s.cfg.csrOff < off + roundUp n)) :
    (s.bulkIn a .dsp off h n).fw = s.fw := by
  have hr := roundUp_eq n
  have hne (t : State) (k : Nat) (ht : t.cfg = s.cfg) (hk : off + 4 * k < off + roundUp n) :
      regAt t.cfg .dsp (off + 4 * k) ≠ some .csr := by
    intro e
    obtain ⟨-, hoff⟩ := regAt_some e
    rw [ht, regOff] at hoff
    exact hn ⟨by omega, by omega⟩
  obtain ⟨hcfg, hgroups⟩ := unitsLoop_keep (P := fun t => t.cfg = s.cfg ∧ t.fw = s.fw)
    (f := groupUnit a .dsp off h) (b := 0) (n := n / 4) (s := s) (fun k t _ hk ⟨hc, hf⟩ =>
      ⟨by simp [hc], by rw [groupUnit, t.fw_write32 _ _ (hne t k hc (by split at hr <;> omega)), hf]⟩) ⟨rfl, rfl⟩
  unfold State.bulkIn tailStep
  split
  · exact hgroups
  · next h0 =>
    rw [if_neg h0] at hr
    rw [State.fw_write32 _ _ _ (hne _ _ (by simpa using hcfg) (by omega)), State.draw_fw, hgroups]

theorem State.fw_posted (hw : s.cfg.wf = true) (hb : s.boxClear s.ctx.outbox) (hn : roundUp n ≤ s.ctx.outbox.size) :
    (s.posted a h n).fw = s.fw := by
  have hout : ¬(s.ctx.outbox.off ≤ s.cfg.csrOff ∧ s.cfg.csrOff < s.ctx.outbox.off + roundUp n) :=
    State.boxClear_offset hb hn (regOff_mem s.cfg .csr)
  have hcmdo : regAt s.cfg .dsp s.cfg.cmdoOff = some .cmdo := regAt_regOff hw .cmdo
  rw [State.posted, State.update32_eq, State.fw_write32 _ _ _ (by simp [hcmdo]), State.readStep_fw, State.fw_bulkIn a h s n hout]

end

/-! ## The host posts -/

/-- What `SENDMSG` leaves of the model's record of the firmware and of the confirmation of D0. -/
theorem exec_sendmsg_firmware {s t : State} {h n : Word} (hw : s.cfg.wf = true) (hp : Presentable s (.sendmsg h n))
    (ho : s.ctx.outbox.off % 4 = 0) (hsize : roundUp n.toNat ≤ s.ctx.outbox.size)
    (hregion : RegionRange s .dsp s.ctx.outbox.off (roundUp n.toNat)) (hhost : HostRange h.toNat n.toNat)
    (hclear : s.boxClear s.ctx.outbox) (he : exec (.sendmsg h n) s = .next t) :
    t.fw = s.fw ∧ t.d0Confirmed = s.d0Confirmed := by
  have heq := exec_sendmsg_eq hp (boxWriteBreach_eq_none.2 ⟨ho, by rw [Nat.zero_add]; exact hsize, hregion⟩) hhost
  have hclear' : (s.start .host (.sendmsg h n) []).boxClear (s.start .host (.sendmsg h n) []).ctx.outbox := by
    simpa only [State.boxClear, State.start_cfg, State.start_ctx] using hclear
  obtain rfl : t = ((s.start .host (.sendmsg h n) []).posted .host h.toNat n.toNat).endOk .host :=
    Host.Outcome.next.inj (he.symm.trans heq)
  constructor
  · rw [State.endOk, State.finish_fw, State.result_fw, State.fw_posted .host h.toNat (by simpa using hw) hclear'
      (by simpa using hsize), State.start_fw]
  · simp [State.endOk, State.posted]

/-- `SENDMSG` taken from the port by a block at rest: what the firmware finds after it. -/
theorem Resting.step_sendmsg {s : State} {h n : Word} {rest : List Input} (hs : Resting s)
    (hp : s.port = .op .host (encode (.sendmsg h n)) :: rest) (hhalt : s.halt = false) (ho : s.ctx.outbox.off % 4 = 0)
    (hsize : roundUp n.toNat ≤ s.ctx.outbox.size) (hregion : s.ctx.outbox.off + s.ctx.outbox.size ≤ s.cfg.dspSize)
    (hhost : HostRange h.toNat n.toNat) (hclear : s.boxClear s.ctx.outbox) :
    ∃ t, step s = .next t ∧ Resting t ∧ Ended .host .ok 0 t ∧ t.cfg = s.cfg ∧ t.ctx = s.ctx ∧ t.port = rest ∧
      t.replyCalls = s.replyCalls ∧ t.regs = s.regs.set .cmdo (s.regs.cmdo ||| s.cfg.cmdoBusy) ∧ t.pmhw = s.pmhw ∧
      t.fw = s.fw ∧ t.d0Confirmed = s.d0Confirmed ∧ t.replyBox = (if s.cmdoBusy then s.replyBox else s.ctx.outbox) ∧
      t.deferPending = s.deferPending ∧ t.events = s.events := by
  have hstep := stepRunsDecoded s .host (encode (.sendmsg h n)) (.sendmsg h n) rest hs.wf hp hs.attached (hs.idle .host).1
    (fun _ => hhalt) (by rw [decode_descBytes, decodeDesc_encode]; rfl)
  set u : State := { s with port := rest, presenter := .host }
  have hplain : u.registersPlain := State.registersPlain_congr rfl rfl rfl rfl hs.plain
  have hpresent : Presentable u (.sendmsg h n) := ⟨hs.attached, (hs.idle .host).1, fun _ => hhalt, by simp [u, presenters]⟩
  have hrange : RegionRange u .dsp u.ctx.outbox.off (roundUp n.toNat) := (Nat.add_le_add_left hsize _).trans hregion
  obtain ⟨t, he, hend, -, -, -, hcmdo, -, -, hregs, hpmhw, -, hbox, hblock, -, hothers, hsetting, hevents, -⟩ :=
    sendmsgResult u h n hs.wf hpresent ho hsize hrange hhost hplain hclear
  obtain ⟨hctx, -, hwork, hlock, -, -⟩ := hblock
  obtain ⟨hcfg, hattached, hgated, hport, -, hreplies, -, -, -⟩ := hsetting
  obtain ⟨hfw, hconfirmed⟩ := exec_sendmsg_firmware (s := u) hs.wf hpresent ho hsize hrange hhost hclear he
  refine ⟨t, hstep.trans he, hs.ended hend hothers hattached (hlock.trans hs.lock) (hcfg ▸ hs.wf)
    (State.registersPlain_congr hcfg hctx hgated hconfirmed hs.plain), hend, hcfg, hctx, hport, hreplies,
    Regs.ext_get fun g => ?_, hpmhw, hfw, hconfirmed, hbox, hwork, hevents⟩
  rw [Regs.get_set]
  split
  · next hg => exact hg ▸ hcmdo
  · next hg => exact hregs g hg

/-! ## The block dispatches the reply -/

/-- `IRQDEFER` with a reply ready, no reply consumer and no message, whatever the message consumer would present. -/
theorem exec_irqdefer_reply {s : State} (hw : s.cfg.wf = true) (hp : Presentable s .irqdefer) (hl : s.lock = none)
    (hr : s.registersPlain) (hreplies : s.replyCalls = []) (hdone : s.cmdoDone = true) (hidle : s.cmdiBusy = false)
    (hregion : RegionRange s .dsp s.ctx.outbox.off s.cfg.rhSize) (hread : s.readable .dsp s.ctx.outbox.off s.cfg.rhSize) :
    ∃ t, exec .irqdefer s = .next t ∧ Ended .worker .ok 0 t ∧ StageFrame .worker [.cmdo, .imrh] s t ∧ t.irqRet = 2 ∧
      t.deferPending = false ∧ t.lock = none ∧ t.regs.cmdo = s.regs.cmdo &&& ~~~s.cfg.cmdoDone ∧
      t.regs.imrh = s.regs.imrh &&& ~~~s.cfg.imrhDone ∧
      t.events = s.events ++ [.reply (s.bytesAt .dsp s.ctx.outbox.off s.cfg.rhSize) s.regs.cmdo] := by
  have hentered : StageFrame .worker [] s s.deferEntered := .deferEntered _
  obtain ⟨hreplies', -⟩ := hentered.calls
  obtain ⟨-, hpanic, hmessage⟩ := State.deferAnswered_cmdi hw hr
  rw [hidle, Bool.false_and] at hpanic hmessage
  have hexec := exec_irqdefer_eq (v := s.deferAnswered) hp
    (entire_replyServed 5 (hreplies'.trans hreplies) (by simpa using hl) fun _ => by
      rw [RegionRange, hentered.cfg, hentered.ctx]
      exact hregion)
    (by rw [State.replyServed_cfg, hentered.cfg])
    (by rw [← State.deferAnswered, runList_go (entire_given_false _ _ hpanic), runList_go (entire_given_false _ _ hmessage),
      runList_nil])
  obtain ⟨hcmdo, himrh⟩ := State.deferAnswered_regs hw hr
  have hevents := State.deferAnswered_events hw hr fun _ => hread
  rw [hdone, if_pos rfl] at himrh hevents
  exact ⟨_, hexec, ended_endOk .., (StageFrame.deferAnswered hw).trans ((StageFrame.irqReturn ..).trans (.endOk ..)),
    by simp [irqHandled], by simp, by simpa using State.deferAnswered_lock hl, by simpa using hcmdo, by simpa using himrh,
    by simpa using hevents⟩

/-- A flag that is down stays down when others are put down. -/
theorem flagOf_and_of_false {w f : Word} (m : Word) (h : flagOf w f = false) : flagOf (w &&& m) f = false := by
  simp only [flagOf, bne_eq_false_iff_eq] at h ⊢
  rw [BitVec.and_assoc, BitVec.and_comm m, ← BitVec.and_assoc, h]
  exact BitVec.zero_and

/-- Bytes of a box clear of registers are as before, whatever the registers. -/
theorem DeviceKept.bytesAt_box {gs : List DevReg} {s t : State} {b : Box} {n : Nat} (h : DeviceKept gs s t)
    (hb : s.boxClear b) (hn : n ≤ b.size) : t.bytesAt .dsp b.off n = s.bytesAt .dsp b.off n := by
  have hb' := State.boxClear_congr h.cfg hb
  refine List.map_congr_left fun i hi => ?_
  have hi := List.mem_range.1 hi
  rw [State.byteAt_box hb' (by omega) (by omega), State.byteAt_box hb (by omega) (by omega)]
  exact congrArg (Memory.read · _) (h.mem .dsp)

/-- With no input left a reply is served in two steps: the source is masked and the work deferred, then the reply dispatched,
acknowledged and the source unmasked. -/
theorem Resting.reply_served {s : State} (hs : Resting s) (hp : s.port = []) (hreplies : s.replyCalls = [])
    (hdone : s.cmdoDone = true) (hmask : s.imrhDone = false) (hidle : s.cmdiBusy = false) (hwork : s.deferPending = false)
    (hd : s.d0Confirmed = true) (hclear : s.boxClear s.ctx.outbox) (hheader : s.cfg.rhSize ≤ s.ctx.outbox.size)
    (hregion : s.ctx.outbox.off + s.ctx.outbox.size ≤ s.cfg.dspSize) :
    ∃ t, stepN 2 s = .next t ∧ t.cfg = s.cfg ∧ t.regs.cmdo = s.regs.cmdo &&& ~~~s.cfg.cmdoDone ∧ t.imrhDone = false ∧
      t.irqLine = false ∧ t.deferPending = false ∧ t.irqRet = 2 ∧ t.lock = none ∧ Idle .irq t ∧ Idle .worker t ∧
      t.ex .host = s.ex .host ∧
      t.events = s.events ++ [.reply (s.bytesAt .dsp s.ctx.outbox.off s.cfg.rhSize) s.regs.cmdo] := by
  have hread := State.readable_live hd (.inl rfl) hclear hheader
  obtain ⟨u, hsteps, hpresent, hu, hkept, hirq, huhost, hcalls, -, hsilent, -⟩ :=
    hs.line_then_work hp (by simp [State.irqLine, hdone, hmask]) hwork
  have hcmdo : u.regs.cmdo = s.regs.cmdo := hkept.regs .cmdo (by simp)
  have hcmdi : u.regs.cmdi = s.regs.cmdi := hkept.regs .cmdi (by simp)
  obtain ⟨t, he, ⟨hop, hzero, htodo, -⟩, hframe, hret, hnone, hlock, htcmdo, htimrh, hevents⟩ :=
    exec_irqdefer_reply hu.wf hpresent hu.lock hu.plain
      (hcalls.trans hreplies) (by rwa [State.cmdoDone, hcmdo, hkept.cfg]) (by rwa [State.cmdiBusy, hcmdi, hkept.cfg])
      (by rw [RegionRange, hkept.cfg, hkept.ctx]; exact (Nat.add_le_add_left hheader _).trans hregion)
      (by rw [hkept.cfg, hkept.ctx]; exact hkept.readable hread)
  have htcmdi : t.regs.cmdi = s.regs.cmdi := (hframe.regs .cmdi (by simp)).trans hcmdi
  have hcfg : t.cfg = s.cfg := hframe.cfg.trans hkept.cfg
  rw [hcmdo, hkept.cfg] at htcmdo
  have hacked : t.cmdoDone = false := by
    rw [State.cmdoDone, htcmdo, hcfg]
    exact flagOf_and_not ..
  have hquiet : t.cmdiBusy = false := by rwa [State.cmdiBusy, htcmdi, hcfg]
  rw [hkept.ctx, hkept.cfg, hkept.bytesAt_box hclear hheader, hcmdo, hsilent] at hevents
  refine ⟨t, hsteps t he, hcfg, htcmdo, ?_, by simp [State.irqLine, hacked, hquiet], hnone, hret, hlock, ?_,
    ⟨hop, hzero, htodo⟩, (hframe.others .host (by decide)).trans huhost, hevents⟩
  · rw [State.imrhDone, htimrh, hframe.cfg]
    exact flagOf_and_not ..
  · rw [Idle, hframe.others .irq (by decide)]
    exact hirq

/-- What is read at the base of a box clear of registers that holds the bytes `bs`. -/
theorem State.bytesAt_box {s : State} {b : Box} {bs : List Byte} {n : Nat} (hb : s.boxClear b)
    (hbytes : ∀ i < bs.length, some (Memory.read s.dspMem (b.off + i)) = bs[i]?) (hn : n ≤ bs.length)
    (hfit : bs.length ≤ b.size) : s.bytesAt .dsp b.off n = bs.take n := by
  refine List.ext_getElem (by simp [State.bytesAt, hn]) fun i hi hi' => ?_
  have hlen : i < bs.length := by
    rw [List.length_take] at hi'
    omega
  have hbyte := hbytes i hlen
  rw [List.getElem?_eq_getElem hlen, Option.some.injEq] at hbyte
  simp only [State.bytesAt, List.getElem_map, List.getElem_range, List.getElem_take]
  rw [State.byteAt_box hb (by omega) (by omega), hbyte]

/-- Settles O50: `SENDMSG`, the firmware's reply, and the two steps in which the block serves it. -/
theorem outboundLife : Obligations.OutboundLife := by
  intro s h n w bytes hw hattached hhalt hidle hlock hconfirmed hrun hfw hbox hplain hmask hquiet hdone hwork hreplies ho hsize
    hregion hhost hclear hheader hfit hport
  have hbits := s.cfg.wf_cmdo hw
  obtain ⟨hword, hbusy, hready⟩ := flagged_reply hbits w
  obtain ⟨u, hfirst, hu, ⟨hop, hzero, htodo, -⟩, hucfg, huctx, huport, hucalls, huregs, hupmhw, hufw, hud0, hubox, huwork,
    huevents⟩ := Resting.step_sendmsg ⟨hw, hattached, hidle, hlock, hplain⟩ hport hhalt ho hsize hregion hhost hclear
  have hreplyBox : u.replyBox = s.ctx.outbox := by
    rw [hubox]
    split
    · next h => exact hbox h
    · rfl
  have huBusy : u.cmdoBusy = true := by
    rw [State.cmdoBusy, huregs, hucfg]
    exact (flags_of_posted hw _).1
  have huRun : u.coreRunning = true := by
    rw [← hrun]
    simp only [State.coreRunning, State.csrRst, State.csrStall, State.inD0, huregs, hucfg, hupmhw]
    rfl
  set v := u.setPort [] with hvdef
  have hv : Resting v := ⟨hu.wf, hu.attached, hu.idle, hu.lock, State.registersPlain_congr rfl rfl rfl rfl hu.plain⟩
  have hvcfg : v.cfg = s.cfg := hucfg
  have hvctx : v.ctx = s.ctx := huctx
  have hvbox : v.replyBox = s.ctx.outbox := hreplyBox
  have hvregs : v.regs = s.regs.set .cmdo (s.regs.cmdo ||| s.cfg.cmdoBusy) := huregs
  have hpost := move_fwReply (s := v) (bs := bytes) (w := w) huRun (hufw.trans hfw) huBusy (by rwa [hvbox])
    (by rwa [hvbox, hvcfg]) (by rw [hvbox]; exact State.boxClear_congr hvcfg hclear)
  rw [hvcfg, hvbox] at hpost
  have hsecond : step u = .next (v.move (.fwReply bytes w)) := step_input hu.wf huport
  set x := v.move (.fwReply bytes w) with hxdef
  have hxcfg : x.cfg = s.cfg := by simp [hxdef, hvcfg]
  have hxctx : x.ctx = s.ctx := by simp [hxdef, hvctx]
  have hxcmdo : x.regs.cmdo = (w &&& ~~~(s.cfg.cmdoBusy ||| s.cfg.cmdoDone)) ||| s.cfg.cmdoDone := by
    rw [hpost.regs, ← hword]
    rfl
  have hxclear : x.boxClear x.ctx.outbox := hxctx ▸ State.boxClear_congr hxcfg hclear
  have hxheader : x.bytesAt .dsp s.ctx.outbox.off s.cfg.rhSize = bytes.take s.cfg.rhSize :=
    State.bytesAt_box (b := s.ctx.outbox) (hxctx ▸ hxclear) hpost.bytes hheader hfit
  rw [hword] at hbusy hready
  obtain ⟨t, hserved, hcfg, hcmdo, himrh, hline, hpending, hret, hfree, hirq, hworker, hothers, hevents⟩ :=
    (hpost.resting hv).reply_served (v.move_port _) ((v.move_replyCalls _).trans (hucalls.trans hreplies))
      (by rw [State.cmdoDone, hxcmdo, hxcfg]; exact hready)
      (by rw [State.imrhDone, hpost.regs, hvregs, hxcfg]; exact hmask)
      (by rw [State.cmdiBusy, hpost.regs, hvregs, hxcfg]; exact hquiet)
      ((v.move_deferPending _).trans (huwork.trans hwork)) ((v.move_d0Confirmed _).trans (hud0.trans hconfirmed)) hxclear
      (by rw [hxcfg, hxctx]; omega) (by rwa [hxcfg, hxctx])
  rw [hxcfg, hxcmdo] at hcmdo
  refine ⟨t, ?_, ?_, himrh, hline, hpending, hret, hfree, fun a => ?_, ?_⟩
  · rw [stepN_succ hfirst, stepN_succ hsecond, hserved]
  · rw [State.outPending, State.cmdoBusy, State.cmdoDone, hcmdo, hcfg, hxcfg, flagOf_and_of_false _ hbusy, flagOf_and_not]
    rfl
  · cases a with
    | irq => exact hirq
    | worker => exact hworker
    | host =>
      rw [Idle, hothers, hpost.only.ex]
      exact ⟨hop, hzero, htodo⟩
  · rw [hevents, hxctx, hxcfg, hxheader, hxcmdo]
    exact congrArg (· ++ _) ((v.move_events _).trans huevents)

end Sys2Proof.Machine
end

section
/-! PROOFS. The life of an inbound message (R197). -/

namespace Sys2Proof.Machine

/-! ## What the message consumer presents (R193, R252) -/

/-- The state after a `MBOXRD` from the base of the inbound box presented in a call. -/
def State.messageRead (s : State) (a : Agent) (h n : Word) : State :=
  (((s.nest a (.mboxrd 0 h n)).bulkOut a .dsp s.ctx.inbox.off (.host h.toNat) n.toNat).result a .ok 0).unnest a
    (s.loc a).cmdo (s.loc a).cmdi

/-- The state after a `CMDDONE` presented in a call. -/
def State.messageAcked (s : State) (a : Agent) : State :=
  (((s.nest a .cmddone).cmdAcked a).result a .ok 0).unnest a (s.loc a).cmdo (s.loc a).cmdi

section
variable {s : State} {a : Agent} {h n : Word}

/-- `MBOXRD` in a call. -/
theorem entire_present_mboxrd (d : Nat) (hbox : n.toNat ≤ s.ctx.inbox.size)
    (hregion : RegionRange s .dsp s.ctx.inbox.off n.toNat) (hhost : HostRange h.toNat n.toNat) :
    entire (d + 3) a (.present .message (encode (.mboxrd 0 h n))) s = .go (s.messageRead a h n) := by
  have hpresent := unit_present (s := s) (a := a) (c := .message) (decodeDesc_encode (.mboxrd 0 h n)) rfl
    ((contractBreach_eq_none_of_buffer rfl rfl).2 hhost)
  have hread := entire_boxRead d a (b := 0) (h := h) (n := n) (s := s.nest a (.mboxrd 0 h n)) (by
    rw [boxReadBreach_eq_none]
    simpa [State.nest, RegionRange] using And.intro hbox hregion)
  rw [entire_to _ a hpresent rfl,
    show listing s.cfg (.mboxrd 0 h n) = [.boxRead 0 h n, .ok] from rfl, List.cons_append, List.cons_append, List.nil_append,
    runList_go hread, runList_go (entire_ok ..), runList_go (entire_ret ..), runList_nil]
  simp [State.messageRead, State.nest]

/-- `CMDDONE` in a call. -/
theorem entire_present_cmddone (d : Nat) (hl : s.lock = none) :
    entire (d + 1) a (.present .message (encode .cmddone)) s = .go (s.messageAcked a) := by
  have hpresent := unit_present (s := s) (a := a) (c := .message) (decodeDesc_encode .cmddone) rfl
    (contractBreach_eq_none.2 ⟨rfl, rfl⟩)
  have hacked := runList_cmdAcked (a := a) (s := s.nest a .cmddone) d (by simpa [State.nest] using hl)
    [.ret (s.loc a).cmdo (s.loc a).cmdi]
  rw [show (s.nest a .cmddone).cfg = s.cfg by simp [State.nest]] at hacked
  rw [entire_to _ a hpresent rfl]
  refine hacked.trans ?_
  rw [runList_go (entire_ok ..), runList_go (entire_ret ..), runList_nil]
  rfl

theorem CallKept.messageRead : CallKept s (s.messageRead a h n) :=
  (CallKept.setEx s a _).trans ((CallKept.bulkOut ..).trans ((CallKept.setEx ..).trans (.setEx ..)))

/-- The message's bytes are copied and no other byte of host memory is written. -/
theorem State.messageRead_hm (hr : s.readable .dsp s.ctx.inbox.off n.toNat) :
    (∀ i < n.toNat, Memory.read (s.messageRead a h n).hm (h.toNat + i) = s.byteAt .dsp (s.ctx.inbox.off + i)) ∧
      ∀ x, ¬(h.toNat ≤ x ∧ x < h.toNat + n.toNat) → Memory.read (s.messageRead a h n).hm x = Memory.read s.hm x := by
  have hkept : CallKept s (s.nest a (.mboxrd 0 h n)) := .setEx ..
  obtain ⟨hothers, hcopied⟩ :=
    (s.nest a (.mboxrd 0 h n)).bulkOut_host_hm a .dsp s.ctx.inbox.off h.toNat n.toNat
  have hhm : (s.messageRead a h n).hm =
      ((s.nest a (.mboxrd 0 h n)).bulkOut a .dsp s.ctx.inbox.off (.host h.toNat) n.toNat).hm := by simp [State.messageRead]
  rw [hhm]
  refine ⟨fun i hi => ?_, fun x hx => (hothers x hx).trans (by simp [State.nest])⟩
  obtain ⟨hacc, hisr⟩ := hkept.readable hr i hi
  rw [hcopied i hi hacc hisr, hkept.byteAt]

/-- What command-done leaves, presented in a call. -/
theorem State.messageAcked_flags (hw : s.cfg.wf = true) (hr : s.registersPlain) :
    (s.messageAcked a).cmdiBusy = false ∧ (s.messageAcked a).cmdiDone = true ∧ (s.messageAcked a).imrhBusy = false := by
  have hkept : CallKept s (s.nest a .cmddone) := .setEx ..
  have hflags := State.cmdAcked_flags (a := a) (hkept.wf hw) (hkept.registersPlain hr)
  simpa [State.messageAcked, State.unnest, State.cmdiBusy, State.cmdiDone, State.imrhBusy] using hflags

theorem StageFrame.nest (s : State) (a : Agent) (gs : List DevReg) (i : Instr) : StageFrame a gs s (s.nest a i) :=
  .setEx s gs rfl rfl

theorem StageFrame.result (s : State) (a : Agent) (gs : List DevReg) (k : Kind) (v : Word) :
    StageFrame a gs s (s.result a k v) := .setEx s gs rfl rfl

theorem StageFrame.unnest (s : State) (a : Agent) (gs : List DevReg) (o n : Word) : StageFrame a gs s (s.unnest a o n) :=
  .setEx s gs rfl rfl

theorem StageFrame.messageAcked (hw : s.cfg.wf = true) : StageFrame a [.cmdi, .imrh] s (s.messageAcked a) := by
  have hnested : StageFrame a [.cmdi, .imrh] s (s.nest a .cmddone) := .nest ..
  exact hnested.trans ((StageFrame.cmdAcked (hnested.wf hw)).trans ((StageFrame.result ..).trans (.unnest ..)))

@[simp] theorem State.messageAcked_lock : (s.messageAcked a).lock = none := by simp [State.messageAcked, State.unnest]
@[simp] theorem State.messageAcked_events : (s.messageAcked a).events = s.events := by
  simp [State.messageAcked, State.unnest, State.nest]
@[simp] theorem State.messageAcked_deferPending : (s.messageAcked a).deferPending = s.deferPending := by
  simp [State.messageAcked, State.unnest, State.nest]
@[simp] theorem State.messageRead_deferPending : (s.messageRead a h n).deferPending = s.deferPending := by
  simp [State.messageRead, State.unnest, State.nest]

end

/-! ## The stage that dispatches the message -/

/-- The state with what the message consumer presents next replaced. -/
def State.withMsgCalls (s : State) (cs : List (List Desc)) : State := { s with msgCalls := cs }

theorem CallKept.withMsgCalls (s : State) (cs : List (List Desc)) : CallKept s (s.withMsgCalls cs) :=
  ⟨⟨rfl, rfl, rfl, rfl, rfl, fun _ _ => rfl, fun _ => rfl⟩, rfl, rfl⟩

/-- The state after the call in which the message consumer reads the message and acknowledges it. -/
def State.messageHandled (s : State) (a : Agent) (h n : Word) : State :=
  ((s.withMsgCalls []).messageRead a h n).messageAcked a

section
variable {s : State} {a : Agent} {h n : Word}

/-- The state in which the consumer presents `CMDDONE`. -/
theorem CallKept.handing : CallKept s ((s.withMsgCalls []).messageRead a h n) := (CallKept.withMsgCalls ..).trans .messageRead

theorem entire_call_message (d : Nat) (hcalls : s.msgCalls = [[encode (.mboxrd 0 h n), encode .cmddone]])
    (hl : s.lock = none) (hbox : n.toNat ≤ s.ctx.inbox.size) (hregion : RegionRange s .dsp s.ctx.inbox.off n.toNat)
    (hhost : HostRange h.toNat n.toNat) : entire (d + 4) a (.call .message) s = .go (s.messageHandled a h n) := by
  have hcall : unit a 0 (.call .message) s =
      .to [.present .message (encode (.mboxrd 0 h n)), .present .message (encode .cmddone)] (s.withMsgCalls []) := by
    simp only [unit, callStep, hcalls, List.map_cons, List.map_nil, State.withMsgCalls]
  rw [entire_to _ a hcall rfl, runList_go (entire_present_mboxrd (s := s.withMsgCalls []) d hbox hregion hhost),
    runList_go (entire_present_cmddone (d + 2) (CallKept.handing.lock.trans hl)), runList_nil]
  rfl

theorem DeviceKept.messageHandled (hw : s.cfg.wf = true) : DeviceKept [.cmdi, .imrh] s (s.messageHandled a h n) :=
  (CallKept.handing.toDeviceKept.mono (by simp)).trans (StageFrame.messageAcked (CallKept.handing.wf hw)).toDeviceKept

theorem State.messageHandled_flags (hw : s.cfg.wf = true) (hr : s.registersPlain) :
    (s.messageHandled a h n).cmdiBusy = false ∧ (s.messageHandled a h n).cmdiDone = true ∧
      (s.messageHandled a h n).imrhBusy = false :=
  State.messageAcked_flags (CallKept.handing.wf hw) (CallKept.handing.registersPlain hr)

@[simp] theorem State.messageHandled_lock : (s.messageHandled a h n).lock = none := by simp [State.messageHandled]
@[simp] theorem State.messageHandled_deferPending : (s.messageHandled a h n).deferPending = s.deferPending := by
  simp [State.messageHandled, State.withMsgCalls]
theorem State.messageHandled_events : (s.messageHandled a h n).events = s.events := by
  rw [State.messageHandled, State.messageAcked_events, CallKept.handing.events]

theorem State.messageHandled_hm (hw : s.cfg.wf = true) (hr : s.readable .dsp s.ctx.inbox.off n.toNat) :
    (∀ i < n.toNat, Memory.read (s.messageHandled a h n).hm (h.toNat + i) = s.byteAt .dsp (s.ctx.inbox.off + i)) ∧
      ∀ x, ¬(h.toNat ≤ x ∧ x < h.toNat + n.toNat) → Memory.read (s.messageHandled a h n).hm x = Memory.read s.hm x := by
  have hkept : CallKept s (s.withMsgCalls []) := .withMsgCalls ..
  have hacked := StageFrame.messageAcked (a := a) (CallKept.handing (s := s) (a := a) (h := h) (n := n) |>.wf hw)
  rw [State.messageHandled, hacked.hm]
  obtain ⟨hcopied, hothers⟩ := State.messageRead_hm (a := a) (h := h) (hkept.readable hr)
  exact ⟨fun i hi => (hcopied i hi).trans (hkept.byteAt ..), hothers⟩

end

/-- `IRQDEFER` with no reply ready and a message whose consumer reads it and acknowledges it. -/
theorem exec_irqdefer_message {s : State} {h n : Word} (hw : s.cfg.wf = true) (hp : Presentable s .irqdefer)
    (hl : s.lock = none) (hr : s.registersPlain) (hquiet : s.cmdoDone = false) (hbusy : s.cmdiBusy = true)
    (hpanic : isPanic s.cfg s.regs.cmdi = false) (hcalls : s.msgCalls = [[encode (.mboxrd 0 h n), encode .cmddone]])
    (hbox : n.toNat ≤ s.ctx.inbox.size) (hregion : RegionRange s .dsp s.ctx.inbox.off n.toNat)
    (hread : s.readable .dsp s.ctx.inbox.off n.toNat) (hhost : HostRange h.toNat n.toNat) :
    ∃ t, exec .irqdefer s = .next t ∧ Ended .worker .ok 0 t ∧ DeviceKept [.cmdi, .imrh] s t ∧ t.cmdiBusy = false ∧
      t.cmdiDone = true ∧ t.imrhBusy = false ∧ t.deferPending = false ∧ t.irqRet = 2 ∧ t.lock = none ∧
      t.events = s.events ++ [.msg s.regs.cmdi] ∧
      (∀ i < n.toNat, Memory.read t.hm (h.toNat + i) = s.byteAt .dsp (s.ctx.inbox.off + i)) ∧
      ∀ x, ¬(h.toNat ≤ x ∧ x < h.toNat + n.toNat) → Memory.read t.hm x = Memory.read s.hm x := by
  have hentered : StageFrame .worker [] s s.deferEntered := .deferEntered []
  obtain ⟨hcmdi, hp1, hp2⟩ := hentered.toDeviceKept.cmdi_holds (by simp) hw hr
  rw [hbusy, hpanic] at hp1 hp2
  set x := s.deferEntered.cmdiTaken .worker with hx
  set e := x.emit (.msg (x.loc .worker).cmdi) with he
  have hframe : StageFrame .worker [] s e := hentered.trans ((StageFrame.cmdiTaken []).trans (.emit ..))
  obtain ⟨-, hecalls⟩ := hframe.calls
  have hcall := entire_call_message (a := .worker) (s := e) 3 (hecalls.trans hcalls) (by simpa [he, hx] using hl)
    (by rwa [hframe.ctx]) (by rwa [RegionRange, hframe.cfg, hframe.ctx]) hhost
  have hreply : entire 8 .worker (.given .replyReady) s.deferEntered = .go s.deferEntered :=
    entire_given_false _ _ ((State.deferEntered_ready hw hr).trans hquiet)
  have hmessage : entire 8 .worker (.given .message) x = .go (e.messageHandled .worker h n) := by
    rw [entire_given_true _ _ hp2, guarded, runList_go (entire_emitMsg ..), runList_go hcall, runList_nil]
  have hexec := exec_irqdefer_eq hp hreply hentered.cfg (by
    rw [runList_go (entire_given_false _ _ hp1), runList_go hmessage, runList_nil])
  set k := e.messageHandled .worker h n with hk
  have hhandled : DeviceKept [.cmdi, .imrh] e k := .messageHandled (hframe.wf hw)
  have hended : StageFrame .worker [] k ((k.irqReturn irqHandled).endOk .worker) := (StageFrame.irqReturn ..).trans (.endOk ..)
  have hbytes (y : Nat) : e.byteAt .dsp y = s.byteAt .dsp y := hframe.byteAt ..
  obtain ⟨hdown, hack, hunmasked⟩ := State.messageHandled_flags (a := .worker) (h := h) (n := n) (hframe.wf hw)
    (hframe.registersPlain hr)
  obtain ⟨hcopied, hothers⟩ := State.messageHandled_hm (s := e) (a := .worker) (h := h) (n := n) (hframe.wf hw)
    (by rw [hframe.ctx]; exact hframe.readable hread)
  refine ⟨_, hexec, ended_endOk .., (hframe.toDeviceKept.mono (by simp)).trans (hhandled.trans
    (hended.toDeviceKept.mono (by simp))), ?_, ?_, ?_, by simp [hk, he, hx], by simp [irqHandled], by simp [hk], ?_, ?_⟩
  · simpa [State.cmdiBusy] using hdown
  · simpa [State.cmdiDone] using hack
  · simpa [State.imrhBusy] using hunmasked
  · rw [State.endOk_events, State.irqReturn_events, hk, State.messageHandled_events, he, State.emit_events, hcmdi]
    simp [hx]
  · rw [hended.hm]
    refine ⟨fun i hi => (hcopied i hi).trans ?_, fun y hy => (hothers y hy).trans (by rw [hframe.hm])⟩
    rw [hbytes, hframe.ctx]

/-- Settles O51: the firmware's post, and the two steps in which the block dispatches it to its consumer. -/
theorem inboundLife : Obligations.InboundLife := by
  intro s h n w v bytes hw hattached hidle hlock hconfirmed hrun hfw hplain hmask hquiet hdone hwork hregion hclear hlen hfit
    hhost hv hpanic hpanic' hport hcalls
  have hbits := s.cfg.wf_cmdi hw
  have hword : flagged w s.cfg.cmdiBusy s.cfg.cmdiDone true false = v := (flagged_post hbits w).trans hv.symm
  have hbusy : flagOf v s.cfg.cmdiBusy = true := by
    rw [hv, flagOf_or, flagOf_self (twoBits_fst hbits), Bool.or_true]
  set r := s.setPort []
  have hr : Resting r := ⟨hw, hattached, hidle, hlock, State.registersPlain_congr rfl rfl rfl rfl hplain⟩
  have hpost := move_fwPost (s := r) (bs := bytes) (w := w) hrun hfw hquiet (beq_eq_false_iff_ne.2 hpanic) hfit hregion hclear
  have hfirst : step s = .next (r.move (.fwPost 0 bytes w)) := step_input hw hport
  set x := r.move (.fwPost 0 bytes w) with hxdef
  have hxcfg : x.cfg = s.cfg := r.move_cfg _
  have hxctx : x.ctx = s.ctx := r.move_ctx _
  have hxregs : x.regs = s.regs.set .cmdi v := hpost.regs.trans (congrArg (s.regs.set .cmdi) hword)
  have hxbusy : x.cmdiBusy = true := by rwa [State.cmdiBusy, hxregs, hxcfg]
  have hxmask : x.imrhBusy = false := by rwa [State.imrhBusy, hxregs, hxcfg]
  have hxdone : x.cmdoDone = false := by rwa [State.cmdoDone, hxregs, hxcfg]
  obtain ⟨u, hsteps, hpresent, hu, hkept, -, -, -, hucalls, huevents, huhm⟩ := (hpost.resting hr).line_then_work
    (r.move_port _) (by simp [State.irqLine, hxbusy, hxmask]) ((r.move_deferPending _).trans hwork)
  have hucfg : u.cfg = s.cfg := hkept.cfg.trans hxcfg
  have huctx : u.ctx = s.ctx := hkept.ctx.trans hxctx
  have hcmdi : u.regs.cmdi = v := (hkept.regs .cmdi (by simp)).trans (congrArg Regs.cmdi hxregs)
  have hcmdo : u.regs.cmdo = s.regs.cmdo := (hkept.regs .cmdo (by simp)).trans (by rw [hxregs]; rfl)
  have huclear : u.boxClear u.ctx.inbox := huctx ▸ State.boxClear_congr hucfg hclear
  have hud0 : u.d0Confirmed = true := hkept.confirmed.trans ((r.move_d0Confirmed _).trans hconfirmed)
  obtain ⟨t, he, ⟨hop, -, -, hstatus, -⟩, hframe, hdown, hack, hunmasked, hnone, hret, hfree, hevents, hcopied, hothers⟩ :=
    exec_irqdefer_message hu.wf hpresent hu.lock hu.plain (by rwa [State.cmdoDone, hcmdo, hucfg])
      (by rwa [State.cmdiBusy, hcmdi, hucfg]) (by rw [hcmdi, hucfg]; exact beq_eq_false_iff_ne.2 hpanic')
      (hucalls.trans ((r.move_msgCalls _).trans hcalls)) (by rw [huctx]; exact hlen.trans hfit)
      (by rw [RegionRange, hucfg, huctx]; exact (Nat.add_le_add_left (hlen.trans hfit) _).trans hregion)
      (State.readable_live hud0 (.inr rfl) huclear (by rw [huctx]; exact hlen.trans hfit)) hhost
  have htdone : t.cmdoDone = false := by
    rwa [State.cmdoDone, show t.regs.cmdo = s.regs.cmdo from (hframe.regs .cmdo (by simp)).trans hcmdo, hframe.cfg, hucfg]
  refine ⟨t, (stepN_succ hfirst).trans (hsteps t he), hdown, hack, hunmasked, by simp [State.irqLine, htdone, hdown], hnone,
    hret, hfree, hop, hstatus, ?_, fun i hi => ?_, fun y hy => ?_⟩
  · rw [hevents, hcmdi, huevents]
    exact congrArg (· ++ _) (r.move_events _)
  · rw [hcopied i hi, State.byteAt_box huclear (by omega) (by rw [huctx]; omega), huctx,
      show u.dspMem = x.dspMem from hkept.mem .dsp]
    exact hpost.bytes i (by omega)
  · rw [hothers y hy, huhm]
    exact congrArg (Memory.read · y) (r.move_hm _)

end Sys2Proof.Machine
end

section
/-! PROOFS. `PANICCAP` (R220, R221): the capture of the deferred stage with the operands of the port. -/

namespace Sys2Proof.Machine

section
variable {s : State} {a : Agent} {off cmdo cmdi : Word} {used : Nat}

/-- X1 for the operands of `PANICCAP`: where the record lies. -/
theorem capBeginStep_used (hrec : s.ctx.excValid = true → used = s.ctx.excOff)
    (hcoded : s.ctx.excValid = false → used = off.toNat) :
    ((capBeginStep a (some (off, cmdo, cmdi)) s).loc a).used = used := by
  cases hv : s.ctx.excValid with
  | true => simp [capBeginStep, hv, hrec hv]
  | false => simp [capBeginStep, hv, hcoded hv]

/-- X1 to X5 where the record lies inside the region (R66, R220). -/
theorem runList_paniccap (hat : ((capBeginStep a (some (off, cmdo, cmdi)) s).loc a).used = used)
    (hb : RegionRange s .dsp used (s.cfg.xoopsSize + 4 * s.cfg.stackWords)) :
    runList (entire 8 a) (paniccapListing off cmdo cmdi) s = .go (s.captured a (some (off, cmdo, cmdi))) := by
  set u := capBeginStep a (some (off, cmdo, cmdi)) s with hu
  have hcfg : u.cfg = s.cfg := by simp [hu, capBeginStep]
  have hfits (x n : Nat) : regionFits s.cfg .dsp x n = true ↔ x + n ≤ s.cfg.regionSize .dsp := by simp [regionFits]
  rw [RegionRange] at hb
  simp only [paniccapListing, captureListing]
  rw [runList_go (entire_capBegin ..), ← hu,
    runList_go (entire_capSnap 6 a (by rw [hat, hcfg, hfits]; omega)),
    runList_go (entire_capStack 6 a (by
      rw [State.bulkOut_buf_used, State.bulkOut_cfg, hat, hcfg, hfits]; omega)),
    runList_go (entire_capEmit ..), runList_go (entire_ok ..), runList_nil, State.bulkOut_buf_used, State.bulkOut_cfg]
  rfl

/-- The event of `PANICCAP` holds the record, the two words and both offsets. -/
theorem State.captured_events_paniccap
    (hat : ((capBeginStep a (some (off, cmdo, cmdi)) s).loc a).used = used)
    (hr : s.readable .dsp used (s.cfg.xoopsSize + 4 * s.cfg.stackWords)) :
    (s.captured a (some (off, cmdo, cmdi))).events = s.events ++
      [.diag (s.bytesAt .dsp used s.cfg.xoopsSize) (s.wordsAt .dsp (used + s.cfg.xoopsSize) s.cfg.stackWords)
        cmdo cmdi used off] := by
  set u := capBeginStep a (some (off, cmdo, cmdi)) s with hu
  have hframe : StageFrame a [] s u := .setLoc ..
  obtain ⟨hsnap, hstack⟩ := State.recordRead_buf (s := u) (a := a) (by rw [hat, hframe.cfg]; exact hframe.readable hr)
  rw [hat, hframe.cfg] at hsnap hstack
  have hbytes (x n : Nat) : u.bytesAt .dsp x n = s.bytesAt .dsp x n := by
    simp only [State.bytesAt, hframe.byteAt]
  have hwords (x n : Nat) : u.wordsAt .dsp x n = s.wordsAt .dsp x n := by
    simp only [State.wordsAt, State.leWord, hframe.byteAt]
  have hcfg : (u.recordRead a).cfg = s.cfg := ((StageFrame.recordRead []).cfg).trans hframe.cfg
  rw [State.captured, State.result_events, capEmitStep, State.emit_events, ← hu, hcfg, hsnap, hstack, hbytes, hwords]
  simp only [State.recordRead, State.bulkOut_buf_used, State.bulkOut_buf_capOff, State.bulkOut_buf_capCmdo,
    State.bulkOut_buf_capCmdi, State.bulkOut_events, hat]
  simp [hu, capBeginStep]

/-- The reads of the record, one byte after another (R76). -/
theorem byteReads_append (r : Region) (x m n : Nat) : byteReads r x m ++ byteReads r (x + m) n = byteReads r x (m + n) := by
  simp [byteReads, List.range_add, Nat.add_assoc]

theorem State.captured_access {args : Option (Word × Word × Word)} (hat : ((capBeginStep a args s).loc a).used = used) :
    (s.captured a args).bus.map BusRec.access =
      s.bus.map BusRec.access ++ byteReads .dsp used (s.cfg.xoopsSize + 4 * s.cfg.stackWords) := by
  have hbus : (capBeginStep a args s).bus = s.bus := by simp [capBeginStep]
  have hcfg : (capBeginStep a args s).cfg = s.cfg := by simp [capBeginStep]
  simp only [State.captured, State.result_bus, capEmitStep, State.emit_bus, State.recordRead, State.bulkOut_access, hat,
    hbus, hcfg, List.append_assoc, byteReads_append]

@[simp] theorem State.captured_irqRet {args : Option (Word × Word × Word)} : (s.captured a args).irqRet = s.irqRet := by
  simp [State.captured, capEmitStep, State.recordRead, capBeginStep]

end

/-- `PANICCAP` from its presentation to its end, where the record lies inside the region. -/
theorem exec_paniccap_eq {s s₁ : State} {off cmdo cmdi : Word} {used : Nat} (hp : Presentable s (.paniccap off cmdo cmdi))
    (hs₁ : s₁ = s.start s.presenter (.paniccap off cmdo cmdi) [])
    (hat : ((capBeginStep s.presenter (some (off, cmdo, cmdi)) s₁).loc s.presenter).used = used)
    (hb : RegionRange s₁ .dsp used (s₁.cfg.xoopsSize + 4 * s₁.cfg.stackWords)) :
    exec (.paniccap off cmdo cmdi) s =
      .next ((s₁.captured s.presenter (some (off, cmdo, cmdi))).finish s.presenter) := by
  subst hs₁
  rw [exec_eq_perform]
  exact perform_go (portRefusal_eq_none hp rfl) (runList_paniccap hat hb)

/-- Settles O45, by the capture that `IRQDEFER` makes too: what it reads, what it hands on, and its frame. -/
theorem paniccapResult : Obligations.PaniccapResult := by
  intro s off cmdo cmdi used hp hrec hcoded hb hr
  set a := s.presenter with ha
  set s₁ := s.start a (.paniccap off cmdo cmdi) [] with hs₁
  set u := s₁.captured a (some (off, cmdo, cmdi)) with hu
  have hstart : StageFrame a [] s s₁ := .start ..
  have hat : ((capBeginStep a (some (off, cmdo, cmdi)) s₁).loc a).used = used :=
    capBeginStep_used (by simpa [hs₁] using hrec) (by simpa [hs₁] using hcoded)
  have hframe : StageFrame a [] s (u.finish a) := hstart.trans ((StageFrame.captured []).trans (.setEx _ [] rfl rfl))
  have hevents := State.captured_events_paniccap hat (by rw [hstart.cfg]; exact hstart.readable hr)
  have haccess := State.captured_access hat
  have hbytes (x n : Nat) : s₁.bytesAt .dsp x n = s.bytesAt .dsp x n := by
    simp only [State.bytesAt, hstart.byteAt]
  have hwords (x n : Nat) : s₁.wordsAt .dsp x n = s.wordsAt .dsp x n := by
    simp only [State.wordsAt, State.leWord, hstart.byteAt]
  have hsame : SameButRegs a [] s (u.finish a) := hframe.sameButRegs
  obtain ⟨hpm, -, hregions, hhost, hothers, hsetting⟩ := hsame
  refine ⟨u.finish a, exec_paniccap_eq hp hs₁ hat (by rw [RegionRange, hstart.cfg]; exact hb), ?_,
    hframe.results, ?_, newAccesses_of_access ?_, ⟨hframe.ctx, hframe.pwr, ?_, ?_, hframe.halt, ?_⟩, ⟨hframe.regs_eq, hpm⟩,
    hregions, hhost, hothers, hsetting, hframe.elapsed⟩
  · exact ended_endOk ..
  · rw [State.finish_events, hu, hevents, hbytes, hwords, hstart.cfg, hs₁, State.start_events]
  · rw [State.finish_bus, hu, haccess, hstart.cfg, hs₁, State.start_bus]
    rfl
  all_goals simp [hu, hs₁]

end Sys2Proof.Machine
end

section
/-! PROOFS. The firmware-ready handshake (R212, R213): what it leaves unchanged whatever it reads, and that it is not refused
twice (R24). -/

namespace Sys2Proof.Machine

/-! ## The frame of the handshake -/

/-- What no entry of the handshake writes: all of the state but the context registers, `SEQ.halt`, the events, the trace, the
drawn-value counter and, of agent `a`'s record, what is no result register. -/
structure HandshakeFrame (a : Agent) (s t : State) : Prop where
  results : SameResults a s t
  replyBox : t.replyBox = s.replyBox
  pwr : t.pwr = s.pwr
  deferPending : t.deferPending = s.deferPending
  lock : t.lock = s.lock
  irqRet : t.irqRet = s.irqRet
  elapsed : t.elapsed = s.elapsed
  confirmed : t.d0Confirmed = s.d0Confirmed
  device : SameDevice s t
  mem : ∀ r, t.mem r = s.mem r
  hm : t.hm = s.hm
  others : SameOthers a s t
  setting : SameSetting s t

namespace HandshakeFrame

variable {a : Agent} {s t u : State}

theorem trans (h : HandshakeFrame a s t) (h' : HandshakeFrame a t u) : HandshakeFrame a s u := by
  obtain ⟨h0, h1⟩ := h.results
  obtain ⟨h0', h1'⟩ := h'.results
  obtain ⟨hregs, hpm⟩ := h.device
  obtain ⟨hregs', hpm'⟩ := h'.device
  exact ⟨⟨h0'.trans h0, h1'.trans h1⟩, h'.replyBox.trans h.replyBox, h'.pwr.trans h.pwr,
    h'.deferPending.trans h.deferPending, h'.lock.trans h.lock, h'.irqRet.trans h.irqRet, h'.elapsed.trans h.elapsed,
    h'.confirmed.trans h.confirmed, ⟨hregs'.trans hregs, hpm'.trans hpm⟩, fun r => (h'.mem r).trans (h.mem r),
    h'.hm.trans h.hm, fun b hb => (h'.others b hb).trans (h.others b hb), h.setting.trans h'.setting⟩

/-! ### The rules of the state's operations -/

/-- Whatever is written to the context registers, `SEQ.halt` and the events. -/
theorem setBlock (a : Agent) (s : State) (x : Ctx) (h : Bool) (es : List Event) :
    HandshakeFrame a s { s with ctx := x, halt := h, events := es } := by
  constructor
  case mem => intro r; cases r <;> rfl
  case others => intro b _; cases b <;> rfl
  case results => cases a <;> exact ⟨rfl, rfl⟩
  all_goals simp [SameDevice, SameSetting]

theorem ctxStep (a : Agent) (s : State) (m : CtxMove) : HandshakeFrame a s (ctxStep s m) :=
  setBlock a s (s.ctx.apply m) s.halt s.events

theorem emit (a : Agent) (s : State) (e : Event) : HandshakeFrame a s (s.emit e) :=
  setBlock a s s.ctx s.halt (s.events ++ [e])

/-- Whatever is written to agent `a`'s record, its result registers `RESULT0` and `RESULT1` apart. -/
theorem setEx (s : State) {e : Exec} (h0 : e.result0 = (s.ex a).result0) (h1 : e.result1 = (s.ex a).result1) :
    HandshakeFrame a s (s.setEx a e) := by
  constructor
  case others => intro b hb; simp [hb]
  all_goals simp [SameResults, SameDevice, SameSetting, h0, h1]

theorem setLoc (a : Agent) (s : State) (l : Locals) : HandshakeFrame a s (s.setLoc a l) := setEx s rfl rfl

theorem start (a : Agent) (s : State) (i : Instr) (ms : List Micro) : HandshakeFrame a s (s.start a i ms) := setEx s rfl rfl

theorem finish (a : Agent) (s : State) : HandshakeFrame a s (s.finish a) := setEx s rfl rfl

theorem result (a : Agent) (s : State) (k : Kind) (v : Word) : HandshakeFrame a s (s.result a k v) := setEx s rfl rfl

theorem raise (a : Agent) (s : State) (k : Kind) (v : Word) : HandshakeFrame a s (s.raise a k v) :=
  (result a s k v).trans (setBlock a _ (s.result a k v).ctx (s.halt || k.fatal) (s.result a k v).events)

/-- A bulk read into the operation's buffer. -/
theorem bulkOut (a : Agent) (s : State) (r : Region) (off base n : Nat) :
    HandshakeFrame a s (s.bulkOut a r off (.buf base) n) := by
  constructor
  case others => exact fun b hb => s.bulkOut_buf_ex r off base n hb
  case results => rw [SameResults, s.bulkOut_buf_own a r off base n]; exact ⟨rfl, rfl⟩
  all_goals simp [SameDevice, SameSetting]

/-! ### What a read finds -/

theorem cfg (h : HandshakeFrame a s t) : t.cfg = s.cfg := h.setting.1

theorem byteAt (h : HandshakeFrame a s t) (r : Region) (x : Nat) : t.byteAt r x = s.byteAt r x := by
  obtain ⟨hregs, hpm⟩ := h.device
  exact State.byteAt_congr (State.word_congr h.cfg hregs h.mem hpm) r x

theorem leWord (h : HandshakeFrame a s t) (r : Region) (x : Nat) : t.leWord r x = s.leWord r x := by
  simp only [State.leWord, h.byteAt]

theorem bytesAt (h : HandshakeFrame a s t) (r : Region) (x n : Nat) : t.bytesAt r x n = s.bytesAt r x n := by
  simp only [State.bytesAt, h.byteAt]

theorem windowTable (h : HandshakeFrame a s t) (x n : Nat) : t.windowTable x n = s.windowTable x n := by
  refine List.map_congr_left fun k _ => ?_
  simp only [State.window, h.leWord, h.cfg]

/-- What can be read with the boxes where they are now can be read (R72, R282). -/
theorem readable (h : HandshakeFrame a s t) {x : Ctx} (hx : t.ctx = x) {r : Region} {off n : Nat}
    (hr : ({ s with ctx := x }).readable r off n) : t.readable r off n := by
  intro i hi
  obtain ⟨hacc, hisr⟩ := hr i hi
  obtain ⟨-, -, hgated, -⟩ := h.setting
  exact ⟨(State.inaccessible_congr (s := { s with ctx := x }) h.cfg hx hgated h.confirmed ..).trans hacc,
    (State.isIsr_congr (s := { s with ctx := x }) h.cfg ..).trans hisr⟩

/-- The frame in the words of the obligations. -/
theorem kept (h : HandshakeFrame a s t) :
    SameResults a s t ∧ t.replyBox = s.replyBox ∧ t.pwr = s.pwr ∧ t.deferPending = s.deferPending ∧ t.lock = s.lock ∧
      t.irqRet = s.irqRet ∧ t.elapsed = s.elapsed ∧ SameDevice s t ∧ SameRegions s t ∧ SameHost s t ∧ SameOthers a s t ∧
      SameSetting s t :=
  ⟨h.results, h.replyBox, h.pwr, h.deferPending, h.lock, h.irqRet, h.elapsed, h.device, fun r x => by rw [h.mem r],
    fun x => by rw [h.hm], h.others, h.setting⟩

end HandshakeFrame

/-! ## Runs that do not wait -/

/-- The run ends, with an error or without one, in a state with `P`, or it is refused: it does not wait. -/
def Flow.Ends (P : State → Prop) : Flow → Prop
  | .go s | .raised s => P s
  | .refuse _ => True
  | .blocked _ _ => False

section
variable {P : State → Prop} {f : Micro → State → Flow}

/-- A listing whose entries end. -/
theorem runFrom_ends {ms : List Micro} (hf : ∀ m ∈ ms, ∀ s, P s → (f m s).Ends P) (skip : Bool) {s : State} (hs : P s) :
    (runFrom f skip ms s).Ends P := by
  induction ms generalizing skip s with
  | nil => cases skip <;> exact hs
  | cons m ms ih =>
    have hms : ∀ x ∈ ms, ∀ s, P s → (f x s).Ends P := fun x hx => hf x (by simp [hx])
    simp only [runFrom]
    split
    · exact ih hms true hs
    · have hm := hf m (by simp) s hs
      cases e : f m s with
      | go t => rw [e] at hm; exact ih hms false hm
      | raised t => rw [e] at hm; exact ih hms true hm
      | blocked rest t => rw [e] at hm; exact hm
      | refuse r => trivial

theorem runList_ends {ms : List Micro} (hf : ∀ m ∈ ms, ∀ s, P s → (f m s).Ends P) {s : State} (hs : P s) :
    (runList f ms s).Ends P := runFrom_ends hf false hs

/-- The loop over the window elements ends when the read and the dispatch of each do. -/
theorem windowsAll_ends (hread : ∀ k s, P s → (f (.winRead k) s).Ends P) (hdispatch : ∀ s, P s → (f .winDispatch s).Ends P)
    (k n : Nat) {s : State} (hs : P s) : (windowsAll f k n s).Ends P := by
  induction n generalizing k s with
  | zero => exact hs
  | succ n ih =>
    have hstep : (runList f [.winRead k, .winDispatch] s).Ends P :=
      runList_ends (by simpa using ⟨hread k, hdispatch⟩) hs
    simp only [windowsAll]
    cases e : runList f [.winRead k, .winDispatch] s with
    | go t => rw [e] at hstep; exact ih (k + 1) hstep
    | raised t => rw [e] at hstep; exact hstep
    | blocked rest t => rw [e] at hstep; exact hstep
    | refuse r => trivial

end

/-! ## The entries of the handshake -/

section
variable {a : Agent} {s t : State}

/-- A fetch into the buffer is made, or it is refused where it leaves the region (R66). -/
theorem entire_fetch_ends (d : Nat) {m : Micro} {off at' n : Nat} (hu : unit a 0 m t = fetchStep t.cfg off at' n t)
    (hm : m.looped = false) (h : HandshakeFrame a s t) : (entire (d + 2) a m t).Ends (HandshakeFrame a s) := by
  cases hb : regionFits t.cfg .dsp off n with
  | true => rw [entire_fetch d a hu hb hm]; exact h.trans (.bulkOut ..)
  | false =>
    rw [entire_orRefuse_some (b := .outOfRegion) (n := .to (bulkRead .dsp off (.buf at') n) t) (d + 2) a
      (by rw [hu, fetchStep, hb]; rfl) hm]
    trivial

/-- The dispatch of an element, with what its type leads to (R213). -/
theorem entire_winDispatch (d : Nat) (a : Agent) (t : State) :
    entire (d + 1) a .winDispatch t = runList (entire d a) (windowEffect t.cfg
      (Memory.readWord (t.loc a).buf t.cfg.fwr.typeAt)
      (declaredBox t.cfg (t.loc a).buf t.cfg.fwr.offAt t.cfg.fwr.sizeAt)) t := entire_to d a rfl rfl

/-- What the arms of the dispatch are made of (R213). -/
def Micro.ofArm : Micro → Bool
  | .emit _ | .ctx _ | .raise _ _ | .armEnd _ => true
  | _ => false

theorem windowEffect_ofArm (c : Cfg) (w : Word) (b : Box) : ∀ m ∈ windowEffect c w b, m.ofArm = true := by
  unfold windowEffect registerRegion
  split_ifs <;> simp [Micro.ofArm]

theorem entire_ofArm_ends (d : Nat) {m : Micro} (hm : m.ofArm = true) (h : HandshakeFrame a s t) :
    (entire d a m t).Ends (HandshakeFrame a s) := by
  cases m with
  | emit e => rw [entire_emit]; exact h.trans (.emit ..)
  | ctx x => rw [entire_ctx]; exact h.trans (.ctxStep ..)
  | raise k v => rw [entire_raise]; exact h.trans (.raise ..)
  | armEnd n => rw [entire_armEnd]; exact h
  | _ => cases hm

theorem entire_winDispatch_ends (d : Nat) (h : HandshakeFrame a s t) :
    (entire (d + 1) a .winDispatch t).Ends (HandshakeFrame a s) := by
  rw [entire_winDispatch]
  exact runList_ends (fun m hm u hu => entire_ofArm_ends d (windowEffect_ofArm _ _ _ m hm) hu) h

/-- F1 (R212). -/
theorem entire_fwrBegin_eq (d : Nat) (a : Agent) (s : State) :
    entire d a .fwrBegin s =
      if s.ctx.fwrDone then .refuse .secondHandshake
      else .go ((ctxStep s .fwrDone).setLoc a { s.loc a with fbase := s.ctx.inbox.off + s.cfg.fwrOff }) := by
  split
  · next h => exact entire_refuse d a (by simp [unit, fwrBeginStep, h]) rfl
  · next h => exact entire_fwrBegin d a (Bool.eq_false_iff.2 h)

/-- F5 and the loop of F6. -/
theorem entire_fwrExtdata_ends (d : Nat) (h : HandshakeFrame a s t) :
    (entire (d + 4) a .fwrExtdata t).Ends (HandshakeFrame a s) := by
  rw [entire_fwrExtdata]
  exact windowsAll_ends (fun k u hu => entire_fetch_ends d rfl rfl hu) (fun u hu => entire_winDispatch_ends _ hu) 0 _
    (h.trans ((HandshakeFrame.emit ..).trans (.setLoc ..)))

/-- F7: it goes on, or it logs and raises. -/
theorem entire_zeroBox_ends (d : Nat) (h : HandshakeFrame a s t) :
    (entire (d + 1) a .zeroBox t).Ends (HandshakeFrame a s) := by
  by_cases hz : t.ctx.inbox.size = 0 ∨ t.ctx.outbox.size = 0
  · rw [entire_zeroBox_raise d a hz]
    exact h.trans ((HandshakeFrame.emit ..).trans (.raise ..))
  · obtain ⟨hi, ho⟩ := not_or.1 hz
    rw [entire_zeroBox (d + 1) a hi ho]
    exact h

/-- Every entry of the handshake ends, whatever the firmware has written. -/
theorem entire_fwready_ends {m : Micro} (hm : m ∈ fwreadyListing) (h : HandshakeFrame a s t) :
    (entire 8 a m t).Ends (HandshakeFrame a s) := by
  simp only [fwreadyListing, List.mem_cons, List.not_mem_nil, or_false] at hm
  rcases hm with rfl | rfl | rfl | rfl | rfl | rfl | rfl | rfl
  · rw [entire_fwrBegin_eq]
    split
    · trivial
    · exact h.trans ((HandshakeFrame.ctxStep ..).trans (.setLoc ..))
  · exact entire_fetch_ends 6 rfl rfl h
  · rw [entire_fwrOutbox]; exact h.trans (.ctxStep ..)
  · rw [entire_fwrInbox]; exact h.trans (.ctxStep ..)
  · rw [entire_fwrVersion]; exact h.trans (.emit ..)
  · exact entire_fwrExtdata_ends 4 h
  · exact entire_zeroBox_ends 7 h
  · rw [entire_ok]; exact h.trans (.result ..)

end

/-! ## The whole operation -/

/-- An `FWREADY` that answers has changed nothing but what the handshake is there to change, and its agent is idle again. -/
theorem exec_fwready_frame {s t : State} (h : exec .fwready s = .next t) :
    HandshakeFrame s.presenter s t ∧ Idle s.presenter t := by
  have hlist := runList_ends (f := entire 8 s.presenter) (fun m hm u hu => entire_fwready_ends hm hu)
    (HandshakeFrame.start s.presenter s .fwready [])
  have hfinish (u : State) (hu : HandshakeFrame s.presenter s u) :
      HandshakeFrame s.presenter s (u.finish s.presenter) ∧ Idle s.presenter (u.finish s.presenter) :=
    ⟨hu.trans (.finish ..), by simp [Idle, State.finish_ex]⟩
  rw [exec_eq_perform] at h
  cases hp : portRefusal s s.presenter .fwready with
  | some r => simp [perform, hp] at h
  | none =>
    cases e : runList (entire 8 s.presenter) fwreadyListing (s.start s.presenter .fwready []) with
    | go u => rw [e] at hlist; cases (perform_go hp e).symm.trans h; exact hfinish u hlist
    | raised u => rw [e] at hlist; cases (perform_raised hp e).symm.trans h; exact hfinish u hlist
    | blocked rest u => rw [e] at hlist; exact hlist.elim
    | refuse r => cases (perform_refuse hp e).symm.trans h

/-- A second `FWREADY` is refused (R212, U11). -/
theorem exec_fwready_second {s : State} (hp : Presentable s .fwready) (hd : s.ctx.fwrDone = true) :
    exec .fwready s = .refused .secondHandshake := by
  rw [exec_eq_perform]
  refine perform_refuse (portRefusal_eq_none hp rfl) (runList_refuse ?_ _)
  rw [entire_fwrBegin_eq, State.start_ctx, if_pos hd]

/-- `CTX.FWR_DONE` is set by F1, and nothing clears it (R24). -/
theorem fwrDone_of_exec {s t : State} (hp : Presentable s .fwready) (h : exec .fwready s = .next t) :
    t.ctx.fwrDone = true := by
  cases hd : s.ctx.fwrDone with
  | true => rw [exec_fwready_second hp hd] at h; cases h
  | false =>
    have hbegin := entire_fwrBegin 8 s.presenter (s := s.start s.presenter .fwready []) (by simpa using hd)
    have hrun : exec .fwready s = runAgent s.presenter (fwreadyListing ++ [.idle]) (s.start s.presenter .fwready []) := by
      rw [exec_eq_perform, perform, portRefusal_eq_none hp rfl]
      rfl
    rw [hrun, fwreadyListing, List.cons_append, runAgent_go hbegin] at h
    obtain ⟨-, -, hkept, -⟩ := Grows.runAgent h
    exact hkept (by simp [Ctx.apply])

/-- Settles O44: F1 marks the handshake as done, the operation leaves its agent's port as it found it, and F1 of a second one
finds the mark. -/
theorem handshakeOnce : Obligations.HandshakeOnce := by
  intro s t hp h
  have hdone := fwrDone_of_exec hp h
  obtain ⟨hwasAttached, -, -, hmay⟩ := hp
  obtain ⟨hframe, hidle, -⟩ := exec_fwready_frame h
  obtain ⟨-, hattached, -, -, hpresenter, -⟩ := hframe.setting
  refine ⟨hdone, fun hopen => exec_fwready_second ⟨hattached.trans hwasAttached, ?_,
    fun hhost => hopen.resolve_left fun hne => hne hhost, ?_⟩ hdone⟩
  · rwa [hpresenter]
  · rwa [hpresenter]

end Sys2Proof.Machine
end

section
/-! PROOFS. What the elements of a window table come to (R213): the context registers and the events after one more element, and
the arm of the dispatch that each window type takes. -/

namespace Sys2Proof.Machine

/-! ## The last element of a type -/

theorem lastOf_append (w : Word) (l r : List (Word × Box)) (b : Box) : lastOf w (l ++ r) b = lastOf w r (lastOf w l b) := by
  simp only [lastOf, List.reverse_append, List.find?_append]
  cases r.reverse.find? (fun e => e.1 == w) <;> simp

@[simp] theorem lastOf_nil (w : Word) (b : Box) : lastOf w [] b = b := rfl

theorem lastOf_singleton (w : Word) (e : Word × Box) (b : Box) : lastOf w [e] b = if e.1 = w then e.2 else b := by
  by_cases h : e.1 = w <;> simp [lastOf, h]

/-- Where no element has the type the default stays. -/
theorem lastOf_of_forall_ne {w : Word} {els : List (Word × Box)} (h : ∀ e ∈ els, e.1 ≠ w) (b : Box) : lastOf w els b = b := by
  have : els.reverse.find? (fun e => e.1 == w) = none := by simpa using h
  rw [lastOf, this]

/-- The later element wins (R212). -/
theorem lastOf_eq {w : Word} {b : Box} {l r : List (Word × Box)} (h : ∀ e ∈ r, e.1 ≠ w) (b' : Box) :
    lastOf w (l ++ (w, b) :: r) b' = b := by
  rw [lastOf_append, ← List.singleton_append, lastOf_append, lastOf_of_forall_ne h, lastOf_singleton, if_pos rfl]

/-- Only the offset of the default box counts for the offset found. -/
theorem lastOf_off (w : Word) (els : List (Word × Box)) {b b' : Box} (h : b.off = b'.off) :
    (lastOf w els b).off = (lastOf w els b').off := by
  unfold lastOf
  split
  · rfl
  · exact h

/-! ## One more element -/

/-- The events of the elements `els` (R213). -/
def windowEvents (c : Cfg) (els : List (Word × Box)) : List Event :=
  (windowDiag c els).map fun d => .region d.name d.rgn d.off d.size

theorem windowDiag_append (c : Cfg) (l r : List (Word × Box)) : windowDiag c (l ++ r) = windowDiag c l ++ windowDiag c r :=
  List.filterMap_append

theorem State.handshakeEvents_append (s : State) (l r : List (Word × Box)) :
    s.handshakeEvents (l ++ r) = s.handshakeEvents l ++ windowEvents s.cfg r := by
  rw [State.handshakeEvents, windowDiag_append, List.map_append, ← List.append_assoc]
  rfl

theorem discovered_nil (c : Cfg) (x : Ctx) : discovered c x [] = x := by simp [discovered, windowDiag]

/-- The elements take effect one after another (R212). -/
theorem discovered_append (c : Cfg) (x : Ctx) (l r : List (Word × Box)) :
    discovered c x (l ++ r) = discovered c (discovered c x l) r := by
  simp only [discovered, lastOf_append, windowDiag_append, List.any_append, List.append_assoc, Bool.or_assoc, Ctx.mk.injEq,
    true_and, and_true]
  exact lastOf_off _ _ rfl

theorem State.windowTable_succ (s : State) (x n : Nat) :
    s.windowTable x (n + 1) = s.windowTable x n ++ [s.window x n] := by
  simp [State.windowTable, List.range_succ]

/-! ## The arms of the dispatch (R213) -/

/-- The state after an element of a recognised type has taken effect. -/
def State.windowApplied (s : State) (e : Word × Box) : State :=
  { s with ctx := discovered s.cfg s.ctx [e], events := s.events ++ windowEvents s.cfg [e] }

/-- An arm that registers a region and goes on with `ms`. -/
theorem runList_registerRegion (d : Nat) (a : Agent) (name : DiagName) (b : Box) (ms : List Micro) (s : State) :
    runList (entire d a) (registerRegion name b ++ ms) s =
      runList (entire d a) ms (ctxStep (s.emit (.region name .dsp b.off b.size)) (.diag ⟨name, .dsp, b.off, b.size⟩)) := by
  rw [registerRegion, List.cons_append, List.cons_append, runList_go (entire_emit ..), runList_go (entire_ctx ..),
    List.nil_append]

/-- The arm of a recognised type: the context registers and the events as `discovered` and `windowEvents` say. -/
theorem runList_windowEffect (d : Nat) (a : Agent) {s : State} {w : Word} (b : Box) (hw : s.cfg.wf = true)
    (ht : w ∈ windowTypes s.cfg) :
    runList (entire d a) (windowEffect s.cfg w b) s = .go (s.windowApplied (w, b)) := by
  have hdistinct := s.cfg.wf_windows hw
  simp only [List.nodup_cons, List.mem_cons, List.not_mem_nil, or_false, not_or] at hdistinct
  simp only [windowTypes, List.mem_cons, List.not_mem_nil, or_false] at ht
  rcases ht with rfl | rfl | rfl | rfl | rfl | rfl | rfl
  all_goals
    simp [windowEffect, runList_registerRegion, runList_cons, State.windowApplied, discovered, lastOf_singleton,
      windowEvents, windowDiag, regionName, ctxStep, Ctx.apply, State.emit, hdistinct, Ne.symm]

/-- An unrecognised type is logged and raised (R213, R234). -/
theorem runList_windowEffect_bad (d : Nat) (a : Agent) {s : State} {w : Word} (b : Box) (ht : w ∉ windowTypes s.cfg) :
    runList (entire d a) (windowEffect s.cfg w b) s =
      .raised ((s.emit (.log .configBadWindow w)).raise a .configBadWindow w) := by
  simp only [windowTypes, List.mem_cons, List.not_mem_nil, or_false, not_or] at ht
  obtain ⟨hin, hout, htrace, hdebug, hstream, hregs, hexc⟩ := ht
  simp [windowEffect, hin, hout, htrace, hdebug, hstream, hregs, hexc, runList_cons, runFrom]

end Sys2Proof.Machine
end

section
/-! PROOFS. The handshake where what the firmware has written can be read (R212, R213): F1 to F5, the loop over the window
elements, and how the operation ends. -/

namespace Sys2Proof.Machine

/-! ## What a fetch leaves in the buffer -/

section
variable (s : State) (a : Agent) (r : Region) (off base n : Nat)

@[simp] theorem State.bulkOut_buf_fbase : ((s.bulkOut a r off (.buf base) n).loc a).fbase = (s.loc a).fbase := by
  rw [State.bulkOut_buf_loc]
@[simp] theorem State.bulkOut_buf_winOff : ((s.bulkOut a r off (.buf base) n).loc a).winOff = (s.loc a).winOff := by
  rw [State.bulkOut_buf_loc]

/-- One access for each byte (R76). -/
theorem State.bulkOut_bus_length (dst : Dest) : (s.bulkOut a r off dst n).bus.length = s.bus.length + n := by
  have haccess := congrArg List.length (s.bulkOut_access a r off dst n)
  simpa [byteReads] using haccess

end

theorem length_newAccesses (s t : State) : (newAccesses s t).length = t.bus.length - s.bus.length := by simp [newAccesses]

section
variable {s : State} {a : Agent} {r : Region} {off n : Nat}

/-- A place declared in the buffer is the one that the region's words declare (R212, D44). -/
theorem declaredBox_bulkOut (hr : s.readable r off n) {offAt sizeAt : Nat} (ho : offAt + 4 ≤ n) (hs : sizeAt + 4 ≤ n) :
    declaredBox s.cfg ((s.bulkOut a r off (.buf 0) n).loc a).buf offAt sizeAt =
      ⟨s.cfg.mboxBase + (s.leWord r (off + offAt)).toNat, (s.leWord r (off + sizeAt)).toNat⟩ := by
  simp only [declaredBox, u32at, State.readWord_bulkOut_buf a hr ho, State.readWord_bulkOut_buf a hr hs]

/-- Bytes of the buffer are the region's. -/
theorem readBytes_bulkOut (hr : s.readable r off n) {k m : Nat} (hk : k + m ≤ n) :
    Memory.readBytes ((s.bulkOut a r off (.buf 0) n).loc a).buf k m = s.bytesAt r (off + k) m := by
  obtain ⟨-, hread⟩ := s.bulkOut_buf_buf a r off 0 n
  refine List.map_congr_left fun i hi => ?_
  have hi := List.mem_range.1 hi
  obtain ⟨hacc, hisr⟩ := hr (k + i) (by omega)
  simpa [Nat.add_assoc] using hread (k + i) (by omega) hacc hisr

end

/-- The order of the fixed-format part (R211). -/
theorem FwrLayout.bounds {l : FwrLayout} (h : l.ok = true) :
    l.verAt + l.verLen ≤ l.size ∧ l.hbOffAt + 4 ≤ l.size ∧ l.hbSizeAt + 4 ≤ l.size ∧ l.dbOffAt + 4 ≤ l.size ∧
      l.dbSizeAt + 4 ≤ l.size ∧ l.typeAt + 4 ≤ l.elemSize ∧ l.offAt + 4 ≤ l.elemSize ∧ l.sizeAt + 4 ≤ l.elemSize := by
  simp only [FwrLayout.ok, List.all_cons, List.all_nil, Bool.and_true, Bool.and_eq_true, decide_eq_true_eq] at h
  omega

/-! ## F1 to F5 (R212) -/

/-- The state after F1, the base of F2 taken. -/
def State.fwrBegun (s : State) (a : Agent) : State := (ctxStep s .fwrDone).setLoc a { s.loc a with fbase := s.fwrBase }

/-- The state after F2: the descriptor is in the buffer. -/
def State.descriptorRead (s : State) (a : Agent) : State :=
  (s.fwrBegun a).bulkOut a .dsp s.fwrBase (.buf 0) s.cfg.fwr.size

/-- The state after F4: the boxes are those that the descriptor declares, its version bytes are handed on. -/
def State.boxesDeclared (s : State) (a : Agent) : State :=
  { s.descriptorRead a with
    ctx := s.declared
    events := s.events ++ [.version (s.bytesAt .dsp (s.fwrBase + s.cfg.fwr.verAt) s.cfg.fwr.verLen)] }

/-- The state after F5, before the first window element. -/
def State.tableFound (s : State) (a : Agent) : State :=
  ((s.boxesDeclared a).emit (.extdata (s.fwrBase + s.cfg.fwr.size))).setLoc a
    { (s.boxesDeclared a).loc a with winOff := s.fwrTable.1 }

section
variable {s : State} {a : Agent}

theorem HandshakeFrame.fwrBegun : HandshakeFrame a s (s.fwrBegun a) := (HandshakeFrame.ctxStep ..).trans (.setLoc ..)

theorem HandshakeFrame.descriptorRead : HandshakeFrame a s (s.descriptorRead a) :=
  HandshakeFrame.fwrBegun.trans (.bulkOut ..)

theorem HandshakeFrame.tableFound : HandshakeFrame a s (s.tableFound a) :=
  HandshakeFrame.descriptorRead.trans ((HandshakeFrame.setBlock a _ s.declared (s.descriptorRead a).halt _).trans
    ((HandshakeFrame.emit ..).trans (.setLoc ..)))

@[simp] theorem State.fwrBegun_ctx : (s.fwrBegun a).ctx = { s.ctx with fwrDone := true } := by
  simp [State.fwrBegun, Ctx.apply]
@[simp] theorem State.fwrBegun_events : (s.fwrBegun a).events = s.events := by simp [State.fwrBegun]
@[simp] theorem State.fwrBegun_halt : (s.fwrBegun a).halt = s.halt := by simp [State.fwrBegun]
@[simp] theorem State.fwrBegun_bus : (s.fwrBegun a).bus = s.bus := by simp [State.fwrBegun]
@[simp] theorem State.fwrBegun_fbase : ((s.fwrBegun a).loc a).fbase = s.fwrBase := by simp [State.fwrBegun]

@[simp] theorem State.descriptorRead_ctx : (s.descriptorRead a).ctx = { s.ctx with fwrDone := true } := by
  simp [State.descriptorRead]
@[simp] theorem State.descriptorRead_events : (s.descriptorRead a).events = s.events := by simp [State.descriptorRead]
@[simp] theorem State.descriptorRead_fbase : ((s.descriptorRead a).loc a).fbase = s.fwrBase := by
  simp [State.descriptorRead]

@[simp] theorem State.boxesDeclared_fbase : ((s.boxesDeclared a).loc a).fbase = s.fwrBase := by
  rw [← State.descriptorRead_fbase (s := s) (a := a)]
  cases a <;> rfl

@[simp] theorem State.tableFound_ctx : (s.tableFound a).ctx = s.declared := by
  simp [State.tableFound, State.boxesDeclared]
@[simp] theorem State.tableFound_events : (s.tableFound a).events = s.events ++ s.handshakeEvents [] := by
  simp [State.tableFound, State.boxesDeclared, State.handshakeEvents, windowDiag]
@[simp] theorem State.tableFound_winOff : ((s.tableFound a).loc a).winOff = s.fwrTable.1 := by simp [State.tableFound]
@[simp] theorem State.tableFound_halt : (s.tableFound a).halt = s.halt := by
  simp [State.tableFound, State.boxesDeclared, State.descriptorRead]
theorem State.tableFound_bus_length : (s.tableFound a).bus.length = s.bus.length + s.cfg.fwr.size := by
  simp [State.tableFound, State.boxesDeclared, State.descriptorRead, State.bulkOut_bus_length]

/-- The descriptor can still be read after F1, which moves no box. -/
theorem State.fwrBegun_readable (hr : s.readable .dsp s.fwrBase s.cfg.fwr.size) :
    (s.fwrBegun a).readable .dsp s.fwrBase s.cfg.fwr.size :=
  HandshakeFrame.fwrBegun.readable State.fwrBegun_ctx hr

/-- A box that the descriptor in the buffer declares (R212 F3). -/
theorem State.descriptorRead_box (hr : s.readable .dsp s.fwrBase s.cfg.fwr.size) {offAt sizeAt : Nat}
    (ho : offAt + 4 ≤ s.cfg.fwr.size) (hs : sizeAt + 4 ≤ s.cfg.fwr.size) :
    declaredBox s.cfg ((s.descriptorRead a).loc a).buf offAt sizeAt =
      ⟨s.cfg.mboxBase + (s.leWord .dsp (s.fwrBase + offAt)).toNat, (s.leWord .dsp (s.fwrBase + sizeAt)).toNat⟩ := by
  have hframe : HandshakeFrame a s (s.fwrBegun a) := .fwrBegun
  have hbox := declaredBox_bulkOut (a := a) (State.fwrBegun_readable (a := a) hr) ho hs
  rwa [hframe.leWord, hframe.leWord, hframe.cfg] at hbox

/-- The version bytes of the descriptor in the buffer (R212 F4). -/
theorem State.descriptorRead_version (hr : s.readable .dsp s.fwrBase s.cfg.fwr.size) {k m : Nat}
    (hk : k + m ≤ s.cfg.fwr.size) :
    Memory.readBytes ((s.descriptorRead a).loc a).buf k m = s.bytesAt .dsp (s.fwrBase + k) m := by
  have hframe : HandshakeFrame a s (s.fwrBegun a) := .fwrBegun
  rw [← hframe.bytesAt]
  exact readBytes_bulkOut (State.fwrBegun_readable hr) hk

/-- F3 and F4 on the descriptor in the buffer. -/
theorem runList_boxesDeclared (d : Nat) (hw : s.cfg.wf = true) (hr : s.readable .dsp s.fwrBase s.cfg.fwr.size)
    (ms : List Micro) : runList (entire d a) (.fwrOutbox :: .fwrInbox :: .fwrVersion :: ms) (s.descriptorRead a) =
      runList (entire d a) ms (s.boxesDeclared a) := by
  obtain ⟨hversion, hhostOff, hhostSize, hdspOff, hdspSize, -⟩ := FwrLayout.bounds (s.cfg.wf_fwr hw)
  have hcfg : (s.descriptorRead a).cfg = s.cfg := HandshakeFrame.descriptorRead.cfg
  rw [runList_go (entire_fwrOutbox ..), runList_go (entire_fwrInbox ..), runList_go (entire_fwrVersion ..)]
  simp only [State.ctxStep_cfg, State.ctxStep_loc, hcfg, State.descriptorRead_box hr hhostOff hhostSize,
    State.descriptorRead_box hr hdspOff hdspSize, State.descriptorRead_version hr hversion]
  congr 1
  simp [State.boxesDeclared, State.emit, ctxStep, Ctx.apply, State.declared]

/-- F1 to F4, given the range check of the descriptor. -/
theorem runList_fwrBegin (hdone : s.ctx.fwrDone = false) (hw : s.cfg.wf = true)
    (hb : RegionRange s .dsp s.fwrBase s.cfg.fwr.size) (hr : s.readable .dsp s.fwrBase s.cfg.fwr.size) (ms : List Micro) :
    runList (entire 8 a) (.fwrBegin :: .fwrRead :: .fwrOutbox :: .fwrInbox :: .fwrVersion :: ms) s =
      runList (entire 8 a) ms (s.boxesDeclared a) := by
  have hbegin : entire 8 a .fwrBegin s = .go (s.fwrBegun a) := entire_fwrBegin 8 a hdone
  have hread := entire_fwrRead 6 a (s := s.fwrBegun a)
    (by simpa [HandshakeFrame.fwrBegun.cfg, regionFits, RegionRange] using hb)
  rw [State.fwrBegun_fbase, HandshakeFrame.fwrBegun.cfg] at hread
  rw [runList_go hbegin, runList_go hread]
  exact runList_boxesDeclared 8 hw hr ms

/-- F5, and then the loop over the elements (F6). -/
theorem entire_boxesDeclared_extdata (d : Nat) : entire (d + 2) a .fwrExtdata (s.boxesDeclared a) =
    windowsAll (entire d a) 0 s.fwrTable.2 (s.tableFound a) := by
  have hcfg : (s.boxesDeclared a).cfg = s.cfg := HandshakeFrame.descriptorRead.cfg
  rw [entire_fwrExtdata, State.boxesDeclared_fbase, hcfg]
  rfl

end

/-! ## The loop over the window elements (R212 F6) -/

/-- Elements that are done are followed by the others. -/
theorem windowsAll_add {f : Micro → State → Flow} {k m : Nat} {s t : State} (h : windowsAll f k m s = .go t) (n : Nat) :
    windowsAll f k (m + n) s = windowsAll f (k + m) n t := by
  induction m generalizing k s with
  | zero =>
    cases h
    rw [Nat.zero_add, Nat.add_zero]
  | succ m ih =>
    rw [Nat.succ_add, windowsAll]
    rw [windowsAll] at h
    cases e : runList f [.winRead k, .winDispatch] s with
    | go u =>
      rw [e] at h
      have hrest := ih h
      rwa [Nat.add_assoc, Nat.add_comm 1 m] at hrest
    | raised u => rw [e] at h; cases h
    | blocked rest u => rw [e] at h; cases h
    | refuse r => rw [e] at h; cases h

/-- What has come about when `n` elements of the table have taken effect, counted from the state `s` in which the operation
was presented. -/
structure WindowsTaken (a : Agent) (s : State) (n : Nat) (t : State) : Prop where
  frame : HandshakeFrame a s t
  ctx : t.ctx = discovered s.cfg s.declared (s.windowTable s.fwrTable.1 n)
  events : t.events = s.events ++ s.handshakeEvents (s.windowTable s.fwrTable.1 n)
  winOff : (t.loc a).winOff = s.fwrTable.1
  halt : t.halt = s.halt
  bus : t.bus.length = s.bus.length + (s.cfg.fwr.size + n * s.cfg.fwr.elemSize)

section
variable {a : Agent} {s t : State} {n : Nat}

/-- The first `n` elements can be read, wherever the boxes are (R66, R282). -/
def State.TableReadable (s : State) (n : Nat) : Prop :=
  ∀ k < n, RegionRange s .dsp (s.fwrTable.1 + k * s.cfg.fwr.elemSize) s.cfg.fwr.elemSize ∧
    ∀ x : Ctx, ({ s with ctx := x }).readable .dsp (s.fwrTable.1 + k * s.cfg.fwr.elemSize) s.cfg.fwr.elemSize

/-- The state after the read of element `n`. -/
def State.windowRead (s : State) (a : Agent) (n : Nat) : State :=
  s.bulkOut a .dsp ((s.loc a).winOff + n * s.cfg.fwr.elemSize) (.buf 0) s.cfg.fwr.elemSize

theorem HandshakeFrame.windowRead : HandshakeFrame a s (s.windowRead a n) := .bulkOut ..

theorem HandshakeFrame.windowApplied (a : Agent) (s : State) (e : Word × Box) : HandshakeFrame a s (s.windowApplied e) :=
  .setBlock ..

/-- Element `n` read and dispatched: its arm is that of the table's element. -/
theorem WindowsTaken.dispatch (h : WindowsTaken a s n t) (d : Nat) (hw : s.cfg.wf = true) (hr : s.TableReadable (n + 1)) :
    runList (entire (d + 2) a) [.winRead n, .winDispatch] t =
      runList (entire (d + 2) a) [.winDispatch] (t.windowRead a n) ∧
    entire (d + 2) a .winDispatch (t.windowRead a n) =
      runList (entire (d + 1) a) (windowEffect (t.windowRead a n).cfg (s.window s.fwrTable.1 n).1
        (s.window s.fwrTable.1 n).2) (t.windowRead a n) := by
  obtain ⟨-, -, -, -, -, htype, hoff, hsize⟩ := FwrLayout.bounds (s.cfg.wf_fwr hw)
  obtain ⟨hb, hr⟩ := hr n (by omega)
  have hcfg := h.frame.cfg
  have hrt : t.readable .dsp (s.fwrTable.1 + n * s.cfg.fwr.elemSize) s.cfg.fwr.elemSize := h.frame.readable rfl (hr t.ctx)
  have hread : t.windowRead a n =
      t.bulkOut a .dsp (s.fwrTable.1 + n * s.cfg.fwr.elemSize) (.buf 0) s.cfg.fwr.elemSize := by
    rw [State.windowRead, h.winOff, hcfg]
  constructor
  · rw [runList_go (entire_winRead d a (by rw [h.winOff, hcfg]; simpa [regionFits, RegionRange] using hb))]
    rfl
  · have hbox := declaredBox_bulkOut (a := a) hrt hoff hsize
    have hword := State.readWord_bulkOut_buf a hrt htype
    rw [← hread, hcfg, h.frame.leWord, h.frame.leWord] at hbox
    rw [← hread, h.frame.leWord] at hword
    have hcfg' : (t.windowRead a n).cfg = s.cfg := by rw [hread, State.bulkOut_cfg, hcfg]
    rw [entire_winDispatch, hcfg', hbox, hword]
    rfl

/-- A recognised element takes effect, and the loop goes on (R213). -/
theorem WindowsTaken.step (h : WindowsTaken a s n t) (d : Nat) (hw : s.cfg.wf = true) (hr : s.TableReadable (n + 1))
    (ht : (s.window s.fwrTable.1 n).1 ∈ windowTypes s.cfg) :
    ∃ u, runList (entire (d + 2) a) [.winRead n, .winDispatch] t = .go u ∧ WindowsTaken a s (n + 1) u := by
  obtain ⟨hread, hdispatch⟩ := h.dispatch d hw hr
  have hframe : HandshakeFrame a s (t.windowRead a n) := h.frame.trans .windowRead
  refine ⟨(t.windowRead a n).windowApplied (s.window s.fwrTable.1 n), ?_, ?_⟩
  · rw [hread, runList_go (hdispatch.trans (runList_windowEffect _ a _ (hframe.cfg ▸ hw) (hframe.cfg ▸ ht))), runList_nil]
  · refine ⟨hframe.trans (.windowApplied ..), ?_, ?_, ?_, ?_, ?_⟩
    · rw [State.windowTable_succ, discovered_append, ← h.ctx, State.windowApplied, hframe.cfg]
      simp [State.windowRead]
    · rw [State.windowTable_succ, State.handshakeEvents_append, ← List.append_assoc, ← h.events, State.windowApplied,
        hframe.cfg]
      simp [State.windowRead]
    · rw [← h.winOff, ← State.bulkOut_buf_winOff t a .dsp ((t.loc a).winOff + n * t.cfg.fwr.elemSize) 0 t.cfg.fwr.elemSize]
      cases a <;> rfl
    · rw [← h.halt]
      simp [State.windowApplied, State.windowRead]
    · rw [State.windowApplied, State.windowRead, State.bulkOut_bus_length, h.bus, h.frame.cfg, Nat.succ_mul]
      omega

/-- A table of recognised elements is gone through to its end (R212 F6). -/
theorem WindowsTaken.all (h : WindowsTaken a s 0 t) (d : Nat) (hw : s.cfg.wf = true) (hr : s.TableReadable n)
    (ht : ∀ e ∈ s.windowTable s.fwrTable.1 n, e.1 ∈ windowTypes s.cfg) :
    ∃ u, windowsAll (entire (d + 2) a) 0 n t = .go u ∧ WindowsTaken a s n u := by
  induction n with
  | zero => exact ⟨t, rfl, h⟩
  | succ n ih =>
    rw [State.windowTable_succ] at ht
    obtain ⟨u, hu, htaken⟩ := ih (fun k hk => hr k (by omega)) (fun e he => ht e (List.mem_append_left _ he))
    obtain ⟨v, hv, hnext⟩ := htaken.step d hw hr (ht _ (by simp))
    refine ⟨v, ?_, hnext⟩
    rw [windowsAll_add hu 1, Nat.zero_add]
    simp only [windowsAll, hv]

/-- An unrecognised element ends the loop there (R213, R214). -/
theorem WindowsTaken.bad (h : WindowsTaken a s n t) (d : Nat) (hw : s.cfg.wf = true) (hr : s.TableReadable (n + 1)) {w : Word}
    (hword : w = (s.window s.fwrTable.1 n).1) (ht : w ∉ windowTypes s.cfg) (m : Nat) :
    windowsAll (entire (d + 2) a) n (m + 1) t =
      .raised (((t.windowRead a n).emit (.log .configBadWindow w)).raise a .configBadWindow w) := by
  subst hword
  obtain ⟨hread, hdispatch⟩ := h.dispatch d hw hr
  have hframe : HandshakeFrame a s (t.windowRead a n) := h.frame.trans .windowRead
  rw [windowsAll, hread, runList_raised (hdispatch.trans (runList_windowEffect_bad _ a _ (hframe.cfg ▸ ht)))]
  rfl

end

/-! ## The whole operation -/

section
variable {s u : State}

/-- The state in which the loop over the elements begins. -/
def State.loopEntered (s : State) : State := (s.start s.presenter .fwready []).tableFound s.presenter

/-- Before the first element. -/
theorem WindowsTaken.zero : WindowsTaken s.presenter s 0 s.loopEntered := by
  have hstart : HandshakeFrame s.presenter s (s.start s.presenter .fwready []) := .start ..
  have hbase : (s.start s.presenter .fwready []).fwrBase = s.fwrBase := by simp [State.fwrBase]
  refine ⟨hstart.trans .tableFound, ?_, ?_, ?_, ?_, ?_⟩
  · rw [State.loopEntered, State.tableFound_ctx, State.windowTable, List.range_zero, List.map_nil, discovered_nil]
    simp [State.declared, State.fwrBase]
  · rw [State.loopEntered, State.tableFound_events]
    simp [State.handshakeEvents, State.windowTable, windowDiag, hbase, hstart.bytesAt]
  · rw [State.loopEntered, State.tableFound_winOff, State.fwrTable, State.fwrTable, hbase, hstart.cfg]
  · rw [State.loopEntered, State.tableFound_halt, State.start_halt]
  · rw [State.loopEntered, State.tableFound_bus_length, State.start_bus, hstart.cfg, Nat.zero_mul, Nat.add_zero]

/-- F5, once the operation has been presented. -/
theorem entire_loopEntered : entire 8 s.presenter .fwrExtdata
    ((s.start s.presenter .fwready []).boxesDeclared s.presenter) =
      windowsAll (entire 6 s.presenter) 0 s.fwrTable.2 s.loopEntered := by
  have htable : (s.start s.presenter .fwready []).fwrTable = s.fwrTable := by simp [State.fwrTable, State.fwrBase]
  rw [entire_boxesDeclared_extdata, htable, State.loopEntered]

section
variable (hp : Presentable s .fwready) (hw : s.cfg.wf = true) (hdone : s.ctx.fwrDone = false)
  (hb : RegionRange s .dsp s.fwrBase s.cfg.fwr.size) (hr : s.readable .dsp s.fwrBase s.cfg.fwr.size)
include hw hdone hb hr

/-- F1 to F4, once the operation has been presented. -/
theorem runList_fwready (ms : List Micro) :
    runList (entire 8 s.presenter) (.fwrBegin :: .fwrRead :: .fwrOutbox :: .fwrInbox :: .fwrVersion :: ms)
      (s.start s.presenter .fwready []) =
    runList (entire 8 s.presenter) ms ((s.start s.presenter .fwready []).boxesDeclared s.presenter) := by
  have hbase : (s.start s.presenter .fwready []).fwrBase = s.fwrBase := by simp [State.fwrBase]
  exact runList_fwrBegin (by simpa using hdone) (by simpa using hw) (by simpa [hbase, RegionRange] using hb)
    (by simpa [hbase] using hr) ms

include hp

/-- `FWREADY` whose loop goes through, both boxes with a size (R212 F7 and F8). -/
theorem exec_fwready_ok (hloop : windowsAll (entire 6 s.presenter) 0 s.fwrTable.2 s.loopEntered = .go u)
    (hi : u.ctx.inbox.size ≠ 0) (ho : u.ctx.outbox.size ≠ 0) : exec .fwready s = .next (u.endOk s.presenter) := by
  refine exec_endOk (ms := [.fwrBegin, .fwrRead, .fwrOutbox, .fwrInbox, .fwrVersion, .fwrExtdata, .zeroBox]) hp rfl rfl rfl ?_
  rw [runList_fwready hw hdone hb hr, runList_go (entire_loopEntered.trans hloop), runList_go (entire_zeroBox 8 _ hi ho),
    runList_nil]

/-- `FWREADY` whose loop goes through, a box without a size (R212 F7, R234). -/
theorem exec_fwready_zero (hloop : windowsAll (entire 6 s.presenter) 0 s.fwrTable.2 s.loopEntered = .go u)
    (hz : u.ctx.inbox.size = 0 ∨ u.ctx.outbox.size = 0) : exec .fwready s =
      .next (((u.emit (.log .configZeroBox 0)).raise s.presenter .configZeroBox 0).finish s.presenter) := by
  rw [exec_eq_perform]
  refine perform_raised (portRefusal_eq_none hp rfl) ((runList_fwready hw hdone hb hr _).trans ?_)
  rw [runList_go (entire_loopEntered.trans hloop), runList_raised (entire_zeroBox_raise 7 _ hz), runFrom_raised_skip rfl]
  rfl

/-- `FWREADY` whose loop ends with an error (R214). -/
theorem exec_fwready_raised (hloop : windowsAll (entire 6 s.presenter) 0 s.fwrTable.2 s.loopEntered = .raised u) :
    exec .fwready s = .next (u.finish s.presenter) := by
  rw [exec_eq_perform]
  refine perform_raised (portRefusal_eq_none hp rfl) ((runList_fwready hw hdone hb hr _).trans ?_)
  rw [runList_raised (entire_loopEntered.trans hloop), runFrom_raised_skip rfl, runFrom_raised_skip rfl]
  rfl

end

end

/-- The record of an agent whose operation has ended with an error (R17, R230). -/
theorem ended_raise (s : State) (a : Agent) (k : Kind) (v : Word) : Ended a k v ((s.raise a k v).finish a) := by
  simp [Ended, State.finish_ex, State.raise_ex]

/-! ## The obligations -/

/-- Settles O41, by the loop over recognised elements and the two outcomes of F7. -/
theorem handshakeResult : Obligations.HandshakeResult := by
  intro s n els x hw hp hdone hn hreadable hels htypes hx
  obtain ⟨hb, hr, htable⟩ := hreadable
  subst hn hels hx
  obtain ⟨u, hloop, hu⟩ := WindowsTaken.zero.all 4 hw htable htypes
  by_cases hz : u.ctx.inbox.size = 0 ∨ u.ctx.outbox.size = 0
  · have hexec := exec_fwready_zero hp hw hdone hb hr hloop hz
    obtain ⟨hframe, -⟩ := exec_fwready_frame hexec
    obtain ⟨hresults, hkept⟩ := hframe.kept
    rw [hu.ctx] at hz
    refine ⟨_, hexec, by simpa using hu.ctx, hresults, fun hi ho => absurd hz (not_or.2 ⟨hi, ho⟩),
      fun _ => ⟨ended_raise .., ?_, ?_⟩, hkept⟩
    · simp [Kind.fatal]
    · simp [hu.events]
  · obtain ⟨hi, ho⟩ := not_or.1 hz
    have hexec := exec_fwready_ok hp hw hdone hb hr hloop hi ho
    obtain ⟨hframe, -⟩ := exec_fwready_frame hexec
    obtain ⟨hresults, hkept⟩ := hframe.kept
    rw [hu.ctx] at hz
    refine ⟨_, hexec, by simpa using hu.ctx, hresults, fun _ _ => ⟨ended_endOk .., ?_, ?_⟩, fun h => absurd h hz, hkept⟩
    · simp [hu.halt]
    · simp [hu.events]

/-- Settles O42, by the whole handshake (O41): the last element of a type is the one that counts. -/
theorem discoveryLaw : Obligations.DiscoveryLaw := by
  rintro s n els bi bo hw hp hdone hn hreadable hels htypes ⟨l, r, hsplit, hlast⟩
  obtain ⟨t, hexec, hctx, -, hok, hzero, -⟩ := handshakeResult s n els _ hw hp hdone hn hreadable hels htypes rfl
  have hin : (discovered s.cfg s.declared els).inbox = bi := by
    rw [hsplit]
    exact lastOf_eq hlast _
  rw [hin] at hok hzero
  refine ⟨t, hexec, fun hsize => ?_, fun hi ho hout => ?_⟩
  · obtain ⟨⟨-, -, -, hstatus, -⟩, hhalt, -⟩ := hzero (.inl hsize)
    exact ⟨hstatus, hhalt⟩
  · obtain ⟨l', r', hsplit', hlast'⟩ := hout
    have hbox : (discovered s.cfg s.declared els).outbox = bo := by
      rw [hsplit']
      exact lastOf_eq hlast' _
    obtain ⟨⟨-, -, -, hstatus, -⟩, -, -⟩ := hok hi (hbox ▸ ho)
    exact ⟨hstatus, hctx ▸ hin, hctx ▸ hbox⟩

/-- Settles O43, by the loop over the recognised elements before the unrecognised one. -/
theorem badWindow : Obligations.BadWindow := by
  intro s k els w hw hp hdone hk hreadable hels htypes hword hbad
  obtain ⟨hb, hr, htable⟩ := hreadable
  subst hels
  obtain ⟨u, hbefore, hu⟩ := WindowsTaken.zero.all 4 hw (fun j hj => htable j (by omega)) htypes
  obtain ⟨m, hm⟩ := Nat.exists_eq_add_of_lt hk
  have hloop : windowsAll (entire 6 s.presenter) 0 s.fwrTable.2 s.loopEntered =
      .raised (((u.windowRead s.presenter k).emit (.log .configBadWindow w)).raise s.presenter .configBadWindow w) := by
    rw [hm, Nat.add_assoc, windowsAll_add hbefore, Nat.zero_add, hu.bad 4 hw htable hword hbad]
  have hexec := exec_fwready_raised hp hw hdone hb hr hloop
  obtain ⟨hframe, -⟩ := exec_fwready_frame hexec
  obtain ⟨hresults, hkept⟩ := hframe.kept
  refine ⟨_, hexec, ended_raise .., ?_, ?_, ?_, ?_, hresults, hkept⟩
  · simp [Kind.fatal]
  · simpa [State.windowRead] using hu.ctx
  · simp [State.windowRead, hu.events]
  · rw [length_newAccesses]
    simp only [State.finish_bus, State.raise_bus, State.emit_bus, State.windowRead, State.bulkOut_bus_length, hu.bus,
      hu.frame.cfg, Nat.succ_mul]
    omega

end Sys2Proof.Machine
end

section
/-! PROOFS. The deferred stage with nothing to do (R246 (b)), and a consumer that presents an operation outside its set
(R190, R193, R252). -/

namespace Sys2Proof.Machine

/-! ## Neither flag set (R246 (b)) -/

section
variable {s : State}

/-- With neither flag set every conditional of the stage is passed by, so its two reads are left. -/
theorem exec_irqdefer_idle (hw : s.cfg.wf = true) (hp : Presentable s .irqdefer) (hr : s.registersPlain)
    (hdone : s.cmdoDone = false) (hidle : s.cmdiBusy = false) :
    exec .irqdefer s = .next (((s.deferEntered.cmdiTaken .worker).irqReturn irqHandled).endOk .worker) := by
  have hentered : StageFrame .worker [] s s.deferEntered := .deferEntered _
  obtain ⟨-, hpanic, hmessage⟩ := hentered.cmdi_holds List.not_mem_nil hw hr
  rw [hidle, Bool.false_and] at hpanic hmessage
  refine exec_irqdefer_eq hp (entire_given_false _ _ ((State.deferEntered_ready hw hr).trans hdone)) hentered.cfg ?_
  rw [runList_go (entire_given_false _ _ hpanic), runList_go (entire_given_false _ _ hmessage), runList_nil]

/-- Settles O36: no entry between the two reads and `HANDLED` is performed, and a read leaves the device as it was. -/
theorem nothingToDo : Obligations.NothingToDo := by
  intro s hw hp hr hdone hidle
  have hentered : StageFrame .worker [] s s.deferEntered := .deferEntered _
  have hframe : StageFrame .worker [] s (((s.deferEntered.cmdiTaken .worker).irqReturn irqHandled).endOk .worker) :=
    hentered.trans ((StageFrame.cmdiTaken _).trans ((StageFrame.irqReturn ..).trans (.endOk ..)))
  refine ⟨_, exec_irqdefer_idle hw hp hr hdone hidle, newAccesses_of_access ?_, by simp [irqHandled], by simp, by simp,
    ended_endOk .., hframe.results, hframe.sameButRegs, ⟨by simp, hframe.elapsed⟩, hframe.ctx, hframe.pwr, hframe.halt⟩
  rw [State.endOk_bus, State.irqReturn_bus, State.cmdiTaken_access, State.deferEntered_access, hentered.cfg]
  simp

end

/-! ## A consumer's call (R252) -/

/-- What each consumer presents at each of its next calls. -/
def State.calls (s : State) : Consumer → List (List Desc)
  | .reply => s.replyCalls
  | .message => s.msgCalls

/-- What is left of the sets of R190 and R193 when their operations are taken out. -/
theorem callPermits_reply {i : Instr} (hget : ∀ h n, i ≠ .getreply h n) (hread : ∀ r o h n, i ≠ .blkrd r o h n) :
    callPermits .reply i = false := by
  cases i with
  | getreply h n => exact absurd rfl (hget h n)
  | blkrd r o h n => exact absurd rfl (hread r o h n)
  | _ => rfl

theorem callPermits_message {i : Instr} (hbox : ∀ b h n, i ≠ .mboxrd b h n) (hread : ∀ r o h n, i ≠ .blkrd r o h n)
    (hready : i ≠ .fwready) (hdone : i ≠ .cmddone) : callPermits .message i = false := by
  cases i with
  | mboxrd b h n => exact absurd rfl (hbox b h n)
  | blkrd r o h n => exact absurd rfl (hread r o h n)
  | fwready => exact absurd rfl hready
  | cmddone => exact absurd rfl hdone
  | _ => rfl

section
variable {s : State} {a : Agent} {c : Consumer} {i : Instr} {ds : List Desc} {more : List (List Desc)} {r : Refusal}

/-- A call goes on to what its consumer presents next, or is refused where R190 does not allow that many. -/
theorem unit_call (h : s.calls c = ds :: more) :
    ∃ t, unit a 0 (.call c) s =
      if callAllowed c ds then .to (ds.map (Micro.present c)) t else .refuse .notPermitted := by
  cases c with
  | reply => exact ⟨{ s with replyCalls := more }, by simp [unit, callStep, show s.replyCalls = ds :: more from h]⟩
  | message => exact ⟨{ s with msgCalls := more }, by simp [unit, callStep, callAllowed, show s.msgCalls = ds :: more from h]⟩

/-- A descriptor outside its consumer's set is refused, before any of its listing. -/
theorem unit_present_outside (h : callPermits c i = false) :
    unit a 0 (.present c (encode i)) s = .refuse .notPermitted := by
  rw [unit, presentStep, decodeDesc_encode]
  simp [h]

/-- So is a call that begins with it, whatever follows and for whichever reason. -/
theorem entire_call_outside (d : Nat) (h : s.calls c = (encode i :: ds) :: more) (hi : callPermits c i = false) :
    entire (d + 1) a (.call c) s = .refuse .notPermitted := by
  obtain ⟨t, hcall⟩ := unit_call (a := a) h
  split at hcall
  · rw [entire_to d a hcall rfl, List.map_cons, runList_refuse (entire_refuse d a (unit_present_outside hi) rfl)]
  · exact entire_refuse _ a hcall rfl

/-! ## The stage is refused with its call -/

theorem runAgent_refuse {m : Micro} (h : entire 8 a m s = .refuse r) (ms : List Micro) :
    runAgent a (m :: ms) s = .refused r := by simp only [runAgent, runList_refuse h]

/-- The reply part, its consumer's call being refused after W3b. -/
theorem entire_replyPart_refused (d : Nat) (hready : Cond.replyReady.holds s.cfg (s.loc a) = true)
    (hb : RegionRange s .dsp s.ctx.outbox.off s.cfg.rhSize)
    (hcall : entire (d + 2) a (.call .reply) (s.replyEmitted a) = .refuse r) :
    entire (d + 3) a (.given .replyReady) s = .refuse r := by
  have hread := entire_hdrRead d a (s := s) (by simpa [regionFits, RegionRange] using hb)
  rw [entire_given_true _ a hready, guarded_replyReady]
  simp only [List.cons_append, List.nil_append]
  rw [runList_go hread, runList_go (entire_emitReply ..),
    show emitReplyStep a (s.bulkOut a .dsp s.ctx.outbox.off (.buf 0) s.cfg.rhSize) = s.replyEmitted a from rfl,
    runList_refuse hcall]

/-- The message part, its consumer's call being refused after the event. -/
theorem entire_messagePart_refused (d : Nat) (hm : Cond.message.holds s.cfg (s.loc a) = true)
    (hcall : entire d a (.call .message) (s.emit (.msg (s.loc a).cmdi)) = .refuse r) :
    entire (d + 1) a (.given .message) s = .refuse r := by
  rw [entire_given_true _ a hm, guarded, runList_go (entire_emitMsg ..), runList_refuse hcall]

/-- W3b comes before the lock is taken, so the reply consumer is called whoever owns the lock. -/
theorem exec_irqdefer_reply_outside (hw : s.cfg.wf = true) (hp : Presentable s .irqdefer) (hr : s.registersPlain)
    (hdone : s.cmdoDone = true) (hb : RegionRange s .dsp s.ctx.outbox.off s.cfg.rhSize)
    (hcalls : s.replyCalls = (encode i :: ds) :: more) (hi : callPermits .reply i = false) :
    exec .irqdefer s = .refused .notPermitted := by
  have hentered : StageFrame .worker [] s s.deferEntered := .deferEntered _
  obtain ⟨hreplies, -⟩ := (hentered.trans (.replyEmitted [])).calls
  have hcall : entire 7 .worker (.call .reply) (s.deferEntered.replyEmitted .worker) = .refuse .notPermitted :=
    entire_call_outside 6 (hreplies.trans hcalls) hi
  rw [exec_irqdefer_run hp,
    runAgent_refuse (entire_replyPart_refused 5 ((State.deferEntered_ready hw hr).trans hdone) ?_ hcall)]
  rw [RegionRange, hentered.cfg, hentered.ctx]
  exact hb

/-- With no reply ready the stage comes to the message consumer's call through W4 alone. -/
theorem exec_irqdefer_message_outside (hw : s.cfg.wf = true) (hp : Presentable s .irqdefer) (hr : s.registersPlain)
    (hdone : s.cmdoDone = false) (hbusy : s.cmdiBusy = true) (hword : isPanic s.cfg s.regs.cmdi = false)
    (hcalls : s.msgCalls = (encode i :: ds) :: more) (hi : callPermits .message i = false) :
    exec .irqdefer s = .refused .notPermitted := by
  have hentered : StageFrame .worker [] s s.deferEntered := .deferEntered _
  set u := s.deferEntered.cmdiTaken .worker with hu
  have hframe : StageFrame .worker [] s (u.emit (.msg (u.loc .worker).cmdi)) :=
    hentered.trans ((StageFrame.cmdiTaken _).trans (.emit ..))
  obtain ⟨-, hmessages⟩ := hframe.calls
  obtain ⟨-, hpanic, hmessage⟩ := hentered.cmdi_holds List.not_mem_nil hw hr
  rw [hbusy, hword] at hpanic hmessage
  have hcall : entire 7 .worker (.call .message) (u.emit (.msg (u.loc .worker).cmdi)) = .refuse .notPermitted :=
    entire_call_outside 6 (hmessages.trans hcalls) hi
  rw [exec_irqdefer_run hp, runAgent_go (entire_given_false _ _ ((State.deferEntered_ready hw hr).trans hdone)),
    runAgent_go (entire_read ..), ← hentered.cfg,
    show readStep .worker .dsp s.deferEntered.cfg.cmdiOff .cmdi s.deferEntered = u from rfl,
    runAgent_go (entire_given_false _ _ hpanic), runAgent_refuse (entire_messagePart_refused 7 hmessage hcall)]

end

/-- Settles O39: each part of the stage comes to its consumer's call, whose first descriptor is refused. -/
theorem consumerForbidden : Obligations.ConsumerForbidden := by
  intro s i ds more hw hp hr
  exact ⟨fun hdone hb hcalls hget hread =>
      exec_irqdefer_reply_outside hw hp hr hdone hb hcalls (callPermits_reply hget hread),
    fun hdone hbusy hword hcalls hbox hread hready hack =>
      exec_irqdefer_message_outside hw hp hr hdone hbusy hword hcalls (callPermits_message hbox hread hready hack)⟩

end Sys2Proof.Machine
end

section
/-! PROOFS. A move of the firmware made one access at a time, with nothing else between, and what `FW_REPLY` leaves behind
(R253, R291, R181). -/

namespace Sys2Proof.Machine

/-! ## The firmware does not look at the inputs still to come -/

section
variable (s : State) (p : List Input)

theorem State.store_setPort (r : Region) (off : Nat) (v : Word) :
    (s.setPort p).store r off v = (s.store r off v).setPort p := by
  have hreg (g : DevReg) (v : Word) : (s.setPort p).setReg g v = (s.setReg g v).setPort p := by cases g <;> rfl
  have hmem (m : Memory) : (s.setPort p).setMem r m = (s.setMem r m).setPort p := by cases r <;> rfl
  unfold State.store State.setStored
  simp only [State.setPort_isIsr, State.setPort_isPm, State.setPort_cfg, State.setPort_mem, hreg, hmem]
  split
  · rfl
  · split <;> rfl

theorem State.act_setPort (x : FwAct) : (s.setPort p).act x = (s.act x).setPort p := by
  cases x with
  | poke off b => exact s.store_setPort p ..
  | _ => rfl

theorem State.fwNext_setPort : (s.setPort p).fwNext = s.fwNext.setPort p := by
  have hfw : (s.setPort p).fw = s.fw := rfl
  have hrun : (s.setPort p).coreRunning = s.coreRunning := rfl
  unfold State.fwNext
  rw [hfw, hrun]
  split
  · rfl
  · next x xs _ =>
    split
    · exact State.act_setPort { s with fw := xs } p x
    · rfl

end

/-! ## Whole or access by access (log 16) -/

/-- Inputs that are each the firmware's next access. -/
theorem stepN_fwNext (n : Nat) {s : State} (hw : s.cfg.wf = true) (rest : List Input) :
    stepN n (s.setPort (List.replicate n (.env .next) ++ rest)) = .next ((s.fwRun n).setPort rest) := by
  induction n generalizing s with
  | zero => rfl
  | succ n ih =>
    set ps := List.replicate n (Input.env .next) ++ rest with hps
    have hcfg : s.fwNext.cfg = s.cfg := (DeviceOnly.fwNext s).kept.1
    have hnext : step (s.setPort (.env .next :: ps)) = .next (s.fwNext.setPort ps) := by
      rw [step_input (s := s.setPort (.env .next :: ps)) hw rfl, ← s.fwNext_setPort ps]
      rfl
    rw [List.replicate_succ, List.cons_append, ← hps, stepN_succ hnext, ih (hcfg ▸ hw)]
    rfl

/-- A move of the firmware that is begun, and then made one access at a time, ends where the move taken whole does. -/
theorem stepN_start {m : EnvMove} {s : State} (hw : s.cfg.wf = true) (hm : m.ofFirmware = true)
    (he : m.enabled s = true) :
    stepN ((m.acts s).length + 1)
      (s.setPort (.env (.start m) :: (List.replicate (m.acts s).length (.env .next) ++ s.port))) = .next (s.move m) := by
  set ps := List.replicate (m.acts s).length (Input.env .next) ++ s.port with hps
  have hmoved : s.move m = (s.fwBegin m).fwRun (m.acts s).length := by
    rw [State.move, if_pos he, EnvMove.effect_ofFirmware s hm]
  have hstart : step (s.setPort (.env (.start m) :: ps)) = .next ((s.fwBegin m).setPort ps) := by
    have he' : (EnvMove.start m).enabled (s.setPort ps) = true := by
      have hsame : m.enabled (s.setPort ps) = m.enabled s := by cases m <;> rfl
      simp only [EnvMove.enabled, hm, hsame, he, Bool.and_self]
    have hbegin : (s.setPort ps).fwBegin m = (s.fwBegin m).setPort ps := by
      cases m <;> rfl
    rw [step_input (s := s.setPort (.env (.start m) :: ps)) hw rfl, take,
      show (s.setPort (.env (.start m) :: ps)).setPort ps = s.setPort ps from rfl, State.move, if_pos he', ← hbegin]
    rfl
  rw [stepN_succ hstart, hps, stepN_fwNext (s := s.fwBegin m) _ hw, ← hmoved]
  exact congrArg Host.Outcome.next (congrArg (s.move m).setPort (s.move_port m).symm)

/-! ## `FW_REPLY` (R253, R291) -/

theorem length_pokes (x : Nat) (bs : List Byte) : (pokes x bs).length = bs.length := by
  induction bs generalizing x with
  | nil => rfl
  | cons b bs ih => rw [pokes, List.length_cons, List.length_cons, ih]

/-- Byte writes leave every byte outside their range. -/
theorem Memory.read_pokes_outside {m : Memory} {x y : Nat} {bs : List Byte} (h : ¬(x ≤ y ∧ y < x + bs.length)) :
    Memory.read (Memory.pokes m x bs) y = Memory.read m y := by
  rw [Memory.read_pokes]
  split
  · rw [List.getElem?_eq_none (by omega)]
    rfl
  · rfl

section
variable {s : State} {bs : List Byte} {w : Word}

theorem enabled_fwReply (hrun : s.coreRunning = true) (hfw : s.fw = []) (hbusy : s.cmdoBusy = true)
    (hfit : bs.length ≤ s.replyBox.size) (hregion : s.replyBox.off + s.replyBox.size ≤ s.cfg.dspSize) :
    (EnvMove.fwReply bs w).enabled s = true := by
  simp [EnvMove.enabled, State.fwMayMove, hrun, hfw, hbusy, bytesFit, hfit, hregion]

/-- The move leaves the bytes at the base of the reply's box, then writes `CMDO`. -/
theorem move_fwReply_eq (he : (EnvMove.fwReply bs w).enabled s = true) (hrun : s.coreRunning = true)
    (hfit : bs.length ≤ s.replyBox.size) (hb : s.boxClear s.replyBox) :
    s.move (.fwReply bs w) =
      ({ s.setMem .dsp (Memory.pokes s.dspMem s.replyBox.off bs) with fw := [] } : State).setReg .cmdo
        (flagged w s.cfg.cmdoBusy s.cfg.cmdoDone false true) := by
  have hbegin : s.fwBegin (.fwReply bs w) = { s with fw := (EnvMove.fwReply bs w).acts s } := by simp [State.fwBegin]
  rw [State.move, if_pos he, EnvMove.effect_ofFirmware s rfl, hbegin]
  exact State.fwRun_post hrun hb le_rfl (by omega) fun _ => rfl

/-- So the firmware has no access left to make, and every byte outside the reply is as before. -/
theorem move_fwReply_frame (he : (EnvMove.fwReply bs w).enabled s = true) (hrun : s.coreRunning = true)
    (hfit : bs.length ≤ s.replyBox.size) (hb : s.boxClear s.replyBox) :
    (s.move (.fwReply bs w)).fw = [] ∧
      ∀ r x, ¬(r = .dsp ∧ s.replyBox.off ≤ x ∧ x < s.replyBox.off + bs.length) →
        Memory.read ((s.move (.fwReply bs w)).mem r) x = Memory.read (s.mem r) x := by
  rw [move_fwReply_eq he hrun hfit hb]
  refine ⟨rfl, fun r x hx => ?_⟩
  cases r with
  | comp => rfl
  | dsp => exact Memory.read_pokes_outside fun h => hx ⟨rfl, h⟩

/-- DONE set and BUSY clear, the other bits as given. -/
theorem FirmwarePost.reply_flags {t : State} {x : Nat} (hw : s.cfg.wf = true)
    (h : FirmwarePost s t x bs .cmdo (flagged w s.cfg.cmdoBusy s.cfg.cmdoDone false true)) :
    t.cmdoBusy = false ∧ t.cmdoDone = true ∧
      t.regs.cmdo &&& ~~~(s.cfg.cmdoBusy ||| s.cfg.cmdoDone) = w &&& ~~~(s.cfg.cmdoBusy ||| s.cfg.cmdoDone) := by
  have hbits := s.cfg.wf_cmdo hw
  obtain ⟨hcfg, -⟩ := h.only.kept
  have hcmdo : t.regs.cmdo = flagged w s.cfg.cmdoBusy s.cfg.cmdoDone false true := by rw [h.regs]; rfl
  obtain ⟨hword, hbusy, hdone⟩ := flagged_reply hbits w
  obtain ⟨hmerged, -, -⟩ := flags_of_acked hbits w
  refine ⟨by rwa [State.cmdoBusy, hcmdo, hcfg], by rwa [State.cmdoDone, hcmdo, hcfg], ?_⟩
  rw [hcmdo, hword, ← hmerged, merged_outside]

end

/-- Settles O49: the bytes and the word are what the move's accesses write, and each access is one `next` of the firmware. -/
theorem firmwareReply : Obligations.FirmwareReply := by
  intro s bytes w rest hw hport hrun hfw hbusy hfit hregion hclear
  set u := s.setPort rest with hu
  have henabled : (EnvMove.fwReply bytes w).enabled u = true := enabled_fwReply hrun hfw hbusy hfit hregion
  have hpost : FirmwarePost u (u.move (.fwReply bytes w)) s.replyBox.off bytes .cmdo
      (flagged w s.cfg.cmdoBusy s.cfg.cmdoDone false true) := move_fwReply hrun hfw hbusy hfit hregion hclear
  obtain ⟨hidle, hframe⟩ := move_fwReply_frame henabled hrun hfit hclear
  obtain ⟨hdown, hdone, hword⟩ := hpost.reply_flags (s := u) hw
  have hsteps := stepN_start (s := u) hw rfl henabled
  have hlength : ((EnvMove.fwReply bytes w).acts u).length = bytes.length + 1 := by
    rw [EnvMove.acts, List.length_append, length_pokes, List.length_singleton]
  set t := u.move (.fwReply bytes w) with ht
  refine ⟨t, step_input hw hport, u.move_port _, hidle, hdown, hdone, hword, fun hmask => ?_, fun i hi => ?_, hframe,
    fun g hg => ?_, ?_, fun x => congrArg (Memory.read · x) (u.move_hm _), hpost.only.ex,
    ⟨u.move_events _, u.move_elapsed _⟩, ?_⟩
  · have himrh : t.imrhDone = false := by
      rw [State.imrhDone, hpost.regs, ht, State.move_cfg]
      exact hmask
    simp [State.irqLine, hdone, himrh]
  · have hbyte := hpost.bytes i hi
    rwa [List.getElem?_eq_getElem hi, Option.some.injEq] at hbyte
  · rw [hpost.regs, Regs.get_set, if_neg hg]
    rfl
  · exact ⟨u.move_ctx _, u.move_pwr _, u.move_deferPending _, u.move_lock _, u.move_halt _, u.move_irqRet _⟩
  · rw [hlength] at hsteps
    exact hsteps

end Sys2Proof.Machine
end

section
/-! PROOFS. Detach (R275, U10): what a detach finds in progress, and that a detached block's command ports are closed. -/

namespace Sys2Proof.Machine

/-- An agent is inside an operation exactly when one of the three is. -/
theorem State.exists_op_iff (s : State) :
    (∃ a, (s.ex a).op ≠ none) ↔ s.host.op ≠ none ∨ s.irq.op ≠ none ∨ s.worker.op ≠ none := by
  constructor
  · rintro ⟨a, ha⟩
    cases a with
    | host => exact .inl ha
    | irq => exact .inr (.inl ha)
    | worker => exact .inr (.inr ha)
  · rintro (h | h | h)
    · exact ⟨.host, h⟩
    · exact ⟨.irq, h⟩
    · exact ⟨.worker, h⟩

/-- What a detach asks of the state: deferred work pending, or an operation in progress (U10). -/
theorem State.detachBusy_iff (s : State) :
    (s.deferPending || s.host.op.isSome || s.irq.op.isSome || s.worker.op.isSome) = true ↔
      s.deferPending = true ∨ ∃ a, (s.ex a).op ≠ none := by
  simp only [s.exists_op_iff, Bool.or_eq_true, Option.isSome_iff_ne_none, or_assoc]

section
variable {s : State}

/-- U10: work still pending or an operation in progress refuses the detach. -/
theorem detachStep_of_busy (ha : s.attached = true) (h : s.deferPending = true ∨ ∃ a, (s.ex a).op ≠ none) :
    detachStep s = .refused .detachBusy := by
  rw [detachStep, ha, if_pos (s.detachBusy_iff.2 h)]
  rfl

/-- R275: else the block is detached and nothing else changes. -/
theorem detachStep_of_idle (ha : s.attached = true) (hp : s.deferPending = false) (ho : ∀ a, (s.ex a).op = none) :
    detachStep s = .next { s with attached := false } := by
  have hfree : ¬(s.deferPending = true ∨ ∃ a, (s.ex a).op ≠ none) := by simp [hp, ho]
  rw [detachStep, ha, if_neg (mt s.detachBusy_iff.1 hfree)]
  rfl

/-- A detached block's ports are closed, whichever the agent and whatever else holds (R275). -/
theorem portClosed_of_detached (ha : s.attached = false) (a : Agent) : portClosed s a = some .detached := by
  simp [portClosed, ha]

/-- A closed port refuses every descriptor, legal or not: it is not decoded. -/
theorem presentRun_of_portClosed {a : Agent} {r : Refusal} (h : portClosed s a = some r) (d : Desc) :
    presentRun a d s = .refused r := by
  simp only [presentRun, h]

/-- So a step of a detached block takes no descriptor. -/
theorem step_op_of_detached {a : Agent} {d : Desc} {rest : List Input} (hw : s.cfg.wf = true)
    (ha : s.attached = false) (hp : s.port = .op a d :: rest) : step s = .refused .detached := by
  rw [step_input hw hp]
  exact presentRun_of_portClosed (s := s.setPort rest) (portClosed_of_detached ha a) d

end

/-- Settles O52: a detach is one question of the state, and the block it leaves detached has every port closed. -/
theorem detachRule : Obligations.DetachRule := by
  intro s rest hw hport ha
  have hstep : step s = detachStep (s.setPort rest) := step_input hw hport
  exact ⟨fun hbusy => hstep.trans (detachStep_of_busy ha hbusy), fun hp ho =>
    ⟨hstep.trans (detachStep_of_idle ha hp ho), fun _ _ => step_op_of_detached hw rfl rfl⟩⟩

end Sys2Proof.Machine
end
